-- ==== Sys2Proof/Word.lean ====
section
/-! DEFINITION. The word types of the block (spec/00_scope.md R9) and nothing else: bits are numbered 31 (most
significant) down to 0 (least), every register and bus value is a 32-bit unsigned word unless a width is written. -/

namespace Sys2Proof

/-- A register or bus value, 32 bits (R9). -/
abbrev Word := BitVec 32

/-- One byte: of the source buffer, of the flash array, or on the SPI wire. -/
abbrev Byte := BitVec 8

/-- The number of a register on the indirect bus, `REG_BITS = 8` bits wide (R6, R51). -/
abbrev RegNum := BitVec 8

/-- A flash address inside a command word, `FLASH_ADDR_BITS = 24` bits wide (R6, R56). -/
abbrev FlashAddr := BitVec 24

end Sys2Proof
end

