-- ==== Sys2Proof/Config.lean ====
section
/-! DEFINITION. The configuration record `Cfg` of spec/00_scope.md R6, its constraints R7, the reference configuration R8,
and the free values (`draw(N)`, R10) the environment chooses under no law.

The OPEN parameters of R6 are arguments of the step relation (R42). Here they are the record `Cfg`, which a state carries
unchanged, so that a statement about every state is a statement about every configuration. -/

namespace Sys2Proof

/-- The four modes of SPICTL, in the source's order (R28, R72): idle (chip-select deasserted), enable (chip-select
asserted), transfer (clock out buffered data), update (latch new data into the output buffer). -/
inductive ModeName where
  | idle
  | enable
  | transfer
  | update
  deriving DecidableEq, Repr

/-- Which flash device is attached (R155): `contract` is any flash that meets the statements marked (contract), its open
points drawn from the free values; `reference` is the deterministic device marked (reference); `absent` is no device (R121
(c), R124 (b)): nothing acts on a frame, and every byte received is what the open line reads as, `some b` for a line that
always reads `b` (all ones in V-WF-3), `none` for a draw each time (notes/assumptions/21.md). -/
inductive FlashModel where
  | contract
  | reference
  | absent (line : Option Byte)
  deriving DecidableEq, Repr

/-- Whether a flash device is attached at all (R121 (c)). -/
def FlashModel.attached : FlashModel → Bool
  | .contract => true
  | .reference => true
  | .absent _ => false

/-- `SECTOR_BITS` (R6): an address is sector-aligned when its low 12 bits are zero. -/
abbrev sectorBits : Nat := 12

/-- The sector size, `2^SECTOR_BITS = 4096` bytes (R6, R164). -/
abbrev sectorSize : Nat := 2 ^ sectorBits

/-- `WIP_BIT` (R6, R83): the bit of the flash status byte that means write-in-progress. -/
abbrev wipBit : Nat := 0

/-- `CNT_BIAS` (R6, R73): a byte-count field value `c` makes a transfer move `c + 1` bytes. -/
abbrev cntBias : Nat := 1

/-- The size of the flash address space, `2^FLASH_ADDR_BITS` (R6, R50). -/
abbrev flashSpace : Nat := 2 ^ 24

/-- The configuration record `Cfg` (R6). The widths `REG_BITS`, `FLASH_ADDR_BITS` and the constants `SECTOR_BITS`,
`WIP_BIT`, `CNT_BIAS` are fixed above; every other parameter is a field. `flashModel` is this model's own: which of the
devices of R155, if any, is attached. -/
structure Cfg where
  regSpictl  : RegNum
  regSpitx   : RegNum
  regSpirx   : RegNum
  modeLsb    : Nat
  nbLsb      : Nat
  nbW        : Nat
  doneBit    : Nat
  msenBit    : Nat
  csLsb      : Nat
  csW        : Nat
  mIdle      : BitVec 2
  mEnable    : BitVec 2
  mTransfer  : BitVec 2
  mUpdate    : BitVec 2
  opRdsr     : Byte
  opWren     : Byte
  opSe       : Byte
  opPp       : Byte
  bufCap     : Nat
  ppWordWait : Bool
  pollLimit  : Option Nat
  flashPage  : Option Nat
  busyReads  : Nat
  flashModel : FlashModel
  deriving DecidableEq, Repr

/-- Two bit ranges `[l1 + w1 - 1 : l1]` and `[l2 + w2 - 1 : l2]` share no bit. -/
def bitsDisjoint (l1 w1 l2 w2 : Nat) : Bool :=
  decide (l1 + w1 ≤ l2) || decide (l2 + w2 ≤ l1)

/-- R7 (a): the three register numbers are pairwise distinct. -/
def Cfg.registersDistinct (c : Cfg) : Bool :=
  c.regSpictl != c.regSpitx && c.regSpictl != c.regSpirx && c.regSpitx != c.regSpirx

/-- R7 (b): MODE, NBYTES, DONE and MSEN are pairwise disjoint and lie inside bits 31 to 0. -/
def Cfg.fieldsFit (c : Cfg) : Bool :=
  decide (c.modeLsb + 2 ≤ 32) && decide (c.nbLsb + c.nbW ≤ 32) && decide (c.doneBit < 32) && decide (c.msenBit < 32)
    && bitsDisjoint c.modeLsb 2 c.nbLsb c.nbW && bitsDisjoint c.modeLsb 2 c.doneBit 1
    && bitsDisjoint c.modeLsb 2 c.msenBit 1 && bitsDisjoint c.nbLsb c.nbW c.doneBit 1
    && bitsDisjoint c.nbLsb c.nbW c.msenBit 1 && bitsDisjoint c.doneBit 1 c.msenBit 1

/-- R7 (c): the chip-select field lies in the word and is disjoint from MODE, NBYTES and DONE; it may contain MSEN. That it
lies in the word is DEDUCED (notes/assumptions/3.md). A field of no bits is disjoint from every other wherever it stands:
R6 gives CS_W no lower bound, so it is accepted, DEDUCED (notes/assumptions/3.md). -/
def Cfg.csFieldFits (c : Cfg) : Bool :=
  decide (c.csW = 0)
    || (decide (c.csLsb + c.csW ≤ 32) && bitsDisjoint c.csLsb c.csW c.modeLsb 2
      && bitsDisjoint c.csLsb c.csW c.nbLsb c.nbW && bitsDisjoint c.csLsb c.csW c.doneBit 1)

/-- R7 (d): `2^NB_W > 4 - CNT_BIAS`, with `NB_W >= 2` of R6. -/
def Cfg.countFieldWide (c : Cfg) : Bool :=
  decide (2 ≤ c.nbW) && decide (4 - cntBias < 2 ^ c.nbW)

/-- R7 (e): `BUF_CAP mod 4 = 0`; the bound `2^31` is DEDUCED from R13, by which `IDX` never wraps
(notes/assumptions/3.md). -/
def Cfg.bufferFits (c : Cfg) : Bool :=
  decide (c.bufCap % 4 = 0) && decide (c.bufCap < 2 ^ 31)

/-- R6, R72: the four mode codes are pairwise distinct. -/
def Cfg.codesDistinct (c : Cfg) : Bool :=
  c.mIdle != c.mEnable && c.mIdle != c.mTransfer && c.mIdle != c.mUpdate && c.mEnable != c.mTransfer
    && c.mEnable != c.mUpdate && c.mTransfer != c.mUpdate

/-- R75: the four flash opcodes are pairwise distinct. -/
def Cfg.opcodesDistinct (c : Cfg) : Bool :=
  c.opRdsr != c.opWren && c.opRdsr != c.opSe && c.opRdsr != c.opPp && c.opWren != c.opSe && c.opWren != c.opPp
    && c.opSe != c.opPp

/-- R114 (c): `POLL_LIMIT = some L` needs `L >= 1`; the bound `2^32` is DEDUCED from R211, by which a loop ends within `L`
polls: the 32-bit counters (R21) reach no larger bound (notes/assumptions/3.md). -/
def Cfg.pollLimitOk (c : Cfg) : Bool :=
  match c.pollLimit with
  | none => true
  | some l => decide (1 ≤ l) && decide (l < 2 ^ 32)

/-- R167: `FLASH_PAGE = some P` needs `P` a power of two; that a page lies in the 24-bit flash space is DEDUCED
(notes/assumptions/3.md). -/
def Cfg.flashPageOk (c : Cfg) : Bool :=
  match c.flashPage with
  | none => true
  | some p => (List.range 25).any (fun k => p == 2 ^ k)

/-- The constraints every rule assumes (R7, with R72, R75, R114 and R167). A configuration that breaks one is outside the
spec and the machine refuses to step (R7, U19). -/
def Cfg.wf (c : Cfg) : Bool :=
  c.registersDistinct && c.fieldsFit && c.csFieldFits && c.countFieldWide && c.bufferFits && c.codesDistinct
    && c.opcodesDistinct && c.pollLimitOk && c.flashPageOk

/-- The reference configuration `REFCFG` (R8), with the reference flash of R155. It is the spec's own illustration and not
the chip's register map. DESIGN CHOICE that the machine starts with it (notes/assumptions/1.md). -/
def refCfg : Cfg where
  regSpictl  := 0x10
  regSpitx   := 0x11
  regSpirx   := 0x12
  modeLsb    := 0
  nbLsb      := 2
  nbW        := 2
  doneBit    := 7
  msenBit    := 6
  csLsb      := 4
  csW        := 2
  mIdle      := 0
  mEnable    := 1
  mTransfer  := 2
  mUpdate    := 3
  opRdsr     := 0x05
  opWren     := 0x06
  opSe       := 0x20
  opPp       := 0x02
  bufCap     := 4096
  ppWordWait := false
  pollLimit  := none
  flashPage  := none
  busyReads  := 1
  flashModel := .reference

namespace Config

/-- `draw(32)` (R10): a free word, the `k`-th of a run. No body: nothing can be proved of its value
(notes/assumptions/6.md). -/
opaque drawWord : Nat → Word

/-- `draw(8)` (R10): a free byte, the `k`-th of a run; `draw(7)` is its bits 7 to 1 (notes/assumptions/6.md). -/
opaque drawByte : Nat → Byte

/-- `draw(1)` (R10): a free bit, the `k`-th of a run (notes/assumptions/6.md). -/
opaque drawBit : Nat → Bool

/-- The environment's `k`-th choice of whose step comes next, when it schedules freely (R12, R42, R152). No body
(notes/assumptions/2.md). -/
opaque drawChoice : Nat → Nat

end Config

end Sys2Proof
end

