-- ==== Sys2Proof/Syntax.lean ====
section
/-! DEFINITION. The syntax: one constructor for each row of spec/opcode_table.json, twelve sequencer commands (format
SEQ_CMD, spec/30_encoding.md R78) and four flash frames (format FLASH_FRAME, R82), and the pseudo-instructions and the
textual form of R84 and R85. -/

namespace Sys2Proof

/-- The instructions. The first twelve are the operations of the sequencer (R1, R78) with their operands as R79 reads them;
the last four are the frames the flash device acts on (R82), the bytes after the opcode as operands. -/
inductive Instr where
  /-- IRW `r, v` (R102): write an indirect register. -/
  | irw (r : RegNum) (v : Word)
  /-- IRR `r` (R103): read an indirect register into RESULT. -/
  | irr (r : RegNum)
  /-- MSPIEN (R110): enable master SPI, mode idle. -/
  | mspien
  /-- MSPIDIS (R111): disable master SPI, mode idle. -/
  | mspidis
  /-- SETMODE `m` (R112): set the mode field. The operand names a mode, not a code (R79). -/
  | setmode (m : ModeName)
  /-- SETCNT `c` (R113): set the byte-count field to `c`, then start a transfer. -/
  | setcnt (c : Word)
  /-- WAITDONE (R114): poll the done flag. -/
  | waitdone
  /-- RDSTATUS (R121): read the flash status byte. -/
  | rdstatus
  /-- SENDCMD `op` (R122): send a one-byte flash command. -/
  | sendcmd (op : Byte)
  /-- ERASE `addr` (R123): erase the sector containing `addr`. -/
  | erase (addr : Word)
  /-- WAITFLASH (R124): poll the flash status until not busy. -/
  | waitflash
  /-- PROGPAGE `addr, count` (R131): the page program; `count` is read signed (R130). -/
  | progpage (addr count : Word)
  /-- The status-read frame `OP_RDSR, rest` (R157, R162). -/
  | flashRdsr (rest : List Byte)
  /-- The write-enable frame `OP_WREN` (R159). -/
  | flashWren
  /-- The sector-erase frame `OP_SE, a2, a1, a0` (R160). -/
  | flashSe (addr : FlashAddr)
  /-- The page-program frame `OP_PP, a2, a1, a0, data` (R161). -/
  | flashPp (addr : FlashAddr) (data : List Byte)
  deriving DecidableEq, Repr

/-- The twelve operations of the sequencer, as against the four flash frames. -/
def Instr.isCommand : Instr → Bool
  | .irw _ _ => true
  | .irr _ => true
  | .mspien => true
  | .mspidis => true
  | .setmode _ => true
  | .setcnt _ => true
  | .waitdone => true
  | .rdstatus => true
  | .sendcmd _ => true
  | .erase _ => true
  | .waitflash => true
  | .progpage _ _ => true
  | .flashRdsr _ => false
  | .flashWren => false
  | .flashSe _ => false
  | .flashPp _ _ => false

/-- `CNTVAL(n) = n - CNT_BIAS`, defined for `n` in 1 to 4 (R73): the field value for a transfer of `n` bytes. What it is for any
other `n` (0 for 0, by truncated subtraction) is a DESIGN CHOICE that nothing uses (notes/assumptions/22.md). -/
def cntVal (n : Nat) : Word := BitVec.ofNat 32 (n - cntBias)

/-- The pseudo-instruction WREN: `SENDCMD OP_WREN` (R85, R126). -/
def Pseudo.wren (c : Cfg) : Instr := .sendcmd c.opWren

/-- The pseudo-instruction `SETXFER n`, for `n` in 1 to 4: `SETCNT CNTVAL(n)`. For any other `n` it stands for no instruction, since
R85 defines no expansion (notes/assumptions/22.md). -/
def Pseudo.setxfer (n : Nat) : Option Instr := if 1 ≤ n ∧ n ≤ 4 then some (.setcnt (cntVal n)) else none

/-- The pseudo-instruction POLL: a synonym of WAITFLASH (R85). -/
def Pseudo.poll : Instr := .waitflash

/-- The name of a mode in the textual form (R84). -/
def ModeName.text : ModeName → String
  | .idle => "idle"
  | .enable => "enable"
  | .transfer => "transfer"
  | .update => "update"

/-- A number of the textual form: C notation, hexadecimal (R84). -/
def hexText {w : Nat} (v : BitVec w) : String := "0x" ++ v.toHex

/-- The textual form of an operation (R84): mnemonic, then comma-separated operands. A flash frame is no line of a program;
its text is the table's mnemonic and its operand bytes. -/
def Instr.text : Instr → String
  | .irw r v => "IRW " ++ hexText r ++ ", " ++ hexText v
  | .irr r => "IRR " ++ hexText r
  | .mspien => "MSPIEN"
  | .mspidis => "MSPIDIS"
  | .setmode m => "SETMODE " ++ m.text
  | .setcnt c => "SETCNT " ++ hexText c
  | .waitdone => "WAITDONE"
  | .rdstatus => "RDSTATUS"
  | .sendcmd op => "SENDCMD " ++ hexText op
  | .erase a => "ERASE " ++ hexText a
  | .waitflash => "WAITFLASH"
  | .progpage a n => "PROGPAGE " ++ hexText a ++ ", " ++ toString n.toInt
  | .flashRdsr rest => "FLASH_RDSR " ++ String.intercalate " " (rest.map hexText)
  | .flashWren => "FLASH_WREN"
  | .flashSe a => "FLASH_SE " ++ hexText a
  | .flashPp a data => "FLASH_PP " ++ hexText a ++ ", " ++ String.intercalate " " (data.map hexText)

end Sys2Proof
end

