-- ==== Sys2Proof/WellFormed.lean ====
section
/-! DEFINITION. Which operands an instruction may carry (spec/30_encoding.md R79, spec/42_flash_primitives.md R120,
spec/43_page_program.md R132). The checks that the types of Syntax already make (a register number of 8 bits, a mode by
name, an opcode of 8 bits, a frame of the proper length) need no line here. -/

namespace Sys2Proof

/-- R120, R132 (a): `addr[31:24] == 0`, the address fits the three address bytes of a command word. -/
def addrFits (a : Word) : Bool := decide (a.toNat < flashSpace)

/-- R79: the operand of SETCNT is a value of the byte-count field, `0 <= c < 2^NB_W`. -/
def countFits (c : Cfg) (v : Word) : Bool := decide (v.toNat < 2 ^ c.nbW)

/-- R132 (b): `CNT <= BUF_CAP`, compared signed. -/
def byteCountFits (c : Cfg) (n : Word) : Bool := decide (n.toInt ≤ (c.bufCap : Int))

/-- The checks that no configuration enters: what the descriptor alone must satisfy (R79). -/
def Instr.fieldsOk : Instr → Bool
  | .irw _ _ => true
  | .irr _ => true
  | .mspien => true
  | .mspidis => true
  | .setmode _ => true
  | .setcnt _ => true
  | .waitdone => true
  | .rdstatus => true
  | .sendcmd _ => true
  | .erase a => addrFits a
  | .waitflash => true
  | .progpage a _ => addrFits a
  | .flashRdsr _ => true
  | .flashWren => true
  | .flashSe _ => true
  | .flashPp _ _ => true

/-- Well-formed under a configuration: what the host's issue of an operation is checked for (R79, R80, R132). -/
def Instr.wf (c : Cfg) : Instr → Bool
  | .irw _ _ => true
  | .irr _ => true
  | .mspien => true
  | .mspidis => true
  | .setmode _ => true
  | .setcnt v => countFits c v
  | .waitdone => true
  | .rdstatus => true
  | .sendcmd _ => true
  | .erase a => addrFits a
  | .waitflash => true
  | .progpage a n => addrFits a && byteCountFits c n
  | .flashRdsr _ => true
  | .flashWren => true
  | .flashSe _ => true
  | .flashPp _ _ => true

end Sys2Proof
end

