-- ==== Sys2Proof/Decode.lean ====
section
/-! DEFINITION. The decoders and the encoder of spec/30_encoding.md: the 68-bit command descriptor (R77 to R80), the frames
of the flash (R82, R157 to R162), and the opcode table (R86). -/

namespace Sys2Proof

/-- Why a descriptor or a frame is no instruction. -/
inductive Reject where
  /-- `op` is 0x0, 0xD, 0xE or 0xF (R80). -/
  | reservedOp
  /-- An operand breaks a "must be zero" of R79. -/
  | operandRange
  /-- A frame with no byte: chip-select asserted, then deasserted (R162). -/
  | emptyFrame
  /-- A frame that is none of the four commands in its proper length (R162). -/
  | undefinedFrame
  deriving DecidableEq, Repr

/-- The two forms an instruction is coded in: a command descriptor on the command port (R77), or a byte list on the SPI
wire between chip-select assert and deassert (R82). -/
inductive Code where
  | descriptor (d : BitVec 68)
  | frame (bytes : List Byte)
  deriving DecidableEq, Repr

/-! ### The command descriptor -/

/-- The field `op`, bits 67 to 64 (R77). -/
def descOp (d : BitVec 68) : BitVec 4 := d.extractLsb' 64 4

/-- The operand `a0`, bits 63 to 32 (R77). -/
def descA0 (d : BitVec 68) : Word := d.extractLsb' 32 32

/-- The operand `a1`, bits 31 to 0 (R77). -/
def descA1 (d : BitVec 68) : Word := d.extractLsb' 0 32

/-- The descriptor `op ++ a0 ++ a1` (R77). -/
def descriptor (op : BitVec 4) (a0 a1 : Word) : BitVec 68 := op ++ (a0 ++ a1)

/-- The mode a SETMODE operand names, by position in the source's list (R79). -/
def modeOfIndex (a0 : Word) : Option ModeName :=
  match a0.toNat with
  | 0 => some .idle
  | 1 => some .enable
  | 2 => some .transfer
  | 3 => some .update
  | _ => none

/-- The position of a mode in the source's list (R79), the operand of SETMODE. -/
def modeIndex : ModeName → Word
  | .idle => 0
  | .enable => 1
  | .transfer => 2
  | .update => 3

/-- An operand that must fit in 8 bits: `a0[31:8]` zero (R79). -/
def byteOperand (a0 : Word) : Option (BitVec 8) :=
  if a0.toNat < 256 then some (a0.setWidth 8) else none

/-- The decoder of the command port (R78, R79, R80). An operand field the operation does not use is ignored (R77). What
depends on the configuration (the range of SETCNT's operand, the count of PROGPAGE) is checked at acceptance, by
`Instr.wf`. -/
def decodeDescriptor (d : BitVec 68) : Except Reject Instr :=
  match (descOp d).toNat with
  | 0x1 =>
    match byteOperand (descA0 d) with
    | some r => .ok (.irw r (descA1 d))
    | none => .error .operandRange
  | 0x2 =>
    match byteOperand (descA0 d) with
    | some r => .ok (.irr r)
    | none => .error .operandRange
  | 0x3 => .ok .mspien
  | 0x4 => .ok .mspidis
  | 0x5 =>
    match modeOfIndex (descA0 d) with
    | some m => .ok (.setmode m)
    | none => .error .operandRange
  | 0x6 => .ok (.setcnt (descA0 d))
  | 0x7 => .ok .waitdone
  | 0x8 => .ok .rdstatus
  | 0x9 =>
    match byteOperand (descA0 d) with
    | some op => .ok (.sendcmd op)
    | none => .error .operandRange
  | 0xA => if addrFits (descA0 d) then .ok (.erase (descA0 d)) else .error .operandRange
  | 0xB => .ok .waitflash
  | 0xC => if addrFits (descA0 d) then .ok (.progpage (descA0 d) (descA1 d)) else .error .operandRange
  | _ => .error .reservedOp

/-! ### The flash frames -/

/-- A 24-bit flash address from its three bytes, most significant first (R82). -/
def addrOfBytes (a2 a1 a0 : Byte) : FlashAddr := a2 ++ a1 ++ a0

/-- The three bytes of a flash address, most significant first (R82). -/
def bytesOfAddr (a : FlashAddr) : List Byte := [a.extractLsb' 16 8, a.extractLsb' 8 8, a.extractLsb' 0 8]

/-- The operand bytes of a sector erase: exactly three (R160). -/
def decodeSe : List Byte → Except Reject Instr
  | [a2, a1, a0] => .ok (.flashSe (addrOfBytes a2 a1 a0))
  | _ => .error .undefinedFrame

/-- The operand bytes of a page program: three address bytes, then the data, which may be none (R161). -/
def decodePp : List Byte → Except Reject Instr
  | a2 :: a1 :: a0 :: data => .ok (.flashPp (addrOfBytes a2 a1 a0) data)
  | _ => .error .undefinedFrame

/-- The decoder of the flash (R157 to R162): which command a frame is. A status-read frame may have any length; a
write-enable has exactly one byte, a sector erase exactly four, a page program four or more. -/
def decodeFrame (c : Cfg) : List Byte → Except Reject Instr
  | [] => .error .emptyFrame
  | op :: rest =>
    if op = c.opRdsr then .ok (.flashRdsr rest)
    else if op = c.opWren then
      match rest with
      | [] => .ok .flashWren
      | _ :: _ => .error .undefinedFrame
    else if op = c.opSe then decodeSe rest
    else if op = c.opPp then decodePp rest
    else .error .undefinedFrame

/-- The decoder: total on any descriptor and any byte list, rejecting by name. -/
def decode (c : Cfg) : Code → Except Reject Instr
  | .descriptor d => decodeDescriptor d
  | .frame bytes => decodeFrame c bytes

/-! ### The encoder -/

/-- The code of an instruction, from the tables of R78, R79 and R82. Operand fields an operation does not use are written
zero. -/
def encode (c : Cfg) : Instr → Code
  | .irw r v => .descriptor (descriptor 0x1 (r.setWidth 32) v)
  | .irr r => .descriptor (descriptor 0x2 (r.setWidth 32) 0)
  | .mspien => .descriptor (descriptor 0x3 0 0)
  | .mspidis => .descriptor (descriptor 0x4 0 0)
  | .setmode m => .descriptor (descriptor 0x5 (modeIndex m) 0)
  | .setcnt v => .descriptor (descriptor 0x6 v 0)
  | .waitdone => .descriptor (descriptor 0x7 0 0)
  | .rdstatus => .descriptor (descriptor 0x8 0 0)
  | .sendcmd op => .descriptor (descriptor 0x9 (op.setWidth 32) 0)
  | .erase a => .descriptor (descriptor 0xA a 0)
  | .waitflash => .descriptor (descriptor 0xB 0 0)
  | .progpage a n => .descriptor (descriptor 0xC a n)
  | .flashRdsr rest => .frame (c.opRdsr :: rest)
  | .flashWren => .frame [c.opWren]
  | .flashSe a => .frame (c.opSe :: bytesOfAddr a)
  | .flashPp a data => .frame (c.opPp :: (bytesOfAddr a ++ data))

/-! ### The opcode table -/

/-- The two formats of R86. -/
inductive Format where
  | seqCmd
  | flashFrame
  deriving DecidableEq, Repr

/-- A row of spec/opcode_table.json: a code of the format is the row's when `code & mask == match` (R86). For a flash frame
the code is its first byte. -/
structure TableRow where
  mnemonic : String
  format   : Format
  pattern  : Nat
  mask     : Nat
  deriving DecidableEq, Repr

/-- The mask of a descriptor row: it fixes only `op` (R86). -/
abbrev opMask : Nat := 0xF0000000000000000

/-- spec/opcode_table.json, row by row. -/
def opcodeTable : List TableRow :=
  [ ⟨"IRW", .seqCmd, 0x10000000000000000, opMask⟩,
    ⟨"IRR", .seqCmd, 0x20000000000000000, opMask⟩,
    ⟨"MSPIEN", .seqCmd, 0x30000000000000000, opMask⟩,
    ⟨"MSPIDIS", .seqCmd, 0x40000000000000000, opMask⟩,
    ⟨"SETMODE", .seqCmd, 0x50000000000000000, opMask⟩,
    ⟨"SETCNT", .seqCmd, 0x60000000000000000, opMask⟩,
    ⟨"WAITDONE", .seqCmd, 0x70000000000000000, opMask⟩,
    ⟨"RDSTATUS", .seqCmd, 0x80000000000000000, opMask⟩,
    ⟨"SENDCMD", .seqCmd, 0x90000000000000000, opMask⟩,
    ⟨"ERASE", .seqCmd, 0xA0000000000000000, opMask⟩,
    ⟨"WAITFLASH", .seqCmd, 0xB0000000000000000, opMask⟩,
    ⟨"PROGPAGE", .seqCmd, 0xC0000000000000000, opMask⟩,
    ⟨"FLASH_RDSR", .flashFrame, 0x05, 0xFF⟩,
    ⟨"FLASH_WREN", .flashFrame, 0x06, 0xFF⟩,
    ⟨"FLASH_SE", .flashFrame, 0x20, 0xFF⟩,
    ⟨"FLASH_PP", .flashFrame, 0x02, 0xFF⟩ ]

/-- Whether a code belongs to a row (R86). -/
def TableRow.covers (r : TableRow) : Code → Bool
  | .descriptor d => r.format == .seqCmd && d.toNat &&& r.mask == r.pattern
  | .frame [] => false
  | .frame (b :: _) => r.format == .flashFrame && b.toNat &&& r.mask == r.pattern

/-- The row of the table an instruction belongs to, by its mnemonic. -/
def Instr.mnemonic : Instr → String
  | .irw _ _ => "IRW"
  | .irr _ => "IRR"
  | .mspien => "MSPIEN"
  | .mspidis => "MSPIDIS"
  | .setmode _ => "SETMODE"
  | .setcnt _ => "SETCNT"
  | .waitdone => "WAITDONE"
  | .rdstatus => "RDSTATUS"
  | .sendcmd _ => "SENDCMD"
  | .erase _ => "ERASE"
  | .waitflash => "WAITFLASH"
  | .progpage _ _ => "PROGPAGE"
  | .flashRdsr _ => "FLASH_RDSR"
  | .flashWren => "FLASH_WREN"
  | .flashSe _ => "FLASH_SE"
  | .flashPp _ _ => "FLASH_PP"

/-- The mnemonics of the rows that cover a code. -/
def rowsOf (code : Code) : List String := (opcodeTable.filter (·.covers code)).map (·.mnemonic)

/-! ### One word of the opcode table -/

/-- A frame of the command with first byte `op` whose operand bytes are all zero, in the length that the command has: the
eight bytes of a status read, one of a write-enable, four of a sector erase, and a page program with one data byte (R82). DESIGN CHOICE
(notes/assumptions/15.md). -/
def frameOfOpcode (c : Cfg) (op : Byte) : List Byte :=
  if op = c.opRdsr then op :: List.replicate 7 0
  else if op = c.opSe then op :: List.replicate 3 0
  else if op = c.opPp then op :: List.replicate 4 0
  else [op]

/-- The code a table word stands for: up to 8 bits are the first byte of a flash frame, more are a descriptor. -/
def codeOfTableWord (c : Cfg) (nbits w : Nat) : Code :=
  if nbits ≤ 8 then .frame (frameOfOpcode c (BitVec.ofNat 8 w)) else .descriptor (BitVec.ofNat 68 w)

/-- Whether a word fits the width of its format. -/
def tableWordFits (nbits w : Nat) : Bool :=
  if nbits ≤ 8 then decide (w < 256) else decide (w < 2 ^ 68)

/-- The instruction the decoders read from a word numbered as the table numbers it, under the decided opcode values. -/
def decodeTableWord (nbits w : Nat) : Option Instr :=
  if tableWordFits nbits w then
    match decode refCfg (codeOfTableWord refCfg nbits w) with
    | .ok i => some i
    | .error _ => none
  else none

end Sys2Proof
end

