-- ==== Sys2Proof/Machine/State.lean ====
section
/-! DEFINITION. The state of the machine: what each of the four agents of spec/10_state.md R20 owns, the environment's
choices, and the event history of R47; the reasons a step can stop; and the state after reset (R46, R190). -/

namespace Sys2Proof.Machine

open Sys2Proof

/-! ### The sequencer (agent SEQ) -/

/-- One frame of the control state: an operation with its operands, and the label of the micro-step to be taken (R23, R45).
Label `k` of RDSTATUS is the spec's `RS.k`, and so for every operation. -/
structure Frame where
  op    : Instr
  label : Nat
  deriving DecidableEq, Repr

/-- The state of the sequencer: the eight working registers (R21), RESULT (R22), the control state `pc` as a stack of
frames, top first, `[]` being Idle (R23), and BUSY and ERR (R25). -/
structure Sequencer where
  addr   : Word
  cnt    : Word
  idx    : Word
  word   : Word
  stat   : Byte
  tmp    : Word
  dpolls : Word
  fpolls : Word
  result : Word
  pc     : List Frame
  busy   : Bool
  err    : BitVec 2
  deriving DecidableEq, Repr

/-- Which poll loop reached its bound (R172). -/
inductive PollLoop where
  | waitdone
  | waitflash
  deriving DecidableEq, Repr

/-- The two error kinds (R172). -/
inductive ErrorKind where
  | deviceUnresponsive (loop : PollLoop)
  | transportFailure
  deriving DecidableEq, Repr

/-! ### The engine and the indirect registers (agent ENG) -/

/-- A transfer that has started and not completed: its byte count and the word sampled from SPITX (R37). -/
structure Flight where
  n  : Nat
  tx : Word
  deriving DecidableEq, Repr

/-- The intermediary chip: SPICTL with all its fields (R27 to R33), SPITX (R34), SPIRX (R35), every other indirect register
(R26) as a sparse list in canonical form, and the engine's hidden state `cs` and `fly` (R37). -/
structure Chip where
  spictl : Word
  spitx  : Word
  spirx  : Word
  other  : List (Nat × Word)
  cs     : Bool
  fly    : Option Flight
  deriving DecidableEq, Repr

/-! ### The flash device (agent FLASH) -/

/-- Bytes by address, in the canonical form of Ops (`Memory.wf`). -/
abbrev Memory := List Host.Cell

/-- The operation the flash is executing (R156). `scramble base size` is a program that ran past the end of a flash page:
under the contract the contents of that page afterwards are a draw (R167). DESIGN CHOICE (notes/assumptions/15.md). -/
inductive Pending where
  | none
  | erase (base : Nat)
  | program (targets : List Host.Cell)
  | scramble (base size : Nat)
  deriving DecidableEq, Repr

/-- The flash device (R156): the array FM, the busy bit, the write-enable latch, the bytes of the current frame, the
operation in progress, and the reference device's `busy_left` and `frame_status`. -/
structure Flash where
  fm          : Memory
  wip         : Bool
  wel         : Bool
  frame       : List Byte
  pending     : Pending
  busyLeft    : Nat
  frameStatus : Option Byte
  deriving DecidableEq, Repr

/-! ### The host (agent HOST) -/

/-- The host's moves that act on the machine (R45): fill bytes of BUF from an index on, or present a command descriptor.
Observing changes nothing and is `State.observe`. -/
inductive HostMove where
  | fill (at_ : Nat) (bytes : List Byte)
  | issue (d : BitVec 68)
  deriving DecidableEq, Repr

/-- The host: the source buffer BUF (R36), and the moves it is about to make, first move first. -/
structure HostSide where
  buf   : Memory
  moves : List HostMove
  deriving DecidableEq, Repr

/-! ### The environment's choices -/

/-- Whose step comes next (R12, R42). `seqFails` is a step of the sequencer whose bus transaction the transport lets fail
(R53); `reset` is the reset event (R190). -/
inductive Turn where
  | seq
  | seqFails
  | eng
  | flash
  | host
  | reset
  deriving DecidableEq, Repr

/-- What the schedule is once its list is used up: `prompt`, the engine as soon as a transfer is in flight (the premise
ENGINE_PROMPT, R152); `cycle`, a list of turns repeated for ever, under which an engine without a turn never completes (the
hang of R180); `free`, turns chosen under no law, `k` of them taken. DESIGN CHOICE (notes/assumptions/2.md). -/
inductive Later where
  | prompt
  | cycle (first : Turn) (rest : List Turn)
  | free (k : Nat)
  deriving DecidableEq, Repr

/-- The parameters of the step relation that are not hardware state (R42), as plain data: the schedule still to come and what
it is after that, the transport's outcome for the next transaction, and the number of draws taken. -/
structure Env where
  sched          : List Turn
  later          : Later
  transportFails : Bool
  draws          : Nat
  deriving DecidableEq, Repr

/-- The whole schedule: the turns still to come, and what follows them. -/
def Env.schedule (e : Env) : List Turn × Later := (e.sched, e.later)

/-! ### The event history -/

/-- The events of R47. `raised` is this model's addition: it keeps the `where` of an error (R172), for which the block has no
register. DESIGN CHOICE (notes/assumptions/12.md). -/
inductive Event where
  | busRead (r : RegNum) (v : Word)
  | busWrite (r : RegNum) (v : Word)
  | csAssert
  | csDeassert
  | xferStart (n : Nat) (tx : Word)
  | xferDone (out reply : List Byte)
  | frameEnd (bytes : List Byte)
  | flashDone (p : Pending)
  | raised (e : ErrorKind)
  deriving DecidableEq, Repr

/-! ### The whole state -/

/-- The state of the machine: the configuration (R6, R42, never changed by a step), the four agents (R20), the
environment's choices (R42), and the event history, newest first (R47). That the configuration is in it is a DESIGN CHOICE
(notes/assumptions/8.md). -/
structure State where
  cfg   : Cfg
  seq   : Sequencer
  chip  : Chip
  flash : Flash
  host  : HostSide
  env   : Env
  hist  : List Event
  deriving DecidableEq, Repr

/-- The model's fault outcomes (R10, R44, R171 (d)): a run in which the source gives the hardware no defined behaviour. Both
are safe: the machine stops where the hardware goes on. -/
inductive Fault where
  /-- A write to SPICTL, SPITX or SPIRX while a transfer is in flight (R150). Raised by `iwrite`. Safe. -/
  | engineOverlap
  /-- Under the contract, a frame the flash does not understand has ended (R162). Raised by `frameEnd`. Safe. -/
  | flashFrameUndefined
  deriving DecidableEq, Repr

/-- The model's refusals (R10, R44, R171 (e)): an input or a bus transaction the spec gives no meaning. All are safe: the
machine stops where the hardware goes on. -/
inductive Refusal where
  /-- An instruction without a meaning yet, rejected by name. No arm of this model uses it. Safe. -/
  | notModelled (mnemonic : String)
  /-- The configuration breaks a constraint (R7, U19). Raised by `step`. Safe. -/
  | badConfig
  /-- A descriptor with `op` 0x0, 0xD, 0xE or 0xF was issued (R80). Raised by the host's turn. Safe. -/
  | reservedOp
  /-- A descriptor with an operand outside its range was issued (R79, R80, R120). Raised by the host's turn and by
  acceptance. Safe. -/
  | operandRange
  /-- PROGPAGE was issued with a count above the buffer's capacity (R132 (b), U22). Raised by acceptance. Safe. -/
  | countExceedsBuffer
  /-- The buffer would be accessed at an index it does not have (R54). Raised by the host's fill and, in states no run
  reaches, by PROGPAGE. Safe. -/
  | bufferIndex
  /-- A write would store MSEN = 0 with MODE not idle (R151, U10). Raised by `iwrite`. Safe. -/
  | msenOff
  /-- A write that leaves the mode at transfer or update (R153, U11). Raised by `iwrite`. Safe. -/
  | modeRewritten
  /-- A mode change to transfer or update from idle, or with chip-select deasserted (R154, U11). Raised by `iwrite`. Safe. -/
  | notSelected
  /-- A transfer would start with a byte-count field above 3 (R145, U7). Raised by `iwrite`. Safe. -/
  | byteCount
  deriving DecidableEq, Repr

/-- What a step, a meaning and a shared operation answer. -/
abbrev Out := Host.Outcome State Fault Refusal

/-! ### Reset -/

/-- What an unlisted address of FM reads as: the erased byte. DESIGN CHOICE (notes/assumptions/4.md): R46 leaves FM
unspecified. -/
def unlistedFlash : Byte := 0xFF

/-- What an unlisted index of BUF reads as. DESIGN CHOICE (notes/assumptions/4.md): R46 leaves BUF unspecified. -/
def unlistedBuf : Byte := 0x00

/-- What an unlisted indirect register reads as. DESIGN CHOICE (notes/assumptions/5.md): R46 leaves it unspecified. -/
def unlistedReg : Word := 0

/-- The sequencer after reset (R46, R190): Idle, not busy, no error; the working registers and RESULT are unspecified there
and zero here, DESIGN CHOICE (notes/assumptions/5.md). -/
def Sequencer.reset : Sequencer where
  addr   := 0
  cnt    := 0
  idx    := 0
  word   := 0
  stat   := 0
  tmp    := 0
  dpolls := 0
  fpolls := 0
  result := 0
  pc     := []
  busy   := false
  err    := 0

/-- The machine right after reset (R46): the block's own control state as R190 says, the flash and the engine under the
launch premises L1 to L3 of R192, and every value R46 leaves unspecified at the value notes/assumptions/5.md names. No
schedule and no move of the host is given: they come from outside. -/
def State.reset : State where
  cfg := refCfg
  seq := Sequencer.reset
  chip :=
    { spictl := 0
      spitx  := 0
      spirx  := 0
      other  := []
      cs     := false
      fly    := none }
  flash :=
    { fm          := []
      wip         := false
      wel         := false
      frame       := []
      pending     := .none
      busyLeft    := 0
      frameStatus := none }
  host := { buf := [], moves := [] }
  env := { sched := [], later := .prompt, transportFails := false, draws := 0 }
  hist := []

end Sys2Proof.Machine
end

