-- ==== Sys2Proof/Machine/Operands.lean ====
section
/-! DEFINITION. The operand forms: bit fields of SPICTL (spec/00_scope.md R9, spec/30_encoding.md R71 to R73), the words
written to SPITX (R74, R76, R120), the byte order on the wire and into SPIRX (R58, R149), and flash addresses (R160, R167). -/

namespace Sys2Proof.Machine

open Sys2Proof

/-! ### Bit fields (R9) -/

/-- `2^w - 1`: the low `w` bits. -/
def lowMask (w : Nat) : Word := BitVec.ofNat 32 (2 ^ w - 1)

/-- `field(v, lsb, w) = (v >> lsb) & (2^w - 1)` (R9). -/
def field (v : Word) (lsb w : Nat) : Word := (v >>> lsb) &&& lowMask w

/-- `setfield(v, lsb, w, x) = (v & ~((2^w - 1) << lsb)) | ((x & (2^w - 1)) << lsb)` (R9). -/
def setfield (v : Word) (lsb w : Nat) (x : Word) : Word :=
  (v &&& ~~~(lowMask w <<< lsb)) ||| ((x &&& lowMask w) <<< lsb)

/-- `1 << b` (R9). -/
def bitMask (b : Nat) : Word := (1 : Word) <<< b

/-! ### Modes (R72) -/

end Sys2Proof.Machine

namespace Sys2Proof

/-- The `Cfg` code of a mode (R72). -/
def Cfg.code (c : Cfg) : ModeName → BitVec 2
  | .idle => c.mIdle
  | .enable => c.mEnable
  | .transfer => c.mTransfer
  | .update => c.mUpdate

/-- The mode a code stands for. All four 2-bit values are legal and none is reserved (R28; notes/assumptions/20.md). -/
def Cfg.modeOfCode (c : Cfg) (v : BitVec 2) : ModeName :=
  if v = c.mIdle then .idle
  else if v = c.mEnable then .enable
  else if v = c.mTransfer then .transfer
  else .update

end Sys2Proof

namespace Sys2Proof.Machine

open Sys2Proof

/-- The mode a SPICTL value holds (R28). -/
def modeOf (c : Cfg) (v : Word) : ModeName := c.modeOfCode ((field v c.modeLsb 2).setWidth 2)

/-- A SPICTL value with its mode field set (R110 to R112). -/
def withMode (c : Cfg) (v : Word) (m : ModeName) : Word := setfield v c.modeLsb 2 ((c.code m).setWidth 32)

/-- A SPICTL value with its byte-count field set (R113). -/
def withCount (c : Cfg) (v n : Word) : Word := setfield v c.nbLsb c.nbW n

/-- How many bytes a transfer moves that starts while SPICTL holds `v`: `NBYTES + CNT_BIAS` (R73). -/
def transferBytes (c : Cfg) (v : Word) : Nat := (field v c.nbLsb c.nbW).toNat + cntBias

/-- What an `IWrite` of `v` to SPICTL stores: every bit of `v` but DONE, which keeps the engine's value (R30, R142). -/
def keepDone (c : Cfg) (old v : Word) : Word := (v &&& ~~~(bitMask c.doneBit)) ||| (old &&& bitMask c.doneBit)

/-! ### Words written to SPITX -/

/-- `CMDWORD(op, addr) = (zext_32(op) << 24) | zext_32(addr[23:0])` (R74, R120). -/
def cmdWord (op : Byte) (addr : Word) : Word := (op.setWidth 32 <<< 24) ||| (addr.extractLsb' 0 24).setWidth 32

/-- `CMDWORD1(op) = zext_32(op) << 24` (R74, R120). -/
def cmdWord1 (op : Byte) : Word := op.setWidth 32 <<< 24

/-- A data word: four buffer bytes packed big-endian (R57, R76, R131). -/
def packWord (b0 b1 b2 b3 : Byte) : Word :=
  (b0.setWidth 32 <<< 24) ||| (b1.setWidth 32 <<< 16) ||| (b2.setWidth 32 <<< 8) ||| b3.setWidth 32

/-! ### Bytes on the wire -/

/-- The bytes a transfer of `n` bytes sends: the `n` most significant of the sampled word, most significant first (R58,
R149). -/
def wireBytes (n : Nat) (tx : Word) : List Byte :=
  [tx.extractLsb' 24 8, tx.extractLsb' 16 8, tx.extractLsb' 8 8, tx.extractLsb' 0 8].take n

/-- Received bytes enter SPIRX at the low end and push the old contents up, the first received highest (R148 (2), R149). -/
def shiftIn (rx : Word) (received : List Byte) : Word :=
  received.foldl (fun v b => (v <<< 8) ||| b.setWidth 32) rx

/-! ### Flash addresses -/

/-- The base of the sector an address lies in, `addr & ~0xFFF` (R56, R160). -/
def sectorBase (a : FlashAddr) : Nat := (a &&& ~~~(0xFFF : FlashAddr)).toNat

/-- With `FLASH_PAGE = none`, data byte `i` of a program at `a` targets `(a + i) mod 2^24` (R167). -/
def flatTargets (a : Nat) : List Byte → List Host.Cell
  | [] => []
  | d :: rest => (a % flashSpace, d) :: flatTargets (a + 1) rest

/-- The reference flash's page buffer of `p` bytes (R167): all `0xFF`, then byte `i` overwrites entry `(a + i) mod p`. -/
def pageBuffer (p : Nat) : Nat → List Byte → List Byte → List Byte
  | _, [], page => page
  | a, d :: rest, page => pageBuffer p (a + 1) rest (page.set (a % p) d)

/-- The page an address lies in starts at `a & ~(p - 1)`, `p` a power of two (R167). -/
def pageBase (p a : Nat) : Nat := a - a % p

/-- The operation a page program starts: data byte addresses by R167. Where no device is attached none is ever started. -/
def programOf (c : Cfg) (addr : FlashAddr) (data : List Byte) : Pending :=
  match c.flashPage with
  | none => .program (flatTargets addr.toNat data)
  | some p =>
    match c.flashModel with
    | .contract | .absent _ =>
      if addr.toNat % p + data.length ≤ p then .program (flatTargets addr.toNat data)
      else .scramble (pageBase p addr.toNat) p
    | .reference =>
      .program (flatTargets (pageBase p addr.toNat) (pageBuffer p addr.toNat data (List.replicate p 0xFF)))

end Sys2Proof.Machine
end

