-- ==== Sys2Proof/Machine/Flags.lean ====
section
/-! DEFINITION. The flags: the block has no condition codes (spec/10_state.md R41); these are the single bits its loops and
branches test, one definition each (R13, R24 (c), R31, R40). -/

namespace Sys2Proof.Machine

open Sys2Proof

/-- `SPICTL.DONE`, the flag WAITDONE tests (R30, R41 (a)). -/
def doneFlag (c : Cfg) (v : Word) : Bool := v.getLsbD c.doneBit

/-- `SPICTL.MSEN`: master SPI enabled (R31). -/
def msenFlag (c : Cfg) (v : Word) : Bool := v.getLsbD c.msenBit

/-- `STAT[WIP_BIT]`, the flag WAITFLASH tests (R41 (b), R83); bits 7 to 1 are ignored. -/
def wipFlag (stat : Byte) : Bool := stat.getLsbD wipBit

/-- The sector-alignment test of PROGPAGE, `ADDR[SECTOR_BITS-1:0] == 0` (R13 (b), R133). -/
def sectorAligned (addr : Word) : Bool := addr.extractLsb' 0 sectorBits == 0

/-- The chunk-loop test of PROGPAGE, `IDX < CNT`, signed (R13 (d), R135). -/
def moreChunks (idx cnt : Word) : Bool := decide (idx.toInt < cnt.toInt)

/-- Whether a poll loop has used up its bound, `POLL_LIMIT == some(L) and polls >= L` (R114, R124). A bound the
32-bit counter cannot reach is refused as a configuration (notes/assumptions/3.md). -/
def pollsExhausted (c : Cfg) (polls : Word) : Bool :=
  match c.pollLimit with
  | none => false
  | some l => decide (l ≤ polls.toNat)

/-- `led_available = (SPICTL.MSEN == 0)`, a derived bit no rule reads (R40, R202). -/
def ledAvailable (c : Cfg) (spictl : Word) : Bool := !msenFlag c spictl

/-- The status byte of the reference flash, `zext_8(wip)` (R158). -/
def referenceStatus (wip : Bool) : Byte := if wip then 1 else 0

/-- A status byte under the contract: bit 0 is `wip`, bits 7 to 1 are those of the draw (R158). -/
def contractStatus (wip : Bool) (drawn : Byte) : Byte := (drawn &&& 0xFE) ||| referenceStatus wip

end Sys2Proof.Machine
end

