-- ==== Sys2Proof/Machine/Ops.lean ====
section
/-! DEFINITION. The named operations every agent shares: byte and register stores in canonical form, free values, the event
history, the raising of an error (spec/60_exceptions.md R174) and its clearing (R175), and the moves of the control state
`pc` that need no knowledge of the operations (spec/10_state.md R24). -/

namespace Sys2Proof.Machine

open Sys2Proof

/-! ### Stores: a list of (address, value) in one canonical form

Addresses strictly rising, and no entry equal to what an unlisted address reads as (`d`): equal stores are equal lists. -/

/-- The value at an address; an unlisted address reads as `d`. -/
def Memory.read {α : Type} (d : α) : List (Nat × α) → Nat → α
  | [], _ => d
  | (k, v) :: m, a => if a = k then v else Memory.read d m a

/-- The entry an address gets in front of `m`: none when the value is what an unlisted address reads as. -/
def Memory.entry {α : Type} [DecidableEq α] (d : α) (a : Nat) (v : α) (m : List (Nat × α)) : List (Nat × α) :=
  if v = d then m else (a, v) :: m

/-- Write one address. -/
def Memory.write {α : Type} [DecidableEq α] (d : α) : List (Nat × α) → Nat → α → List (Nat × α)
  | [], a, v => Memory.entry d a v []
  | (k, w) :: m, a, v =>
    if a < k then Memory.entry d a v ((k, w) :: m)
    else if a = k then Memory.entry d a v m
    else (k, w) :: Memory.write d m a v

/-- The canonical form. -/
def Memory.wf {α : Type} [DecidableEq α] (d : α) : List (Nat × α) → Bool
  | [] => true
  | (k, v) :: m => decide (v ≠ d) && m.all (fun c => decide (k < c.1)) && Memory.wf d m

/-- Give every address of `[base, base + size)` the value of an unlisted address. -/
def Memory.clear {α : Type} (base size : Nat) (m : List (Nat × α)) : List (Nat × α) :=
  m.filter (fun c => decide (c.1 < base) || decide (base + size ≤ c.1))

/-- Write consecutive addresses from `a` on. -/
def Memory.writeAll {α : Type} [DecidableEq α] (d : α) (m : List (Nat × α)) (a : Nat) : List α → List (Nat × α)
  | [] => m
  | v :: vs => Memory.writeAll d (Memory.write d m a v) (a + 1) vs

/-- One byte of the source buffer, `BUF[i]` (R54). -/
def bufByte (s : State) (i : Nat) : Byte := Memory.read unlistedBuf s.host.buf i

/-- One byte of the flash array, `FM[a]` (R156). -/
def flashByte (s : State) (a : Nat) : Byte := Memory.read unlistedFlash s.flash.fm a

/-! ### Outcomes -/

/-- Go on from a next state; a fault or a refusal stops. -/
def andThen (o : Out) (k : State → Out) : Out :=
  match o with
  | .next s => k s
  | .fault f => .fault f
  | .refused r => .refused r

/-! ### Free values (R10) -/

/-- `draw(32)`, and the state with one more draw taken. -/
def drawWord (s : State) : Word × State :=
  (Config.drawWord s.env.draws, { s with env := { s.env with draws := s.env.draws + 1 } })

/-- `draw(8)`, and the state with one more draw taken. -/
def drawByte (s : State) : Byte × State :=
  (Config.drawByte s.env.draws, { s with env := { s.env with draws := s.env.draws + 1 } })

/-- `draw(1)`, and the state with one more draw taken. -/
def drawBit (s : State) : Bool × State :=
  (Config.drawBit s.env.draws, { s with env := { s.env with draws := s.env.draws + 1 } })

/-! ### The event history (R47) -/

/-- Record an event. -/
def record (e : Event) (s : State) : State := { s with hist := e :: s.hist }

/-! ### Errors (R172 to R176) -/

/-- The code of an error in ERR (R25, R172). -/
def ErrorKind.code : ErrorKind → BitVec 2
  | .deviceUnresponsive _ => 1
  | .transportFailure => 2

/-- Error entry, `raise E` (R174): in one step every frame of `pc` is dropped, ERR takes the code and BUSY falls. Nothing
else changes: no clean-up transaction, the working registers and RESULT keep what they held, the chip and the flash stay as
they are. There is no vector and nothing is saved. -/
def raiseError (e : ErrorKind) (s : State) : State :=
  record (.raised e) { s with seq := { s.seq with pc := [], err := e.code, busy := false } }

/-- Error return (R175): there is no operation for it; the acceptance of the next command sets ERR to 0. -/
def clearError (s : State) : State := { s with seq := { s.seq with err := 0 } }

/-! ### The control state (R23, R24) -/

/-- Replace `pc`. -/
def setPc (pc : List Frame) (s : State) : State := { s with seq := { s.seq with pc := pc } }

/-- The top frame moves to its next label (R24 (a)). -/
def nextLabel (s : State) : State :=
  match s.seq.pc with
  | [] => s
  | f :: rest => setPc ({ f with label := f.label + 1 } :: rest) s

/-- The top frame moves to a label of its operation. -/
def gotoLabel (l : Nat) (s : State) : State :=
  match s.seq.pc with
  | [] => s
  | f :: rest => setPc ({ f with label := l } :: rest) s

/-- `call OP(args)` pushes `(OP, first label of OP)` (R24 (b)). -/
def pushFrame (op : Instr) (s : State) : State := setPc (⟨op, 0⟩ :: s.seq.pc) s

/-- The operation issued by the host: the bottom frame of `pc` (R23, R45). -/
def topLevelOp (s : State) : Option Instr := s.seq.pc.getLast?.map (·.op)

/-- The bottom frame pops: `pc <- Idle` and `BUSY <- 0` in the same step (R24 (d)). -/
def finish (s : State) : State := { s with seq := { s.seq with pc := [], busy := false } }

/-- What the host can observe (R45 (c)): BUSY, ERR and RESULT. -/
def State.observe (s : State) : Bool × BitVec 2 × Word := (s.seq.busy, s.seq.err, s.seq.result)

end Sys2Proof.Machine
end

