-- ==== Sys2Proof/Machine/FlashDevice.lean ====
section
/-! DEFINITION. The flash device (spec/44_engine_and_flash.md R155 to R168): receiving a byte, finishing an operation, and
what each of the four frames does when chip-select is deasserted. Every rule here is an environment rule (file 44): the
statements marked (contract) hold of both devices, those marked (reference) of the reference flash. -/

namespace Sys2Proof.Machine

open Sys2Proof

/-! ### Finishing an operation (R164 to R166) -/

/-- Program one byte: `FM[a] <- FM[a] & d` (R165). -/
def programByte (fm : Memory) (target : Host.Cell) : Memory :=
  Memory.write unlistedFlash fm target.1 (Memory.read unlistedFlash fm target.1 &&& target.2)

/-- Erase: every byte of the sector at `base` becomes `0xFF`, no other changes (R164). `0xFF` is what an unlisted address of
the array reads as, so erasing a sector removes its entries. -/
def eraseSector (base : Nat) (fm : Memory) : Memory := Memory.clear base sectorSize fm

/-- Under the contract a program that overran its page leaves the page at drawn values (R167; notes/assumptions/19.md). -/
def scramblePage (draws base : Nat) (fm : Memory) : Nat → Memory
  | 0 => fm
  | n + 1 => scramblePage (draws + 1) (base + 1) (Memory.write unlistedFlash fm base (Config.drawByte draws)) n

/-- The array after the operation in progress (R164, R165, R167). -/
def applyPending (draws : Nat) (fm : Memory) : Pending → Memory
  | .none => fm
  | .erase base => eraseSector base fm
  | .program targets => targets.foldl programByte fm
  | .scramble base size => scramblePage draws base fm size

/-- How many draws an operation takes when it finishes (R167). -/
def pendingDraws : Pending → Nat
  | .none => 0
  | .erase _ => 0
  | .program _ => 0
  | .scramble _ size => size

/-- The operation finishes: its effect is applied, `pending <- none`, `wip <- 0` (R166). -/
def finishOperation (s : State) : State :=
  record (.flashDone s.flash.pending)
    { s with
      flash :=
        { s.flash with
          fm := applyPending s.env.draws s.flash.fm s.flash.pending
          pending := .none
          wip := false }
      env := { s.env with draws := s.env.draws + pendingDraws s.flash.pending } }

/-- The step of the flash's own (R166): under the contract it may be taken at any moment while `wip = 1`; the reference flash
finishes only when a status frame samples; an absent one never steps. -/
def flashFinishes (s : State) : State :=
  match s.cfg.flashModel with
  | .contract => if s.flash.wip then finishOperation s else s
  | .reference => s
  | .absent _ => s

/-! ### Receiving a byte (R157, R158) -/

/-- The reference flash's busy countdown (R166), applied when a status frame samples: with `busy_left = 0` the operation
finishes, else `busy_left` falls by one. -/
def busyCountdown (s : State) : State :=
  if s.flash.wip then
    if s.flash.busyLeft = 0 then finishOperation s
    else { s with flash := { s.flash with busyLeft := s.flash.busyLeft - 1 } }
  else s

/-- The status byte of the reference flash: sampled once a frame, at its second byte, and repeated (R158). -/
def referenceReply (s : State) : Byte × State :=
  match s.flash.frameStatus with
  | some b => (b, s)
  | none =>
    let t := busyCountdown s
    (referenceStatus t.flash.wip, { t with flash := { t.flash with frameStatus := some (referenceStatus t.flash.wip) } })

/-- What is received where no device drives the line (R121 (c), R124 (b)): what the line always reads as, else a draw. -/
def lineReply (line : Option Byte) (s : State) : Byte × State :=
  match line with
  | some b => (b, s)
  | none => drawByte s

/-- The reply to a byte of a status frame after its first (R157, R158). -/
def statusReply (s : State) : Byte × State :=
  match s.cfg.flashModel with
  | .contract =>
    let d := drawByte s
    (contractStatus s.flash.wip d.1, d.2)
  | .reference => referenceReply s
  | .absent line => lineReply line s

/-- The reply to any other byte: `draw(8)`, under the reference `0xFF` (R157). -/
def idleReply (s : State) : Byte × State :=
  match s.cfg.flashModel with
  | .contract => drawByte s
  | .reference => (0xFF, s)
  | .absent line => lineReply line s

/-- Whether the next byte of the frame is answered with a status byte: the frame began with `OP_RDSR` (R157). -/
def answersStatus (s : State) : Bool :=
  match s.flash.frame with
  | [] => false
  | op :: _ => op == s.cfg.opRdsr

/-- The flash receives one byte of the current frame and replies (R157). Where no device is attached the frame is what went
over the wire and nothing reads it. -/
def receiveByte (b : Byte) (s : State) : Byte × State :=
  let t := { s with flash := { s.flash with frame := s.flash.frame ++ [b] } }
  if answersStatus s then statusReply t else idleReply t

/-- The bytes of one transfer, exchanged in order (R148 (1)): the replies, and the state after. -/
def exchange : List Byte → State → List Byte × State
  | [], s => ([], s)
  | b :: rest, s =>
    let r := receiveByte b s
    let more := exchange rest r.2
    (r.1 :: more.1, more.2)

/-! ### Chip-select (R156) -/

/-- Chip-select asserted: a new, empty frame begins, and the reference flash will sample its status anew (R156). The
bytes of the frame before stay until here (notes/assumptions/18.md). -/
def beginFrame (s : State) : State := { s with flash := { s.flash with frame := [], frameStatus := none } }

/-- An erase or program is accepted: `wel <- 0`, `wip <- 1`, the operation is recorded, and the reference flash sets
`busy_left <- BUSY_READS` (R160, R161). The array does not change yet. -/
def startOperation (p : Pending) (s : State) : State :=
  { s with
    flash :=
      { s.flash with
        wel := false
        wip := true
        pending := p
        busyLeft :=
          match s.cfg.flashModel with
          | .contract => s.flash.busyLeft
          | .reference => s.cfg.busyReads
          | .absent _ => s.flash.busyLeft } }

/-- Whether a command frame that ends now is taken: a device is attached (R121 (c)) and it is not busy (R163). -/
def takesCommand (s : State) : Bool := s.cfg.flashModel.attached && !s.flash.wip

/-- A page-program frame with no data byte ends, the flash write-enabled (R161): under the contract the write-enable latch
becomes `draw(1)`, under the reference nothing changes. -/
def emptyProgram (s : State) : State :=
  match s.cfg.flashModel with
  | .contract =>
    let d := drawBit s
    { d.2 with flash := { d.2.flash with wel := d.1 } }
  | .reference => s
  | .absent _ => s

/-! ### The meanings of the four frames -/

/-- FLASH_RDSR: a status-read frame has no effect at its end, busy or not (R162). Its replies were given byte by byte
(R157). -/
def execFlashRdsr (_rest : List Byte) (s : State) : Out := .next s

/-- FLASH_WREN: the write-enable latch is set; while the flash is busy the command is lost (R159, R163). -/
def execFlashWren (s : State) : Out :=
  .next (if takesCommand s then { s with flash := { s.flash with wel := true } } else s)

/-- FLASH_SE: a sector erase starts, if write-enabled and not busy; otherwise no effect (R160, R163). -/
def execFlashSe (addr : FlashAddr) (s : State) : Out :=
  .next (if s.flash.wel && takesCommand s then startOperation (.erase (sectorBase addr)) s else s)

/-- FLASH_PP: a page program starts, if write-enabled and not busy; otherwise no effect (R161, R163, R168 C-c). Without data
bytes no program starts, and R161 gives the frame an effect of its own. -/
def execFlashPp (addr : FlashAddr) (data : List Byte) (s : State) : Out :=
  .next
    (if s.flash.wel && takesCommand s then
       if data.isEmpty then emptyProgram s else startOperation (programOf s.cfg addr data) s
     else s)

/-- A frame the contract says nothing about: fault under the contract, ignored by the reference flash (R162); with no device
attached nothing acts on it. On the fault the step answers no next state, so that neither the write that ended the frame, nor the
deassertion, nor the frame's end stands in a history (notes/assumptions/12.md). -/
def undefinedFrame (s : State) : Out :=
  match s.cfg.flashModel with
  | .contract => .fault .flashFrameUndefined
  | .reference => .next s
  | .absent _ => .next s

/-- The frame ends and the flash acts on it (R156, R159 to R163). An empty frame has no effect (R162). -/
def endFrame (s : State) : Out :=
  match decodeFrame s.cfg s.flash.frame with
  | .ok (.flashRdsr rest) => execFlashRdsr rest s
  | .ok .flashWren => execFlashWren s
  | .ok (.flashSe a) => execFlashSe a s
  | .ok (.flashPp a data) => execFlashPp a data s
  | .error .emptyFrame => .next s
  | _ => undefinedFrame s

end Sys2Proof.Machine
end

