-- ==== Sys2Proof/Machine/Engine.lean ====
section
/-! DEFINITION. The master-SPI engine (spec/44_engine_and_flash.md R140 to R154) and the two bus primitives of the sequencer
(spec/40_register_access.md R100, R101): what `IRead` answers, what `IWrite` does, and the completion of a transfer. -/

namespace Sys2Proof.Machine

open Sys2Proof

/-! ### Reading a register (R141) -/

/-- The stored value of a register (R26, R141). The three named registers are told apart by the numbers of `Cfg`. -/
def regValue (r : RegNum) (s : State) : Word :=
  if r = s.cfg.regSpictl then s.chip.spictl
  else if r = s.cfg.regSpitx then s.chip.spitx
  else if r = s.cfg.regSpirx then s.chip.spirx
  else Memory.read unlistedReg s.chip.other r.toNat

/-- What a read answers: the stored value, but `draw(32)` for SPIRX while a transfer is in flight (R141). The chip does not
change. -/
def readReg (r : RegNum) (s : State) : Word × State :=
  if r = s.cfg.regSpirx ∧ s.chip.fly.isSome then drawWord s else (regValue r s, s)

/-! ### Writing a register (R142 to R147, R150) -/

/-- Mode change to idle (R143): chip-select falls; if it was asserted the frame ends and the flash acts on it. The history
records the end of the frame with the bytes that went over the wire also where no device is attached (notes/assumptions/21.md). -/
def deassertCs (s : State) : Out :=
  if s.chip.cs then
    endFrame
      (record (.frameEnd s.flash.frame) (record .csDeassert { s with chip := { s.chip with cs := false } }))
  else .next s

/-- Mode change to enable (R144): chip-select rises and a new frame begins, unless it is asserted already. -/
def assertCs (s : State) : Out :=
  if s.chip.cs then .next s
  else .next (beginFrame (record .csAssert { s with chip := { s.chip with cs := true } }))

/-- Mode change to transfer, out of mode `om` (R145, R154): the byte count and SPITX are sampled, DONE falls and the transfer is
in flight. From idle, or with chip-select deasserted, refused (R154); with more than 4 bytes, refused (R145, U7).
DEDUCED (notes/assumptions/9.md). -/
def startTransfer (om : ModeName) (s : State) : Out :=
  if om = .idle ∨ s.chip.cs = false then .refused .notSelected
  else if transferBytes s.cfg s.chip.spictl > 4 then .refused .byteCount
  else
    .next
      (record (.xferStart (transferBytes s.cfg s.chip.spictl) s.chip.spitx)
        { s with
          chip :=
            { s.chip with
              spictl := s.chip.spictl &&& ~~~(bitMask s.cfg.doneBit)
              fly := some ⟨transferBytes s.cfg s.chip.spictl, s.chip.spitx⟩ } })

/-- Mode change to update, out of mode `om` (R146, R154): no effect any agent can observe. -/
def latchUpdate (om : ModeName) (s : State) : Out :=
  if om = .idle ∨ s.chip.cs = false then .refused .notSelected else .next s

/-- A write that leaves the mode as it was (R153): storage only in idle and enable, refused in transfer and update. -/
def sameMode (m : ModeName) (s : State) : Out :=
  match m with
  | .idle => .next s
  | .enable => .next s
  | .transfer => .refused .modeRewritten
  | .update => .refused .modeRewritten

/-- The engine's action for a change of mode from `om` to `nm` (R143 to R146, R154). -/
def changeMode (om nm : ModeName) (s : State) : Out :=
  match nm with
  | .idle => deassertCs s
  | .enable => assertCs s
  | .transfer => startTransfer om s
  | .update => latchUpdate om s

/-- `IWrite(REG_SPICTL, v)` with no transfer in flight (R142): the MSEN check (R151), the store without DONE, then the action
for a mode change, all in one step. The order of the refusals is DEDUCED (notes/assumptions/20.md). -/
def writeSpictl (v : Word) (s : State) : Out :=
  let new := keepDone s.cfg s.chip.spictl v
  let om := modeOf s.cfg s.chip.spictl
  let nm := modeOf s.cfg new
  if msenFlag s.cfg new = false ∧ nm ≠ .idle then .refused .msenOff
  else
    let t := record (.busWrite s.cfg.regSpictl v) { s with chip := { s.chip with spictl := new } }
    if nm = om then sameMode om t else changeMode om nm t

/-- Whether a register is one of the three named ones. -/
def namedReg (c : Cfg) (r : RegNum) : Bool := r == c.regSpictl || r == c.regSpitx || r == c.regSpirx

/-- The effect of one write transaction on the chip (R100, R142, R147, R150). A write that faults or is refused is not performed and
stands in no history (notes/assumptions/12.md). -/
def writeReg (r : RegNum) (v : Word) (s : State) : Out :=
  if namedReg s.cfg r && s.chip.fly.isSome then .fault .engineOverlap
  else if r = s.cfg.regSpictl then writeSpictl v s
  else if r = s.cfg.regSpitx then
    .next (record (.busWrite r v) { s with chip := { s.chip with spitx := v } })
  else if r = s.cfg.regSpirx then
    .next (record (.busWrite r v) { s with chip := { s.chip with spirx := v } })
  else
    .next
      (record (.busWrite r v)
        { s with chip := { s.chip with other := Memory.write unlistedReg s.chip.other r.toNat v } })

/-! ### The bus primitives (R100, R101) -/

/-- A transaction failed in the transport (R53, R176): it has no effect on the chip, and error entry follows. The history
records the error and no bus transaction, and the failure is taken before any fault or refusal the transaction would have met
(notes/assumptions/11.md). -/
def transportFailed (s : State) : Out :=
  .next (raiseError .transportFailure { s with env := { s.env with transportFails := false } })

/-- `IRead(r)` (R101): one read transaction; `k` is what the sequencer does with the value in the same step. -/
def iread (r : RegNum) (k : Word → State → Out) (s : State) : Out :=
  if s.env.transportFails then transportFailed s
  else
    let a := readReg r s
    k a.1 (record (.busRead r a.1) a.2)

/-- `IWrite(r, v)` (R100): one write transaction; `k` is what the sequencer does after it in the same step. A write that fails
in the transport never reaches the chip, so it meets no overlap fault and no refusal: DEDUCED from R176
(notes/assumptions/20.md). -/
def iwrite (r : RegNum) (v : Word) (k : State → Out) (s : State) : Out :=
  if s.env.transportFails then transportFailed s else andThen (writeReg r v s) k

/-! ### Completion of a transfer (R148) -/

/-- The completion step: the bytes are exchanged, SPIRX takes the replies, DONE rises and no transfer is in flight. With none
in flight the engine takes no step (R140). -/
def engineCompletes (s : State) : State :=
  match s.chip.fly with
  | none => s
  | some f =>
    let x := exchange (wireBytes f.n f.tx) s
    record (.xferDone (wireBytes f.n f.tx) x.1)
      { x.2 with
        chip :=
          { x.2.chip with
            spirx := shiftIn s.chip.spirx x.1
            spictl := s.chip.spictl ||| bitMask s.cfg.doneBit
            fly := none } }

end Sys2Proof.Machine
end

