-- ==== Sys2Proof/Machine/Control.lean ====
section
/-! DEFINITION. The flow of control between the operations (spec/10_state.md R23, R24): acceptance of a command (R45), the
return of a nested operation to its caller, and what each caller does then. The micro-steps themselves are in
RegisterAccess, ModeControl, FlashPrimitives and PageProgram. -/

namespace Sys2Proof.Machine

open Sys2Proof

/-! ### Return (R24 (b), (d)) -/

/-- What a caller does when the operation it called has returned. -/
inductive AfterCall where
  /-- The caller goes on at a label. -/
  | goto (l : Nat)
  /-- The caller returns in the same step: the call was its last micro-step. -/
  | ret
  /-- The caller raises an error. -/
  | fail (e : ErrorKind)
  deriving DecidableEq, Repr

/-- SETCNT after its call of SETMODE at `SC.2: call SETMODE(transfer); return` (R113). -/
def afterSetcnt (_l : Nat) : AfterCall := .ret

/-- RDSTATUS after a call: its last micro-step `RS.8` is no call, so it goes on (R121). -/
def afterRdstatus (l : Nat) : AfterCall := .goto (l + 1)

/-- SENDCMD after a call: `SD.5: call SETMODE(idle); return` is the last (R122). -/
def afterSendcmd (l : Nat) : AfterCall := if l < 5 then .goto (l + 1) else .ret

/-- ERASE after a call: `ER.5: call SETMODE(idle); return` is the last (R123). -/
def afterErase (l : Nat) : AfterCall := if l < 5 then .goto (l + 1) else .ret

/-- WAITFLASH after its call of RDSTATUS: the test `WF.2`, taken in the same step (R12, R124). The status read has been
counted. -/
def afterWaitflash (s : State) : AfterCall :=
  if wipFlag s.seq.stat = false then .ret
  else if pollsExhausted s.cfg s.seq.fpolls then .fail (.deviceUnresponsive .waitflash)
  else .goto 1

/-- PROGPAGE after a call: `PP.19: call WAITFLASH; return` is the last (R131). -/
def afterProgpage (l : Nat) : AfterCall := if l < 19 then .goto (l + 1) else .ret

/-- `x[FPOLLS] <- x[FPOLLS] + 1` when a status read of WAITFLASH has returned (R124). The counter wraps at `2^32`, DEDUCED
(notes/assumptions/10.md). -/
def countStatusRead (s : State) : State := { s with seq := { s.seq with fpolls := s.seq.fpolls + 1 } }

/-- WAITFLASH returns: issued by the host it writes RESULT with the last status (R22, R124). -/
def waitflashResult (callers : List Frame) (s : State) : State :=
  match callers with
  | [] => { s with seq := { s.seq with result := s.seq.stat.setWidth 32 } }
  | _ :: _ => s

/-- What the state is, and what the caller `f` does, when the operation it called has returned. Operations that call nothing
return (no run reaches that). -/
def afterCall (f : Frame) (callers : List Frame) (s : State) : State × AfterCall :=
  match f.op with
  | .setcnt _ => (s, afterSetcnt f.label)
  | .rdstatus => (s, afterRdstatus f.label)
  | .sendcmd _ => (s, afterSendcmd f.label)
  | .erase _ => (s, afterErase f.label)
  | .waitflash =>
    let t := countStatusRead s
    match afterWaitflash t with
    | .ret => (waitflashResult callers t, .ret)
    | c => (t, c)
  | .progpage _ _ => (s, afterProgpage f.label)
  | _ => (s, .ret)

/-- An operation has returned to the frames below it: the top caller moves on; where the call was its last micro-step it
returns too, in the same step; when the bottom frame pops the block is Idle and not busy (R24 (b), (d)). -/
def returnTo : List Frame → State → State
  | [], s => finish s
  | f :: callers, s =>
    match afterCall f callers s with
    | (t, .goto l) => setPc ({ f with label := l } :: callers) t
    | (t, .ret) => returnTo callers t
    | (t, .fail e) => raiseError e t

/-- `return`: the last micro-step of the top operation pops its frame (R24 (b)). -/
def returnOp (s : State) : Out := .next (returnTo s.seq.pc.tail s)

/-- A micro-step that is a bus transaction and not the last moves `pc` to the next label (R24 (a)). -/
def advance (s : State) : Out := .next (nextLabel s)

/-! ### Acceptance (R45) -/

/-- The operand registers a command loads: ADDR for ERASE and PROGPAGE, CNT for PROGPAGE; the others keep their operands in
the frame (R45). -/
def loadOperands (i : Instr) (s : State) : State :=
  match i with
  | .erase a => { s with seq := { s.seq with addr := a } }
  | .progpage a n => { s with seq := { s.seq with addr := a, cnt := n } }
  | _ => s

/-- Why an ill-formed command is refused (R80, R120, R132). -/
def refusalOf (i : Instr) : Refusal :=
  match i with
  | .progpage a _ => if addrFits a then .countExceedsBuffer else .operandRange
  | _ => .operandRange

/-- Acceptance of a command, one step (R45): BUSY rises, ERR is cleared (R175), the operand registers are loaded and `pc` is at
the operation's first label. A command whose operands break R79, R120 or R132 is refused and never starts. -/
def accept (i : Instr) (s : State) : Out :=
  if i.wf s.cfg then
    let t := loadOperands i (clearError s)
    .next { t with seq := { t.seq with busy := true, pc := [⟨i, 0⟩] } }
  else .refused (refusalOf i)

end Sys2Proof.Machine
end

