-- ==== Sys2Proof/Machine/ModeControl.lean ====
section
/-! DEFINITION. The micro-steps of MSPIEN, MSPIDIS, SETMODE, SETCNT and WAITDONE (spec/41_mode_control.md R110 to R114). A
read-modify-write of SPICTL is two bus transactions, the read first (spec/00_scope.md R11). -/

namespace Sys2Proof.Machine

open Sys2Proof

/-- `x[TMP] <- v` (R21). -/
def setTmp (v : Word) (s : State) : State := { s with seq := { s.seq with tmp := v } }

/-- The read half of a read-modify-write: `x[TMP] <- IRead(REG_SPICTL)` (R11). -/
def readSpictl (s : State) : Out := iread s.cfg.regSpictl (fun v t => advance (setTmp v t)) s

/-- MSPIEN (R110). `ME.0: x[TMP] <- IRead(REG_SPICTL)`;
`ME.1: IWrite(REG_SPICTL, setfield(x[TMP], MODE_LSB, 2, M_IDLE) | (1 << MSEN_BIT)); return`. -/
def microMspien (l : Nat) (s : State) : Out :=
  match l with
  | 0 => readSpictl s
  | _ => iwrite s.cfg.regSpictl (withMode s.cfg s.seq.tmp .idle ||| bitMask s.cfg.msenBit) returnOp s

/-- MSPIDIS (R111). `MD.0: x[TMP] <- IRead(REG_SPICTL)`;
`MD.1: IWrite(REG_SPICTL, setfield(x[TMP], MODE_LSB, 2, M_IDLE) & ~(1 << MSEN_BIT)); return`. -/
def microMspidis (l : Nat) (s : State) : Out :=
  match l with
  | 0 => readSpictl s
  | _ => iwrite s.cfg.regSpictl (withMode s.cfg s.seq.tmp .idle &&& ~~~(bitMask s.cfg.msenBit)) returnOp s

/-- SETMODE `m` (R112). `SM.0: x[TMP] <- IRead(REG_SPICTL)`;
`SM.1: IWrite(REG_SPICTL, setfield(x[TMP], MODE_LSB, 2, code(m))); return`. -/
def microSetmode (m : ModeName) (l : Nat) (s : State) : Out :=
  match l with
  | 0 => readSpictl s
  | _ => iwrite s.cfg.regSpictl (withMode s.cfg s.seq.tmp m) returnOp s

/-- `call SETMODE(m)`: the frame is pushed and its first micro-step taken, the call being no step of its own (R12, R24). -/
def callSetmode (m : ModeName) (s : State) : Out := microSetmode m 0 (pushFrame (.setmode m) s)

/-- `call MSPIEN`. -/
def callMspien (s : State) : Out := microMspien 0 (pushFrame .mspien s)

/-- SETCNT `c` (R113). `SC.0: x[TMP] <- IRead(REG_SPICTL)`; `SC.1: IWrite(REG_SPICTL, setfield(x[TMP], NB_LSB, NB_W, c))`;
`SC.2: call SETMODE(transfer); return`. -/
def microSetcnt (c : Word) (l : Nat) (s : State) : Out :=
  match l with
  | 0 => readSpictl s
  | 1 => iwrite s.cfg.regSpictl (withCount s.cfg s.seq.tmp c) advance s
  | _ => callSetmode .transfer s

/-- `call SETCNT(c)`. -/
def callSetcnt (c : Word) (s : State) : Out := microSetcnt c 0 (pushFrame (.setcnt c) s)

/-- `x[DPOLLS] <- n` (R114). -/
def setDpolls (n : Word) (s : State) : State := { s with seq := { s.seq with dpolls := n } }

/-- The test `WD.2`, taken in the same step as the read (R12, R114): return when DONE is set, raise `DeviceUnresponsive` at the
bound, else poll again. -/
def testDone (s : State) : Out :=
  if doneFlag s.cfg s.seq.tmp then returnOp s
  else if pollsExhausted s.cfg s.seq.dpolls then .next (raiseError (.deviceUnresponsive .waitdone) s)
  else .next (gotoLabel 1 s)

/-- One poll, `WD.1: x[TMP] <- IRead(REG_SPICTL); x[DPOLLS] <- x[DPOLLS] + 1`, and the test after it (R114).
The counter wraps at `2^32`, DEDUCED (notes/assumptions/10.md). -/
def pollDone (s : State) : Out :=
  iread s.cfg.regSpictl (fun v t => testDone (setDpolls (t.seq.dpolls + 1) (setTmp v t))) s

/-- WAITDONE (R114). `WD.0: x[DPOLLS] <- 0`, internal; `WD.1` and `WD.2` are `pollDone`. -/
def microWaitdone (l : Nat) (s : State) : Out :=
  match l with
  | 0 => pollDone (setDpolls 0 s)
  | _ => pollDone s

/-- `call WAITDONE`. -/
def callWaitdone (s : State) : Out := microWaitdone 0 (pushFrame .waitdone s)

end Sys2Proof.Machine
end

