-- ==== Sys2Proof/Machine/FlashPrimitives.lean ====
section
/-! DEFINITION. The micro-steps of RDSTATUS, SENDCMD, ERASE and WAITFLASH (spec/42_flash_primitives.md R121 to R124). -/

namespace Sys2Proof.Machine

open Sys2Proof

/-- `x[WORD] <- w; IWrite(REG_SPITX, x[WORD])`, a micro-step that is not the last (R121 to R123, R131). -/
def sendWord (w : Word) (s : State) : Out :=
  iwrite s.cfg.regSpitx w advance { s with seq := { s.seq with word := w } }

/-- `x[STAT] <- IRead(REG_SPIRX)[7:0]; if top-level then RESULT <- zext_32(x[STAT])` (R121, R22). -/
def takeStatus (v : Word) (s : State) : State :=
  let stat : Byte := v.extractLsb' 0 8
  let result : Word := if s.seq.pc.length = 1 then stat.setWidth 32 else s.seq.result
  { s with seq := { s.seq with stat := stat, result := result } }

/-- RDSTATUS (R121). `RS.0: call SETMODE(idle)`; `RS.1: call SETMODE(enable)`;
`RS.2: x[WORD] <- CMDWORD1(OP_RDSR); IWrite(REG_SPITX, x[WORD])`; `RS.3: call SETCNT(3)`; `RS.4: call WAITDONE`;
`RS.5: call SETMODE(update)`; `RS.6: call SETMODE(transfer)`; `RS.7: call WAITDONE`;
`RS.8: x[STAT] <- IRead(REG_SPIRX)[7:0]; if top-level then RESULT <- zext_32(x[STAT]); return`. -/
def microRdstatus (l : Nat) (s : State) : Out :=
  match l with
  | 0 => callSetmode .idle s
  | 1 => callSetmode .enable s
  | 2 => sendWord (cmdWord1 s.cfg.opRdsr) s
  | 3 => callSetcnt 3 s
  | 4 => callWaitdone s
  | 5 => callSetmode .update s
  | 6 => callSetmode .transfer s
  | 7 => callWaitdone s
  | _ => iread s.cfg.regSpirx (fun v t => returnOp (takeStatus v t)) s

/-- `call RDSTATUS`. -/
def callRdstatus (s : State) : Out := microRdstatus 0 (pushFrame .rdstatus s)

/-- SENDCMD `op` (R122). `SD.0: call SETMODE(idle)`; `SD.1: call SETMODE(enable)`;
`SD.2: x[WORD] <- CMDWORD1(op); IWrite(REG_SPITX, x[WORD])`; `SD.3: call SETCNT(CNTVAL(1))`; `SD.4: call WAITDONE`;
`SD.5: call SETMODE(idle); return`. -/
def microSendcmd (op : Byte) (l : Nat) (s : State) : Out :=
  match l with
  | 0 => callSetmode .idle s
  | 1 => callSetmode .enable s
  | 2 => sendWord (cmdWord1 op) s
  | 3 => callSetcnt (cntVal 1) s
  | 4 => callWaitdone s
  | _ => callSetmode .idle s

/-- `call SENDCMD(op)`. -/
def callSendcmd (op : Byte) (s : State) : Out := microSendcmd op 0 (pushFrame (.sendcmd op) s)

/-- ERASE (R123), its address in `ADDR`. `ER.0: call SETMODE(idle)`; `ER.1: call SETMODE(enable)`;
`ER.2: x[WORD] <- CMDWORD(OP_SE, x[ADDR]); IWrite(REG_SPITX, x[WORD])`; `ER.3: call SETCNT(CNTVAL(4))`;
`ER.4: call WAITDONE`; `ER.5: call SETMODE(idle); return`. -/
def microErase (l : Nat) (s : State) : Out :=
  match l with
  | 0 => callSetmode .idle s
  | 1 => callSetmode .enable s
  | 2 => sendWord (cmdWord s.cfg.opSe s.seq.addr) s
  | 3 => callSetcnt (cntVal 4) s
  | 4 => callWaitdone s
  | _ => callSetmode .idle s

/-- `call ERASE(x[ADDR])`. -/
def callErase (s : State) : Out := microErase 0 (pushFrame (.erase s.seq.addr) s)

/-- `WF.0: x[FPOLLS] <- 0`, internal (R124). -/
def startStatusPolls (s : State) : State := gotoLabel 1 { s with seq := { s.seq with fpolls := 0 } }

/-- WAITFLASH (R124). `WF.0: x[FPOLLS] <- 0`; `WF.1: call RDSTATUS; x[FPOLLS] <- x[FPOLLS] + 1`; the test `WF.2` is
`afterWaitflash`. -/
def microWaitflash (l : Nat) (s : State) : Out :=
  match l with
  | 0 => callRdstatus (startStatusPolls s)
  | _ => callRdstatus s

/-- `call WAITFLASH`. -/
def callWaitflash (s : State) : Out := microWaitflash 0 (pushFrame .waitflash s)

end Sys2Proof.Machine
end

