-- ==== Sys2Proof/Machine/PageProgram.lean ====
section
/-! DEFINITION. The micro-steps of PROGPAGE (spec/43_page_program.md R130 to R136). The labels `PP.1`, `PP.12`, `PP.13`, `PP.18`
and, without PP_WORD_WAIT, `PP.17` take no step of their own: they are folded into the next bus transaction (R12). -/

namespace Sys2Proof.Machine

open Sys2Proof

/-- `PP.19: call WAITFLASH; return`. -/
def progpageEnd (s : State) : Out := callWaitflash (gotoLabel 19 s)

/-- `PP.14: x[WORD] <- ` four buffer bytes from `x[IDX]` on, packed big-endian`; IWrite(REG_SPITX, x[WORD])` (R54, R57). Outside
the buffer it is refused, which R132 makes impossible (R54). -/
def progpageWord (s : State) : Out :=
  let i := s.seq.idx.toNat
  if i + 3 < s.cfg.bufCap then
    sendWord (packWord (bufByte s i) (bufByte s (i + 1)) (bufByte s (i + 2)) (bufByte s (i + 3))) (gotoLabel 14 s)
  else .refused .bufferIndex

/-- `PP.13: if x[IDX] < x[CNT] (signed) then pc <- PP.14 else pc <- PP.19`. -/
def progpageTest (s : State) : Out := if moreChunks s.seq.idx s.seq.cnt then progpageWord s else progpageEnd s

/-- `x[IDX] <- v` (R21). -/
def setIdx (v : Word) (s : State) : State := { s with seq := { s.seq with idx := v } }

/-- `PP.18: x[IDX] <- x[IDX] + 4; pc <- PP.13`. -/
def progpageNext (s : State) : Out := progpageTest (setIdx (s.seq.idx + 4) s)

/-- PROGPAGE (R131), its operands in `ADDR` and `CNT`. `PP.0: call MSPIEN`; `PP.1: if x[ADDR][SECTOR_BITS-1:0] == 0 then pc <-
PP.2 else pc <- PP.5`; `PP.2: call WAITFLASH`; `PP.3: call SENDCMD(OP_WREN)`; `PP.4: call ERASE(x[ADDR])`; `PP.5: call
WAITFLASH`; `PP.6: call SENDCMD(OP_WREN)`; `PP.7: call SETMODE(idle)`; `PP.8: call SETMODE(enable)`; `PP.9: x[WORD] <-
CMDWORD(OP_PP, x[ADDR]); IWrite(REG_SPITX, x[WORD])`; `PP.10: call SETCNT(3)`; `PP.11: call WAITDONE`; `PP.12: x[IDX] <- 0`;
`PP.13` to `PP.19` as above, with `PP.15: call SETMODE(enable)`; `PP.16: call SETMODE(transfer)`; `PP.17: if PP_WORD_WAIT then
call WAITDONE`. -/
def microProgpage (l : Nat) (s : State) : Out :=
  match l with
  | 0 => callMspien s
  | 1 => if sectorAligned s.seq.addr then callWaitflash (gotoLabel 2 s) else callWaitflash (gotoLabel 5 s)
  | 2 => callWaitflash s
  | 3 => callSendcmd s.cfg.opWren s
  | 4 => callErase s
  | 5 => callWaitflash s
  | 6 => callSendcmd s.cfg.opWren s
  | 7 => callSetmode .idle s
  | 8 => callSetmode .enable s
  | 9 => sendWord (cmdWord s.cfg.opPp s.seq.addr) s
  | 10 => callSetcnt 3 s
  | 11 => callWaitdone s
  | 12 => progpageTest (setIdx 0 s)
  | 13 => progpageTest s
  | 14 => progpageWord s
  | 15 => callSetmode .enable s
  | 16 => callSetmode .transfer s
  | 17 => if s.cfg.ppWordWait then callWaitdone s else progpageNext s
  | 18 => progpageNext s
  | _ => progpageEnd s

end Sys2Proof.Machine
end

