-- ==== Sys2Proof/Machine/RegisterAccess.lean ====
section
/-! DEFINITION. The micro-steps of IRW and IRR (spec/40_register_access.md R102, R103). -/

namespace Sys2Proof.Machine

open Sys2Proof

/-- IRW `r, v` (R102). `IW.0: IWrite(r, v); return`. -/
def microIrw (r : RegNum) (v : Word) (_l : Nat) (s : State) : Out := iwrite r v returnOp s

/-- `RESULT <- v` (R22). -/
def setResult (v : Word) (s : State) : State := { s with seq := { s.seq with result := v } }

/-- IRR `r` (R103). `IR.0: RESULT <- IRead(r); return`. -/
def microIrr (r : RegNum) (_l : Nat) (s : State) : Out := iread r (fun v t => returnOp (setResult v t)) s

end Sys2Proof.Machine
end

