-- ==== Sys2Proof/Machine/Commands.lean ====
section
/-! DEFINITION. The meanings of the twelve operations. An operation lasts many steps: its acceptance is one step (R45) and each
bus transaction of its micro-program is one (R12). The meaning of an operation is the step it takes next: `execX` accepts the
command when the block is not busy, and otherwise, when it is the operation in progress, takes its next micro-step. -/

namespace Sys2Proof.Machine

open Sys2Proof

/-- The micro-step at the top frame of `pc` (R23): the frame's operation at the frame's label. A frame of the flash's is no
operation of the sequencer (no run reaches that). -/
def microStep (s : State) : Out :=
  match s.seq.pc with
  | [] => .next s
  | f :: _ =>
    match f.op with
    | .irw r v => microIrw r v f.label s
    | .irr r => microIrr r f.label s
    | .mspien => microMspien f.label s
    | .mspidis => microMspidis f.label s
    | .setmode m => microSetmode m f.label s
    | .setcnt c => microSetcnt c f.label s
    | .waitdone => microWaitdone f.label s
    | .rdstatus => microRdstatus f.label s
    | .sendcmd op => microSendcmd op f.label s
    | .erase _ => microErase f.label s
    | .waitflash => microWaitflash f.label s
    | .progpage _ _ => microProgpage f.label s
    | .flashRdsr _ => .next s
    | .flashWren => .next s
    | .flashSe _ => .next s
    | .flashPp _ _ => .next s

/-- The next step of operation `i` (R12, R24, R45). Not busy: acceptance. Busy with `i` as the operation in progress: its next
micro-step. Busy with another: the command is not accepted and has no effect. DEDUCED (notes/assumptions/7.md). -/
def operate (i : Instr) (s : State) : Out :=
  if s.seq.busy then
    if topLevelOp s = some i then microStep s else .next s
  else accept i s

/-- IRW (R102). -/
def execIrw (r : RegNum) (v : Word) (s : State) : Out := operate (.irw r v) s

/-- IRR (R103). -/
def execIrr (r : RegNum) (s : State) : Out := operate (.irr r) s

/-- MSPIEN (R110). -/
def execMspien (s : State) : Out := operate .mspien s

/-- MSPIDIS (R111). -/
def execMspidis (s : State) : Out := operate .mspidis s

/-- SETMODE (R112). -/
def execSetmode (m : ModeName) (s : State) : Out := operate (.setmode m) s

/-- SETCNT (R113). -/
def execSetcnt (c : Word) (s : State) : Out := operate (.setcnt c) s

/-- WAITDONE (R114). -/
def execWaitdone (s : State) : Out := operate .waitdone s

/-- RDSTATUS (R121). -/
def execRdstatus (s : State) : Out := operate .rdstatus s

/-- SENDCMD (R122). -/
def execSendcmd (op : Byte) (s : State) : Out := operate (.sendcmd op) s

/-- ERASE (R123). -/
def execErase (addr : Word) (s : State) : Out := operate (.erase addr) s

/-- WAITFLASH (R124). -/
def execWaitflash (s : State) : Out := operate .waitflash s

/-- PROGPAGE (R131). -/
def execProgpage (addr count : Word) (s : State) : Out := operate (.progpage addr count) s

end Sys2Proof.Machine
end

