-- ==== Sys2Proof/Machine/Dispatch.lean ====
section
/-! DEFINITION. The meaning of an instruction: one arm per row of spec/opcode_table.json. -/

namespace Sys2Proof.Machine

open Sys2Proof

def exec (i : Instr) (s : State) : Host.Outcome State Fault Refusal :=
  match i with
  | .irw r v => Sys2Proof.Machine.execIrw r v s
  | .irr r => Sys2Proof.Machine.execIrr r s
  | .mspien => Sys2Proof.Machine.execMspien s
  | .mspidis => Sys2Proof.Machine.execMspidis s
  | .setmode m => Sys2Proof.Machine.execSetmode m s
  | .setcnt c => Sys2Proof.Machine.execSetcnt c s
  | .waitdone => Sys2Proof.Machine.execWaitdone s
  | .rdstatus => Sys2Proof.Machine.execRdstatus s
  | .sendcmd op => Sys2Proof.Machine.execSendcmd op s
  | .erase addr => Sys2Proof.Machine.execErase addr s
  | .waitflash => Sys2Proof.Machine.execWaitflash s
  | .progpage addr count => Sys2Proof.Machine.execProgpage addr count s
  | .flashRdsr rest => Sys2Proof.Machine.execFlashRdsr rest s
  | .flashWren => Sys2Proof.Machine.execFlashWren s
  | .flashSe addr => Sys2Proof.Machine.execFlashSe addr s
  | .flashPp addr data => Sys2Proof.Machine.execFlashPp addr data s

end Sys2Proof.Machine
end

