-- ==== Sys2Proof/Machine/Agents.lean ====
section
/-! DEFINITION. The turns of the agents (spec/10_state.md R20, R42, R45): the host's moves, the sequencer's step, the engine's
completion, the flash's finishing and the reset event, and whose turn it is when the schedule names nobody. -/

namespace Sys2Proof.Machine

open Sys2Proof

/-! ### The host (R45) -/

/-- Fill (R45 (a)): write bytes of BUF, allowed only while BUSY is 0; while BUSY is 1 the host has no such move and keeps it
(R55). A byte beyond the buffer does not exist (R36, R54). DESIGN CHOICE (notes/assumptions/16.md). -/
def hostFill (at_ : Nat) (bytes : List Byte) (rest : List HostMove) (s : State) : Out :=
  if s.seq.busy then .next s
  else if at_ + bytes.length ≤ s.cfg.bufCap then
    .next { s with host := { buf := Memory.writeAll unlistedBuf s.host.buf at_ bytes, moves := rest } }
  else .refused .bufferIndex

/-- The refusal of a descriptor the decoder rejects (R80). -/
def refusalOfReject : Reject → Refusal
  | .reservedOp => .reservedOp
  | .operandRange => .operandRange
  | .emptyFrame => .reservedOp
  | .undefinedFrame => .reservedOp

/-- Issue (R45 (b)): a descriptor presented while BUSY is 0 is decoded and the operation accepted; one presented while BUSY is
1 is not accepted, not queued and has no effect (R201). -/
def hostIssue (d : BitVec 68) (rest : List HostMove) (s : State) : Out :=
  let t := { s with host := { s.host with moves := rest } }
  if s.seq.busy then .next t
  else
    match decodeDescriptor d with
    | .ok i => exec i t
    | .error e => .refused (refusalOfReject e)

/-- The host's turn: its first move. With none left the machine stays as it is (R212). -/
def hostTurn (s : State) : Out :=
  match s.host.moves with
  | [] => .next s
  | .fill a bytes :: rest => hostFill a bytes rest s
  | .issue d :: rest => hostIssue d rest s

/-! ### The sequencer -/

/-- The sequencer's turn: the next step of the operation in progress, which is the bottom frame's (R23); Idle it takes none. -/
def seqTurn (s : State) : Out :=
  if s.seq.busy then
    match topLevelOp s with
    | none => .next s
    | some i => exec i s
  else .next s

/-- The sequencer's turn with a transport that fails (R53). Idle there is no transaction to fail. -/
def seqFailsTurn (s : State) : Out :=
  if s.seq.busy then seqTurn { s with env := { s.env with transportFails := true } } else .next s

/-! ### The reset event -/

/-- The reset event (R190): Idle, not busy, no error, and the working registers and RESULT unspecified, that is, drawn. Nothing
else: the chip, the flash, the buffer and the host are as they were (R192; notes/assumptions/17.md). -/
def resetEvent (s : State) : State :=
  let k := s.env.draws
  { s with
    seq :=
      { addr   := Config.drawWord k
        cnt    := Config.drawWord (k + 1)
        idx    := Config.drawWord (k + 2)
        word   := Config.drawWord (k + 3)
        stat   := Config.drawByte (k + 4)
        tmp    := Config.drawWord (k + 5)
        dpolls := Config.drawWord (k + 6)
        fpolls := Config.drawWord (k + 7)
        result := Config.drawWord (k + 8)
        pc     := []
        busy   := false
        err    := 0 }
    env := { s.env with draws := k + 9 } }

/-! ### Whose turn -/

/-- One step of the agent whose turn it is (R12): each is atomic. An agent with nothing to do leaves the state as it is. -/
def takeTurn (t : Turn) (s : State) : Out :=
  match t with
  | .seq => seqTurn s
  | .seqFails => seqFailsTurn s
  | .eng => .next (engineCompletes s)
  | .flash => .next (flashFinishes s)
  | .host => hostTurn s
  | .reset => .next (resetEvent s)

/-- Whose turn it is under a prompt engine (premise ENGINE_PROMPT, R152): the engine's while a transfer is in flight, else the
sequencer's while an operation runs, else the host's. DESIGN CHOICE (notes/assumptions/2.md). -/
def defaultTurn (s : State) : Turn :=
  if s.chip.fly.isSome then .eng
  else if s.seq.busy then .seq
  else .host

/-- The turn a free choice names (R12, R42). -/
def turnOfChoice (k : Nat) : Turn :=
  match k % 6 with
  | 0 => .seq
  | 1 => .seqFails
  | 2 => .eng
  | 3 => .flash
  | 4 => .host
  | _ => .reset

/-- The next turn, and the state with it taken off the schedule. A schedule whose list is used up goes on as `Later` says. -/
def nextTurn (s : State) : Turn × State :=
  match s.env.sched with
  | t :: rest => (t, { s with env := { s.env with sched := rest } })
  | [] =>
    match s.env.later with
    | .prompt => (defaultTurn s, s)
    | .cycle t rest => (t, { s with env := { s.env with sched := rest } })
    | .free k => (turnOfChoice (Config.drawChoice k), { s with env := { s.env with later := .free (k + 1) } })

/-! ### Placing an instruction -/

/-- A state in which the host is about to issue a descriptor: not busy, the host's turn, the descriptor its first move. -/
def withDescriptor (d : BitVec 68) (s : State) : State :=
  { s with
    seq := { s.seq with pc := [], busy := false }
    host := { s.host with moves := .issue d :: s.host.moves }
    env := { s.env with sched := .host :: s.env.sched } }

/-- A state in which a frame of the flash is about to end: chip-select asserted, the bytes received, no transfer in flight, and
the sequencer at the write half of SETMODE idle, which deasserts chip-select (R143). -/
def withFrame (bytes : List Byte) (s : State) : State :=
  let ctl := withMode s.cfg s.chip.spictl .enable
  { s with
    seq := { s.seq with pc := [⟨.setmode .idle, 1⟩], busy := true, tmp := ctl }
    chip := { s.chip with spictl := ctl, cs := true, fly := none }
    flash := { s.flash with frame := bytes }
    env := { s.env with sched := .seq :: s.env.sched, transportFails := false } }

/-- Place the instruction a code stands for where it is fetched next. -/
def withCode (code : Code) (s : State) : State :=
  match code with
  | .descriptor d => withDescriptor d s
  | .frame bytes => withFrame bytes s

end Sys2Proof.Machine
end

