-- ==== Sys2Proof/Machine/Step.lean ====
section
/-! DEFINITION. One step of the machine, and the placing of an instruction where the next step runs it. -/

namespace Sys2Proof.Machine

open Sys2Proof

/-- One step: the atomic step of the agent whose turn it is (R12, R20). A configuration that breaks R7 is refused. -/
def step (s : State) : Host.Outcome State Fault Refusal :=
  if s.cfg.wf then takeTurn (nextTurn s).1 (nextTurn s).2 else .refused .badConfig

/-- The state with the instruction a table word stands for placed where the next step runs it: a descriptor on the command
port, or a frame received by the flash and about to end. DESIGN CHOICE (notes/assumptions/14.md). -/
def State.withFetchWord (s : State) (nbits w : Nat) : State := withCode (codeOfTableWord s.cfg nbits w) s

end Sys2Proof.Machine
end

