-- ==== Sys2Proof/Safety.lean ====
section
/-! DEFINITION. What a run is and what a claim may speak of: the sticky marks of spec/10_state.md R44, the outcome classes of
spec/60_exceptions.md R171, the final states of R212 as far as they are known after a transport
failure (R176), the premises of R192 and R152, and the invariants of the machine. -/

namespace Sys2Proof.Machine

open Sys2Proof

/-! ### Runs and their marks (R44, R171, R212) -/

/-- Where the run of the latest operation stands (R171): none was issued yet; it runs; its bottom frame popped, with no error
(a) or with one (b); or the reset event cut it off, which is no class of R171 (R190). A hang (c) is `running` for ever
(`Hangs`). DESIGN CHOICE (notes/assumptions/13.md). -/
inductive Phase where
  | notIssued
  | running
  | completed
  | errored (err : BitVec 2)
  | cutOff
  deriving DecidableEq, Repr

/-- The phase after a step from `s` to `t`: an operation that runs and was not reset ends when BUSY falls, which is the step
that pops the bottom frame or raises an error (R25). -/
def Phase.after (s t : State) (p : Phase) : Phase :=
  if t.seq.busy then .running
  else if s.seq.busy then
    if (nextTurn s).1 = .reset then .cutOff else if t.seq.err = 0 then .completed else .errored t.seq.err
  else p

/-- A run: the state it has reached, where its latest operation stands, and beside the hardware state the two sticky marks of
R44. DESIGN CHOICE (notes/assumptions/13.md). -/
structure Run where
  state   : State
  phase   : Phase
  faulted : Option Fault
  refused : Option Refusal
  deriving DecidableEq, Repr

/-- A run at its start: both marks are clear (R46). -/
def Run.start (s : State) : Run := ⟨s, if s.seq.busy then .running else .notIssued, none, none⟩

/-- One more step. A marked run goes no further and its marks are never cleared (R44). It keeps the state before the step that
faulted or was refused, so that its history shows no event of that step (notes/assumptions/12.md). -/
def Run.advance (r : Run) : Run :=
  match r.faulted, r.refused with
  | none, none =>
    match step r.state with
    | .next s => { r with state := s, phase := r.phase.after r.state s }
    | .fault f => { r with faulted := some f }
    | .refused e => { r with refused := some e }
  | _, _ => r

/-- `n` more steps. -/
def Run.steps : Nat → Run → Run
  | 0, r => r
  | n + 1, r => Run.steps n r.advance

/-! ### What is known after a transport failure (R53, R176, U3) -/

/-- Whether an event is a bus transaction (R47). -/
def Event.isBus : Event → Bool
  | .busRead _ _ => true
  | .busWrite _ _ => true
  | _ => false

/-- How many bus transactions the history records (R47, R137). -/
def busTransactions (s : State) : Nat := (s.hist.filter Event.isBus).length

/-- Whether a transaction has failed in the transport: from then on what the chip holds, and what reached the flash through it,
is unknown (R176, U3), though the model has the failed transaction do nothing. Sticky, because the history only grows. -/
def chipUnknown (s : State) : Bool := s.hist.contains (.raised .transportFailure)

/-- A history, newest event first, up to the first transport failure, the failure included: what comes after it rests on what the
chip holds. -/
def upToFailure : List Event → List Event
  | [] => []
  | e :: older => if older.contains (.raised .transportFailure) then upToFailure older else e :: older

/-- The part of the history a claim may rely on: the transactions before the first transport failure (R176, U3). -/
def knownHistory (s : State) : List Event := upToFailure s.hist

/-- Whether the block has made no transaction since the first transport failure, if there was one: then ERR, RESULT and whether an
operation runs owe nothing to what the chip holds (R176, U3). DESIGN CHOICE (notes/assumptions/11.md). -/
def controlKnown (s : State) : Bool :=
  decide (busTransactions s = ((knownHistory s).filter Event.isBus).length)

/-- The outcome classes of a run of one operation (R171), and beside them what is none yet or none at all: no operation issued,
one still running, one that the reset event cut off. `unknown`: which class it is rests on what the chip holds after a transport
failure, so no claim may say (R176, U3). DESIGN CHOICE (notes/assumptions/11.md). -/
inductive RunOutcome where
  | ended (p : Phase)
  | faulted (f : Fault)
  | refused (r : Refusal)
  | unknown
  deriving DecidableEq, Repr

/-- The class a run is in (R171), as far as a claim may say (R176, U3). -/
def Run.outcome (r : Run) : RunOutcome :=
  match r.faulted, r.refused with
  | some f, _ => if chipUnknown r.state then .unknown else .faulted f
  | none, some e => if chipUnknown r.state then .unknown else .refused e
  | none, none => if controlKnown r.state then .ended r.phase else .unknown

/-- Whether a move of the host is a command; a fill is none (R45). -/
def HostMove.isIssue : HostMove → Bool
  | .fill _ _ => false
  | .issue _ => true

/-- A final state (R212): nothing faulted, nothing refused, not busy, and the host has no more commands; and not one that the block
reached by a transaction made after a transport failure, since whether it ends there rests on what the chip holds (R176, U3;
notes/assumptions/11.md). Fills still to come are no commands and keep no run from being final. -/
def Run.isFinal (r : Run) : Bool :=
  r.faulted.isNone && r.refused.isNone && !r.state.seq.busy && !r.state.host.moves.any HostMove.isIssue
    && controlKnown r.state

/-- What a claim may speak of in a final state (R212): ERR, RESULT, the chip and the flash unless they are unknown, and the event
history as far as it owes nothing to what the chip holds after a transport failure (R176, U3). -/
structure FinalState where
  err    : BitVec 2
  result : Word
  chip   : Option Chip
  flash  : Option Flash
  hist   : List Event
  deriving DecidableEq, Repr

/-- The final state of a run, if it has one (R176, R212). After a transport failure it shows neither the chip nor the flash and no
later event, and once the block has made another transaction there is none. -/
def Run.final (r : Run) : Option FinalState :=
  if r.isFinal then
    some
      { err := r.state.seq.err
        result := r.state.seq.result
        chip := if chipUnknown r.state then none else some r.state.chip
        flash := if chipUnknown r.state then none else some r.state.flash
        hist := knownHistory r.state }
  else none

/-! ### Runs without an end (R152, R166, R180, R211) -/

/-- The run from `s` reaches `t` in `n` steps. -/
def Reaches (s : State) (n : Nat) (t : State) : Prop := Host.Core.run Sys2Proof.core n s = .next t

/-- A hang (R171 (c), R180): the run is infinite and BUSY is 1 for ever. -/
def Hangs (s : State) : Prop := ∀ n, ∃ t, Reaches s n t ∧ t.seq.busy = true

/-- The operation in progress ends: BUSY falls (R25). -/
def Ends (s : State) : Prop := ∃ n t, Reaches s n t ∧ t.seq.busy = false

/-- The sequencer takes its turn again and again while it is busy: between two bus transactions the other agents take a finite
number of steps (R12). -/
def SequencerFair (s : State) : Prop :=
  ∀ n t, Reaches s n t → t.seq.busy = true →
    ∃ m u, Reaches t m u ∧ (u.seq.busy = false ∨ (nextTurn u).1 = .seq ∨ (nextTurn u).1 = .seqFails)

/-! ### Premises -/

/-- The launch premises L1 to L3 (R192): no transfer in flight, chip-select deasserted, the flash idle and not
write-enabled. -/
def launchPremises (s : State) : Bool :=
  s.chip.fly.isNone && !s.chip.cs && !s.flash.wip && !s.flash.wel && s.flash.frame.isEmpty
    && decide (s.flash.pending = .none)

/-- No turn of a schedule's later part lets a transaction fail: a free schedule may. -/
def Later.transportOk : Later → Bool
  | .prompt => true
  | .cycle t rest => (t :: rest).all (fun u => decide (u ≠ .seqFails))
  | .free _ => false

/-- The premise TRANSPORT_OK, L4 (R53, R192): no transaction fails. -/
def transportOk (s : State) : Bool :=
  !s.env.transportFails && s.env.sched.all (fun t => decide (t ≠ .seqFails)) && s.env.later.transportOk

/-- A quiet environment: no schedule is left, what follows it is prompt, and the transport does not fail. From here on the engine
is prompt (premise ENGINE_PROMPT, R152): `defaultTurn` completes every transfer before the next bus transaction. -/
def quiet (s : State) : Bool := s.env.sched.isEmpty && decide (s.env.later = .prompt) && !s.env.transportFails

/-- The sequencer is Idle (R23, R25). -/
def idle (s : State) : Bool := s.seq.pc.isEmpty && !s.seq.busy

/-- The operation `i` is in progress, its frames are `pc`, and the next transaction will not fail in the transport. -/
def runningAt (i : Instr) (pc : List Frame) (s : State) : Bool :=
  s.seq.busy && decide (s.seq.pc = pc) && decide (topLevelOp s = some i) && !s.env.transportFails

/-- The chip is at rest as an operation of the block leaves it, master SPI enabled (R121 to R124, R136): no transfer in flight,
and either mode idle with chip-select deasserted, or chip-select asserted in another mode with a status-read frame open. -/
def atRest (s : State) : Bool :=
  s.chip.fly.isNone && msenFlag s.cfg s.chip.spictl
    && (if modeOf s.cfg s.chip.spictl = .idle then !s.chip.cs
        else s.chip.cs && decide (s.flash.frame.head? = some s.cfg.opRdsr))

/-! ### The effect of a write to SPICTL, part by part (R142 to R145) -/

/-- The write is stored: every bit of `v` but DONE (R142). -/
def controlStored (v : Word) (s : State) : State :=
  { s with
    chip := { s.chip with spictl := keepDone s.cfg s.chip.spictl v }
    hist := .busWrite s.cfg.regSpictl v :: s.hist }

/-- Chip-select falls and the open frame ends (R143); the flash has not acted on it yet. -/
def deselected (s : State) : State :=
  { s with
    chip := { s.chip with cs := false }
    hist := .frameEnd s.flash.frame :: .csDeassert :: s.hist }

/-- Chip-select rises and a new, empty frame begins (R144, R156). -/
def selected (s : State) : State :=
  { s with
    chip := { s.chip with cs := true }
    flash := { s.flash with frame := [], frameStatus := none }
    hist := .csAssert :: s.hist }

/-- A transfer has started: DONE falls, the byte count and SPITX are sampled, no byte has moved (R145). -/
def transferStarted (s : State) : State :=
  { s with
    chip :=
      { s.chip with
        spictl := s.chip.spictl &&& ~~~(bitMask s.cfg.doneBit)
        fly := some ⟨transferBytes s.cfg s.chip.spictl, s.chip.spitx⟩ }
    hist := .xferStart (transferBytes s.cfg s.chip.spictl) s.chip.spitx :: s.hist }

/-- SPITX is written (R147), from the working register WORD (R21). -/
def wordSent (w : Word) (s : State) : State :=
  { s with
    seq := { s.seq with word := w }
    chip := { s.chip with spitx := w }
    hist := .busWrite s.cfg.regSpitx w :: s.hist }

/-- SPICTL is read into TMP (R11). -/
def controlRead (s : State) : State :=
  { s with
    seq := { s.seq with tmp := s.chip.spictl }
    hist := .busRead s.cfg.regSpictl s.chip.spictl :: s.hist }

/-- The frames on the stack when an operation that begins by reading SPICTL has made that read: the calls it begins with
(R110 to R113, R121 to R124, R131), top first. WAITDONE, IRW and IRR begin otherwise. -/
def framesAfterFirstRead : Instr → List Frame
  | .mspien => [⟨.mspien, 1⟩]
  | .mspidis => [⟨.mspidis, 1⟩]
  | .setmode m => [⟨.setmode m, 1⟩]
  | .setcnt c => [⟨.setcnt c, 1⟩]
  | .rdstatus => [⟨.setmode .idle, 1⟩, ⟨.rdstatus, 0⟩]
  | .sendcmd op => [⟨.setmode .idle, 1⟩, ⟨.sendcmd op, 0⟩]
  | .erase a => [⟨.setmode .idle, 1⟩, ⟨.erase a, 0⟩]
  | .waitflash => [⟨.setmode .idle, 1⟩, ⟨.rdstatus, 0⟩, ⟨.waitflash, 1⟩]
  | .progpage a n => [⟨.mspien, 1⟩, ⟨.progpage a n, 0⟩]
  | _ => []

/-- Whether an operation begins by reading SPICTL into TMP: all but IRW, IRR and WAITDONE. -/
def beginsWithRead (i : Instr) : Bool := !(framesAfterFirstRead i).isEmpty

/-- The status-read counter when an operation begins: WAITFLASH zeroes it (R124). -/
def fpollsAtStart (i : Instr) (s : State) : Word :=
  match i with
  | .waitflash => 0
  | _ => s.seq.fpolls

/-- The state when operation `i`, called by the frames `callers`, has made its first transaction, the read of SPICTL (R24 (b)).
-/
def opBegun (i : Instr) (callers : List Frame) (s : State) : State :=
  { controlRead s with
    seq :=
      { s.seq with
        tmp := s.chip.spictl
        fpolls := fpollsAtStart i s
        pc := framesAfterFirstRead i ++ callers } }

/-- The value an operation writes back to SPICTL at its label 1, from the value in TMP (R110 to R113). -/
def valueWrittenBack (c : Cfg) (tmp : Word) : Instr → Option Word
  | .mspien => some (withMode c tmp .idle ||| bitMask c.msenBit)
  | .mspidis => some (withMode c tmp .idle &&& ~~~(bitMask c.msenBit))
  | .setmode m => some (withMode c tmp m)
  | .setcnt n => some (withCount c tmp n)
  | _ => none

/-- The word an operation writes to SPITX, at the label that does it (R121 to R123, R131). -/
def commandWordAt (c : Cfg) (addr : Word) (f : Frame) : Option Word :=
  match f.op with
  | .rdstatus => if f.label = 2 then some (c.opRdsr ++ (0 : BitVec 24)) else none
  | .sendcmd op => if f.label = 2 then some (op ++ (0 : BitVec 24)) else none
  | .erase _ => if f.label = 2 then some (c.opSe ++ addr.extractLsb' 0 24) else none
  | .progpage _ _ => if f.label = 9 then some (c.opPp ++ addr.extractLsb' 0 24) else none
  | _ => none

/-- Whether an operation uses the operand field `a0` of its descriptor (R78). -/
def usesA0 : Instr → Bool
  | .irw _ _ => true
  | .irr _ => true
  | .setmode _ => true
  | .setcnt _ => true
  | .sendcmd _ => true
  | .erase _ => true
  | .progpage _ _ => true
  | _ => false

/-- Whether an operation uses the operand field `a1` of its descriptor (R78). -/
def usesA1 : Instr → Bool
  | .irw _ _ => true
  | .progpage _ _ => true
  | _ => false

/-- Whether an event is the end of a status-read frame (R47, R162). -/
def Event.isStatusRead (c : Cfg) : Event → Bool
  | .frameEnd bytes => decide (bytes.head? = some c.opRdsr)
  | _ => false

/-- How many status reads the history records: each is a frame of its own, which the next operation ends (R124). -/
def statusReads (s : State) : Nat := (s.hist.filter (Event.isStatusRead s.cfg)).length

/-! ### The premises of progress (R152, R166) -/

/-- The premise ENGINE_FAIR (R152): every transfer in flight is completed after finitely many bus transactions: a run that makes
ever more of them reaches a state with no transfer in flight. -/
def EngineFair (s : State) : Prop :=
  ∀ n t, Reaches s n t → t.chip.fly ≠ none →
    (∀ k, ∃ m u, Reaches t m u ∧ busTransactions t + k ≤ busTransactions u) → ∃ m u, Reaches t m u ∧ u.chip.fly = none

/-- The premise ENGINE_PROMPT (R152): every transfer is completed before the sequencer's next bus transaction. -/
def EnginePrompt (s : State) : Prop :=
  ∀ n t, Reaches s n t → t.chip.fly ≠ none → t.seq.busy = true → (nextTurn t).1 ≠ .seq ∧ (nextTurn t).1 ≠ .seqFails

/-- The premise FLASH_FAIR (R166): every operation of the flash finishes after finitely many status reads: a run that makes ever
more of them reaches a state in which the flash is not busy. -/
def FlashFair (s : State) : Prop :=
  ∀ n t, Reaches s n t → t.flash.wip = true →
    (∀ k, ∃ m u, Reaches t m u ∧ statusReads t + k ≤ statusReads u) → ∃ m u, Reaches t m u ∧ u.flash.wip = false

/-! ### Invariants -/

/-- BUSY is 1 exactly while `pc` is not Idle (R24 (d), R25). -/
def busyMeansRunning (s : State) : Bool := s.seq.busy == !s.seq.pc.isEmpty

/-- The call a caller frame waits at: which operation a label calls (R113, R121 to R124, R131). -/
def calleeAt (c : Cfg) (f : Frame) : Option Instr :=
  match f.op with
  | .setcnt _ => if f.label = 2 then some (.setmode .transfer) else none
  | .rdstatus =>
    match f.label with
    | 0 => some (.setmode .idle)
    | 1 => some (.setmode .enable)
    | 3 => some (.setcnt 3)
    | 4 => some .waitdone
    | 5 => some (.setmode .update)
    | 6 => some (.setmode .transfer)
    | 7 => some .waitdone
    | _ => none
  | .sendcmd _ =>
    match f.label with
    | 0 => some (.setmode .idle)
    | 1 => some (.setmode .enable)
    | 3 => some (.setcnt (cntVal 1))
    | 4 => some .waitdone
    | 5 => some (.setmode .idle)
    | _ => none
  | .erase _ =>
    match f.label with
    | 0 => some (.setmode .idle)
    | 1 => some (.setmode .enable)
    | 3 => some (.setcnt (cntVal 4))
    | 4 => some .waitdone
    | 5 => some (.setmode .idle)
    | _ => none
  | .waitflash => if f.label = 1 then some .rdstatus else none
  | .progpage a _ =>
    match f.label with
    | 0 => some .mspien
    | 2 => some .waitflash
    | 3 => some (.sendcmd c.opWren)
    | 4 => some (.erase a)
    | 5 => some .waitflash
    | 6 => some (.sendcmd c.opWren)
    | 7 => some (.setmode .idle)
    | 8 => some (.setmode .enable)
    | 10 => some (.setcnt 3)
    | 11 => some .waitdone
    | 15 => some (.setmode .enable)
    | 16 => some (.setmode .transfer)
    | 17 => if c.ppWordWait then some .waitdone else none
    | 19 => some .waitflash
    | _ => none
  | _ => none

/-- The labels of an operation (R102, R103, R110 to R114, R121 to R124, R131): the last one. -/
def lastLabel : Instr → Nat
  | .irw _ _ => 0
  | .irr _ => 0
  | .mspien => 1
  | .mspidis => 1
  | .setmode _ => 1
  | .setcnt _ => 2
  | .waitdone => 1
  | .rdstatus => 8
  | .sendcmd _ => 5
  | .erase _ => 5
  | .waitflash => 1
  | .progpage _ _ => 19
  | .flashRdsr _ => 0
  | .flashWren => 0
  | .flashSe _ => 0
  | .flashPp _ _ => 0

/-- Each frame was called by the frame below it, at the label that calls it (R24 (b)). -/
def callsOk (c : Cfg) : List Frame → Bool
  | [] => true
  | [_] => true
  | f :: g :: rest => decide (calleeAt c g = some f.op) && callsOk c (g :: rest)

/-- The control state is one the micro-programs can reach (R23, R24): the top frame is a micro-step of an operation and each
frame was called by the one below. -/
def stackOk (s : State) : Bool :=
  callsOk s.cfg s.seq.pc && s.seq.pc.all (fun f => f.op.isCommand && decide (f.label ≤ lastLabel f.op))

/-- The operand registers hold the operands of the operation in progress (R45). -/
def operandsLoaded (s : State) : Bool :=
  match topLevelOp s with
  | some (.erase a) => s.seq.addr == a
  | some (.progpage a n) => s.seq.addr == a && s.seq.cnt == n
  | _ => true

/-- The control state is legal: BUSY tells whether an operation runs, the frames are those of the micro-programs, the operand
registers hold its operands, no error is recorded while it runs, and the reserved error code never occurs (R24, R25, R45,
R175). -/
def ControlInv (s : State) : Prop :=
  busyMeansRunning s = true ∧ stackOk s = true ∧ operandsLoaded s = true ∧ (s.seq.busy = true → s.seq.err = 0)
    ∧ s.seq.err ≠ 3

/-- The top frame is at the write half of a read-modify-write of SPICTL (R11, R110 to R113). -/
def atWriteBack (s : State) : Bool :=
  match s.seq.pc with
  | [] => false
  | f :: _ =>
    match f.op with
    | .mspien => decide (f.label ≠ 0)
    | .mspidis => decide (f.label ≠ 0)
    | .setmode _ => decide (f.label ≠ 0)
    | .setcnt _ => decide (f.label = 1)
    | _ => false

/-- At the write half of a read-modify-write TMP holds what SPICTL holds, in every bit but DONE: nothing else has written the
register since the read half (R115, R200). -/
def FreshInv (s : State) : Prop :=
  atWriteBack s = true → ∀ b, b < 32 → b ≠ s.cfg.doneBit → s.seq.tmp.getLsbD b = s.chip.spictl.getLsbD b

/-- While PROGPAGE runs its count fits the buffer, and inside its data loop `IDX` is a multiple of 4 between 0 and `CNT`
(R13 (d), R132 (b), R135): no index outside the buffer is read and `IDX` never wraps. -/
def BufferInv (s : State) : Prop :=
  ∀ f a n, s.seq.pc.getLast? = some f → f.op = .progpage a n →
    s.seq.cnt.toInt ≤ (s.cfg.bufCap : Int) ∧
    (13 ≤ f.label → f.label ≤ 18 → 0 ≤ s.seq.idx.toInt ∧ s.seq.idx.toInt % 4 = 0) ∧
    (14 ≤ f.label → f.label ≤ 18 → s.seq.idx.toInt < s.seq.cnt.toInt)

/-- The engine's state is legal (R142 to R154): chip-select is asserted exactly when the mode is not idle, the mode is idle
while master SPI is disabled, and a transfer in flight moves 1 to 4 bytes, in mode transfer, with DONE 0. -/
def EngineInv (s : State) : Prop :=
  (s.chip.cs = true ↔ modeOf s.cfg s.chip.spictl ≠ .idle) ∧
  (msenFlag s.cfg s.chip.spictl = false → modeOf s.cfg s.chip.spictl = .idle) ∧
  ∀ f, s.chip.fly = some f →
    1 ≤ f.n ∧ f.n ≤ 4 ∧ modeOf s.cfg s.chip.spictl = .transfer ∧ doneFlag s.cfg s.chip.spictl = false

/-- The flash's state is legal (R156, R160, R161, R166): it is busy exactly while an operation is recorded. -/
def FlashInv (s : State) : Prop := s.flash.wip = true ↔ s.flash.pending ≠ .none

/-- The stores are in canonical form: equal contents are equal data. -/
def StoresCanonical (s : State) : Prop :=
  Memory.wf unlistedFlash s.flash.fm = true ∧ Memory.wf unlistedBuf s.host.buf = true
    ∧ Memory.wf unlistedReg s.chip.other = true

end Sys2Proof.Machine
end

