-- ==== Sys2Proof/Certificates/Slice0/Obligations.lean ====
section
/-! DEFINITION. The statements for the provers. Each docstring names the rules of spec/ it formalises. A statement that rests on
a choice of the model names the log entry.

`runningAt i pc s` says that operation `i` is in progress, that its frames are `pc`, top first, and that the next transaction
does not fail in the transport; with one frame the operation was issued by the host, with more it is nested. `returnTo callers`
is the return to the frames below, `ReturnsReachTheCaller` says what that does. -/

open Sys2Proof Sys2Proof.Machine

/-! ## Encodings -/

/-- R78, R82, R86: one word of each row of the opcode table. That a word of 8 bits stands for the frame with operand bytes of zero is
the model's choice (notes/assumptions/15.md); the status frame that RDSTATUS sends has OP_RDSR again at its fifth byte (R82). -/
def Obligations.TableWordsDecode : Prop :=
  decodeTableWord 68 0x100000010DEADBEEF = some (.irw 0x10 0xDEADBEEF) ∧
  decodeTableWord 68 0x20000001200000000 = some (.irr 0x12) ∧
  decodeTableWord 68 0x30000000000000000 = some .mspien ∧
  decodeTableWord 68 0x40000000000000000 = some .mspidis ∧
  decodeTableWord 68 0x50000000200000000 = some (.setmode .transfer) ∧
  decodeTableWord 68 0x60000000300000000 = some (.setcnt 3) ∧
  decodeTableWord 68 0x70000000000000000 = some .waitdone ∧
  decodeTableWord 68 0x80000000000000000 = some .rdstatus ∧
  decodeTableWord 68 0x90000000600000000 = some (.sendcmd 0x06) ∧
  decodeTableWord 68 0xA0000100000000000 = some (.erase 0x1000) ∧
  decodeTableWord 68 0xB0000000000000000 = some .waitflash ∧
  decodeTableWord 68 0xC0000100400000004 = some (.progpage 0x1004 4) ∧
  decodeTableWord 8 0x05 = some (.flashRdsr [0, 0, 0, 0, 0, 0, 0]) ∧
  decodeTableWord 8 0x06 = some .flashWren ∧
  decodeTableWord 8 0x20 = some (.flashSe 0) ∧
  decodeTableWord 8 0x02 = some (.flashPp 0 [0])

/-- R77 to R80: what a descriptor with operation code `op` and operands `a0`, `a1` decodes to, for every operation code and
every operand. The range of SETCNT's operand and the count of PROGPAGE depend on the configuration and are checked at
acceptance (`IllFormedCommandsRefused`). -/
def Obligations.DescriptorOperandsDecode : Prop :=
  ∀ a0 a1 : Word,
    decodeDescriptor (descriptor 0x0 a0 a1) = .error .reservedOp ∧
    decodeDescriptor (descriptor 0x1 a0 a1)
      = (if a0.toNat < 256 then .ok (.irw (a0.extractLsb' 0 8) a1) else .error .operandRange) ∧
    decodeDescriptor (descriptor 0x2 a0 a1)
      = (if a0.toNat < 256 then .ok (.irr (a0.extractLsb' 0 8)) else .error .operandRange) ∧
    decodeDescriptor (descriptor 0x3 a0 a1) = .ok .mspien ∧
    decodeDescriptor (descriptor 0x4 a0 a1) = .ok .mspidis ∧
    decodeDescriptor (descriptor 0x5 a0 a1)
      = (if a0 = 0 then .ok (.setmode .idle) else if a0 = 1 then .ok (.setmode .enable)
         else if a0 = 2 then .ok (.setmode .transfer) else if a0 = 3 then .ok (.setmode .update)
         else .error .operandRange) ∧
    decodeDescriptor (descriptor 0x6 a0 a1) = .ok (.setcnt a0) ∧
    decodeDescriptor (descriptor 0x7 a0 a1) = .ok .waitdone ∧
    decodeDescriptor (descriptor 0x8 a0 a1) = .ok .rdstatus ∧
    decodeDescriptor (descriptor 0x9 a0 a1)
      = (if a0.toNat < 256 then .ok (.sendcmd (a0.extractLsb' 0 8)) else .error .operandRange) ∧
    decodeDescriptor (descriptor 0xA a0 a1)
      = (if a0.toNat < 2 ^ 24 then .ok (.erase a0) else .error .operandRange) ∧
    decodeDescriptor (descriptor 0xB a0 a1) = .ok .waitflash ∧
    decodeDescriptor (descriptor 0xC a0 a1)
      = (if a0.toNat < 2 ^ 24 then .ok (.progpage a0 a1) else .error .operandRange) ∧
    decodeDescriptor (descriptor 0xD a0 a1) = .error .reservedOp ∧
    decodeDescriptor (descriptor 0xE a0 a1) = .error .reservedOp ∧
    decodeDescriptor (descriptor 0xF a0 a1) = .error .reservedOp

/-- Decode and encode agree, for every instruction, every operand and every configuration (R77 to R79, R82). -/
def Obligations.DecodeOfEncode : Prop :=
  ∀ (c : Cfg) (i : Instr), c.wf = true → i.fieldsOk = true → decode c (encode c i) = .ok i

/-- What decodes was encoded so: no code stands for an instruction that the encoder writes otherwise, but for the operand fields
an operation does not use (R77, R82). -/
def Obligations.EncodeOfDecode : Prop :=
  (∀ (c : Cfg) (d : BitVec 68) (i : Instr), decode c (.descriptor d) = .ok i →
    i.isCommand = true ∧ i.fieldsOk = true ∧
    ∃ e, encode c i = .descriptor e ∧ descOp e = descOp d ∧
      (usesA0 i = true → descA0 e = descA0 d) ∧ (usesA1 i = true → descA1 e = descA1 d)) ∧
  (∀ (c : Cfg) (bytes : List Byte) (i : Instr), decode c (.frame bytes) = .ok i →
    i.isCommand = false ∧ encode c i = .frame bytes)

/-- R86: under the decided opcode values a code that decodes is covered by exactly one row of the opcode table, its
instruction's. -/
def Obligations.DecodedCodeHasOneRow : Prop :=
  ∀ (code : Code) (i : Instr), decode refCfg code = .ok i → rowsOf code = [i.mnemonic]

/-! ## Reset, the host, and the step -/

/-- R46, R190: after reset the block is Idle, not busy and without error. The other clauses rest on the model's choices: that the
configuration is well formed on REFCFG at reset (notes/assumptions/1.md); the launch premises L1 to L3 (R192), which R46 leaves
unspecified, on notes/assumptions/5.md; and `EngineInv` on SPICTL being zero at reset, that is mode idle, which R46 leaves
unspecified too (notes/assumptions/5.md). -/
def Obligations.ResetState : Prop :=
  State.reset.seq.pc = [] ∧ State.reset.seq.busy = false ∧ State.reset.seq.err = 0 ∧
  launchPremises State.reset = true ∧ State.reset.cfg.wf = true ∧
  ControlInv State.reset ∧ EngineInv State.reset ∧ FlashInv State.reset ∧ StoresCanonical State.reset ∧
  FreshInv State.reset ∧ BufferInv State.reset

/-- R190, R192: the reset event, at any moment: the block is Idle, not busy, without error; the chip, the flash, the buffer and
the history stay as they are. -/
def Obligations.ResetEvent : Prop :=
  ∀ s : State, s.cfg.wf = true → (nextTurn s).1 = .reset →
    ∃ t, step s = .next t ∧ t.seq.pc = [] ∧ t.seq.busy = false ∧ t.seq.err = 0 ∧
      t.cfg = s.cfg ∧ t.chip = s.chip ∧ t.flash = s.flash ∧ t.host = s.host ∧ t.hist = s.hist

/-- R45 (b), R175: acceptance of each of the twelve operations, one step. BUSY rises, ERR is cleared, `pc` is at the first label,
ADDR is loaded for ERASE and PROGPAGE, CNT for PROGPAGE, and nothing else changes. -/
def Obligations.Acceptance : Prop :=
  ∀ (i : Instr) (s : State), i.isCommand = true → s.seq.busy = false → i.wf s.cfg = true →
    exec i s = .next
      { s with
        seq :=
          { s.seq with
            busy := true
            err := 0
            pc := [⟨i, 0⟩]
            addr := match i with | .erase a => a | .progpage a _ => a | _ => s.seq.addr
            cnt := match i with | .progpage _ n => n | _ => s.seq.cnt } }

/-- R79, R80, R120, R132: a descriptor the block refuses when the host issues it. A configuration outside R7 is refused too (R7);
three bounds beyond R7's words, and that of POLL_LIMIT, are the model's own (notes/assumptions/3.md). -/
def Obligations.IllFormedCommandsRefused : Prop :=
  (∀ s : State, s.cfg.wf = false → step s = .refused .badConfig) ∧
  ∀ (s : State) (d : BitVec 68) (rest : List HostMove),
    s.cfg.wf = true → (nextTurn s).1 = .host → s.seq.busy = false → s.host.moves = .issue d :: rest →
    ((descOp d = 0x0 ∨ descOp d = 0xD ∨ descOp d = 0xE ∨ descOp d = 0xF) → step s = .refused .reservedOp) ∧
    ((descOp d = 0x1 ∨ descOp d = 0x2 ∨ descOp d = 0x9) → 2 ^ 8 ≤ (descA0 d).toNat →
      step s = .refused .operandRange) ∧
    (descOp d = 0x5 → 4 ≤ (descA0 d).toNat → step s = .refused .operandRange) ∧
    (descOp d = 0x6 → 2 ^ s.cfg.nbW ≤ (descA0 d).toNat → step s = .refused .operandRange) ∧
    ((descOp d = 0xA ∨ descOp d = 0xC) → 2 ^ 24 ≤ (descA0 d).toNat → step s = .refused .operandRange) ∧
    (descOp d = 0xC → (descA0 d).toNat < 2 ^ 24 → (s.cfg.bufCap : Int) < (descA1 d).toInt →
      step s = .refused .countExceedsBuffer)

/-- R45 (b), R201: a descriptor presented while BUSY is 1 is not accepted, not queued and has no effect; and an operation that is
not the one in progress takes no step. -/
def Obligations.BusyIgnoresCommands : Prop :=
  (∀ (s : State) (d : BitVec 68) (rest : List HostMove),
    s.cfg.wf = true → (nextTurn s).1 = .host → s.seq.busy = true → s.host.moves = .issue d :: rest →
    step s = .next { (nextTurn s).2 with host := { s.host with moves := rest } }) ∧
  ∀ (i : Instr) (s : State), i.isCommand = true → s.seq.busy = true → topLevelOp s ≠ some i → exec i s = .next s

/-- R45 (a), R36, R55: the host fills the buffer only while the block is not busy; the bytes land at consecutive indices, every
other index reads as before, and nothing but the buffer changes. That a fill presented while busy waits, and that one beyond
BUF_CAP is refused, are the model's choices (notes/assumptions/16.md). -/
def Obligations.HostFillsBuffer : Prop :=
  ∀ (s : State) (a : Nat) (bytes : List Byte) (rest : List HostMove),
    s.cfg.wf = true → (nextTurn s).1 = .host → s.host.moves = .fill a bytes :: rest →
    Memory.wf unlistedBuf s.host.buf = true →
    (s.seq.busy = true → step s = .next (nextTurn s).2) ∧
    (s.seq.busy = false → s.cfg.bufCap < a + bytes.length → step s = .refused .bufferIndex) ∧
    (s.seq.busy = false → a + bytes.length ≤ s.cfg.bufCap →
      ∃ t, step s = .next t ∧ t.host.moves = rest ∧
        (∀ k, k < bytes.length → bufByte t (a + k) = bytes.getD k 0) ∧
        (∀ k, k < a ∨ a + bytes.length ≤ k → bufByte t k = bufByte s k) ∧
        t.cfg = s.cfg ∧ t.seq = s.seq ∧ t.chip = s.chip ∧ t.flash = s.flash ∧ t.hist = s.hist)

/-- A step runs the decoded instruction: a descriptor the host issues (R45), the operation in progress (R23, R24), and the frame
that ends when chip-select falls (R156). -/
def Obligations.StepRunsDecodedInstruction : Prop :=
  (∀ (s : State) (d : BitVec 68) (rest : List HostMove) (i : Instr),
    s.cfg.wf = true → (nextTurn s).1 = .host → s.seq.busy = false → s.host.moves = .issue d :: rest →
    decode s.cfg (.descriptor d) = .ok i →
    step s = exec i { (nextTurn s).2 with host := { s.host with moves := rest } }) ∧
  (∀ (s : State) (i : Instr),
    s.cfg.wf = true → (nextTurn s).1 = .seq → s.seq.busy = true → topLevelOp s = some i →
    step s = exec i (nextTurn s).2) ∧
  (∀ (s : State) (i : Instr), decode s.cfg (.frame s.flash.frame) = .ok i → endFrame s = exec i s)

/-! ## Register access -/

/-- R102, R147: IRW to SPITX, to SPIRX and to a register of no name: one write, stored, with no other effect, and the operation
ends. -/
def Obligations.IrwStores : Prop :=
  ∀ (r : RegNum) (v : Word) (s : State), s.cfg.wf = true → runningAt (.irw r v) [⟨.irw r v, 0⟩] s = true →
    (r = s.cfg.regSpitx → s.chip.fly = none →
      exec (.irw r v) s = .next
        { s with
          seq := { s.seq with pc := [], busy := false }
          chip := { s.chip with spitx := v }
          hist := .busWrite r v :: s.hist }) ∧
    (r = s.cfg.regSpirx → s.chip.fly = none →
      exec (.irw r v) s = .next
        { s with
          seq := { s.seq with pc := [], busy := false }
          chip := { s.chip with spirx := v }
          hist := .busWrite r v :: s.hist }) ∧
    (namedReg s.cfg r = false →
      exec (.irw r v) s = .next
        { s with
          seq := { s.seq with pc := [], busy := false }
          chip := { s.chip with other := Memory.write unlistedReg s.chip.other r.toNat v }
          hist := .busWrite r v :: s.hist })

/-- R102 (a), R142 to R146, R151, R153, R154: IRW to SPICTL. Every bit is stored but DONE, and a change of the mode has the effect the
table of R154 gives it; the changes R145, R151, R153 and R154 refuse are refused; that a change out of transfer or update with chip-select
deasserted is one of them is DEDUCED (notes/assumptions/9.md). The change to idle that ends an open frame is in `OpenFrameEnds`,
with those of the other operations. -/
def Obligations.IrwControl : Prop :=
  ∀ (r : RegNum) (v : Word) (s : State), s.cfg.wf = true → runningAt (.irw r v) [⟨.irw r v, 0⟩] s = true →
    r = s.cfg.regSpictl → s.chip.fly = none →
    let om := modeOf s.cfg s.chip.spictl
    let nm := modeOf s.cfg v
    (nm = .idle → om = .idle ∨ s.chip.cs = false → exec (.irw r v) s = .next (finish (controlStored v s))) ∧
    (nm = .enable → msenFlag s.cfg v = true → om = .enable ∨ s.chip.cs = true →
      exec (.irw r v) s = .next (finish (controlStored v s))) ∧
    (nm = .enable → msenFlag s.cfg v = true → om ≠ .enable → s.chip.cs = false →
      exec (.irw r v) s = .next (finish (selected (controlStored v s)))) ∧
    (nm = .transfer → msenFlag s.cfg v = true → om = .enable ∨ om = .update → s.chip.cs = true →
      transferBytes s.cfg v ≤ 4 → exec (.irw r v) s = .next (finish (transferStarted (controlStored v s)))) ∧
    (nm = .update → msenFlag s.cfg v = true → om = .enable ∨ om = .transfer → s.chip.cs = true →
      exec (.irw r v) s = .next (finish (controlStored v s))) ∧
    (msenFlag s.cfg v = false → nm ≠ .idle → exec (.irw r v) s = .refused .msenOff) ∧
    (msenFlag s.cfg v = true → nm = .transfer ∨ nm = .update → om = nm →
      exec (.irw r v) s = .refused .modeRewritten) ∧
    (msenFlag s.cfg v = true → nm = .transfer ∨ nm = .update → om ≠ nm → om = .idle ∨ s.chip.cs = false →
      exec (.irw r v) s = .refused .notSelected) ∧
    (msenFlag s.cfg v = true → nm = .transfer → om = .enable ∨ om = .update → s.chip.cs = true →
      4 < transferBytes s.cfg v → exec (.irw r v) s = .refused .byteCount)

/-- R103, R141: IRR: one read, RESULT takes the value, and the operation ends. Of SPIRX while a transfer is in flight the value
is free (notes/assumptions/6.md). -/
def Obligations.IrrReads : Prop :=
  ∀ (r : RegNum) (s : State), s.cfg.wf = true → runningAt (.irr r) [⟨.irr r, 0⟩] s = true →
    (r ≠ s.cfg.regSpirx ∨ s.chip.fly = none →
      ∃ v, (r = s.cfg.regSpictl → v = s.chip.spictl) ∧ (r = s.cfg.regSpitx → v = s.chip.spitx) ∧
        (r = s.cfg.regSpirx → v = s.chip.spirx) ∧
        (namedReg s.cfg r = false → v = Memory.read unlistedReg s.chip.other r.toNat) ∧
        exec (.irr r) s = .next
          { s with
            seq := { s.seq with result := v, pc := [], busy := false }
            hist := .busRead r v :: s.hist }) ∧
    (r = s.cfg.regSpirx → s.chip.fly ≠ none →
      ∃ v, exec (.irr r) s = .next
        { s with
          seq := { s.seq with result := v, pc := [], busy := false }
          env := { s.env with draws := s.env.draws + 1 }
          hist := .busRead r v :: s.hist })

/-- R150: a write to SPICTL, SPITX or SPIRX while a transfer is in flight is a fault, whichever operation issues it: IRW, the
write half of a read-modify-write, a command word and a data word. -/
def Obligations.OverlapFaults : Prop :=
  ∀ (i : Instr) (f : Frame) (callers : List Frame) (s : State),
    s.cfg.wf = true → i.isCommand = true → runningAt i (f :: callers) s = true → s.chip.fly ≠ none →
    ((∃ r v, f = ⟨.irw r v, 0⟩ ∧ namedReg s.cfg r = true) ∨
     (f.label = 1 ∧ valueWrittenBack s.cfg s.seq.tmp f.op ≠ none) ∨
     commandWordAt s.cfg s.seq.addr f ≠ none ∨
     (∃ a n, f = ⟨.progpage a n, 14⟩ ∧ s.seq.idx.toNat + 3 < s.cfg.bufCap)) →
    exec i s = .fault .engineOverlap

/-- R104: the round trip. What a write stored a read gives back, with no engine step between; of SPICTL every bit but DONE, which is the
engine's and is 0 if the write started a transfer. -/
def Obligations.WriteThenRead : Prop :=
  ∀ (r : RegNum) (v : Word) (s t : State),
    s.cfg.wf = true → Memory.wf unlistedReg s.chip.other = true → writeReg r v s = .next t →
    (r ≠ s.cfg.regSpictl → readReg r t = (v, t)) ∧
    (r = s.cfg.regSpictl → ∃ w, readReg r t = (w, t) ∧
      (∀ b, b < 32 → b ≠ s.cfg.doneBit → w.getLsbD b = v.getLsbD b) ∧
      w.getLsbD s.cfg.doneBit = (if t.chip.fly = none then s.chip.spictl.getLsbD s.cfg.doneBit else false))

/-! ## Mode control -/

/-- R11, R24, R110 to R113, R121 to R124, R131: how an operation issued by the host begins. Each of MSPIEN, MSPIDIS, SETMODE,
SETCNT, RDSTATUS, SENDCMD, ERASE, WAITFLASH and PROGPAGE first reads SPICTL into TMP, and its frames are those of the calls it
begins with. -/
def Obligations.OperationsBegin : Prop :=
  ∀ (i : Instr) (s : State), s.cfg.wf = true → beginsWithRead i = true → runningAt i [⟨i, 0⟩] s = true →
    exec i s = .next (opBegun i [] s)

/-- R24 (b), R113, R121 to R124, R131: a call, in every operation that calls: the frames of the called operation are pushed and its
first transaction, a read of SPICTL, is made in the same step. The calls of WAITDONE are in `WaitdonePolls`. -/
def Obligations.CallsBegin : Prop :=
  ∀ (i callee : Instr) (f : Frame) (callers : List Frame) (s : State),
    s.cfg.wf = true → i.isCommand = true → runningAt i (f :: callers) s = true → stackOk s = true →
    operandsLoaded s = true → calleeAt s.cfg f = some callee → callee ≠ .waitdone →
    exec i s = .next (opBegun callee (f :: callers) s)

/-- R24 (b), (d): what a return does. A caller whose call was not its last micro-step goes on at its next label; one whose call was
the last returns too; the bottom frame's return leaves the block Idle and not busy. WAITFLASH's test is `WaitflashTests`. -/
def Obligations.ReturnsReachTheCaller : Prop :=
  ∀ (callers : List Frame) (s : State),
    returnTo [] s = { s with seq := { s.seq with pc := [], busy := false } } ∧
    (∀ l, returnTo (⟨.rdstatus, l⟩ :: callers) s = setPc (⟨.rdstatus, l + 1⟩ :: callers) s) ∧
    (∀ op l, l < 5 → returnTo (⟨.sendcmd op, l⟩ :: callers) s = setPc (⟨.sendcmd op, l + 1⟩ :: callers) s) ∧
    (∀ a l, l < 5 → returnTo (⟨.erase a, l⟩ :: callers) s = setPc (⟨.erase a, l + 1⟩ :: callers) s) ∧
    (∀ a n l, l < 19 → returnTo (⟨.progpage a n, l⟩ :: callers) s = setPc (⟨.progpage a n, l + 1⟩ :: callers) s) ∧
    (∀ c, returnTo (⟨.setcnt c, 2⟩ :: callers) s = returnTo callers s) ∧
    (∀ op, returnTo (⟨.sendcmd op, 5⟩ :: callers) s = returnTo callers s) ∧
    (∀ a, returnTo (⟨.erase a, 5⟩ :: callers) s = returnTo callers s) ∧
    (∀ a n, returnTo (⟨.progpage a n, 19⟩ :: callers) s = returnTo callers s)

/-- R110, R111: MSPIEN and MSPIDIS write SPICTL back, issued by the host or nested: mode idle, MSEN set or cleared, everything else as read;
with chip-select deasserted, or the mode idle already, nothing reaches the flash. Issued by the host the operation ends. The end
of an open frame is `OpenFrameEnds`. -/
def Obligations.MasterSpiWrites : Prop :=
  ∀ (i op : Instr) (callers : List Frame) (s : State),
    s.cfg.wf = true → i.isCommand = true → op = .mspien ∨ op = .mspidis →
    runningAt i (⟨op, 1⟩ :: callers) s = true → s.chip.fly = none →
    modeOf s.cfg s.chip.spictl = .idle ∨ s.chip.cs = false →
    ∃ v, (op = .mspien → v = setfield s.seq.tmp s.cfg.modeLsb 2 (s.cfg.mIdle.setWidth 32) ||| ((1 : Word) <<< s.cfg.msenBit)) ∧
      (op = .mspidis → v = setfield s.seq.tmp s.cfg.modeLsb 2 (s.cfg.mIdle.setWidth 32) &&& ~~~((1 : Word) <<< s.cfg.msenBit)) ∧
      exec i s = .next (returnTo callers (controlStored v s))

/-- R112, R143 to R146: SETMODE writes SPICTL back, issued by the host or nested, and the engine reacts to the change of mode: to
enable, chip-select rises and a new frame begins unless it is asserted already; to transfer, a transfer starts; to update and to
idle with no frame open, nothing more. The changes R151, R153 and R154 refuse are
refused. The end of an open frame is `OpenFrameEnds`. -/
def Obligations.SetmodeWrites : Prop :=
  ∀ (i : Instr) (m : ModeName) (callers : List Frame) (s : State),
    s.cfg.wf = true → i.isCommand = true → runningAt i (⟨.setmode m, 1⟩ :: callers) s = true → s.chip.fly = none →
    let v := withMode s.cfg s.seq.tmp m
    let om := modeOf s.cfg s.chip.spictl
    (m = .idle → om = .idle ∨ s.chip.cs = false → exec i s = .next (returnTo callers (controlStored v s))) ∧
    (m = .enable → msenFlag s.cfg s.seq.tmp = true → om = .enable ∨ s.chip.cs = true →
      exec i s = .next (returnTo callers (controlStored v s))) ∧
    (m = .enable → msenFlag s.cfg s.seq.tmp = true → om ≠ .enable → s.chip.cs = false →
      exec i s = .next (returnTo callers (selected (controlStored v s)))) ∧
    (m = .transfer → msenFlag s.cfg s.seq.tmp = true → om = .enable ∨ om = .update → s.chip.cs = true →
      transferBytes s.cfg s.seq.tmp ≤ 4 →
      exec i s = .next (returnTo callers (transferStarted (controlStored v s)))) ∧
    (m = .update → msenFlag s.cfg s.seq.tmp = true → om = .enable ∨ om = .transfer → s.chip.cs = true →
      exec i s = .next (returnTo callers (controlStored v s))) ∧
    (msenFlag s.cfg s.seq.tmp = false → m ≠ .idle → exec i s = .refused .msenOff) ∧
    (msenFlag s.cfg s.seq.tmp = true → m = .transfer ∨ m = .update → om = m → exec i s = .refused .modeRewritten) ∧
    (msenFlag s.cfg s.seq.tmp = true → m = .transfer ∨ m = .update → om ≠ m → om = .idle ∨ s.chip.cs = false →
      exec i s = .refused .notSelected) ∧
    (msenFlag s.cfg s.seq.tmp = true → m = .transfer → om = .enable ∨ om = .update → s.chip.cs = true →
      4 < transferBytes s.cfg s.seq.tmp → exec i s = .refused .byteCount)

/-- R113, R151, R153: SETCNT writes the byte-count field back with the mode unchanged, then calls SETMODE transfer (`CallsBegin`); in mode
transfer or update the write is refused, and so it is in any mode but idle while master SPI is disabled. -/
def Obligations.SetcntWrites : Prop :=
  ∀ (i : Instr) (c : Word) (callers : List Frame) (s : State),
    s.cfg.wf = true → i.isCommand = true → runningAt i (⟨.setcnt c, 1⟩ :: callers) s = true → s.chip.fly = none →
    modeOf s.cfg s.seq.tmp = modeOf s.cfg s.chip.spictl →
    let om := modeOf s.cfg s.chip.spictl
    (om = .idle ∨ (om = .enable ∧ msenFlag s.cfg s.seq.tmp = true) →
      exec i s = .next
        (setPc (⟨.setcnt c, 2⟩ :: callers)
          (controlStored (setfield s.seq.tmp s.cfg.nbLsb s.cfg.nbW c) s))) ∧
    (om = .transfer ∨ om = .update → msenFlag s.cfg s.seq.tmp = true → exec i s = .refused .modeRewritten) ∧
    (om ≠ .idle → msenFlag s.cfg s.seq.tmp = false → exec i s = .refused .msenOff)

/-- R24 (b), R114, R121 to R123, R131, R172, R173: one poll of WAITDONE, issued by the host, nested, or just called: TMP and DPOLLS take the
read and its count; with DONE set it returns; at the bound it raises DeviceUnresponsive; else it polls again. -/
def Obligations.WaitdonePolls : Prop :=
  ∀ (i : Instr) (f : Frame) (callers : List Frame) (s : State),
    s.cfg.wf = true → i.isCommand = true → runningAt i (f :: callers) s = true →
    (f.op = .waitdone →
      let n : Word := if f.label = 0 then 1 else s.seq.dpolls + 1
      let u : State := { controlRead s with seq := { s.seq with tmp := s.chip.spictl, dpolls := n } }
      (doneFlag s.cfg s.chip.spictl = true → exec i s = .next (returnTo callers u)) ∧
      (doneFlag s.cfg s.chip.spictl = false → (∀ k, s.cfg.pollLimit = some k → n.toNat < k) →
        exec i s = .next (setPc (⟨.waitdone, 1⟩ :: callers) u)) ∧
      (∀ k, doneFlag s.cfg s.chip.spictl = false → s.cfg.pollLimit = some k → k ≤ n.toNat →
        exec i s = .next (raiseError (.deviceUnresponsive .waitdone) u))) ∧
    (calleeAt s.cfg f = some .waitdone →
      let u : State := { controlRead s with seq := { s.seq with tmp := s.chip.spictl, dpolls := 1 } }
      (doneFlag s.cfg s.chip.spictl = true →
        exec i s = .next (setPc (⟨f.op, f.label + 1⟩ :: callers) u)) ∧
      (doneFlag s.cfg s.chip.spictl = false → s.cfg.pollLimit ≠ some 1 →
        exec i s = .next (setPc (⟨.waitdone, 1⟩ :: f :: callers) u)) ∧
      (doneFlag s.cfg s.chip.spictl = false → s.cfg.pollLimit = some 1 →
        exec i s = .next (raiseError (.deviceUnresponsive .waitdone) u)))

/-- R102 (a), R143, R156, R162: an open frame ends. The write that takes the mode to idle while chip-select is asserted, made by
MSPIEN, MSPIDIS or SETMODE idle, issued by the host or nested, or by IRW, deasserts chip-select, and the flash does what the frame
says. That with no device attached an unknown frame is ignored is the model's choice (notes/assumptions/21.md). -/
def Obligations.OpenFrameEnds : Prop :=
  ∀ (i : Instr) (f : Frame) (v : Word) (callers : List Frame) (s : State),
    s.cfg.wf = true → i.isCommand = true → runningAt i (f :: callers) s = true →
    (((f.op = .mspien ∨ f.op = .mspidis ∨ f.op = .setmode .idle) ∧ f.label = 1 ∧
        valueWrittenBack s.cfg s.seq.tmp f.op = some v) ∨
      (f = ⟨.irw s.cfg.regSpictl v, 0⟩ ∧ modeOf s.cfg v = .idle)) →
    s.chip.fly = none → s.chip.cs = true → modeOf s.cfg s.chip.spictl ≠ .idle →
    let u := deselected (controlStored v s)
    (s.flash.frame = [] → exec i s = .next (returnTo callers u)) ∧
    (∀ j t, decode s.cfg (.frame s.flash.frame) = .ok j → exec j u = .next t →
      exec i s = .next (returnTo callers t)) ∧
    (decode s.cfg (.frame s.flash.frame) = .error .undefinedFrame → s.cfg.flashModel ≠ .contract →
      exec i s = .next (returnTo callers u)) ∧
    (decode s.cfg (.frame s.flash.frame) = .error .undefinedFrame → s.cfg.flashModel = .contract →
      exec i s = .fault .flashFrameUndefined)

/-- R115: field isolation. After the write half of a read-modify-write whose read half is fresh, and with no fault and no refusal, SPICTL
differs only in the fields the operation names: SETMODE the mode, SETCNT the byte count, MSPIEN and MSPIDIS the mode and MSEN, and in DONE,
which is the engine's. -/
def Obligations.FieldIsolation : Prop :=
  ∀ (i op : Instr) (callers : List Frame) (s t : State),
    s.cfg.wf = true → i.isCommand = true → runningAt i (⟨op, 1⟩ :: callers) s = true →
    (∀ b, b < 32 → b ≠ s.cfg.doneBit → s.seq.tmp.getLsbD b = s.chip.spictl.getLsbD b) → exec i s = .next t →
    (∀ m, op = .setmode m → modeOf s.cfg t.chip.spictl = m ∧
      ∀ b, b < 32 → b ≠ s.cfg.doneBit → b ≠ s.cfg.modeLsb → b ≠ s.cfg.modeLsb + 1 →
        t.chip.spictl.getLsbD b = s.chip.spictl.getLsbD b) ∧
    (∀ c, op = .setcnt c →
      field t.chip.spictl s.cfg.nbLsb s.cfg.nbW = c &&& lowMask s.cfg.nbW ∧
      modeOf s.cfg t.chip.spictl = modeOf s.cfg s.chip.spictl ∧
      ∀ b, b < 32 → b ≠ s.cfg.doneBit → b < s.cfg.nbLsb ∨ s.cfg.nbLsb + s.cfg.nbW ≤ b →
        t.chip.spictl.getLsbD b = s.chip.spictl.getLsbD b) ∧
    (op = .mspien ∨ op = .mspidis →
      modeOf s.cfg t.chip.spictl = .idle ∧ msenFlag s.cfg t.chip.spictl = decide (op = .mspien) ∧
      ∀ b, b < 32 → b ≠ s.cfg.doneBit → b ≠ s.cfg.msenBit → b ≠ s.cfg.modeLsb → b ≠ s.cfg.modeLsb + 1 →
        t.chip.spictl.getLsbD b = s.chip.spictl.getLsbD b)

/-! ## Flash primitives and the page program -/

/-- R57, R74, R120 to R123, R131: the command word of RDSTATUS, SENDCMD, ERASE and PROGPAGE, opcode in bits 31 to 24 and the address below
it, written to WORD and to SPITX. -/
def Obligations.CommandWordsSent : Prop :=
  ∀ (i : Instr) (f : Frame) (callers : List Frame) (s : State) (w : Word),
    s.cfg.wf = true → i.isCommand = true → runningAt i (f :: callers) s = true → s.chip.fly = none →
    commandWordAt s.cfg s.seq.addr f = some w →
    exec i s = .next (setPc (⟨f.op, f.label + 1⟩ :: callers) (wordSent w s))

/-- R121, R22, R136: a status read ends the operation. RDSTATUS issued by the host: STAT takes the low byte of SPIRX, and RESULT too. PROGPAGE at
its last WAITFLASH, the status not busy: STAT takes it and RESULT is unchanged. The block is Idle and not busy. Otherwise inside WAITFLASH
it is `WaitflashTests`. -/
def Obligations.StatusReadEndsOperation : Prop :=
  ∀ s : State, s.cfg.wf = true → s.chip.fly = none →
    (runningAt .rdstatus [⟨.rdstatus, 8⟩] s = true →
      exec .rdstatus s = .next
        { s with
          seq :=
            { s.seq with
              stat := s.chip.spirx.extractLsb' 0 8
              result := (s.chip.spirx.extractLsb' 0 8).setWidth 32
              pc := []
              busy := false }
          hist := .busRead s.cfg.regSpirx s.chip.spirx :: s.hist }) ∧
    (∀ a n, runningAt (.progpage a n) [⟨.rdstatus, 8⟩, ⟨.waitflash, 1⟩, ⟨.progpage a n, 19⟩] s = true →
      s.chip.spirx.getLsbD 0 = false →
      exec (.progpage a n) s = .next
        { s with
          seq :=
            { s.seq with
              stat := s.chip.spirx.extractLsb' 0 8
              fpolls := s.seq.fpolls + 1
              pc := []
              busy := false }
          hist := .busRead s.cfg.regSpirx s.chip.spirx :: s.hist })

/-- R124, R22, R173: a status read of WAITFLASH has ended and the test is taken in the same step: with bit 0 clear WAITFLASH returns, and
RESULT takes the status when the host issued it; at the bound it raises DeviceUnresponsive; else it reads again. -/
def Obligations.WaitflashTests : Prop :=
  ∀ (i : Instr) (callers : List Frame) (s : State),
    s.cfg.wf = true → i.isCommand = true →
    runningAt i (⟨.rdstatus, 8⟩ :: ⟨.waitflash, 1⟩ :: callers) s = true → s.chip.fly = none →
    let stat : Byte := s.chip.spirx.extractLsb' 0 8
    let u : State :=
      { s with
        seq := { s.seq with stat := stat, fpolls := s.seq.fpolls + 1 }
        hist := .busRead s.cfg.regSpirx s.chip.spirx :: s.hist }
    (stat.getLsbD 0 = false → callers ≠ [] → exec i s = .next (returnTo callers u)) ∧
    (stat.getLsbD 0 = false → callers = [] →
      exec i s = .next
        { u with seq := { u.seq with result := stat.setWidth 32, pc := [], busy := false } }) ∧
    (stat.getLsbD 0 = true → (∀ k, s.cfg.pollLimit = some k → (s.seq.fpolls + 1).toNat < k) →
      exec i s = .next (setPc (⟨.waitflash, 1⟩ :: callers) u)) ∧
    (∀ k, stat.getLsbD 0 = true → s.cfg.pollLimit = some k → k ≤ (s.seq.fpolls + 1).toNat →
      exec i s = .next (raiseError (.deviceUnresponsive .waitflash) u))

/-- R122, R123, R159, R160: the end of a write-enable and of an erase. The last SETMODE idle of SENDCMD and of ERASE ends their frame: the
flash, attached and not busy, is then write-enabled, or, write-enabled, starts the erase of the sector that holds the address. -/
def Obligations.CommandFramesEnd : Prop :=
  ∀ s : State, s.cfg.wf = true → s.chip.fly = none → s.chip.cs = true → modeOf s.cfg s.chip.spictl ≠ .idle →
    s.flash.wip = false → s.cfg.flashModel.attached = true →
    let v := withMode s.cfg s.seq.tmp .idle
    (∀ op, runningAt (.sendcmd op) [⟨.setmode .idle, 1⟩, ⟨.sendcmd op, 5⟩] s = true → op = s.cfg.opWren →
      s.flash.frame = [op] →
      exec (.sendcmd op) s = .next
        { deselected (controlStored v s) with
          seq := { s.seq with pc := [], busy := false }
          flash := { s.flash with wel := true } }) ∧
    (∀ a, runningAt (.erase a) [⟨.setmode .idle, 1⟩, ⟨.erase a, 5⟩] s = true →
      s.flash.frame = [s.cfg.opSe, a.extractLsb' 16 8, a.extractLsb' 8 8, a.extractLsb' 0 8] → s.flash.wel = true →
      ∃ t, exec (.erase a) s = .next t ∧ t.seq.pc = [] ∧ t.seq.busy = false ∧
        t.chip = { s.chip with spictl := keepDone s.cfg s.chip.spictl v, cs := false } ∧
        t.flash.wip = true ∧ t.flash.wel = false ∧
        t.flash.pending = .erase (a.toNat % 2 ^ 24 - a.toNat % 4096) ∧ t.flash.fm = s.flash.fm)

/-- R133: the erase branch of PROGPAGE. After MSPIEN the next step begins WAITFLASH, at PP.2 when the low 12 bits of ADDR are zero, which
the write-enable and the erase follow, and at PP.5 when they are not. -/
def Obligations.ProgpageBranches : Prop :=
  ∀ (a n : Word) (s : State), s.cfg.wf = true → runningAt (.progpage a n) [⟨.progpage a n, 1⟩] s = true →
    exec (.progpage a n) s = .next
      (opBegun .waitflash [⟨.progpage a n, if s.seq.addr.toNat % 4096 = 0 then 2 else 5⟩] s)

/-- R135, R57: the data loop of PROGPAGE, from PP.12, PP.18 and, without PP_WORD_WAIT, PP.17. While `IDX < CNT`, signed, the four bytes of the
buffer from `IDX` on are packed with the lowest index highest and written to WORD and SPITX; then the loop ends and the last WAITFLASH
begins. -/
def Obligations.ProgpageLoops : Prop :=
  ∀ (a n idx : Word) (l : Nat) (s : State),
    s.cfg.wf = true → runningAt (.progpage a n) [⟨.progpage a n, l⟩] s = true →
    (l = 12 ∧ idx = 0) ∨ (l = 17 ∧ s.cfg.ppWordWait = false ∧ idx = s.seq.idx + 4) ∨ (l = 18 ∧ idx = s.seq.idx + 4) →
    let k := idx.toNat
    (idx.toInt < s.seq.cnt.toInt → k + 3 < s.cfg.bufCap → s.chip.fly = none →
      exec (.progpage a n) s = .next
        (setPc [⟨.progpage a n, 15⟩]
          (wordSent (bufByte s k ++ bufByte s (k + 1) ++ bufByte s (k + 2) ++ bufByte s (k + 3))
            { s with seq := { s.seq with idx := idx } }))) ∧
    (idx.toInt < s.seq.cnt.toInt → k + 3 < s.cfg.bufCap → s.chip.fly ≠ none →
      exec (.progpage a n) s = .fault .engineOverlap) ∧
    (s.seq.cnt.toInt ≤ idx.toInt →
      exec (.progpage a n) s = .next
        (opBegun .waitflash [⟨.progpage a n, 19⟩] { s with seq := { s.seq with idx := idx } }))

/-! ## The engine and the flash -/

/-- R148, R149, R157: the completion of a transfer: the bytes go out most significant first, each is exchanged for the reply the flash
gives it (`StatusByte`), SPIRX takes the replies at its low end, DONE rises, no transfer is in flight; the sequencer, the buffer and the rest of the chip do not change. With none in flight
the engine takes no step. -/
def Obligations.TransferCompletes : Prop :=
  ∀ s : State, s.cfg.wf = true → (nextTurn s).1 = .eng →
    (s.chip.fly = none → step s = .next (nextTurn s).2) ∧
    (∀ n tx, s.chip.fly = some ⟨n, tx⟩ → n ≤ 4 →
      let sent := wireBytes n tx
      let replies := (exchange sent (nextTurn s).2).1
      ∃ t, step s = .next t ∧ sent.length = n ∧ replies.length = n ∧ t.hist.head? = some (.xferDone sent replies) ∧
        t.chip =
          { s.chip with
            spirx := shiftIn s.chip.spirx replies
            spictl := s.chip.spictl ||| bitMask s.cfg.doneBit
            fly := none } ∧
        t.flash.frame = s.flash.frame ++ sent ∧ t.flash.wel = s.flash.wel ∧
        t.cfg = s.cfg ∧ t.seq = s.seq ∧ t.host = s.host ∧
        (s.flash.wip = false → t.flash.fm = s.flash.fm ∧ t.flash.wip = false ∧ t.flash.pending = s.flash.pending)) ∧
    (∀ u : State, exchange [] u = ([], u)) ∧
    (∀ (b : Byte) (rest : List Byte) (u : State),
      exchange (b :: rest) u =
        ((receiveByte b u).1 :: (exchange rest (receiveByte b u).2).1, (exchange rest (receiveByte b u).2).2))

/-- R57, R74, R149: the packing of data words and command words, and the byte order on the wire and into SPIRX. -/
def Obligations.ByteOrder : Prop :=
  ∀ (b3 b2 b1 b0 c3 c2 c1 c0 : Byte) (addr : Word),
    packWord b3 b2 b1 b0 = b3 ++ b2 ++ b1 ++ b0 ∧ cmdWord b3 addr = b3 ++ addr.extractLsb' 0 24 ∧
    cmdWord1 b3 = b3 ++ (0 : BitVec 24) ∧
    wireBytes 1 (b3 ++ b2 ++ b1 ++ b0) = [b3] ∧ wireBytes 2 (b3 ++ b2 ++ b1 ++ b0) = [b3, b2] ∧
    wireBytes 3 (b3 ++ b2 ++ b1 ++ b0) = [b3, b2, b1] ∧ wireBytes 4 (b3 ++ b2 ++ b1 ++ b0) = [b3, b2, b1, b0] ∧
    shiftIn (b3 ++ b2 ++ b1 ++ b0) [c3, c2, c1, c0] = c3 ++ c2 ++ c1 ++ c0 ∧
    shiftIn (b3 ++ b2 ++ b1 ++ b0) [c2, c1, c0] = b0 ++ c2 ++ c1 ++ c0 ∧
    shiftIn (b3 ++ b2 ++ b1 ++ b0) [c1, c0] = b1 ++ b0 ++ c1 ++ c0 ∧
    shiftIn (b3 ++ b2 ++ b1 ++ b0) [c0] = b2 ++ b1 ++ b0 ++ c0

/-- R157, R158, R166: the reply to a byte. In a frame that began with the status-read opcode every later byte is answered with a status. Under the
contract its bit 0 is the busy bit and nothing but the frame changes. The reference flash samples once a frame: not busy it answers 0; busy
with `busy_left` at 0 it finishes its operation and answers 0; busy otherwise it counts `busy_left` down and answers 1. Any other byte is
answered with a draw, by the reference flash with 0xFF. R121 (c), R124 (b): with no device attached the reply is what the line always reads
as, else a draw (notes/assumptions/21.md). -/
def Obligations.StatusByte : Prop :=
  ∀ (b : Byte) (s : State),
    let received : Flash := { s.flash with frame := s.flash.frame ++ [b] }
    (s.flash.frame.head? = some s.cfg.opRdsr →
      (s.cfg.flashModel = .contract →
        (receiveByte b s).1.getLsbD 0 = s.flash.wip ∧ (receiveByte b s).2.flash = received) ∧
      (∀ x, s.cfg.flashModel = .reference → s.flash.frameStatus = some x →
        (receiveByte b s).1 = x ∧ (receiveByte b s).2.flash = received) ∧
      (s.cfg.flashModel = .reference → s.flash.frameStatus = none → s.flash.wip = false →
        (receiveByte b s).1 = 0 ∧ (receiveByte b s).2.flash = { received with frameStatus := some 0 }) ∧
      (s.cfg.flashModel = .reference → s.flash.frameStatus = none → s.flash.wip = true → s.flash.busyLeft = 0 →
        (receiveByte b s).1 = 0 ∧
        (receiveByte b s).2.flash =
          { received with
            frameStatus := some 0
            wip := false
            pending := .none
            fm := applyPending s.env.draws s.flash.fm s.flash.pending }) ∧
      (∀ k, s.cfg.flashModel = .reference → s.flash.frameStatus = none → s.flash.wip = true →
        s.flash.busyLeft = k + 1 →
        (receiveByte b s).1 = 1 ∧
        (receiveByte b s).2.flash = { received with frameStatus := some 1, busyLeft := k })) ∧
    (s.flash.frame.head? ≠ some s.cfg.opRdsr →
      (s.cfg.flashModel = .contract →
        receiveByte b s =
          (Config.drawByte s.env.draws, { s with flash := received, env := { s.env with draws := s.env.draws + 1 } })) ∧
      (s.cfg.flashModel = .reference → receiveByte b s = (0xFF, { s with flash := received }))) ∧
    (∀ x, s.cfg.flashModel = .absent (some x) → receiveByte b s = (x, { s with flash := received })) ∧
    (s.cfg.flashModel = .absent none →
      receiveByte b s =
        (Config.drawByte s.env.draws, { s with flash := received, env := { s.env with draws := s.env.draws + 1 } }))

/-- R159, R163: the write-enable frame: not busy, the latch is set and nothing else changes; busy, the command is lost.
That with no device attached nothing acts on it is the model's choice (notes/assumptions/21.md). -/
def Obligations.FlashWriteEnable : Prop :=
  ∀ s : State,
    (s.cfg.wf = true → s.flash.frame = [s.cfg.opWren] → endFrame s = exec .flashWren s) ∧
    (s.flash.wip = false → s.cfg.flashModel.attached = true →
      exec .flashWren s = .next { s with flash := { s.flash with wel := true } }) ∧
    (s.flash.wip = true ∨ s.cfg.flashModel.attached = false → exec .flashWren s = .next s)

/-- R160, R163, R56: the sector-erase frame: write-enabled and not busy, the latch falls, the flash is busy and the erase of the sector that holds the
address is recorded, the array unchanged; otherwise no effect. That there is none with no device attached is the model's choice
(notes/assumptions/21.md). -/
def Obligations.FlashSectorErase : Prop :=
  ∀ (a : FlashAddr) (s : State),
    (∀ a2 a1 a0 : Byte, s.cfg.wf = true → s.flash.frame = [s.cfg.opSe, a2, a1, a0] → a = a2 ++ a1 ++ a0 →
      endFrame s = exec (.flashSe a) s) ∧
    (s.flash.wel = true → s.flash.wip = false → s.cfg.flashModel.attached = true →
      exec (.flashSe a) s = .next
        { s with
          flash :=
            { s.flash with
              wel := false
              wip := true
              pending := .erase (a.toNat / 4096 * 4096)
              busyLeft := if s.cfg.flashModel = .reference then s.cfg.busyReads else s.flash.busyLeft } }) ∧
    (s.flash.wel = false ∨ s.flash.wip = true ∨ s.cfg.flashModel.attached = false → exec (.flashSe a) s = .next s)

/-- R161, R163, R168 C-c: the page-program frame: write-enabled and not busy, with data, the latch falls, the flash is busy and the program is
recorded, the array unchanged; without data the array and the busy bit do not change, and the latch is free under the contract and stays
set in the reference flash. Busy, or not write-enabled, no effect, with data or without. That there is none with no device attached is
the model's choice (notes/assumptions/21.md). -/
def Obligations.FlashPageProgram : Prop :=
  ∀ (a : FlashAddr) (data : List Byte) (s : State),
    (∀ a2 a1 a0 : Byte, s.cfg.wf = true → s.flash.frame = s.cfg.opPp :: a2 :: a1 :: a0 :: data → a = a2 ++ a1 ++ a0 →
      endFrame s = exec (.flashPp a data) s) ∧
    (data ≠ [] → s.flash.wel = true → s.flash.wip = false → s.cfg.flashModel.attached = true →
      exec (.flashPp a data) s = .next
        { s with
          flash :=
            { s.flash with
              wel := false
              wip := true
              pending := programOf s.cfg a data
              busyLeft := if s.cfg.flashModel = .reference then s.cfg.busyReads else s.flash.busyLeft } }) ∧
    (s.flash.wel = false ∨ s.flash.wip = true ∨ s.cfg.flashModel.attached = false →
      exec (.flashPp a data) s = .next s) ∧
    (data = [] → s.flash.wel = true → s.flash.wip = false → s.cfg.flashModel = .reference →
      exec (.flashPp a data) s = .next s) ∧
    (data = [] → s.flash.wel = true → s.flash.wip = false → s.cfg.flashModel = .contract →
      exec (.flashPp a data) s = .next
        { s with
          flash := { s.flash with wel := Config.drawBit s.env.draws }
          env := { s.env with draws := s.env.draws + 1 } })

/-- R162: the other frames: a status read, of any length and busy or not, and an empty frame have no effect at their end; a frame the flash does not
understand is a fault under the contract, and the reference flash ignores it. That with no device attached nothing acts on it either is
the model's choice (notes/assumptions/21.md). -/
def Obligations.OtherFrames : Prop :=
  ∀ s : State,
    (∀ rest, exec (.flashRdsr rest) s = .next s) ∧
    (s.flash.frame.head? = some s.cfg.opRdsr → endFrame s = .next s) ∧
    (s.flash.frame = [] → endFrame s = .next s) ∧
    (∀ op rest, s.flash.frame = op :: rest → s.cfg.wf = true →
      (op ≠ s.cfg.opRdsr ∧ op ≠ s.cfg.opWren ∧ op ≠ s.cfg.opSe ∧ op ≠ s.cfg.opPp) ∨
        (op = s.cfg.opWren ∧ rest.length ≠ 0) ∨ (op = s.cfg.opSe ∧ rest.length ≠ 3) ∨
        (op = s.cfg.opPp ∧ rest.length < 3) →
      (s.cfg.flashModel = .contract → endFrame s = .fault .flashFrameUndefined) ∧
      (s.cfg.flashModel ≠ .contract → endFrame s = .next s))

/-- R167: the addresses of a page program. Without a page size byte `i` goes to `A + i`, modulo 2^24. With a page of `P` bytes: under the contract data that
stays in the page goes to `A + i`, and data that runs past it leaves the page, and no other address, free; the reference flash wraps the data inside the page, the
last byte sent to an entry surviving, and programs the whole page. -/
def Obligations.ProgramTargets : Prop :=
  ∀ (c : Cfg) (a : FlashAddr) (data : List Byte), c.wf = true →
    (c.flashPage = none →
      programOf c a data = .program (data.zipIdx.map (fun d => ((a.toNat + d.2) % 2 ^ 24, d.1)))) ∧
    (∀ p, c.flashPage = some p → c.flashModel = .contract → a.toNat % p + data.length ≤ p →
      programOf c a data = .program (data.zipIdx.map (fun d => (a.toNat + d.2, d.1)))) ∧
    (∀ p, c.flashPage = some p → c.flashModel = .contract → p < a.toNat % p + data.length →
      programOf c a data = .scramble (a.toNat / p * p) p) ∧
    (∀ p, c.flashPage = some p → c.flashModel = .reference →
      ∃ page : List Byte, page.length = p ∧
        programOf c a data = .program (page.zipIdx.map (fun d => (a.toNat / p * p + d.2, d.1))) ∧
        ∀ k, k < p →
          page.getD k 0 = (((data.zipIdx.filter (fun d => (a.toNat + d.2) % p == k)).map (·.1)).getLast?).getD 0xFF) ∧
    (∀ (k base size : Nat) (fm : Memory) (b : Nat), Memory.wf unlistedFlash fm = true → b < base ∨ base + size ≤ b →
      Memory.read unlistedFlash (applyPending k fm (.scramble base size)) b = Memory.read unlistedFlash fm b)

/-- R164: the effect of an erase: every byte of the sector is 0xFF, no other address changes. -/
def Obligations.EraseEffect : Prop :=
  ∀ (k base : Nat) (fm : Memory) (a : Nat),
    (base ≤ a ∧ a ≤ base + 4095 → Memory.read unlistedFlash (applyPending k fm (.erase base)) a = 0xFF) ∧
    (a < base ∨ base + 4096 ≤ a →
      Memory.read unlistedFlash (applyPending k fm (.erase base)) a = Memory.read unlistedFlash fm a)

/-- R165: the effect of a program: at each address the old byte ANDed with every byte programmed there; no other address changes. -/
def Obligations.ProgramEffect : Prop :=
  ∀ (k : Nat) (targets : List Host.Cell) (fm : Memory) (a : Nat), Memory.wf unlistedFlash fm = true →
    Memory.read unlistedFlash (applyPending k fm (.program targets)) a =
      ((targets.filter (fun t => t.1 == a)).map (·.2)).foldl (fun old d => old &&& d) (Memory.read unlistedFlash fm a)

/-- R166, contract: while busy the flash may finish: the effect is applied, no operation is recorded and the flash is not busy; not busy, under the
reference flash, its own step changes nothing. That it changes nothing with no device attached is the model's choice
(notes/assumptions/21.md). -/
def Obligations.FlashFinishes : Prop :=
  ∀ s : State, s.cfg.wf = true → (nextTurn s).1 = .flash →
    (s.cfg.flashModel = .contract → s.flash.wip = true →
      ∃ t, step s = .next t ∧
        t.flash =
          { s.flash with
            fm := applyPending s.env.draws s.flash.fm s.flash.pending
            wip := false
            pending := .none } ∧
        t.cfg = s.cfg ∧ t.seq = s.seq ∧ t.chip = s.chip ∧ t.host = s.host) ∧
    (s.cfg.flashModel ≠ .contract ∨ s.flash.wip = false → step s = .next (nextTurn s).2)

/-! ## Whole-machine rules -/

/-- R20, R55, R140, R168 C-g: what no step changes: the configuration; the buffer while an operation runs; and the flash array, but for the step in which
the flash finishes the operation it was executing. -/
def Obligations.ArrayChangesOnlyWhenAnOperationFinishes : Prop :=
  ∀ s t : State, step s = .next t →
    t.cfg = s.cfg ∧ (s.seq.busy = true → t.host.buf = s.host.buf) ∧
    (t.flash.fm ≠ s.flash.fm →
      s.flash.wip = true ∧ t.flash.wip = false ∧ t.flash.pending = .none ∧
      .flashDone s.flash.pending ∈ t.hist ∧ ∃ k, t.flash.fm = applyPending k s.flash.fm s.flash.pending)

/-- R20, R30, R142, R145, R168: the frame of the twelve operations: a step of an operation changes neither the configuration, nor the
buffer and the host's moves, nor the schedule, nor the flash array, and takes no transfer out of flight. DONE is the engine's: the step
leaves it as it was, or starts a transfer and clears it; it never sets it. Of a step whose transaction fails in the transport this says what the model does (R176), which is no claim about the
chip (U3, notes/assumptions/11.md). -/
def Obligations.OperationsFrame : Prop :=
  ∀ (i : Instr) (s t : State), i.isCommand = true → exec i s = .next t →
    t.cfg = s.cfg ∧ t.host = s.host ∧ t.env.sched = s.env.sched ∧ t.env.later = s.env.later ∧ t.flash.fm = s.flash.fm ∧
    (s.chip.fly ≠ none → t.chip.fly = s.chip.fly) ∧
    (s.cfg.wf = true →
      doneFlag s.cfg t.chip.spictl = doneFlag s.cfg s.chip.spictl ∨
      (doneFlag s.cfg t.chip.spictl = false ∧ s.chip.fly = none ∧ t.chip.fly ≠ none))

/-- R22: only IRR, RDSTATUS and WAITFLASH, issued by the host, write RESULT; R45: ADDR and CNT change at acceptance only. -/
def Obligations.ResultWriters : Prop :=
  ∀ (i : Instr) (s t : State), ControlInv s → i.isCommand = true → exec i s = .next t →
    ((∀ r, i ≠ .irr r) → i ≠ .rdstatus → i ≠ .waitflash → t.seq.result = s.seq.result) ∧
    (s.seq.busy = true → t.seq.addr = s.seq.addr ∧ t.seq.cnt = s.seq.cnt)

/-- R117: what MSPIEN, MSPIDIS, SETMODE, SETCNT and WAITDONE never do: none touches SPITX, SPIRX, a register of no name, WORD, STAT, IDX, FPOLLS or
RESULT. -/
def Obligations.ModeControlFrame : Prop :=
  ∀ (i : Instr) (s t : State), ControlInv s →
    i = .mspien ∨ i = .mspidis ∨ (∃ m, i = .setmode m) ∨ (∃ c, i = .setcnt c) ∨ i = .waitdone →
    exec i s = .next t →
    t.chip.spitx = s.chip.spitx ∧ t.chip.spirx = s.chip.spirx ∧ t.chip.other = s.chip.other ∧
    t.seq.word = s.seq.word ∧ t.seq.stat = s.seq.stat ∧ t.seq.idx = s.seq.idx ∧ t.seq.fpolls = s.seq.fpolls ∧
    t.seq.result = s.seq.result

/-- R174, R176, R178, R212: a transport failure, in every operation at every micro-step, a write that would have met a fault or a refusal
included (notes/assumptions/20.md): every frame is dropped, ERR is 2, BUSY falls, RESULT keeps what it held, and the history records the error
and no transaction (notes/assumptions/11.md). From then on the chip counts as unknown, and however a run goes on no claim rests on what it
holds: no final state shows the chip, the flash or a later event, and once the block has made another transaction there is no final state and
no outcome is named. Of the chip it is stated only that after a failed read it is as the earlier transactions left it. -/
def Obligations.TransportFailureEnds : Prop :=
  ∀ (i : Instr) (s : State), s.cfg.wf = true → ControlInv s → BufferInv s → s.seq.busy = true →
    topLevelOp s = some i → s.env.transportFails = true →
    ∃ t, exec i s = .next t ∧ t.seq.pc = [] ∧ t.seq.busy = false ∧ t.seq.err = 2 ∧ t.seq.result = s.seq.result ∧
      t.cfg = s.cfg ∧ t.host = s.host ∧ t.hist = .raised .transportFailure :: s.hist ∧ chipUnknown t = true ∧
      (∀ (r : Run) (f : FinalState), r.state = t → r.final = some f → chipUnknown s = false →
        f.err = 2 ∧ f.result = s.seq.result ∧ f.hist = t.hist) ∧
      (∀ (r : Run) (n : Nat), r.state = t →
        (∀ f, (Run.steps n r).final = some f → f.chip = none ∧ f.flash = none ∧ f.hist = knownHistory t) ∧
        (busTransactions t < busTransactions (Run.steps n r).state →
          (Run.steps n r).outcome = .unknown ∧ (Run.steps n r).final = none)) ∧
      (∀ u later r v, exec i { s with env := { s.env with transportFails := false } } = .next u →
        u.hist = later ++ .busRead r v :: s.hist → t.chip = s.chip ∧ t.flash = s.flash)

/-! ## Invariants -/

/-- R24: the deepest nesting is five frames. -/
def Obligations.NestingAtMostFive : Prop := ∀ s : State, ControlInv s → s.seq.pc.length ≤ 5

/-- R23, R24, R25, R45, R175: every step keeps the control state legal. -/
def Obligations.ControlInvKept : Prop := ∀ s t : State, ControlInv s → step s = .next t → ControlInv t

/-- R142 to R154: every step keeps the engine's state legal. Of a step whose transaction fails in the transport this says what the model does
(R176), which is no claim about the chip (U3, notes/assumptions/11.md). -/
def Obligations.EngineInvKept : Prop := ∀ s t : State, EngineInv s → step s = .next t → EngineInv t

/-- R156, R160, R161, R166: every step keeps the flash's state legal, and every step keeps the stores in canonical form. -/
def Obligations.FlashAndStoresKept : Prop :=
  (∀ s t : State, FlashInv s → step s = .next t → FlashInv t) ∧
  (∀ s t : State, StoresCanonical s → step s = .next t → StoresCanonical t)

/-- R11, R61, R115, R200: every step keeps the write half of a read-modify-write fresh. -/
def Obligations.FreshInvKept : Prop := ∀ s t : State, FreshInv s → step s = .next t → FreshInv t

/-- R13 (d), R54, R132, R135: every step keeps PROGPAGE inside the buffer, and no step of PROGPAGE is refused for a buffer index. -/
def Obligations.BufferInvKept : Prop :=
  (∀ s t : State, ControlInv s → BufferInv s → step s = .next t → BufferInv t) ∧
  ∀ (a n : Word) (s : State), s.cfg.wf = true → ControlInv s → BufferInv s → s.seq.busy = true →
    exec (.progpage a n) s ≠ .refused .bufferIndex

/-! ## Whole runs

With a quiet environment (no schedule left and a prompt one after it, no transport failure) the engine is prompt (premise ENGINE_PROMPT, R152; the default turn is the
model's choice, notes/assumptions/2.md). A run counts steps: one for each bus transaction and one for each completion of a transfer. -/

/-- R211: IRW, IRR, MSPIEN, MSPIDIS, SETMODE and SETCNT contain no loop: they end, unless refused or faulted, in exactly 1, 1, 2, 2, 2 and 4 bus transactions. -/
def Obligations.LoopFreeOperationsEnd : Prop :=
  ∀ (i : Instr) (n : Nat) (s t : State), s.cfg.wf = true → quiet s = true → s.chip.fly = none →
    runningAt i [⟨i, 0⟩] s = true →
    ((∃ r v, i = .irw r v) ∧ n = 1) ∨ ((∃ r, i = .irr r) ∧ n = 1) ∨ (i = .mspien ∧ n = 2) ∨ (i = .mspidis ∧ n = 2) ∨
      ((∃ m, i = .setmode m) ∧ n = 2) ∨ ((∃ c, i = .setcnt c) ∧ n = 4) →
    Host.Core.run Sys2Proof.core n s = .next t →
    t.seq.busy = false ∧ t.seq.pc = [] ∧ t.seq.err = s.seq.err ∧ busTransactions t = busTransactions s + n

/-- R121: a whole RDSTATUS: 16 bus transactions and two transfers. It ends in mode transfer with chip-select asserted, a status frame of eight bytes open and
no transfer in flight; STAT and RESULT hold the low byte of SPIRX, whose bit 0 is the flash's busy bit; with no device attached it is what the line reads as,
which is the model's choice (notes/assumptions/21.md). -/
def Obligations.RdstatusRun : Prop :=
  ∀ s : State, s.cfg.wf = true → quiet s = true → atRest s = true →
    runningAt .rdstatus [⟨.rdstatus, 0⟩] s = true →
    ∃ t, Host.Core.run Sys2Proof.core 18 s = .next t ∧ t.seq.busy = false ∧ t.seq.pc = [] ∧
      t.seq.err = s.seq.err ∧ busTransactions t = busTransactions s + 16 ∧
      modeOf s.cfg t.chip.spictl = .transfer ∧ t.chip.cs = true ∧ t.chip.fly = none ∧
      doneFlag s.cfg t.chip.spictl = true ∧ transferBytes s.cfg t.chip.spictl = 4 ∧
      t.chip.spitx = s.cfg.opRdsr ++ (0 : BitVec 24) ∧
      t.flash.frame = [s.cfg.opRdsr, 0, 0, 0, s.cfg.opRdsr, 0, 0, 0] ∧
      t.seq.stat = t.chip.spirx.extractLsb' 0 8 ∧ t.seq.result = t.seq.stat.setWidth 32 ∧
      (s.cfg.flashModel.attached = true → t.seq.stat.getLsbD 0 = t.flash.wip) ∧
      (∀ b, s.cfg.flashModel = .absent (some b) → t.seq.stat = b) ∧
      (s.flash.wip = false → t.flash.wip = false ∧ t.flash.fm = s.flash.fm)

/-- R122, R123, R126, R159, R160: a whole write-enable and a whole ERASE, with the flash not busy: 12 bus transactions and one transfer, mode idle and
chip-select deasserted at the end. The write-enable leaves the flash write-enabled; ERASE, write-enabled before, leaves it busy with the
erase of the sector that holds the address, its array not yet changed. That what reaches the block's registers is the same with no
device attached is the model's choice (notes/assumptions/21.md). -/
def Obligations.CommandRuns : Prop :=
  ∀ (i : Instr) (s : State), s.cfg.wf = true → quiet s = true → atRest s = true → s.flash.wip = false →
    runningAt i [⟨i, 0⟩] s = true →
    i = .sendcmd s.cfg.opWren ∨ (∃ a, i = .erase a ∧ a.toNat < 2 ^ 24 ∧ s.seq.addr = a ∧ s.flash.wel = true) →
    ∃ t, Host.Core.run Sys2Proof.core 13 s = .next t ∧ t.seq.busy = false ∧ t.seq.pc = [] ∧
      t.seq.err = s.seq.err ∧ t.seq.result = s.seq.result ∧ busTransactions t = busTransactions s + 12 ∧
      modeOf s.cfg t.chip.spictl = .idle ∧ t.chip.cs = false ∧ t.chip.fly = none ∧ t.flash.fm = s.flash.fm ∧
      (i = .sendcmd s.cfg.opWren →
        transferBytes s.cfg t.chip.spictl = 1 ∧ t.chip.spitx = s.cfg.opWren ++ (0 : BitVec 24) ∧
        (s.cfg.flashModel.attached = true → t.flash.wel = true) ∧ t.flash.wip = false) ∧
      (∀ a, i = .erase a →
        transferBytes s.cfg t.chip.spictl = 4 ∧ t.chip.spitx = s.cfg.opSe ++ a.extractLsb' 0 24 ∧
        (s.cfg.flashModel.attached = true →
          t.flash.wel = false ∧ t.flash.wip = true ∧ t.flash.pending = .erase (a.toNat / 4096 * 4096)))

/-- R124, R166: a whole WAITFLASH with the reference flash and no poll limit: with the flash busy, `busy_left + 1` status reads, the operation finished in
the last; with it not busy, one. STAT and RESULT are 0. -/
def Obligations.WaitflashRun : Prop :=
  ∀ s : State, s.cfg.wf = true → quiet s = true → atRest s = true → s.cfg.flashModel = .reference →
    s.cfg.pollLimit = none → runningAt .waitflash [⟨.waitflash, 0⟩] s = true →
    ∃ t, Host.Core.run Sys2Proof.core (18 * (if s.flash.wip = true then s.flash.busyLeft + 1 else 1)) s = .next t ∧
      t.seq.busy = false ∧ t.seq.pc = [] ∧ t.seq.err = s.seq.err ∧ t.seq.stat = 0 ∧ t.seq.result = 0 ∧
      t.flash.wip = false ∧ t.flash.wel = s.flash.wel ∧ t.chip.fly = none ∧ t.chip.cs = true ∧
      modeOf s.cfg t.chip.spictl = .transfer ∧
      (s.flash.wip = true → t.flash.fm = applyPending s.env.draws s.flash.fm s.flash.pending ∧
        t.flash.pending = .none) ∧
      (s.flash.wip = false → t.flash.fm = s.flash.fm)

/-- R168: the page program. PROGPAGE to a sector-aligned address with a count between 1 and 4096, with the reference flash idle and not write-enabled and
without a page size, a prompt engine and no poll limit: the operation ends without error, the bytes of the buffer, a whole number of words of them,
stand in the array from the address on, the rest of the sector is 0xFF, and every address outside the sector is unchanged. -/
def Obligations.ProgpageRun : Prop :=
  ∀ (a n : Word) (s : State), s.cfg.wf = true → quiet s = true → s.cfg.flashModel = .reference →
    s.cfg.pollLimit = none → s.cfg.flashPage = none →
    launchPremises s = true → Memory.wf unlistedFlash s.flash.fm = true →
    a.toNat < 2 ^ 24 → a.toNat % 4096 = 0 → 0 < n.toInt → n.toInt ≤ 4096 → n.toInt ≤ (s.cfg.bufCap : Int) →
    s.seq.addr = a → s.seq.cnt = n → s.seq.err = 0 →
    runningAt (.progpage a n) [⟨.progpage a n, 0⟩] s = true →
    ∃ k t, Host.Core.run Sys2Proof.core k s = .next t ∧ t.seq.busy = false ∧ t.seq.pc = [] ∧ t.seq.err = 0 ∧
      t.seq.result = s.seq.result ∧ t.flash.wip = false ∧ t.flash.wel = false ∧
      (∀ j, j < 4 * ((n.toNat + 3) / 4) → flashByte t (a.toNat + j) = bufByte s j) ∧
      (∀ j, 4 * ((n.toNat + 3) / 4) ≤ j → j < 4096 → flashByte t (a.toNat + j) = 0xFF) ∧
      (∀ b, b < a.toNat ∨ a.toNat + 4096 ≤ b → flashByte t b = flashByte s b)

/-! ## Runs that end and runs that do not -/

/-- R114, R124, R152, R166, R180, R211: WAITDONE with a transfer in flight ends under ENGINE_FAIR and a fair sequencer, whatever the schedule, and so it
does, in flight or not, with a poll limit. WAITFLASH, from rest, ends with a device attached under ENGINE_FAIR, FLASH_FAIR and a fair sequencer, and with a
poll limit and a fair sequencer alone. Without them they hang: WAITDONE with DONE clear, no poll limit and an engine that gets no turn, an infinite run with
BUSY 1 for ever; and WAITFLASH with no device on a line that reads 1 in bit 0 (R124 (b), V-WF-3), even with a prompt engine. A transport failure or a
reset ends them too. The schedules and the fair sequencer are the model's way of writing the environment's choices (notes/assumptions/2.md), and so is
the absent device (notes/assumptions/21.md). -/
def Obligations.WaitsEndOrHang : Prop :=
  (∀ s : State, s.cfg.wf = true → runningAt .waitdone [⟨.waitdone, 0⟩] s = true → s.chip.fly ≠ none →
    EngineFair s → SequencerFair s → Ends s) ∧
  (∀ (s : State) (k : Nat), s.cfg.wf = true → runningAt .waitdone [⟨.waitdone, 0⟩] s = true →
    s.cfg.pollLimit = some k → SequencerFair s → Ends s) ∧
  (∀ s : State, s.cfg.wf = true → atRest s = true → s.cfg.flashModel.attached = true →
    runningAt .waitflash [⟨.waitflash, 0⟩] s = true → EngineFair s → FlashFair s → SequencerFair s → Ends s) ∧
  (∀ (s : State) (k : Nat), s.cfg.wf = true → atRest s = true → s.cfg.pollLimit = some k →
    runningAt .waitflash [⟨.waitflash, 0⟩] s = true → SequencerFair s → Ends s) ∧
  (∀ s : State, s.cfg.wf = true → runningAt .waitdone [⟨.waitdone, 0⟩] s = true → s.cfg.pollLimit = none →
    doneFlag s.cfg s.chip.spictl = false → s.env.sched = [] → s.env.later = .cycle .seq [] → Hangs s) ∧
  (∀ (s : State) (b : Byte), s.cfg.wf = true → quiet s = true → atRest s = true → s.cfg.pollLimit = none →
    s.cfg.flashModel = .absent (some b) → b.getLsbD 0 = true →
    runningAt .waitflash [⟨.waitflash, 0⟩] s = true → Hangs s)
end

