-- ==== Sys2Proof/Laws/Agents.lean ====
section
/-! SUPPORT. Laws of the turns: taking the next turn off the schedule changes only the schedule, and an operation's meaning is
its next step. -/

namespace Sys2Proof.Machine

open Sys2Proof

variable (s : State)

/-- Taking the next turn changes only the schedule. -/
theorem nextTurn_eq : ∃ sched later, (nextTurn s).2 = { s with env := { s.env with sched := sched, later := later } } := by
  unfold nextTurn
  split
  · exact ⟨_, _, rfl⟩
  · split <;> exact ⟨_, _, rfl⟩

@[simp] theorem nextTurn_cfg : (nextTurn s).2.cfg = s.cfg := by obtain ⟨_, _, h⟩ := nextTurn_eq s; rw [h]
@[simp] theorem nextTurn_seq : (nextTurn s).2.seq = s.seq := by obtain ⟨_, _, h⟩ := nextTurn_eq s; rw [h]
@[simp] theorem nextTurn_chip : (nextTurn s).2.chip = s.chip := by obtain ⟨_, _, h⟩ := nextTurn_eq s; rw [h]
@[simp] theorem nextTurn_flash : (nextTurn s).2.flash = s.flash := by obtain ⟨_, _, h⟩ := nextTurn_eq s; rw [h]
@[simp] theorem nextTurn_host : (nextTurn s).2.host = s.host := by obtain ⟨_, _, h⟩ := nextTurn_eq s; rw [h]
@[simp] theorem nextTurn_hist : (nextTurn s).2.hist = s.hist := by obtain ⟨_, _, h⟩ := nextTurn_eq s; rw [h]
@[simp] theorem nextTurn_draws : (nextTurn s).2.env.draws = s.env.draws := by obtain ⟨_, _, h⟩ := nextTurn_eq s; rw [h]
@[simp] theorem nextTurn_transportFails : (nextTurn s).2.env.transportFails = s.env.transportFails := by
  obtain ⟨_, _, h⟩ := nextTurn_eq s; rw [h]
@[simp] theorem topLevelOp_nextTurn : topLevelOp (nextTurn s).2 = topLevelOp s := by simp [topLevelOp]

theorem step_of_wf (h : s.cfg.wf = true) : step s = takeTurn (nextTurn s).1 (nextTurn s).2 := by simp [step, h]

/-- A step that answers a next state is a turn under a well-formed configuration. -/
theorem step_next {s t : State} (h : step s = .next t) :
    s.cfg.wf = true ∧ takeTurn (nextTurn s).1 (nextTurn s).2 = .next t := by
  unfold step at h
  split at h
  · exact ⟨‹_›, h⟩
  · cases h

/-- The meaning of an operation of the sequencer is its next step. -/
theorem exec_command {i : Instr} (h : i.isCommand = true) : exec i s = operate i s := by
  cases i <;> first | rfl | cases h

/-- The operation in progress takes its next micro-step. -/
theorem exec_running {i : Instr} (hc : i.isCommand = true) (hb : s.seq.busy = true) (ht : topLevelOp s = some i) :
    exec i s = microStep s := by
  rw [exec_command s hc, operate, if_pos hb, if_pos ht]

theorem runningAt_iff {i : Instr} {pc : List Frame} :
    runningAt i pc s = true ↔
      s.seq.busy = true ∧ s.seq.pc = pc ∧ topLevelOp s = some i ∧ s.env.transportFails = false := by
  simp [runningAt, and_assoc]

/-- With a quiet environment the turn is the default one and the schedule stays empty. -/
theorem nextTurn_quiet (h : quiet s = true) : nextTurn s = (defaultTurn s, s) := by
  simp only [quiet, Bool.and_eq_true, List.isEmpty_iff, decide_eq_true_eq] at h
  simp [nextTurn, h.1.1, h.1.2]

end Sys2Proof.Machine
end

