-- ==== Sys2Proof/Laws/Bits.lean ====
section
/-! SUPPORT. Laws of the bit fields of SPICTL: what a field reads after it, or another, was written. One spelling throughout: a
field is known by its bits (`getLsbD`). -/

namespace Sys2Proof.Machine

open Sys2Proof

/-! ### Bits of masks -/

theorem getLsbD_lowMask (w i : Nat) (hw : w ≤ 32) : (lowMask w).getLsbD i = decide (i < w) := by
  have h32 : (2 : Nat) ^ w ≤ 2 ^ 32 := Nat.pow_le_pow_right (by omega) hw
  have hpos : 0 < (2 : Nat) ^ w := Nat.two_pow_pos w
  simp only [lowMask, BitVec.getLsbD_ofNat, Nat.testBit_two_pow_sub_one]
  by_cases h : i < w <;> simp [h]
  omega

@[simp] theorem getLsbD_bitMask (b i : Nat) : (bitMask b).getLsbD i = (decide (i < 32) && decide (i = b)) := by
  simp only [bitMask, BitVec.getLsbD_shiftLeft]
  by_cases h : i < 32 <;> by_cases hb : i < b <;> simp [h, hb] <;> omega

theorem getLsbD_field (v : Word) (lsb w i : Nat) (hw : w ≤ 32) :
    (field v lsb w).getLsbD i = (decide (i < w) && v.getLsbD (lsb + i)) := by
  simp [field, getLsbD_lowMask w i hw, Bool.and_comm]

theorem getLsbD_setfield (v x : Word) (lsb w i : Nat) (hw : w ≤ 32) :
    (setfield v lsb w x).getLsbD i =
      (decide (i < 32) && if lsb ≤ i ∧ i < lsb + w then x.getLsbD (i - lsb) else v.getLsbD i) := by
  simp only [setfield, BitVec.getLsbD_or, BitVec.getLsbD_and, BitVec.getLsbD_not, BitVec.getLsbD_shiftLeft,
    getLsbD_lowMask w _ hw]
  by_cases h : i < 32 <;> by_cases h1 : i < lsb <;> by_cases h2 : i - lsb < w <;> simp [h, h1, h2] <;>
    first
    | rfl
    | (intro h3; omega)

/-! ### Fields after a write -/

/-- A field reads what was written to it, truncated to its width. -/
theorem field_setfield_same (v x : Word) (lsb w : Nat) (h : lsb + w ≤ 32) :
    field (setfield v lsb w x) lsb w = x &&& lowMask w := by
  apply BitVec.eq_of_getLsbD_eq
  intro i hi
  rw [getLsbD_field _ _ _ _ (by omega), getLsbD_setfield _ _ _ _ _ (by omega), BitVec.getLsbD_and,
    getLsbD_lowMask _ _ (by omega)]
  by_cases hw : i < w
  · simp [hw]
    intro h3
    omega
  · simp [hw]

/-- A field keeps its value when a field that shares no bit with it is written. -/
theorem field_setfield_other (v x : Word) (l1 w1 l2 w2 : Nat) (h1 : w1 ≤ 32) (h2 : w2 ≤ 32)
    (hd : bitsDisjoint l1 w1 l2 w2 = true) (hin : l2 + w2 ≤ 32) :
    field (setfield v l1 w1 x) l2 w2 = field v l2 w2 := by
  simp only [bitsDisjoint, Bool.or_eq_true, decide_eq_true_eq] at hd
  apply BitVec.eq_of_getLsbD_eq
  intro i hi
  rw [getLsbD_field _ _ _ _ h2, getLsbD_field _ _ _ _ h2, getLsbD_setfield _ _ _ _ _ h1]
  by_cases hw : i < w2
  · have : ¬ (l1 ≤ l2 + i ∧ l2 + i < l1 + w1) := by omega
    simp [hw, this]
    omega
  · simp [hw]

/-- A bit keeps its value when a field that does not hold it is written. -/
theorem getLsbD_setfield_other (v x : Word) (lsb w b : Nat) (hw : w ≤ 32) (hb : b < 32)
    (hd : bitsDisjoint lsb w b 1 = true) : (setfield v lsb w x).getLsbD b = v.getLsbD b := by
  simp only [bitsDisjoint, Bool.or_eq_true, decide_eq_true_eq] at hd
  rw [getLsbD_setfield _ _ _ _ _ hw]
  have : ¬ (lsb ≤ b ∧ b < lsb + w) := by omega
  simp [this, hb]

/-- Two values that agree on the bits of a field have the same field. -/
theorem field_congr (v u : Word) (lsb w : Nat) (hw : w ≤ 32)
    (h : ∀ i, lsb ≤ i → i < lsb + w → v.getLsbD i = u.getLsbD i) : field v lsb w = field u lsb w := by
  apply BitVec.eq_of_getLsbD_eq
  intro i hi
  rw [getLsbD_field _ _ _ _ hw, getLsbD_field _ _ _ _ hw]
  by_cases hw : i < w
  · simp [hw, h (lsb + i) (by omega) (by omega)]
  · simp [hw]

/-! ### The constraints of a configuration -/

/-- What a well-formed configuration gives (R7, R72), fact by fact. -/
structure Facts (c : Cfg) : Prop where
  ctl_ne_tx : c.regSpictl ≠ c.regSpitx
  ctl_ne_rx : c.regSpictl ≠ c.regSpirx
  tx_ne_rx : c.regSpitx ≠ c.regSpirx
  mode_in : c.modeLsb + 2 ≤ 32
  nb_in : c.nbLsb + c.nbW ≤ 32
  done_in : c.doneBit < 32
  msen_in : c.msenBit < 32
  mode_nb : bitsDisjoint c.modeLsb 2 c.nbLsb c.nbW = true
  mode_done : bitsDisjoint c.modeLsb 2 c.doneBit 1 = true
  mode_msen : bitsDisjoint c.modeLsb 2 c.msenBit 1 = true
  nb_done : bitsDisjoint c.nbLsb c.nbW c.doneBit 1 = true
  nb_msen : bitsDisjoint c.nbLsb c.nbW c.msenBit 1 = true
  done_msen : bitsDisjoint c.doneBit 1 c.msenBit 1 = true
  nb_wide : 2 ≤ c.nbW
  cap_mod : c.bufCap % 4 = 0
  cap_lt : c.bufCap < 2 ^ 31
  idle_ne_enable : c.mIdle ≠ c.mEnable
  idle_ne_transfer : c.mIdle ≠ c.mTransfer
  idle_ne_update : c.mIdle ≠ c.mUpdate
  enable_ne_transfer : c.mEnable ≠ c.mTransfer
  enable_ne_update : c.mEnable ≠ c.mUpdate
  transfer_ne_update : c.mTransfer ≠ c.mUpdate
  rdsr_ne_wren : c.opRdsr ≠ c.opWren
  rdsr_ne_se : c.opRdsr ≠ c.opSe
  rdsr_ne_pp : c.opRdsr ≠ c.opPp
  wren_ne_se : c.opWren ≠ c.opSe
  wren_ne_pp : c.opWren ≠ c.opPp
  se_ne_pp : c.opSe ≠ c.opPp

theorem facts_of_wf {c : Cfg} (h : c.wf = true) : Facts c := by
  simp only [Cfg.wf, Cfg.registersDistinct, Cfg.fieldsFit, Cfg.csFieldFits, Cfg.countFieldWide, Cfg.bufferFits,
    Cfg.codesDistinct, Cfg.opcodesDistinct, Bool.and_eq_true, bne_iff_ne, decide_eq_true_eq] at h
  obtain ⟨⟨⟨⟨⟨⟨⟨⟨⟨⟨a1, a2⟩, a3⟩, ⟨⟨⟨⟨⟨⟨⟨⟨⟨b1, b2⟩, b3⟩, b4⟩, b5⟩, b6⟩, b7⟩, b8⟩, b9⟩, b10⟩⟩, _⟩, ⟨d1, d2⟩⟩, ⟨e1, e2⟩⟩,
    ⟨⟨⟨⟨⟨f1, f2⟩, f3⟩, f4⟩, f5⟩, f6⟩⟩, ⟨⟨⟨⟨⟨g1, g2⟩, g3⟩, g4⟩, g5⟩, g6⟩⟩, _⟩, _⟩ := h
  constructor <;> assumption

/-! ### SPICTL -/

theorem modeOfCode_code {c : Cfg} (f : Facts c) (m : ModeName) : c.modeOfCode (c.code m) = m := by
  cases m with
  | idle => simp [Cfg.code, Cfg.modeOfCode]
  | enable => simp [Cfg.code, Cfg.modeOfCode, f.idle_ne_enable.symm]
  | transfer => simp [Cfg.code, Cfg.modeOfCode, f.idle_ne_transfer.symm, f.enable_ne_transfer.symm]
  | update =>
    simp [Cfg.code, Cfg.modeOfCode, f.idle_ne_update.symm, f.enable_ne_update.symm, f.transfer_ne_update.symm]

theorem code_trunc (x : BitVec 2) : ((x.setWidth 32 &&& lowMask 2).setWidth 2 : BitVec 2) = x := by
  revert x; decide

/-- The mode reads what SETMODE wrote. -/
theorem modeOf_withMode {c : Cfg} (f : Facts c) (v : Word) (m : ModeName) : modeOf c (withMode c v m) = m := by
  rw [modeOf, withMode, field_setfield_same _ _ _ _ f.mode_in, code_trunc, modeOfCode_code f]

/-- Two SPICTL values that agree on the mode's bits are in one mode. -/
theorem modeOf_congr {c : Cfg} (v u : Word)
    (h : ∀ i, c.modeLsb ≤ i → i < c.modeLsb + 2 → v.getLsbD i = u.getLsbD i) : modeOf c v = modeOf c u := by
  rw [modeOf, modeOf, field_congr v u _ _ (by omega) h]

theorem getLsbD_keepDone (c : Cfg) (old v : Word) (i : Nat) (hi : i < 32) :
    (keepDone c old v).getLsbD i = if i = c.doneBit then old.getLsbD i else v.getLsbD i := by
  simp only [keepDone, BitVec.getLsbD_or, BitVec.getLsbD_and, BitVec.getLsbD_not, getLsbD_bitMask]
  by_cases h : i = c.doneBit
  · have hd : c.doneBit < 32 := h ▸ hi
    simp [h, hd]
  · simp [h, hi]

theorem getLsbD_clearBit (v : Word) (b i : Nat) (hi : i < 32) :
    (v &&& ~~~(bitMask b)).getLsbD i = (v.getLsbD i && !decide (i = b)) := by
  simp only [BitVec.getLsbD_and, BitVec.getLsbD_not, getLsbD_bitMask, hi]
  simp

theorem getLsbD_setBit (v : Word) (b i : Nat) (hi : i < 32) :
    (v ||| bitMask b).getLsbD i = (v.getLsbD i || decide (i = b)) := by
  simp only [BitVec.getLsbD_or, getLsbD_bitMask, hi]
  simp

theorem modeOf_keepDone {c : Cfg} (f : Facts c) (old v : Word) : modeOf c (keepDone c old v) = modeOf c v := by
  have hd := f.mode_done
  have hm := f.mode_in
  simp only [bitsDisjoint, Bool.or_eq_true, decide_eq_true_eq] at hd
  apply modeOf_congr
  intro i h1 h2
  rw [getLsbD_keepDone _ _ _ _ (by omega), if_neg (by omega)]

theorem modeOf_clearBit {c : Cfg} (f : Facts c) (v : Word) (b : Nat) (hd : bitsDisjoint c.modeLsb 2 b 1 = true) :
    modeOf c (v &&& ~~~(bitMask b)) = modeOf c v := by
  have hm := f.mode_in
  simp only [bitsDisjoint, Bool.or_eq_true, decide_eq_true_eq] at hd
  apply modeOf_congr
  intro i h1 h2
  rw [getLsbD_clearBit _ _ _ (by omega)]
  have : i ≠ b := by omega
  simp [this]

theorem modeOf_setBit {c : Cfg} (f : Facts c) (v : Word) (b : Nat) (hd : bitsDisjoint c.modeLsb 2 b 1 = true) :
    modeOf c (v ||| bitMask b) = modeOf c v := by
  have hm := f.mode_in
  simp only [bitsDisjoint, Bool.or_eq_true, decide_eq_true_eq] at hd
  apply modeOf_congr
  intro i h1 h2
  rw [getLsbD_setBit _ _ _ (by omega)]
  have : i ≠ b := by omega
  simp [this]

theorem modeOf_withCount {c : Cfg} (f : Facts c) (v n : Word) : modeOf c (withCount c v n) = modeOf c v := by
  have hm := f.mode_in
  have hn := f.nb_in
  have hd := f.mode_nb
  simp only [bitsDisjoint, Bool.or_eq_true, decide_eq_true_eq] at hd
  apply modeOf_congr
  intro i h1 h2
  rw [withCount, getLsbD_setfield _ _ _ _ _ (by omega), if_neg (by omega)]
  simp
  omega

theorem msenFlag_keepDone {c : Cfg} (f : Facts c) (old v : Word) : msenFlag c (keepDone c old v) = msenFlag c v := by
  have hd := f.done_msen
  have hm := f.msen_in
  simp only [bitsDisjoint, Bool.or_eq_true, decide_eq_true_eq] at hd
  rw [msenFlag, msenFlag, getLsbD_keepDone _ _ _ _ hm, if_neg (by omega)]

theorem doneFlag_keepDone {c : Cfg} (f : Facts c) (old v : Word) : doneFlag c (keepDone c old v) = doneFlag c old := by
  rw [doneFlag, doneFlag, getLsbD_keepDone _ _ _ _ f.done_in, if_pos rfl]

theorem msenFlag_withMode {c : Cfg} (f : Facts c) (v : Word) (m : ModeName) :
    msenFlag c (withMode c v m) = msenFlag c v :=
  getLsbD_setfield_other _ _ _ _ _ (by omega) f.msen_in f.mode_msen

theorem msenFlag_withCount {c : Cfg} (f : Facts c) (v n : Word) : msenFlag c (withCount c v n) = msenFlag c v :=
  getLsbD_setfield_other _ _ _ _ _ (by have := f.nb_in; omega) f.msen_in f.nb_msen

theorem doneFlag_withMode {c : Cfg} (f : Facts c) (v : Word) (m : ModeName) :
    doneFlag c (withMode c v m) = doneFlag c v :=
  getLsbD_setfield_other _ _ _ _ _ (by omega) f.done_in f.mode_done

theorem doneFlag_withCount {c : Cfg} (f : Facts c) (v n : Word) : doneFlag c (withCount c v n) = doneFlag c v :=
  getLsbD_setfield_other _ _ _ _ _ (by have := f.nb_in; omega) f.done_in f.nb_done

theorem doneFlag_clear {c : Cfg} (f : Facts c) (v : Word) : doneFlag c (v &&& ~~~(bitMask c.doneBit)) = false := by
  rw [doneFlag, getLsbD_clearBit _ _ _ f.done_in]
  simp

theorem doneFlag_set {c : Cfg} (f : Facts c) (v : Word) : doneFlag c (v ||| bitMask c.doneBit) = true := by
  rw [doneFlag, getLsbD_setBit _ _ _ f.done_in]
  simp

theorem msenFlag_clearDone {c : Cfg} (f : Facts c) (v : Word) :
    msenFlag c (v &&& ~~~(bitMask c.doneBit)) = msenFlag c v := by
  have hd := f.done_msen
  simp only [bitsDisjoint, Bool.or_eq_true, decide_eq_true_eq] at hd
  rw [msenFlag, msenFlag, getLsbD_clearBit _ _ _ f.msen_in]
  have : c.msenBit ≠ c.doneBit := by omega
  simp [this]

theorem msenFlag_setDone {c : Cfg} (f : Facts c) (v : Word) : msenFlag c (v ||| bitMask c.doneBit) = msenFlag c v := by
  have hd := f.done_msen
  simp only [bitsDisjoint, Bool.or_eq_true, decide_eq_true_eq] at hd
  rw [msenFlag, msenFlag, getLsbD_setBit _ _ _ f.msen_in]
  have : c.msenBit ≠ c.doneBit := by omega
  simp [this]

theorem keepDone_self (c : Cfg) (v : Word) : keepDone c v v = v := by
  apply BitVec.eq_of_getLsbD_eq
  intro i hi
  rw [getLsbD_keepDone _ _ _ _ hi]
  simp

/-- A SPICTL value that agrees with the stored one in DONE is stored as it is. -/
theorem keepDone_of_done {c : Cfg} (old v : Word) (h : doneFlag c v = doneFlag c old) :
    keepDone c old v = v := by
  apply BitVec.eq_of_getLsbD_eq
  intro i hi
  rw [getLsbD_keepDone _ _ _ _ hi]
  split
  · next h1 => subst h1; exact h.symm
  · rfl

theorem keepDone_withMode {c : Cfg} (f : Facts c) (v : Word) (m : ModeName) :
    keepDone c v (withMode c v m) = withMode c v m :=
  keepDone_of_done _ _ (doneFlag_withMode f v m)

theorem keepDone_withCount {c : Cfg} (f : Facts c) (v n : Word) : keepDone c v (withCount c v n) = withCount c v n :=
  keepDone_of_done _ _ (doneFlag_withCount f v n)

/-- The byte count of a transfer is not changed by a change of mode. -/
theorem transferBytes_withMode {c : Cfg} (f : Facts c) (v : Word) (m : ModeName) :
    transferBytes c (withMode c v m) = transferBytes c v := by
  have hn := f.nb_in
  rw [transferBytes, transferBytes, withMode,
    field_setfield_other _ _ _ _ _ _ (by omega) (by omega) f.mode_nb hn]

/-- A transfer that starts after SETCNT `n` moves `n + 1` bytes, for a value `n` of the field (R73). -/
theorem transferBytes_withCount {c : Cfg} (f : Facts c) (v n : Word) (h : n.toNat < 2 ^ c.nbW) :
    transferBytes c (withCount c v n) = n.toNat + 1 := by
  have hn := f.nb_in
  have h32 : (2 : Nat) ^ c.nbW ≤ 2 ^ 32 := Nat.pow_le_pow_right (by omega) (by omega)
  rw [transferBytes, withCount, field_setfield_same _ _ _ _ hn]
  simp only [lowMask, BitVec.toNat_and, BitVec.toNat_ofNat]
  rw [Nat.mod_eq_of_lt (by omega), Nat.and_two_pow_sub_one_eq_mod, Nat.mod_eq_of_lt h]

end Sys2Proof.Machine
end

