-- ==== Sys2Proof/Laws/State.lean ====
section
/-! SUPPORT. One lemma per field per update of the state, true by rfl, so that no later proof unfolds a record update. -/

namespace Sys2Proof.Machine

open Sys2Proof

variable (s : State)

/-! ### record -/

@[simp] theorem record_cfg (e : Event) : (record e s).cfg = s.cfg := rfl
@[simp] theorem record_seq (e : Event) : (record e s).seq = s.seq := rfl
@[simp] theorem record_chip (e : Event) : (record e s).chip = s.chip := rfl
@[simp] theorem record_flash (e : Event) : (record e s).flash = s.flash := rfl
@[simp] theorem record_host (e : Event) : (record e s).host = s.host := rfl
@[simp] theorem record_env (e : Event) : (record e s).env = s.env := rfl
@[simp] theorem record_hist (e : Event) : (record e s).hist = e :: s.hist := rfl

/-! ### setPc -/

@[simp] theorem setPc_cfg (p : List Frame) : (setPc p s).cfg = s.cfg := rfl
@[simp] theorem setPc_seq (p : List Frame) : (setPc p s).seq = { s.seq with pc := p } := rfl
@[simp] theorem setPc_chip (p : List Frame) : (setPc p s).chip = s.chip := rfl
@[simp] theorem setPc_flash (p : List Frame) : (setPc p s).flash = s.flash := rfl
@[simp] theorem setPc_host (p : List Frame) : (setPc p s).host = s.host := rfl
@[simp] theorem setPc_env (p : List Frame) : (setPc p s).env = s.env := rfl
@[simp] theorem setPc_hist (p : List Frame) : (setPc p s).hist = s.hist := rfl

/-! ### finish -/

@[simp] theorem finish_cfg : (finish s).cfg = s.cfg := rfl
@[simp] theorem finish_seq : (finish s).seq = { s.seq with pc := [], busy := false } := rfl
@[simp] theorem finish_chip : (finish s).chip = s.chip := rfl
@[simp] theorem finish_flash : (finish s).flash = s.flash := rfl
@[simp] theorem finish_host : (finish s).host = s.host := rfl
@[simp] theorem finish_env : (finish s).env = s.env := rfl
@[simp] theorem finish_hist : (finish s).hist = s.hist := rfl

/-! ### raiseError, clearError -/

@[simp] theorem raiseError_cfg (e : ErrorKind) : (raiseError e s).cfg = s.cfg := rfl
@[simp] theorem raiseError_seq (e : ErrorKind) :
    (raiseError e s).seq = { s.seq with pc := [], err := e.code, busy := false } := rfl
@[simp] theorem raiseError_chip (e : ErrorKind) : (raiseError e s).chip = s.chip := rfl
@[simp] theorem raiseError_flash (e : ErrorKind) : (raiseError e s).flash = s.flash := rfl
@[simp] theorem raiseError_host (e : ErrorKind) : (raiseError e s).host = s.host := rfl
@[simp] theorem raiseError_env (e : ErrorKind) : (raiseError e s).env = s.env := rfl
@[simp] theorem raiseError_hist (e : ErrorKind) : (raiseError e s).hist = .raised e :: s.hist := rfl

/-! ### Working registers -/

@[simp] theorem setTmp_cfg (v : Word) : (setTmp v s).cfg = s.cfg := rfl
@[simp] theorem setTmp_seq (v : Word) : (setTmp v s).seq = { s.seq with tmp := v } := rfl
@[simp] theorem setTmp_chip (v : Word) : (setTmp v s).chip = s.chip := rfl
@[simp] theorem setTmp_flash (v : Word) : (setTmp v s).flash = s.flash := rfl
@[simp] theorem setTmp_host (v : Word) : (setTmp v s).host = s.host := rfl
@[simp] theorem setTmp_env (v : Word) : (setTmp v s).env = s.env := rfl
@[simp] theorem setTmp_hist (v : Word) : (setTmp v s).hist = s.hist := rfl

@[simp] theorem setDpolls_cfg (v : Word) : (setDpolls v s).cfg = s.cfg := rfl
@[simp] theorem setDpolls_seq (v : Word) : (setDpolls v s).seq = { s.seq with dpolls := v } := rfl
@[simp] theorem setDpolls_chip (v : Word) : (setDpolls v s).chip = s.chip := rfl
@[simp] theorem setDpolls_flash (v : Word) : (setDpolls v s).flash = s.flash := rfl
@[simp] theorem setDpolls_host (v : Word) : (setDpolls v s).host = s.host := rfl
@[simp] theorem setDpolls_env (v : Word) : (setDpolls v s).env = s.env := rfl
@[simp] theorem setDpolls_hist (v : Word) : (setDpolls v s).hist = s.hist := rfl

@[simp] theorem setResult_cfg (v : Word) : (setResult v s).cfg = s.cfg := rfl
@[simp] theorem setResult_seq (v : Word) : (setResult v s).seq = { s.seq with result := v } := rfl
@[simp] theorem setResult_chip (v : Word) : (setResult v s).chip = s.chip := rfl
@[simp] theorem setResult_flash (v : Word) : (setResult v s).flash = s.flash := rfl
@[simp] theorem setResult_host (v : Word) : (setResult v s).host = s.host := rfl
@[simp] theorem setResult_env (v : Word) : (setResult v s).env = s.env := rfl
@[simp] theorem setResult_hist (v : Word) : (setResult v s).hist = s.hist := rfl

@[simp] theorem setIdx_cfg (v : Word) : (setIdx v s).cfg = s.cfg := rfl
@[simp] theorem setIdx_seq (v : Word) : (setIdx v s).seq = { s.seq with idx := v } := rfl
@[simp] theorem setIdx_chip (v : Word) : (setIdx v s).chip = s.chip := rfl
@[simp] theorem setIdx_flash (v : Word) : (setIdx v s).flash = s.flash := rfl
@[simp] theorem setIdx_host (v : Word) : (setIdx v s).host = s.host := rfl
@[simp] theorem setIdx_env (v : Word) : (setIdx v s).env = s.env := rfl
@[simp] theorem setIdx_hist (v : Word) : (setIdx v s).hist = s.hist := rfl

/-! ### beginFrame -/

@[simp] theorem beginFrame_cfg : (beginFrame s).cfg = s.cfg := rfl
@[simp] theorem beginFrame_seq : (beginFrame s).seq = s.seq := rfl
@[simp] theorem beginFrame_chip : (beginFrame s).chip = s.chip := rfl
@[simp] theorem beginFrame_flash :
    (beginFrame s).flash = { s.flash with frame := [], frameStatus := none } := rfl
@[simp] theorem beginFrame_host : (beginFrame s).host = s.host := rfl
@[simp] theorem beginFrame_env : (beginFrame s).env = s.env := rfl
@[simp] theorem beginFrame_hist : (beginFrame s).hist = s.hist := rfl

/-! ### startOperation -/

@[simp] theorem startOperation_cfg (p : Pending) : (startOperation p s).cfg = s.cfg := rfl
@[simp] theorem startOperation_seq (p : Pending) : (startOperation p s).seq = s.seq := rfl
@[simp] theorem startOperation_chip (p : Pending) : (startOperation p s).chip = s.chip := rfl
@[simp] theorem startOperation_host (p : Pending) : (startOperation p s).host = s.host := rfl
@[simp] theorem startOperation_env (p : Pending) : (startOperation p s).env = s.env := rfl
@[simp] theorem startOperation_hist (p : Pending) : (startOperation p s).hist = s.hist := rfl
@[simp] theorem startOperation_fm (p : Pending) : (startOperation p s).flash.fm = s.flash.fm := rfl
@[simp] theorem startOperation_wip (p : Pending) : (startOperation p s).flash.wip = true := rfl
@[simp] theorem startOperation_wel (p : Pending) : (startOperation p s).flash.wel = false := rfl
@[simp] theorem startOperation_pending (p : Pending) : (startOperation p s).flash.pending = p := rfl
@[simp] theorem startOperation_frame (p : Pending) : (startOperation p s).flash.frame = s.flash.frame := rfl

end Sys2Proof.Machine
end

