-- ==== Sys2Proof/Laws/Bus.lean ====
section
/-! SUPPORT. The bus primitives when the transport does not fail, and the effect of a write to SPICTL, one lemma for each row of the
table of spec/44_engine_and_flash.md R154. -/

namespace Sys2Proof.Machine

open Sys2Proof

/-- The meaning of the operation in progress is the micro-step at the top frame. -/
theorem exec_top {i : Instr} {f : Frame} {callers : List Frame} {s : State} (hc : i.isCommand = true)
    (hr : runningAt i (f :: callers) s = true) :
    exec i s = microStep s ∧ s.seq.pc = f :: callers ∧ s.env.transportFails = false := by
  obtain ⟨hb, hp, ht, hf⟩ := (runningAt_iff s).mp hr
  exact ⟨exec_running s hc hb ht, hp, hf⟩

theorem iread_ok {r : RegNum} {k : Word → State → Out} {s : State} (hf : s.env.transportFails = false) :
    iread r k s = k (readReg r s).1 (record (.busRead r (readReg r s).1) (readReg r s).2) := by
  simp [iread, hf]

theorem iwrite_ok {r : RegNum} {v : Word} {k : State → Out} {s : State} (hf : s.env.transportFails = false) :
    iwrite r v k s = andThen (writeReg r v s) k := by
  simp [iwrite, hf]

theorem readReg_spictl {s : State} (f : Facts s.cfg) : readReg s.cfg.regSpictl s = (s.chip.spictl, s) := by
  simp [readReg, regValue, f.ctl_ne_rx]

/-- The read half of a read-modify-write. -/
theorem readSpictl_ok {s : State} (f : Facts s.cfg) (hf : s.env.transportFails = false) :
    readSpictl s = .next (nextLabel (controlRead s)) := by
  simp [readSpictl, iread_ok hf, readReg_spictl f, advance, setTmp, record, controlRead]

/-! ### A write to SPICTL -/

theorem transferBytes_keepDone {c : Cfg} (f : Facts c) (old v : Word) :
    transferBytes c (keepDone c old v) = transferBytes c v := by
  have hd := f.nb_done
  have hm := f.nb_in
  simp only [bitsDisjoint, Bool.or_eq_true, decide_eq_true_eq] at hd
  rw [transferBytes, transferBytes, field_congr _ v _ _ (by omega)]
  intro i h1 h2
  rw [getLsbD_keepDone _ _ _ _ (by omega), if_neg (by omega)]

/-- The write, by cases on the mode of the value written (R142, R151). -/
theorem writeSpictl_eq {s : State} (f : Facts s.cfg) (v : Word) :
    writeSpictl v s =
      if msenFlag s.cfg v = false ∧ modeOf s.cfg v ≠ .idle then .refused .msenOff
      else if modeOf s.cfg v = modeOf s.cfg s.chip.spictl then
        sameMode (modeOf s.cfg s.chip.spictl) (controlStored v s)
      else changeMode (modeOf s.cfg s.chip.spictl) (modeOf s.cfg v) (controlStored v s) := by
  simp only [writeSpictl, msenFlag_keepDone f, modeOf_keepDone f]
  rfl

theorem writeReg_spictl {s : State} (v : Word) (hfly : s.chip.fly = none) :
    writeReg s.cfg.regSpictl v s = writeSpictl v s := by
  simp [writeReg, hfly]

section Table

variable {s : State} {v : Word} (f : Facts s.cfg) (hfly : s.chip.fly = none)

include f hfly

/-- To idle with no frame open, and idle to idle: storage only (R143, R153). -/
theorem write_idle (hm : modeOf s.cfg v = .idle) (h : modeOf s.cfg s.chip.spictl = .idle ∨ s.chip.cs = false) :
    writeReg s.cfg.regSpictl v s = .next (controlStored v s) := by
  rw [writeReg_spictl v hfly, writeSpictl_eq f]
  by_cases h3 : modeOf s.cfg s.chip.spictl = .idle
  · simp [hm, h3, sameMode]
  · have hcs : (controlStored v s).chip.cs = false := h.resolve_left h3
    simp [hm, Ne.symm h3, changeMode, deassertCs, hcs]

/-- To idle with chip-select asserted: the frame ends (R143). -/
theorem write_idle_frame (hm : modeOf s.cfg v = .idle) (h : modeOf s.cfg s.chip.spictl ≠ .idle)
    (hcs : s.chip.cs = true) : writeReg s.cfg.regSpictl v s = endFrame (deselected (controlStored v s)) := by
  rw [writeReg_spictl v hfly, writeSpictl_eq f]
  have hcs' : (controlStored v s).chip.cs = true := hcs
  simp [hm, Ne.symm h, changeMode, deassertCs, hcs']
  rfl

/-- To enable with chip-select asserted, and enable to enable: storage only (R144, R153). -/
theorem write_enable_kept (hm : modeOf s.cfg v = .enable) (he : msenFlag s.cfg v = true)
    (h : modeOf s.cfg s.chip.spictl = .enable ∨ s.chip.cs = true) :
    writeReg s.cfg.regSpictl v s = .next (controlStored v s) := by
  rw [writeReg_spictl v hfly, writeSpictl_eq f]
  by_cases h3 : modeOf s.cfg s.chip.spictl = .enable
  · simp [hm, he, h3, sameMode]
  · have hcs : (controlStored v s).chip.cs = true := h.resolve_left h3
    simp [hm, he, Ne.symm h3, changeMode, assertCs, hcs]

/-- To enable with chip-select deasserted: a new frame begins (R144). -/
theorem write_enable (hm : modeOf s.cfg v = .enable) (he : msenFlag s.cfg v = true)
    (h : modeOf s.cfg s.chip.spictl ≠ .enable) (hcs : s.chip.cs = false) :
    writeReg s.cfg.regSpictl v s = .next (selected (controlStored v s)) := by
  rw [writeReg_spictl v hfly, writeSpictl_eq f]
  have hcs' : (controlStored v s).chip.cs = false := hcs
  simp [hm, he, Ne.symm h, changeMode, assertCs, hcs']
  rfl

/-- To transfer: a transfer starts (R145). -/
theorem write_transfer (hm : modeOf s.cfg v = .transfer) (he : msenFlag s.cfg v = true)
    (h : modeOf s.cfg s.chip.spictl = .enable ∨ modeOf s.cfg s.chip.spictl = .update) (hcs : s.chip.cs = true)
    (hn : transferBytes s.cfg v ≤ 4) :
    writeReg s.cfg.regSpictl v s = .next (transferStarted (controlStored v s)) := by
  rw [writeReg_spictl v hfly, writeSpictl_eq f]
  have hcs' : (controlStored v s).chip.cs = true := hcs
  have hn' : ¬ 4 < transferBytes (controlStored v s).cfg (controlStored v s).chip.spictl := by
    show ¬ 4 < transferBytes s.cfg (keepDone s.cfg s.chip.spictl v)
    rw [transferBytes_keepDone f]
    omega
  have h1 : modeOf s.cfg s.chip.spictl ≠ .transfer := by rcases h with h | h <;> simp [h]
  have h2 : modeOf s.cfg s.chip.spictl ≠ .idle := by rcases h with h | h <;> simp [h]
  rw [hm, if_neg (by simp [he]), if_neg (Ne.symm h1), changeMode, startTransfer, if_neg (by simp [h2, hcs']), if_neg hn']
  rfl

/-- To update: storage only (R146). -/
theorem write_update (hm : modeOf s.cfg v = .update) (he : msenFlag s.cfg v = true)
    (h : modeOf s.cfg s.chip.spictl = .enable ∨ modeOf s.cfg s.chip.spictl = .transfer) (hcs : s.chip.cs = true) :
    writeReg s.cfg.regSpictl v s = .next (controlStored v s) := by
  rw [writeReg_spictl v hfly, writeSpictl_eq f]
  have hcs' : (controlStored v s).chip.cs = true := hcs
  have h1 : modeOf s.cfg s.chip.spictl ≠ .update := by rcases h with h | h <;> simp [h]
  have h2 : modeOf s.cfg s.chip.spictl ≠ .idle := by rcases h with h | h <;> simp [h]
  simp [hm, he, Ne.symm h1, h2, changeMode, latchUpdate, hcs']

end Table

/-- A write to SPITX with no transfer in flight (R147). -/
theorem write_spitx {s : State} (f : Facts s.cfg) (v : Word) (hfly : s.chip.fly = none) :
    writeReg s.cfg.regSpitx v s =
      .next (record (.busWrite s.cfg.regSpitx v) { s with chip := { s.chip with spitx := v } }) := by
  simp [writeReg, hfly, f.ctl_ne_tx.symm]

/-- A command word or data word is sent (R121 to R123, R131). -/
theorem sendWord_ok {s : State} (f : Facts s.cfg) (w : Word) (hf : s.env.transportFails = false)
    (hfly : s.chip.fly = none) : sendWord w s = .next (nextLabel (wordSent w s)) := by
  have h := write_spitx (s := { s with seq := { s.seq with word := w } }) f w hfly
  simp only at h
  rw [sendWord, iwrite_ok (by exact hf), h]
  rfl

end Sys2Proof.Machine
end

