-- ==== Sys2Proof/Laws/Calls.lean ====
section
/-! SUPPORT. Every call, and every operation issued by the host, begins with a read of SPICTL (spec/10_state.md R24 (b)), but WAITDONE,
IRW and IRR: one lemma for each. And what a return does at each caller. -/

namespace Sys2Proof.Machine

open Sys2Proof

section Calls

variable {s : State} (f : Facts s.cfg) (hf : s.env.transportFails = false)

include f hf

theorem callSetmode_ok (m : ModeName) : callSetmode m s = .next (opBegun (.setmode m) s.seq.pc s) :=
  readSpictl_ok (s := pushFrame (.setmode m) s) f hf

theorem callMspien_ok : callMspien s = .next (opBegun .mspien s.seq.pc s) :=
  readSpictl_ok (s := pushFrame .mspien s) f hf

theorem callSetcnt_ok (c : Word) : callSetcnt c s = .next (opBegun (.setcnt c) s.seq.pc s) :=
  readSpictl_ok (s := pushFrame (.setcnt c) s) f hf

theorem callRdstatus_ok : callRdstatus s = .next (opBegun .rdstatus s.seq.pc s) :=
  callSetmode_ok (s := pushFrame .rdstatus s) f hf .idle

theorem callSendcmd_ok (op : Byte) : callSendcmd op s = .next (opBegun (.sendcmd op) s.seq.pc s) :=
  callSetmode_ok (s := pushFrame (.sendcmd op) s) f hf .idle

theorem callErase_ok : callErase s = .next (opBegun (.erase s.seq.addr) s.seq.pc s) :=
  callSetmode_ok (s := pushFrame (.erase s.seq.addr) s) f hf .idle

theorem callWaitflash_ok : callWaitflash s = .next (opBegun .waitflash s.seq.pc s) :=
  callRdstatus_ok (s := startStatusPolls (pushFrame .waitflash s)) f hf

end Calls

/-! ### Top-level beginnings -/

section Begin

variable {s : State} (f : Facts s.cfg) (hf : s.env.transportFails = false) {callers : List Frame}

include f hf

theorem readSpictl_begins {i : Instr} (hp : s.seq.pc = ⟨i, 0⟩ :: callers) (h1 : framesAfterFirstRead i = [⟨i, 1⟩])
    (h2 : fpollsAtStart i s = s.seq.fpolls) : readSpictl s = .next (opBegun i callers s) := by
  rw [readSpictl_ok f hf]
  simp [nextLabel, controlRead, hp, setPc, opBegun, h1, h2]

/-- An operation at its first label, issued by the host or called, begins with a read of SPICTL. -/
theorem microStep_begins {i : Instr} (hb : beginsWithRead i = true) (hp : s.seq.pc = ⟨i, 0⟩ :: callers) :
    microStep s = .next (opBegun i callers s) := by
  simp only [microStep, hp]
  cases i with
  | mspien => exact readSpictl_begins f hf hp rfl rfl
  | mspidis => exact readSpictl_begins f hf hp rfl rfl
  | setmode m => exact readSpictl_begins f hf hp rfl rfl
  | setcnt c => exact readSpictl_begins f hf hp rfl rfl
  | rdstatus => exact (callSetmode_ok f hf _).trans (by rw [hp]; rfl)
  | sendcmd op => exact (callSetmode_ok f hf _).trans (by rw [hp]; rfl)
  | erase a => exact (callSetmode_ok f hf _).trans (by rw [hp]; rfl)
  | waitflash =>
    have h : startStatusPolls s = setPc (⟨.waitflash, 1⟩ :: callers) { s with seq := { s.seq with fpolls := 0 } } := by
      simp [startStatusPolls, gotoLabel, hp]
    simp only [microWaitflash, h]
    exact callRdstatus_ok f hf
  | progpage a n => exact (callMspien_ok f hf).trans (by rw [hp]; rfl)
  | _ => cases hb

end Begin

/-! ### Returns -/

section Returns

variable (callers : List Frame) (s : State)

@[simp] theorem returnTo_nil : returnTo [] s = finish s := rfl
@[simp] theorem returnTo_setcnt (c : Word) (l : Nat) :
    returnTo (⟨.setcnt c, l⟩ :: callers) s = returnTo callers s := rfl
@[simp] theorem returnTo_rdstatus (l : Nat) :
    returnTo (⟨.rdstatus, l⟩ :: callers) s = setPc (⟨.rdstatus, l + 1⟩ :: callers) s := rfl
theorem returnTo_sendcmd (op : Byte) (l : Nat) :
    returnTo (⟨.sendcmd op, l⟩ :: callers) s =
      if l < 5 then setPc (⟨.sendcmd op, l + 1⟩ :: callers) s else returnTo callers s := by
  by_cases h : l < 5 <;> simp [returnTo, afterCall, afterSendcmd, h]
theorem returnTo_erase (a : Word) (l : Nat) :
    returnTo (⟨.erase a, l⟩ :: callers) s =
      if l < 5 then setPc (⟨.erase a, l + 1⟩ :: callers) s else returnTo callers s := by
  by_cases h : l < 5 <;> simp [returnTo, afterCall, afterErase, h]
theorem returnTo_progpage (a n : Word) (l : Nat) :
    returnTo (⟨.progpage a n, l⟩ :: callers) s =
      if l < 19 then setPc (⟨.progpage a n, l + 1⟩ :: callers) s else returnTo callers s := by
  by_cases h : l < 19 <;> simp [returnTo, afterCall, afterProgpage, h]

/-- WAITFLASH's test after a status read (R124). -/
theorem returnTo_waitflash (l : Nat) :
    returnTo (⟨.waitflash, l⟩ :: callers) s =
      if wipFlag s.seq.stat = false then returnTo callers (waitflashResult callers (countStatusRead s))
      else if pollsExhausted s.cfg (s.seq.fpolls + 1) then
        raiseError (.deviceUnresponsive .waitflash) (countStatusRead s)
      else setPc (⟨.waitflash, 1⟩ :: callers) (countStatusRead s) := by
  have e : afterWaitflash (countStatusRead s) =
      if wipFlag s.seq.stat = false then .ret
      else if pollsExhausted s.cfg (s.seq.fpolls + 1) then .fail (.deviceUnresponsive .waitflash)
      else .goto 1 := rfl
  simp only [returnTo, afterCall, e]
  by_cases h : wipFlag s.seq.stat = false
  · simp only [h, if_true]
  · by_cases h2 : pollsExhausted s.cfg (s.seq.fpolls + 1) = true
    · simp only [h, h2, Bool.true_eq_false, if_true, if_false]
    · simp only [h, h2, Bool.true_eq_false, Bool.false_eq_true, if_false]

/-- A return does not depend on the frames it finds in `pc`. -/
theorem returnTo_setPc (p : List Frame) : returnTo callers (setPc p s) = returnTo callers s := by
  induction callers generalizing s with
  | nil => rfl
  | cons g callers ih =>
    obtain ⟨op, l⟩ := g
    cases op with
    | setcnt c => exact ih s
    | rdstatus => rfl
    | sendcmd op => rw [returnTo_sendcmd, returnTo_sendcmd]; split; rfl; exact ih s
    | erase a => rw [returnTo_erase, returnTo_erase]; split; rfl; exact ih s
    | progpage a n => rw [returnTo_progpage, returnTo_progpage]; split; rfl; exact ih s
    | waitflash =>
      rw [returnTo_waitflash, returnTo_waitflash]
      have h : waitflashResult callers (countStatusRead (setPc p s))
          = setPc p (waitflashResult callers (countStatusRead s)) := by
        cases callers <;> rfl
      rw [h]
      by_cases h1 : wipFlag s.seq.stat = false
      · rw [if_pos (show wipFlag (setPc p s).seq.stat = false from h1), if_pos h1]
        exact ih _
      · rw [if_neg (show ¬wipFlag (setPc p s).seq.stat = false from h1), if_neg h1]
        by_cases h2 : pollsExhausted s.cfg (s.seq.fpolls + 1) = true
        · rw [if_pos h2, if_pos (show pollsExhausted (setPc p s).cfg ((setPc p s).seq.fpolls + 1) = true from h2)]
          rfl
        · rw [if_neg h2, if_neg (show ¬pollsExhausted (setPc p s).cfg ((setPc p s).seq.fpolls + 1) = true from h2)]
          rfl
    | _ => exact ih s

end Returns

/-- The return after a write that left the sequencer alone. -/
theorem returnOp_next {callers : List Frame} {g : Frame} {s : State} (hp : s.seq.pc = g :: callers) (u : State)
    (hu : u.seq.pc = s.seq.pc) : andThen (.next u) returnOp = .next (returnTo callers u) := by
  simp [andThen, returnOp, hu, hp]

/-! ### Polls -/

theorem pollsExhausted_iff {c : Cfg} {n : Word} :
    pollsExhausted c n = true ↔ ∃ k, c.pollLimit = some k ∧ k ≤ n.toNat := by
  unfold pollsExhausted
  cases c.pollLimit <;> simp

theorem pollLimit_bounds {c : Cfg} (h : c.wf = true) {k : Nat} (hk : c.pollLimit = some k) :
    1 ≤ k ∧ k < 2 ^ 32 := by
  simp only [Cfg.wf, Bool.and_eq_true] at h
  simpa [Cfg.pollLimitOk, hk] using h.1.2

/-- One poll of DONE, with the test after it (R114). -/
theorem pollDone_ok {s : State} {callers : List Frame} {l : Nat} (f : Facts s.cfg) (hf : s.env.transportFails = false)
    (hp : s.seq.pc = ⟨.waitdone, l⟩ :: callers) :
    let u : State := { controlRead s with seq := { s.seq with tmp := s.chip.spictl, dpolls := s.seq.dpolls + 1 } }
    pollDone s =
      if doneFlag s.cfg s.chip.spictl then .next (returnTo callers u)
      else if pollsExhausted s.cfg (s.seq.dpolls + 1) then
        .next (raiseError (.deviceUnresponsive .waitdone) u)
      else .next (setPc (⟨.waitdone, 1⟩ :: callers) u) := by
  intro u
  rw [pollDone, iread_ok hf, readReg_spictl f]
  have hu : setDpolls ((record (.busRead s.cfg.regSpictl s.chip.spictl) s).seq.dpolls + 1)
      (setTmp s.chip.spictl (record (.busRead s.cfg.regSpictl s.chip.spictl) s)) = u := rfl
  have h1 : u.cfg = s.cfg := rfl
  have h2 : u.seq.tmp = s.chip.spictl := rfl
  have h3 : u.seq.dpolls = s.seq.dpolls + 1 := rfl
  have h4 : u.seq.pc = ⟨.waitdone, l⟩ :: callers := hp
  simp only [hu, testDone]
  rw [h1, h2, h3, returnOp, h4, gotoLabel, h4]
  rfl

theorem readReg_spirx {s : State} (f : Facts s.cfg) (hfly : s.chip.fly = none) :
    readReg s.cfg.regSpirx s = (s.chip.spirx, s) := by
  simp [readReg, hfly, regValue, f.ctl_ne_rx.symm, f.tx_ne_rx.symm]

/-- The last micro-step of RDSTATUS (R121). -/
theorem rdstatus_last {s : State} (f : Facts s.cfg) (hf : s.env.transportFails = false) (hfly : s.chip.fly = none)
    {callers : List Frame} (hp : s.seq.pc = ⟨.rdstatus, 8⟩ :: callers) :
    microStep s =
      .next (returnTo callers (takeStatus s.chip.spirx (record (.busRead s.cfg.regSpirx s.chip.spirx) s))) := by
  have hm : microStep s = microRdstatus 8 s := by simp only [microStep, hp]
  rw [hm]
  simp only [microRdstatus]
  rw [iread_ok hf, readReg_spirx f hfly]
  simp only [returnOp, takeStatus, record_seq, hp]
  rfl

/-! ### Which operation a label calls -/

theorem calleeAt_setcnt {c : Cfg} {n : Word} {l : Nat} {i : Instr} (h : calleeAt c ⟨.setcnt n, l⟩ = some i) :
    l = 2 ∧ i = .setmode .transfer := by
  simp only [calleeAt] at h
  split at h
  · cases h; exact ⟨‹_›, rfl⟩
  · cases h

theorem calleeAt_waitflash {c : Cfg} {l : Nat} {i : Instr} (h : calleeAt c ⟨.waitflash, l⟩ = some i) :
    l = 1 ∧ i = .rdstatus := by
  simp only [calleeAt] at h
  split at h
  · cases h; exact ⟨‹_›, rfl⟩
  · cases h

theorem calleeAt_rdstatus {c : Cfg} {l : Nat} {i : Instr} (h : calleeAt c ⟨.rdstatus, l⟩ = some i) :
    (l = 0 ∧ i = .setmode .idle) ∨ (l = 1 ∧ i = .setmode .enable) ∨ (l = 3 ∧ i = .setcnt 3) ∨ (l = 4 ∧ i = .waitdone)
      ∨ (l = 5 ∧ i = .setmode .update) ∨ (l = 6 ∧ i = .setmode .transfer) ∨ (l = 7 ∧ i = .waitdone) := by
  simp only [calleeAt] at h
  split at h <;> cases h <;> simp

theorem calleeAt_sendcmd {c : Cfg} {op : Byte} {l : Nat} {i : Instr} (h : calleeAt c ⟨.sendcmd op, l⟩ = some i) :
    (l = 0 ∧ i = .setmode .idle) ∨ (l = 1 ∧ i = .setmode .enable) ∨ (l = 3 ∧ i = .setcnt (cntVal 1))
      ∨ (l = 4 ∧ i = .waitdone) ∨ (l = 5 ∧ i = .setmode .idle) := by
  simp only [calleeAt] at h
  split at h <;> cases h <;> simp

theorem calleeAt_erase {c : Cfg} {a : Word} {l : Nat} {i : Instr} (h : calleeAt c ⟨.erase a, l⟩ = some i) :
    (l = 0 ∧ i = .setmode .idle) ∨ (l = 1 ∧ i = .setmode .enable) ∨ (l = 3 ∧ i = .setcnt (cntVal 4))
      ∨ (l = 4 ∧ i = .waitdone) ∨ (l = 5 ∧ i = .setmode .idle) := by
  simp only [calleeAt] at h
  split at h <;> cases h <;> simp

theorem calleeAt_progpage {c : Cfg} {a n : Word} {l : Nat} {i : Instr} (h : calleeAt c ⟨.progpage a n, l⟩ = some i) :
    (l = 0 ∧ i = .mspien) ∨ (l = 2 ∧ i = .waitflash) ∨ (l = 3 ∧ i = .sendcmd c.opWren) ∨ (l = 4 ∧ i = .erase a)
      ∨ (l = 5 ∧ i = .waitflash) ∨ (l = 6 ∧ i = .sendcmd c.opWren) ∨ (l = 7 ∧ i = .setmode .idle)
      ∨ (l = 8 ∧ i = .setmode .enable) ∨ (l = 10 ∧ i = .setcnt 3) ∨ (l = 11 ∧ i = .waitdone)
      ∨ (l = 15 ∧ i = .setmode .enable) ∨ (l = 16 ∧ i = .setmode .transfer)
      ∨ (l = 17 ∧ c.ppWordWait = true ∧ i = .waitdone) ∨ (l = 19 ∧ i = .waitflash) := by
  simp only [calleeAt] at h
  split at h
  case h_13 =>
    split at h
    · next hw => cases h; simp [hw]
    · cases h
  all_goals cases h <;> simp

/-- PROGPAGE is called by nothing: its frame is the bottom one. -/
theorem progpage_bottom {c : Cfg} {a n : Word} {l : Nat} {callers : List Frame}
    (h : callsOk c (⟨.progpage a n, l⟩ :: callers) = true) : callers = [] := by
  cases callers with
  | nil => rfl
  | cons g rest =>
    simp only [callsOk, Bool.and_eq_true, decide_eq_true_eq] at h
    obtain ⟨op, k⟩ := g
    have h1 := h.1
    cases op with
    | setcnt => simpa using calleeAt_setcnt h1
    | waitflash => simpa using calleeAt_waitflash h1
    | rdstatus => simpa using calleeAt_rdstatus h1
    | sendcmd => simpa using calleeAt_sendcmd h1
    | erase => simpa using calleeAt_erase h1
    | progpage => simpa using calleeAt_progpage h1
    | _ => cases h1

end Sys2Proof.Machine
end

