-- ==== Sys2Proof/Laws/Decode.lean ====
section
/-! SUPPORT. Laws of the decoders and the encoder: the three fields of a descriptor, the operand forms, and the bytes of a flash
address. -/

namespace Sys2Proof

/-! ### The fields of a descriptor (R77) -/

theorem getLsbD_descriptor (op : BitVec 4) (a0 a1 : Word) (i : Nat) :
    (descriptor op a0 a1).getLsbD i =
      if i < 32 then a1.getLsbD i else if i < 64 then a0.getLsbD (i - 32) else op.getLsbD (i - 64) := by
  have h1 : (descriptor op a0 a1).getLsbD i = if i < 64 then (a0 ++ a1).getLsbD i else op.getLsbD (i - 64) :=
    BitVec.getLsbD_append
  have h2 : (a0 ++ a1).getLsbD i = if i < 32 then a1.getLsbD i else a0.getLsbD (i - 32) := BitVec.getLsbD_append
  rw [h1, h2]
  by_cases h : i < 32
  · rw [if_pos (by omega), if_pos h, if_pos h]
  · by_cases h' : i < 64
    · rw [if_pos h', if_neg h, if_neg h, if_pos h']
    · rw [if_neg h', if_neg h, if_neg h']

@[simp] theorem descOp_descriptor (op : BitVec 4) (a0 a1 : Word) : descOp (descriptor op a0 a1) = op := by
  apply BitVec.eq_of_getLsbD_eq
  intro i hi
  rw [descOp, BitVec.getLsbD_extractLsb', getLsbD_descriptor, if_neg (by omega), if_neg (by omega)]
  simp [hi]

@[simp] theorem descA0_descriptor (op : BitVec 4) (a0 a1 : Word) : descA0 (descriptor op a0 a1) = a0 := by
  apply BitVec.eq_of_getLsbD_eq
  intro i hi
  rw [descA0, BitVec.getLsbD_extractLsb', getLsbD_descriptor, if_neg (by omega), if_pos (by omega)]
  simp [hi]

@[simp] theorem descA1_descriptor (op : BitVec 4) (a0 a1 : Word) : descA1 (descriptor op a0 a1) = a1 := by
  apply BitVec.eq_of_getLsbD_eq
  intro i hi
  rw [descA1, BitVec.getLsbD_extractLsb', getLsbD_descriptor, if_pos (by omega)]
  simp [hi]

/-! ### Operand forms (R79) -/

theorem byteOperand_setWidth (r : BitVec 8) : byteOperand (r.setWidth 32) = some r := by
  have h : (r.setWidth 32).toNat < 256 := by simp; omega
  rw [byteOperand, if_pos h]
  congr 1
  apply BitVec.eq_of_getLsbD_eq
  intro i hi
  simp [hi]

theorem byteOperand_some {a : Word} {r : BitVec 8} (h : byteOperand a = some r) : r.setWidth 32 = a := by
  unfold byteOperand at h
  split at h
  · next hlt =>
    cases h
    apply BitVec.eq_of_toNat_eq
    simp
    omega
  · cases h

theorem modeOfIndex_modeIndex (m : ModeName) : modeOfIndex (modeIndex m) = some m := by
  cases m <;> rfl

theorem modeOfIndex_some {a : Word} {m : ModeName} (h : modeOfIndex a = some m) : modeIndex m = a := by
  unfold modeOfIndex at h
  apply BitVec.eq_of_toNat_eq
  split at h <;> simp_all <;> subst h <;> simp [modeIndex]

/-! ### Flash addresses (R82) -/

theorem getLsbD_addrOfBytes (a2 a1 a0 : Byte) (i : Nat) :
    (addrOfBytes a2 a1 a0).getLsbD i =
      if i < 8 then a0.getLsbD i else if i < 16 then a1.getLsbD (i - 8) else a2.getLsbD (i - 16) := by
  have h1 : (addrOfBytes a2 a1 a0).getLsbD i = if i < 8 then a0.getLsbD i else (a2 ++ a1).getLsbD (i - 8) :=
    BitVec.getLsbD_append
  have h2 : (a2 ++ a1).getLsbD (i - 8) = if i - 8 < 8 then a1.getLsbD (i - 8) else a2.getLsbD (i - 8 - 8) :=
    BitVec.getLsbD_append
  rw [h1, h2]
  by_cases h : i < 8
  · rw [if_pos h, if_pos h]
  · by_cases h' : i < 16
    · rw [if_neg h, if_pos (by omega), if_neg h, if_pos h']
    · rw [if_neg h, if_neg (by omega), if_neg h, if_neg h', Nat.sub_sub]

/-- The three bytes of an address make it up again. -/
theorem addrOfBytes_extract (a : FlashAddr) :
    addrOfBytes (a.extractLsb' 16 8) (a.extractLsb' 8 8) (a.extractLsb' 0 8) = a := by
  apply BitVec.eq_of_getLsbD_eq
  intro i hi
  rw [getLsbD_addrOfBytes]
  simp only [BitVec.getLsbD_extractLsb']
  by_cases h : i < 8
  · simp [h]
  · by_cases h' : i < 16
    · have e : 8 + (i - 8) = i := by omega
      have l : i - 8 < 8 := by omega
      simp [h, h', e, l]
    · have e : 16 + (i - 16) = i := by omega
      have l : i - 16 < 8 := by omega
      simp [h, h', e, l]

theorem bytesOfAddr_addrOfBytes (a2 a1 a0 : Byte) : bytesOfAddr (addrOfBytes a2 a1 a0) = [a2, a1, a0] := by
  have h2 : (addrOfBytes a2 a1 a0).extractLsb' 16 8 = a2 := by
    apply BitVec.eq_of_getLsbD_eq
    intro i hi
    rw [BitVec.getLsbD_extractLsb', getLsbD_addrOfBytes, if_neg (by omega), if_neg (by omega)]
    simp [hi]
  have h1 : (addrOfBytes a2 a1 a0).extractLsb' 8 8 = a1 := by
    apply BitVec.eq_of_getLsbD_eq
    intro i hi
    rw [BitVec.getLsbD_extractLsb', getLsbD_addrOfBytes, if_neg (by omega), if_pos (by omega)]
    simp [hi]
  have h0 : (addrOfBytes a2 a1 a0).extractLsb' 0 8 = a0 := by
    apply BitVec.eq_of_getLsbD_eq
    intro i hi
    rw [BitVec.getLsbD_extractLsb', getLsbD_addrOfBytes, if_pos (by omega)]
    simp [hi]
  rw [bytesOfAddr, h2, h1, h0]

end Sys2Proof
end

