-- ==== Sys2Proof/Laws/Memory.lean ====
section
/-! SUPPORT. Laws of the stores: a read after a write, and that every operation keeps the canonical form. -/

namespace Sys2Proof.Machine

open Sys2Proof

variable {α : Type} [DecidableEq α]

/-! ### The canonical form -/

/-- Every listed address lies above `k`. -/
def Memory.above (k : Nat) (m : List (Nat × α)) : Prop := ∀ c ∈ m, k < c.1

theorem Memory.wf_cons (d : α) (k : Nat) (v : α) (m : List (Nat × α)) :
    Memory.wf d ((k, v) :: m) = true ↔ v ≠ d ∧ Memory.above k m ∧ Memory.wf d m = true := by
  simp [Memory.wf, Memory.above, and_assoc]

omit [DecidableEq α] in
theorem Memory.above_mono {k l : Nat} {m : List (Nat × α)} (h : Memory.above l m) (hk : k ≤ l) : Memory.above k m :=
  fun c hc => Nat.lt_of_le_of_lt hk (h c hc)

omit [DecidableEq α] in
/-- An address not above every entry is not listed and reads as `d`. -/
theorem Memory.read_below {d : α} {m : List (Nat × α)} {a k : Nat} (h : Memory.above k m) (ha : a ≤ k) :
    Memory.read d m a = d := by
  induction m with
  | nil => rfl
  | cons c m ih =>
    obtain ⟨j, w⟩ := c
    have hj : k < j := h (j, w) (by simp)
    have : a ≠ j := by omega
    simp only [Memory.read, this, if_false]
    exact ih (fun c hc => h c (by simp [hc]))

theorem Memory.above_entry {d v : α} {k a : Nat} {m : List (Nat × α)} (h : Memory.above k m) (hk : k < a) :
    Memory.above k (Memory.entry d a v m) := by
  unfold Memory.entry
  split
  · exact h
  · intro c hc
    rcases List.mem_cons.mp hc with rfl | hc
    · exact hk
    · exact h c hc

theorem Memory.above_write {d v : α} {k a : Nat} {m : List (Nat × α)} (h : Memory.above k m) (hk : k < a) :
    Memory.above k (Memory.write d m a v) := by
  induction m with
  | nil => exact Memory.above_entry h hk
  | cons c m ih =>
    obtain ⟨j, w⟩ := c
    have hj : k < j := h (j, w) (by simp)
    have hm : Memory.above k m := fun c hc => h c (by simp [hc])
    simp only [Memory.write]
    split
    · exact Memory.above_entry h hk
    · split
      · exact Memory.above_entry hm hk
      · intro c hc
        rcases List.mem_cons.mp hc with rfl | hc
        · exact hj
        · exact ih hm c hc

theorem Memory.wf_entry {d v : α} {a : Nat} {m : List (Nat × α)} (h : Memory.wf d m = true) (ha : Memory.above a m) :
    Memory.wf d (Memory.entry d a v m) = true := by
  unfold Memory.entry
  split
  · exact h
  · next hv => exact (Memory.wf_cons d a v m).mpr ⟨hv, ha, h⟩

/-- A write keeps the canonical form. -/
theorem Memory.wf_write {d v : α} {a : Nat} {m : List (Nat × α)} (h : Memory.wf d m = true) :
    Memory.wf d (Memory.write d m a v) = true := by
  induction m with
  | nil => exact Memory.wf_entry h (fun c hc => by simp at hc)
  | cons c m ih =>
    obtain ⟨j, w⟩ := c
    obtain ⟨hw, hj, hm⟩ := (Memory.wf_cons d j w m).mp h
    simp only [Memory.write]
    split
    · next h1 =>
      exact Memory.wf_entry h (fun c hc => by
        rcases List.mem_cons.mp hc with rfl | hc
        · exact h1
        · exact Nat.lt_trans h1 (hj c hc))
    · split
      · next h2 => subst h2; exact Memory.wf_entry hm hj
      · next h1 h2 =>
        exact (Memory.wf_cons d j w _).mpr ⟨hw, Memory.above_write hj (by omega), ih hm⟩

theorem Memory.wf_writeAll {d : α} {a : Nat} {vs : List α} {m : List (Nat × α)} (h : Memory.wf d m = true) :
    Memory.wf d (Memory.writeAll d m a vs) = true := by
  induction vs generalizing m a with
  | nil => exact h
  | cons v vs ih => exact ih (Memory.wf_write h)

/-- Clearing a range keeps the canonical form. -/
theorem Memory.wf_clear {d : α} {base size : Nat} {m : List (Nat × α)} (h : Memory.wf d m = true) :
    Memory.wf d (Memory.clear base size m) = true := by
  induction m with
  | nil => rfl
  | cons c m ih =>
    obtain ⟨j, w⟩ := c
    obtain ⟨hw, hj, hm⟩ := (Memory.wf_cons d j w m).mp h
    simp only [Memory.clear, List.filter_cons]
    split
    · exact (Memory.wf_cons d j w _).mpr ⟨hw, fun c hc => hj c (List.mem_filter.mp hc).1, ih hm⟩
    · exact ih hm

/-! ### Read after write -/

omit [DecidableEq α] in
theorem Memory.read_cons (d : α) (k : Nat) (v : α) (m : List (Nat × α)) (a : Nat) :
    Memory.read d ((k, v) :: m) a = if a = k then v else Memory.read d m a := rfl

theorem Memory.read_entry {d v : α} {a b : Nat} {m : List (Nat × α)} (h : Memory.above a m) :
    Memory.read d (Memory.entry d a v m) b = if b = a then v else Memory.read d m b := by
  unfold Memory.entry
  split
  · next hv =>
    split
    · next hb => rw [Memory.read_below h (by omega), hv]
    · rfl
  · rfl

/-- A read after a write to the same address gives the value written, and every other address reads as before. -/
theorem Memory.read_write {d v : α} {a b : Nat} {m : List (Nat × α)} (h : Memory.wf d m = true) :
    Memory.read d (Memory.write d m a v) b = if b = a then v else Memory.read d m b := by
  induction m with
  | nil => exact Memory.read_entry (fun c hc => by simp at hc)
  | cons c m ih =>
    obtain ⟨j, w⟩ := c
    obtain ⟨hw, hj, hm⟩ := (Memory.wf_cons d j w m).mp h
    simp only [Memory.write]
    split
    · next h1 =>
      exact Memory.read_entry (fun c hc => by
        rcases List.mem_cons.mp hc with rfl | hc
        · exact h1
        · exact Nat.lt_trans h1 (hj c hc))
    · split
      · next h2 =>
        subst h2
        rw [Memory.read_entry hj, Memory.read_cons]
        by_cases hb : b = a <;> simp [hb]
      · next h1 h2 =>
        rw [Memory.read_cons, Memory.read_cons, ih hm]
        by_cases hb : b = j
        · simp [hb]
          omega
        · simp [hb]

/-- Reading after consecutive addresses were written. -/
theorem Memory.read_writeAll {d : α} {a b : Nat} {vs : List α} {m : List (Nat × α)} (h : Memory.wf d m = true) :
    Memory.read d (Memory.writeAll d m a vs) b =
      if a ≤ b ∧ b < a + vs.length then vs.getD (b - a) d else Memory.read d m b := by
  induction vs generalizing m a with
  | nil => rw [if_neg (by simp)]; rfl
  | cons v vs ih =>
    rw [Memory.writeAll, ih (Memory.wf_write h), Memory.read_write h, List.length_cons]
    by_cases hb : b = a
    · rw [if_neg (by omega), if_pos hb, if_pos (by omega), hb, Nat.sub_self, List.getD_cons_zero]
    · by_cases hr : a + 1 ≤ b ∧ b < a + 1 + vs.length
      · have h3 : b - a = (b - (a + 1)) + 1 := by omega
        rw [if_pos hr, if_pos (by omega), h3, List.getD_cons_succ]
      · rw [if_neg hr, if_neg hb, if_neg (by omega)]

omit [DecidableEq α] in
/-- A cleared address reads as `d`, every other as before. -/
theorem Memory.read_clear {d : α} {base size a : Nat} {m : List (Nat × α)} :
    Memory.read d (Memory.clear base size m) a =
      if base ≤ a ∧ a < base + size then d else Memory.read d m a := by
  induction m with
  | nil => simp [Memory.clear, Memory.read]
  | cons c m ih =>
    obtain ⟨j, w⟩ := c
    rw [Memory.clear] at ih ⊢
    simp only [List.filter_cons]
    split
    · next hk =>
      simp only [Bool.or_eq_true, decide_eq_true_eq] at hk
      rw [Memory.read_cons, Memory.read_cons, ih]
      by_cases ha : a = j
      · have : ¬ (base ≤ a ∧ a < base + size) := by omega
        simp [ha] at this ⊢
        omega
      · simp [ha]
    · next hk =>
      simp only [Bool.or_eq_true, decide_eq_true_eq] at hk
      rw [ih, Memory.read_cons]
      by_cases ha : a = j
      · have : base ≤ a ∧ a < base + size := by omega
        simp [this]
      · simp [ha]

/-- Canonical stores that read alike are equal. -/
theorem Memory.ext {d : α} {m n : List (Nat × α)} (hm : Memory.wf d m = true) (hn : Memory.wf d n = true)
    (h : ∀ a, Memory.read d m a = Memory.read d n a) : m = n := by
  induction m generalizing n with
  | nil =>
    cases n with
    | nil => rfl
    | cons c n =>
      obtain ⟨k, w⟩ := c
      have h1 := h k
      simp only [Memory.read, if_true] at h1
      exact absurd h1.symm ((Memory.wf_cons d k w n).mp hn).1
  | cons c m ih =>
    obtain ⟨j, v⟩ := c
    obtain ⟨hv, hj, hm'⟩ := (Memory.wf_cons d j v m).mp hm
    cases n with
    | nil =>
      have h1 := h j
      simp only [Memory.read, if_true] at h1
      exact absurd h1 hv
    | cons e n =>
      obtain ⟨k, w⟩ := e
      obtain ⟨hw, hk, hn'⟩ := (Memory.wf_cons d k w n).mp hn
      have hjk : j = k := by
        rcases Nat.lt_trichotomy j k with hlt | heq | hgt
        · have h1 := h j
          rw [Memory.read_cons, Memory.read_cons, if_pos rfl, if_neg (by omega), Memory.read_below hk (by omega)] at h1
          exact absurd h1 hv
        · exact heq
        · have h1 := h k
          rw [Memory.read_cons, Memory.read_cons, if_pos rfl, if_neg (by omega), Memory.read_below hj (by omega)] at h1
          exact absurd h1.symm hw
      subst hjk
      have hvw : v = w := by simpa [Memory.read] using h j
      subst hvw
      have : m = n := ih hm' hn' (fun a => by
        by_cases ha : a ≤ j
        · rw [Memory.read_below hj ha, Memory.read_below hk ha]
        · have h1 := h a
          rwa [Memory.read_cons, Memory.read_cons, if_neg (by omega), if_neg (by omega)] at h1)
      rw [this]

/-! ### The flash array -/

theorem wf_programByte {fm : Memory} (t : Host.Cell) (h : Memory.wf unlistedFlash fm = true) :
    Memory.wf unlistedFlash (programByte fm t) = true :=
  Memory.wf_write h

theorem wf_programAll {targets : List Host.Cell} {fm : Memory} (h : Memory.wf unlistedFlash fm = true) :
    Memory.wf unlistedFlash (targets.foldl programByte fm) = true := by
  induction targets generalizing fm with
  | nil => exact h
  | cons t ts ih => exact ih (wf_programByte t h)

theorem wf_scramblePage {k base n : Nat} {fm : Memory} (h : Memory.wf unlistedFlash fm = true) :
    Memory.wf unlistedFlash (scramblePage k base fm n) = true := by
  induction n generalizing k base fm with
  | zero => exact h
  | succ n ih => exact ih (Memory.wf_write h)

/-- Finishing any operation keeps the array canonical. -/
theorem wf_applyPending {k : Nat} {fm : Memory} (p : Pending) (h : Memory.wf unlistedFlash fm = true) :
    Memory.wf unlistedFlash (applyPending k fm p) = true := by
  cases p with
  | none => exact h
  | erase base => exact Memory.wf_clear h
  | program targets => exact wf_programAll h
  | scramble base size => exact wf_scramblePage h

/-- An erased sector reads `0xFF`, every other address as before (R164). -/
theorem read_eraseSector {fm : Memory} (base a : Nat) :
    Memory.read unlistedFlash (eraseSector base fm) a =
      if base ≤ a ∧ a < base + sectorSize then 0xFF else Memory.read unlistedFlash fm a :=
  Memory.read_clear

/-- One programmed byte: the AND at its address, every other address as before (R165). -/
theorem read_programByte {fm : Memory} (t : Host.Cell) (a : Nat) (h : Memory.wf unlistedFlash fm = true) :
    Memory.read unlistedFlash (programByte fm t) a =
      if a = t.1 then Memory.read unlistedFlash fm a &&& t.2 else Memory.read unlistedFlash fm a := by
  rw [programByte, Memory.read_write h]
  split
  · next h1 => rw [h1]
  · rfl

end Sys2Proof.Machine
end

