-- ==== Sys2Proof/Laws/Transaction.lean ====
section
/-! SUPPORT. What one step of the sequencer can do: at most one bus transaction, with changes to its own registers before and
after it (spec/00_scope.md R12). Every invariant of the chip, the flash and the buffer is derived from `microStep_cases`. -/

namespace Sys2Proof.Machine

open Sys2Proof

/-- Only the sequencer's own state differs, and the history at most grows. -/
structure SeqSide (s t : State) : Prop where
  cfg : t.cfg = s.cfg
  chip : t.chip = s.chip
  flash : t.flash = s.flash
  host : t.host = s.host
  env : t.env = s.env
  hist : s.hist <:+ t.hist

theorem SeqSide.refl (s : State) : SeqSide s s := ⟨rfl, rfl, rfl, rfl, rfl, List.suffix_rfl⟩

theorem SeqSide.trans {s t u : State} (a : SeqSide s t) (b : SeqSide t u) : SeqSide s u :=
  ⟨b.cfg.trans a.cfg, b.chip.trans a.chip, b.flash.trans a.flash, b.host.trans a.host, b.env.trans a.env,
    a.hist.trans b.hist⟩

/-- One bus transaction, or none. -/
inductive Transaction (s : State) : State → Prop where
  | none : Transaction s s
  | failed : Transaction s { s with env := { s.env with transportFails := false } }
  | read (r : RegNum) : Transaction s (record (.busRead r (readReg r s).1) (readReg r s).2)
  | write (r : RegNum) (v : Word) (u : State) (h : writeReg r v s = .next u) : Transaction s u

/-- One step of the sequencer: its own registers, at most one transaction, its own registers. -/
def OneTransaction (s t : State) : Prop := ∃ a u, SeqSide s a ∧ Transaction a u ∧ SeqSide u t

theorem OneTransaction.before {s a t : State} (h : SeqSide s a) (o : OneTransaction a t) : OneTransaction s t := by
  obtain ⟨b, u, hb, ht, hu⟩ := o
  exact ⟨b, u, h.trans hb, ht, hu⟩

theorem OneTransaction.of_seqSide {s t : State} (h : SeqSide s t) : OneTransaction s t :=
  ⟨s, s, SeqSide.refl s, .none, h⟩

/-- A continuation that touches only the sequencer's own state. -/
def SeqCont (k : State → Out) : Prop := ∀ s t, k s = .next t → SeqSide s t

/-- `IRead` inverted. -/
theorem iread_cases {r : RegNum} {k : Word → State → Out} {s t : State} (h : iread r k s = .next t)
    (hk : ∀ v, SeqCont (k v)) : OneTransaction s t := by
  unfold iread at h
  split at h
  · simp only [transportFailed, Host.Outcome.next.injEq] at h
    subst h
    exact ⟨s, _, SeqSide.refl s, .failed, ⟨rfl, rfl, rfl, rfl, rfl, List.suffix_cons ..⟩⟩
  · exact ⟨s, _, SeqSide.refl s, .read r, hk _ _ _ h⟩

/-- `IWrite` inverted. -/
theorem iwrite_cases {r : RegNum} {v : Word} {k : State → Out} {s t : State} (h : iwrite r v k s = .next t)
    (hk : SeqCont k) : OneTransaction s t := by
  unfold iwrite at h
  split at h
  · simp only [transportFailed, Host.Outcome.next.injEq] at h
    subst h
    exact ⟨s, _, SeqSide.refl s, .failed, ⟨rfl, rfl, rfl, rfl, rfl, List.suffix_cons ..⟩⟩
  · cases hw : writeReg r v s with
    | next u =>
      rw [hw] at h
      exact ⟨s, u, SeqSide.refl s, .write r v u hw, hk _ _ h⟩
    | fault f => rw [hw] at h; cases h
    | refused f => rw [hw] at h; cases h

/-! ### The sequencer's own moves -/

theorem seqSide_setPc (p : List Frame) (s : State) : SeqSide s (setPc p s) := ⟨rfl, rfl, rfl, rfl, rfl, List.suffix_rfl⟩

theorem seqSide_nextLabel (s : State) : SeqSide s (nextLabel s) := by
  unfold nextLabel
  split
  · exact SeqSide.refl s
  · exact seqSide_setPc _ s

theorem seqSide_gotoLabel (l : Nat) (s : State) : SeqSide s (gotoLabel l s) := by
  unfold gotoLabel
  split
  · exact SeqSide.refl s
  · exact seqSide_setPc _ s

theorem seqSide_pushFrame (i : Instr) (s : State) : SeqSide s (pushFrame i s) := seqSide_setPc _ s

theorem seqSide_setDpolls (v : Word) (s : State) : SeqSide s (setDpolls v s) := ⟨rfl, rfl, rfl, rfl, rfl, List.suffix_rfl⟩

theorem seqSide_setIdx (v : Word) (s : State) : SeqSide s (setIdx v s) := ⟨rfl, rfl, rfl, rfl, rfl, List.suffix_rfl⟩

theorem seqSide_raiseError (e : ErrorKind) (s : State) : SeqSide s (raiseError e s) :=
  ⟨rfl, rfl, rfl, rfl, rfl, List.suffix_cons ..⟩

theorem seqSide_afterCall (f : Frame) (callers : List Frame) (s : State) : SeqSide s (afterCall f callers s).1 := by
  unfold afterCall
  cases f.op <;> try exact SeqSide.refl s
  simp only
  split
  · simp only [waitflashResult]
    split <;> exact ⟨rfl, rfl, rfl, rfl, rfl, List.suffix_rfl⟩
  · exact ⟨rfl, rfl, rfl, rfl, rfl, List.suffix_rfl⟩

theorem seqSide_returnTo (pc : List Frame) (s : State) : SeqSide s (returnTo pc s) := by
  induction pc generalizing s with
  | nil => exact ⟨rfl, rfl, rfl, rfl, rfl, List.suffix_rfl⟩
  | cons f callers ih =>
    have ha := seqSide_afterCall f callers s
    unfold returnTo
    split
    · next t l heq => rw [heq] at ha; exact ha.trans (seqSide_setPc _ _)
    · next t heq => rw [heq] at ha; exact ha.trans (ih t)
    · next t e heq => rw [heq] at ha; exact ha.trans (seqSide_raiseError _ _)

theorem seqCont_returnOp : SeqCont returnOp := by
  intro s t h
  simp only [returnOp, Host.Outcome.next.injEq] at h
  subst h
  exact seqSide_returnTo _ s

theorem seqCont_advance : SeqCont advance := by
  intro s t h
  simp only [advance, Host.Outcome.next.injEq] at h
  subst h
  exact seqSide_nextLabel s

/-- A continuation after a change of the sequencer's own registers. -/
theorem SeqCont.after {k : State → Out} (hk : SeqCont k) {g : State → State} (hg : ∀ s, SeqSide s (g s)) :
    SeqCont (fun s => k (g s)) := fun s _ h => (hg s).trans (hk _ _ h)

theorem seqCont_testDone : SeqCont testDone := by
  intro s t h
  unfold testDone at h
  split at h
  · exact seqCont_returnOp _ _ h
  · split at h
    · simp only [Host.Outcome.next.injEq] at h
      subst h
      exact seqSide_raiseError _ _
    · simp only [Host.Outcome.next.injEq] at h
      subst h
      exact seqSide_gotoLabel _ _

/-! ### The micro-steps -/

theorem readSpictl_cases {s t : State} (h : readSpictl s = .next t) : OneTransaction s t :=
  iread_cases h (fun _ => seqCont_advance.after (fun _ => ⟨rfl, rfl, rfl, rfl, rfl, List.suffix_rfl⟩))

theorem microIrw_cases {r : RegNum} {v : Word} {l : Nat} {s t : State} (h : microIrw r v l s = .next t) :
    OneTransaction s t := iwrite_cases h seqCont_returnOp

theorem microIrr_cases {r : RegNum} {l : Nat} {s t : State} (h : microIrr r l s = .next t) : OneTransaction s t :=
  iread_cases h (fun _ => seqCont_returnOp.after (fun _ => ⟨rfl, rfl, rfl, rfl, rfl, List.suffix_rfl⟩))

theorem microMspien_cases {l : Nat} {s t : State} (h : microMspien l s = .next t) : OneTransaction s t := by
  unfold microMspien at h
  split at h
  · exact readSpictl_cases h
  · exact iwrite_cases h seqCont_returnOp

theorem microMspidis_cases {l : Nat} {s t : State} (h : microMspidis l s = .next t) : OneTransaction s t := by
  unfold microMspidis at h
  split at h
  · exact readSpictl_cases h
  · exact iwrite_cases h seqCont_returnOp

theorem microSetmode_cases {m : ModeName} {l : Nat} {s t : State} (h : microSetmode m l s = .next t) :
    OneTransaction s t := by
  unfold microSetmode at h
  split at h
  · exact readSpictl_cases h
  · exact iwrite_cases h seqCont_returnOp

theorem callSetmode_cases {m : ModeName} {s t : State} (h : callSetmode m s = .next t) : OneTransaction s t :=
  (microSetmode_cases h).before (seqSide_pushFrame _ s)

theorem microSetcnt_cases {c : Word} {l : Nat} {s t : State} (h : microSetcnt c l s = .next t) :
    OneTransaction s t := by
  unfold microSetcnt at h
  split at h
  · exact readSpictl_cases h
  · exact iwrite_cases h seqCont_advance
  · exact callSetmode_cases h

theorem pollDone_cases {s t : State} (h : pollDone s = .next t) : OneTransaction s t :=
  iread_cases h (fun _ => seqCont_testDone.after (fun _ => ⟨rfl, rfl, rfl, rfl, rfl, List.suffix_rfl⟩))

theorem microWaitdone_cases {l : Nat} {s t : State} (h : microWaitdone l s = .next t) : OneTransaction s t := by
  unfold microWaitdone at h
  split at h
  · exact OneTransaction.before (seqSide_setDpolls 0 s) (pollDone_cases h)
  · exact pollDone_cases h

theorem callSetcnt_cases {c : Word} {s t : State} (h : callSetcnt c s = .next t) : OneTransaction s t :=
  (microSetcnt_cases h).before (seqSide_pushFrame _ s)

theorem callWaitdone_cases {s t : State} (h : callWaitdone s = .next t) : OneTransaction s t :=
  (microWaitdone_cases h).before (seqSide_pushFrame _ s)

theorem callMspien_cases {s t : State} (h : callMspien s = .next t) : OneTransaction s t :=
  (microMspien_cases h).before (seqSide_pushFrame _ s)

theorem sendWord_cases {w : Word} {s t : State} (h : sendWord w s = .next t) : OneTransaction s t :=
  OneTransaction.before (a := { s with seq := { s.seq with word := w } }) ⟨rfl, rfl, rfl, rfl, rfl, List.suffix_rfl⟩
    (iwrite_cases h seqCont_advance)

theorem microRdstatus_cases {l : Nat} {s t : State} (h : microRdstatus l s = .next t) : OneTransaction s t := by
  unfold microRdstatus at h
  split at h
  · exact callSetmode_cases h
  · exact callSetmode_cases h
  · exact sendWord_cases h
  · exact callSetcnt_cases h
  · exact callWaitdone_cases h
  · exact callSetmode_cases h
  · exact callSetmode_cases h
  · exact callWaitdone_cases h
  · exact iread_cases h (fun _ => seqCont_returnOp.after (fun _ => ⟨rfl, rfl, rfl, rfl, rfl, List.suffix_rfl⟩))

theorem callRdstatus_cases {s t : State} (h : callRdstatus s = .next t) : OneTransaction s t :=
  (microRdstatus_cases h).before (seqSide_pushFrame _ s)

theorem microSendcmd_cases {op : Byte} {l : Nat} {s t : State} (h : microSendcmd op l s = .next t) :
    OneTransaction s t := by
  unfold microSendcmd at h
  split at h
  · exact callSetmode_cases h
  · exact callSetmode_cases h
  · exact sendWord_cases h
  · exact callSetcnt_cases h
  · exact callWaitdone_cases h
  · exact callSetmode_cases h

theorem callSendcmd_cases {op : Byte} {s t : State} (h : callSendcmd op s = .next t) : OneTransaction s t :=
  (microSendcmd_cases h).before (seqSide_pushFrame _ s)

theorem microErase_cases {l : Nat} {s t : State} (h : microErase l s = .next t) : OneTransaction s t := by
  unfold microErase at h
  split at h
  · exact callSetmode_cases h
  · exact callSetmode_cases h
  · exact sendWord_cases h
  · exact callSetcnt_cases h
  · exact callWaitdone_cases h
  · exact callSetmode_cases h

theorem callErase_cases {s t : State} (h : callErase s = .next t) : OneTransaction s t :=
  (microErase_cases h).before (seqSide_pushFrame _ s)

theorem microWaitflash_cases {l : Nat} {s t : State} (h : microWaitflash l s = .next t) : OneTransaction s t := by
  unfold microWaitflash at h
  split at h
  · refine (callRdstatus_cases h).before (SeqSide.trans ?_ (seqSide_gotoLabel _ _))
    exact ⟨rfl, rfl, rfl, rfl, rfl, List.suffix_rfl⟩
  · exact callRdstatus_cases h

theorem callWaitflash_cases {s t : State} (h : callWaitflash s = .next t) : OneTransaction s t :=
  (microWaitflash_cases h).before (seqSide_pushFrame _ s)

theorem progpageWord_cases {s t : State} (h : progpageWord s = .next t) : OneTransaction s t := by
  simp only [progpageWord] at h
  split at h
  · exact (sendWord_cases h).before (seqSide_gotoLabel _ s)
  · cases h

theorem progpageTest_cases {s t : State} (h : progpageTest s = .next t) : OneTransaction s t := by
  unfold progpageTest at h
  split at h
  · exact progpageWord_cases h
  · exact (callWaitflash_cases h).before (seqSide_gotoLabel _ s)

theorem progpageNext_cases {s t : State} (h : progpageNext s = .next t) : OneTransaction s t :=
  (progpageTest_cases h).before (seqSide_setIdx _ s)

theorem microProgpage_cases {l : Nat} {s t : State} (h : microProgpage l s = .next t) : OneTransaction s t := by
  unfold microProgpage at h
  split at h
  · exact callMspien_cases h
  · split at h
    · exact (callWaitflash_cases h).before (seqSide_gotoLabel _ s)
    · exact (callWaitflash_cases h).before (seqSide_gotoLabel _ s)
  · exact callWaitflash_cases h
  · exact callSendcmd_cases h
  · exact callErase_cases h
  · exact callWaitflash_cases h
  · exact callSendcmd_cases h
  · exact callSetmode_cases h
  · exact callSetmode_cases h
  · exact sendWord_cases h
  · exact callSetcnt_cases h
  · exact callWaitdone_cases h
  · exact (progpageTest_cases h).before (seqSide_setIdx _ s)
  · exact progpageTest_cases h
  · exact progpageWord_cases h
  · exact callSetmode_cases h
  · exact callSetmode_cases h
  · split at h
    · exact callWaitdone_cases h
    · exact progpageNext_cases h
  · exact progpageNext_cases h
  · exact (callWaitflash_cases h).before (seqSide_gotoLabel _ s)

/-- A micro-step makes at most one bus transaction (R12). -/
theorem microStep_cases {s t : State} (h : microStep s = .next t) : OneTransaction s t := by
  unfold microStep at h
  split at h
  · cases h; exact .of_seqSide (SeqSide.refl s)
  · next f _ _ =>
    cases hop : f.op <;> simp only [hop] at h
    case irw => exact microIrw_cases h
    case irr => exact microIrr_cases h
    case mspien => exact microMspien_cases h
    case mspidis => exact microMspidis_cases h
    case setmode => exact microSetmode_cases h
    case setcnt => exact microSetcnt_cases h
    case waitdone => exact microWaitdone_cases h
    case rdstatus => exact microRdstatus_cases h
    case sendcmd => exact microSendcmd_cases h
    case erase => exact microErase_cases h
    case waitflash => exact microWaitflash_cases h
    case progpage => exact microProgpage_cases h
    all_goals cases h; exact .of_seqSide (SeqSide.refl s)

/-- Acceptance touches only the sequencer's own state (R45). -/
theorem accept_cases {i : Instr} {s t : State} (h : accept i s = .next t) : SeqSide s t := by
  unfold accept at h
  split at h
  · simp only [Host.Outcome.next.injEq] at h
    subst h
    cases i <;> exact ⟨rfl, rfl, rfl, rfl, rfl, List.suffix_rfl⟩
  · cases h

/-- An operation's step makes at most one bus transaction (R12). -/
theorem operate_cases {i : Instr} {s t : State} (h : operate i s = .next t) : OneTransaction s t := by
  unfold operate at h
  split at h
  · split at h
    · exact microStep_cases h
    · cases h; exact .of_seqSide (SeqSide.refl s)
  · exact .of_seqSide (accept_cases h)

end Sys2Proof.Machine
end

