-- ==== Sys2Proof/Laws/Engine.lean ====
section
/-! SUPPORT. Everything a write transaction can do, and everything the end of a frame can do: the inversion lemmas from which the
invariants of the chip and of the flash follow. -/

namespace Sys2Proof.Machine

open Sys2Proof

/-! ### The end of a frame -/

/-- What the end of a frame leaves unchanged: everything but the flash's latch, busy bit, recorded operation and busy count, and the
number of draws (R159 to R163). -/
structure EndSide (s t : State) : Prop where
  cfg : t.cfg = s.cfg
  seq : t.seq = s.seq
  chip : t.chip = s.chip
  host : t.host = s.host
  hist : t.hist = s.hist
  sched : t.env.schedule = s.env.schedule
  transport : t.env.transportFails = s.env.transportFails
  fm : t.flash.fm = s.flash.fm
  frame : t.flash.frame = s.flash.frame
  frameStatus : t.flash.frameStatus = s.flash.frameStatus

theorem EndSide.refl (s : State) : EndSide s s := ⟨rfl, rfl, rfl, rfl, rfl, rfl, rfl, rfl, rfl, rfl⟩

/-- The operation recorded by a page program is never none (R161, R167). -/
theorem programOf_ne_none (c : Cfg) (a : FlashAddr) (data : List Byte) : programOf c a data ≠ .none := by
  unfold programOf
  split
  · simp
  · split
    · split <;> simp
    · split <;> simp
    · simp

/-- The end of a frame: it leaves the busy bit and the recorded operation as they were, or it starts an operation. -/
def FrameEnded (s t : State) : Prop :=
  EndSide s t ∧
    ((t.flash.wip = s.flash.wip ∧ t.flash.pending = s.flash.pending) ∨
      (t.flash.wip = true ∧ t.flash.pending ≠ .none))

theorem FrameEnded.refl (s : State) : FrameEnded s s := ⟨EndSide.refl s, .inl ⟨rfl, rfl⟩⟩

theorem FrameEnded.start {s : State} {p : Pending} (hp : p ≠ .none) : FrameEnded s (startOperation p s) :=
  ⟨⟨rfl, rfl, rfl, rfl, rfl, rfl, rfl, rfl, rfl, rfl⟩, .inr ⟨rfl, hp⟩⟩

theorem execFlashWren_cases {s t : State} (h : execFlashWren s = .next t) : FrameEnded s t := by
  unfold execFlashWren at h
  split at h <;> cases h
  · exact ⟨⟨rfl, rfl, rfl, rfl, rfl, rfl, rfl, rfl, rfl, rfl⟩, .inl ⟨rfl, rfl⟩⟩
  · exact FrameEnded.refl s

theorem execFlashSe_cases {a : FlashAddr} {s t : State} (h : execFlashSe a s = .next t) : FrameEnded s t := by
  unfold execFlashSe at h
  split at h <;> cases h
  · exact FrameEnded.start (by simp)
  · exact FrameEnded.refl s

theorem emptyProgram_cases (s : State) : FrameEnded s (emptyProgram s) := by
  unfold emptyProgram
  split
  · exact ⟨⟨rfl, rfl, rfl, rfl, rfl, rfl, rfl, rfl, rfl, rfl⟩, .inl ⟨rfl, rfl⟩⟩
  · exact FrameEnded.refl s
  · exact FrameEnded.refl s

theorem execFlashPp_cases {a : FlashAddr} {data : List Byte} {s t : State} (h : execFlashPp a data s = .next t) :
    FrameEnded s t := by
  unfold execFlashPp at h
  split at h
  · split at h <;> cases h
    · exact emptyProgram_cases s
    · exact FrameEnded.start (programOf_ne_none _ _ _)
  · cases h; exact FrameEnded.refl s

theorem undefinedFrame_cases {s t : State} (h : undefinedFrame s = .next t) : FrameEnded s t := by
  unfold undefinedFrame at h
  split at h <;> cases h <;> exact FrameEnded.refl s

theorem endFrame_cases {s t : State} (h : endFrame s = .next t) : FrameEnded s t := by
  cases hd : decodeFrame s.cfg s.flash.frame with
  | ok i =>
    cases i with
    | flashRdsr rest => rw [endFrame, hd] at h; cases h; exact FrameEnded.refl s
    | flashWren => rw [endFrame, hd] at h; exact execFlashWren_cases h
    | flashSe a => rw [endFrame, hd] at h; exact execFlashSe_cases h
    | flashPp a data => rw [endFrame, hd] at h; exact execFlashPp_cases h
    | _ => rw [endFrame, hd] at h; exact undefinedFrame_cases h
  | error e =>
    cases e with
    | emptyFrame => rw [endFrame, hd] at h; cases h; exact FrameEnded.refl s
    | _ => rw [endFrame, hd] at h; exact undefinedFrame_cases h

/-! ### A write transaction -/

/-- What one write transaction that succeeds can do (R142 to R147, R150 to R154). -/
inductive Written (s : State) (r : RegNum) (v : Word) : State → Prop where
  | spitx (hr : r = s.cfg.regSpitx) (hf : s.chip.fly = none) :
      Written s r v (record (.busWrite r v) { s with chip := { s.chip with spitx := v } })
  | spirx (hr : r = s.cfg.regSpirx) (hf : s.chip.fly = none) :
      Written s r v (record (.busWrite r v) { s with chip := { s.chip with spirx := v } })
  | other (hr : namedReg s.cfg r = false) :
      Written s r v
        (record (.busWrite r v)
          { s with chip := { s.chip with other := Memory.write unlistedReg s.chip.other r.toNat v } })
  | stored (hr : r = s.cfg.regSpictl) (hf : s.chip.fly = none)
      (he : msenFlag s.cfg v = true ∨ modeOf s.cfg v = .idle)
      (hm : (modeOf s.cfg v = modeOf s.cfg s.chip.spictl ∧
              (modeOf s.cfg v = .idle ∨ modeOf s.cfg v = .enable)) ∨
            (modeOf s.cfg v = .idle ∧ s.chip.cs = false) ∨
            (modeOf s.cfg v = .enable ∧ s.chip.cs = true) ∨
            (modeOf s.cfg v = .update ∧ s.chip.cs = true)) :
      Written s r v (controlStored v s)
  | selected (hr : r = s.cfg.regSpictl) (hf : s.chip.fly = none) (he : msenFlag s.cfg v = true)
      (hm : modeOf s.cfg v = .enable) (hcs : s.chip.cs = false) :
      Written s r v (selected (controlStored v s))
  | started (hr : r = s.cfg.regSpictl) (hf : s.chip.fly = none) (he : msenFlag s.cfg v = true)
      (hm : modeOf s.cfg v = .transfer) (hcs : s.chip.cs = true) (hn : transferBytes s.cfg v ≤ 4) :
      Written s r v (transferStarted (controlStored v s))
  | ended (u : State) (hr : r = s.cfg.regSpictl) (hf : s.chip.fly = none) (hm : modeOf s.cfg v = .idle)
      (hcs : s.chip.cs = true) (hu : endFrame (deselected (controlStored v s)) = .next u) :
      Written s r v u

theorem writeReg_cases {r : RegNum} {v : Word} {s t : State} (f : Facts s.cfg) (h : writeReg r v s = .next t) :
    Written s r v t := by
  have hfly : namedReg s.cfg r = true → s.chip.fly = none := by
    intro hn
    cases hf : s.chip.fly with
    | none => rfl
    | some x => rw [writeReg, if_pos (by simp [hn, hf])] at h; cases h
  by_cases h1 : r = s.cfg.regSpictl
  · subst h1
    have hf := hfly (by simp [namedReg])
    rw [writeReg_spictl v hf, writeSpictl_eq f] at h
    have hcs : (controlStored v s).chip.cs = s.chip.cs := rfl
    split at h
    · cases h
    · next hms =>
      have hms' : msenFlag s.cfg v = true ∨ modeOf s.cfg v = .idle := by
        by_cases hi : modeOf s.cfg v = .idle
        · exact .inr hi
        · refine .inl ?_
          cases hmv : msenFlag s.cfg v with
          | true => rfl
          | false => exact absurd ⟨hmv, hi⟩ hms
      have he : modeOf s.cfg v ≠ .idle → msenFlag s.cfg v = true := fun hi => hms'.resolve_right hi
      split at h
      · next hsame =>
        unfold sameMode at h
        split at h <;> cases h
        · next hm => exact .stored rfl hf hms' (.inl ⟨hsame, .inl (hsame.trans hm)⟩)
        · next hm => exact .stored rfl hf hms' (.inl ⟨hsame, .inr (hsame.trans hm)⟩)
      · next hne =>
        unfold changeMode at h
        split at h
        · next hm =>
          unfold deassertCs at h
          split at h
          · next hc => exact .ended t rfl hf hm (hcs ▸ hc) h
          · next hc =>
            cases h
            exact .stored rfl hf hms' (.inr (.inl ⟨hm, by simpa [hcs] using hc⟩))
        · next hm =>
          unfold assertCs at h
          split at h
          · next hc => cases h; exact .stored rfl hf hms' (.inr (.inr (.inl ⟨hm, hcs ▸ hc⟩)))
          · next hc =>
            cases h
            exact .selected rfl hf (he (by simp [hm])) hm (by simpa [hcs] using hc)
        · next hm =>
          unfold startTransfer at h
          split at h
          · cases h
          · next hc =>
            split at h
            · cases h
            · next hn =>
              cases h
              have hn' : transferBytes s.cfg (keepDone s.cfg s.chip.spictl v) ≤ 4 := Nat.le_of_not_lt hn
              rw [transferBytes_keepDone f] at hn'
              refine .started rfl hf (he (by simp [hm])) hm ?_ hn'
              have : ¬ s.chip.cs = false := fun hx => hc (.inr hx)
              simpa using this
        · next hm =>
          unfold latchUpdate at h
          split at h <;> cases h
          next hc =>
          refine .stored rfl hf hms' (.inr (.inr (.inr ⟨hm, ?_⟩)))
          have : ¬ s.chip.cs = false := fun hx => hc (.inr hx)
          simpa using this
  · by_cases h2 : r = s.cfg.regSpitx
    · have hf := hfly (by simp [namedReg, h2])
      rw [writeReg, if_neg (by simp [hf]), if_neg h1, if_pos h2] at h
      cases h
      exact .spitx h2 hf
    · by_cases h3 : r = s.cfg.regSpirx
      · have hf := hfly (by simp [namedReg, h3])
        rw [writeReg, if_neg (by simp [hf]), if_neg h1, if_neg h2, if_pos h3] at h
        cases h
        exact .spirx h3 hf
      · have hn : namedReg s.cfg r = false := by simp [namedReg, h1, h2, h3]
        rw [writeReg, if_neg (by simp [hn]), if_neg h1, if_neg h2, if_neg h3] at h
        cases h
        exact .other hn

/-- What no write transaction changes: the configuration, the sequencer, the host, the schedule and the array; the history grows. -/
structure WriteSide (s t : State) : Prop where
  cfg : t.cfg = s.cfg
  seq : t.seq = s.seq
  host : t.host = s.host
  sched : t.env.schedule = s.env.schedule
  transport : t.env.transportFails = s.env.transportFails
  fm : t.flash.fm = s.flash.fm
  hist : s.hist <:+ t.hist

theorem Written.side {s t : State} {r : RegNum} {v : Word} (h : Written s r v t) : WriteSide s t := by
  cases h with
  | ended u _ _ _ _ hu =>
    have e := (endFrame_cases hu).1
    exact ⟨e.cfg, e.seq, e.host, e.sched, e.transport, e.fm, e.hist ▸ ⟨[_, _, _], rfl⟩⟩
  | selected => exact ⟨rfl, rfl, rfl, rfl, rfl, rfl, ⟨[_, _], rfl⟩⟩
  | started => exact ⟨rfl, rfl, rfl, rfl, rfl, rfl, ⟨[_, _], rfl⟩⟩
  | _ => exact ⟨rfl, rfl, rfl, rfl, rfl, rfl, List.suffix_cons ..⟩

/-- A write to SPICTL that succeeds stores every bit but DONE, and clears DONE if it started a transfer (R142, R145). -/
theorem Written.spictl {s t : State} {v : Word} (f : Facts s.cfg) (h : Written s s.cfg.regSpictl v t) :
    t.cfg = s.cfg ∧ t.seq = s.seq ∧
      ((t.chip.spictl = keepDone s.cfg s.chip.spictl v ∧ t.chip.fly = none) ∨
        (t.chip.spictl = keepDone s.cfg s.chip.spictl v &&& ~~~(bitMask s.cfg.doneBit) ∧ t.chip.fly ≠ none)) := by
  cases h with
  | spitx hr hf => exact absurd hr f.ctl_ne_tx
  | spirx hr hf => exact absurd hr f.ctl_ne_rx
  | other hr => simp [namedReg] at hr
  | stored hr hf => exact ⟨rfl, rfl, .inl ⟨rfl, hf⟩⟩
  | selected hr hf => exact ⟨rfl, rfl, .inl ⟨rfl, hf⟩⟩
  | started hr hf => exact ⟨rfl, rfl, .inr ⟨rfl, by simp [transferStarted]⟩⟩
  | ended u hr hf hm hcs hu =>
    have e := (endFrame_cases hu).1
    refine ⟨e.cfg, e.seq, .inl ⟨?_, ?_⟩⟩
    · rw [e.chip]; rfl
    · rw [e.chip]; exact hf

/-- What MSPIEN, MSPIDIS and SETMODE idle write back is in mode idle (R110 to R112). -/
theorem valueWrittenBack_idle {c : Cfg} (f : Facts c) {tmp v : Word} {i : Instr} (h : valueWrittenBack c tmp i = some v)
    (hi : i = .mspien ∨ i = .mspidis ∨ i = .setmode .idle) : modeOf c v = .idle := by
  rcases hi with rfl | rfl | rfl <;> cases h
  · rw [modeOf_setBit f _ _ f.mode_msen, modeOf_withMode f]
  · rw [modeOf_clearBit f _ _ f.mode_msen, modeOf_withMode f]
  · rw [modeOf_withMode f]

/-- One transaction: nothing but the draws and the history changes, or a register is written. -/
theorem Transaction.cases_written {a u : State} (f : Facts a.cfg) (h : Transaction a u) :
    (u.chip = a.chip ∧ u.flash = a.flash ∧ u.host = a.host ∧ u.cfg = a.cfg ∧ u.seq = a.seq ∧ u.env.schedule = a.env.schedule) ∨
      ∃ r v, Written a r v u := by
  cases h with
  | none => exact .inl ⟨rfl, rfl, rfl, rfl, rfl, rfl⟩
  | failed => exact .inl ⟨rfl, rfl, rfl, rfl, rfl, rfl⟩
  | read r =>
    refine .inl ?_
    unfold readReg
    split <;> exact ⟨rfl, rfl, rfl, rfl, rfl, rfl⟩
  | write r v _ h => exact .inr ⟨r, v, writeReg_cases f h⟩

theorem Transaction.hist {a u : State} (f : Facts a.cfg) (h : Transaction a u) : a.hist <:+ u.hist := by
  cases h with
  | none => exact List.suffix_rfl
  | failed => exact List.suffix_rfl
  | read r =>
    unfold readReg
    split <;> exact List.suffix_cons ..
  | write r v _ h => exact (writeReg_cases f h).side.hist

end Sys2Proof.Machine
end

