-- ==== Sys2Proof/Laws/PerInstr.lean ====
section
/-! SUPPORT. Statements made for every instruction as syntax. Family `Row`: the code of an instruction lies in its own row of
spec/opcode_table.json and in no other (spec/30_encoding.md R86). -/

namespace Sys2Proof.Laws.Row

open Sys2Proof

/-- The code of `i` under the decided opcode values is covered by exactly one row of the opcode table, that of its mnemonic. -/
def Statement (i : Instr) : Prop := rowsOf (encode refCfg i) = [i.mnemonic]

/-- What a row of the table compares of a descriptor: its field `op` alone. -/
theorem and_opMask (d : BitVec 68) : d.toNat &&& opMask = (descOp d).toNat * 2 ^ 64 := by
  have hop : (descOp d).toNat = d.toNat / 2 ^ 64 % 2 ^ 4 := by simp [descOp, Nat.shiftRight_eq_div_pow]
  have hm : opMask = (2 ^ 4 - 1) * 2 ^ 64 := by decide
  apply Nat.eq_of_testBit_eq
  intro j
  rw [Nat.testBit_and, hm, hop, Nat.testBit_mul_two_pow, Nat.testBit_mul_two_pow]
  by_cases hj : 64 ≤ j
  · rw [Nat.testBit_two_pow_sub_one, Nat.testBit_mod_two_pow, Nat.testBit_div_two_pow]
    simp [hj, Bool.and_comm]
  · simp [hj]

/-- The mnemonics of the descriptor rows with operation code `op`. -/
def rowsOfOp (op : BitVec 4) : List String :=
  (opcodeTable.filter (fun r => r.format == .seqCmd && op.toNat * 2 ^ 64 == r.pattern)).map (·.mnemonic)

/-- The rows that cover a descriptor are those of its operation code. -/
theorem rowsOf_descriptor (op : BitVec 4) (a0 a1 : Word) :
    rowsOf (.descriptor (descriptor op a0 a1)) = rowsOfOp op := by
  have h : ∀ r ∈ opcodeTable, r.format = .seqCmd → r.mask = opMask := by decide
  unfold rowsOf rowsOfOp
  congr 1
  apply List.filter_congr
  intro r hr
  show (r.format == .seqCmd && (descriptor op a0 a1).toNat &&& r.mask == r.pattern)
    = (r.format == .seqCmd && op.toNat * 2 ^ 64 == r.pattern)
  by_cases hf : r.format = .seqCmd
  · rw [h r hr hf, and_opMask, descOp_descriptor]
  · rw [beq_eq_false_iff_ne.mpr hf, Bool.false_and, Bool.false_and]

theorem irw (r : RegNum) (v : Word) : Statement (.irw r v) := (rowsOf_descriptor _ _ _).trans rfl
theorem irr (r : RegNum) : Statement (.irr r) := (rowsOf_descriptor _ _ _).trans rfl
theorem mspien : Statement .mspien := (rowsOf_descriptor _ _ _).trans rfl
theorem mspidis : Statement .mspidis := (rowsOf_descriptor _ _ _).trans rfl
theorem setmode (m : ModeName) : Statement (.setmode m) := (rowsOf_descriptor _ _ _).trans rfl
theorem setcnt (c : Word) : Statement (.setcnt c) := (rowsOf_descriptor _ _ _).trans rfl
theorem waitdone : Statement .waitdone := (rowsOf_descriptor _ _ _).trans rfl
theorem rdstatus : Statement .rdstatus := (rowsOf_descriptor _ _ _).trans rfl
theorem sendcmd (op : Byte) : Statement (.sendcmd op) := (rowsOf_descriptor _ _ _).trans rfl
theorem erase (addr : Word) : Statement (.erase addr) := (rowsOf_descriptor _ _ _).trans rfl
theorem waitflash : Statement .waitflash := (rowsOf_descriptor _ _ _).trans rfl
theorem progpage (addr count : Word) : Statement (.progpage addr count) := (rowsOf_descriptor _ _ _).trans rfl
theorem flashRdsr (rest : List Byte) : Statement (.flashRdsr rest) := rfl
theorem flashWren : Statement .flashWren := rfl
theorem flashSe (addr : FlashAddr) : Statement (.flashSe addr) := rfl
theorem flashPp (addr : FlashAddr) (data : List Byte) : Statement (.flashPp addr data) := rfl

end Sys2Proof.Laws.Row
end

