-- ==== Sys2Proof/Laws/Step.lean ====
section
/-! SUPPORT. Everything a step can do (`step_cases`), what a meaning can do (`exec_cases`), and what the exchange of bytes and the
finishing of an operation leave unchanged. -/

namespace Sys2Proof.Machine

open Sys2Proof

/-! ### Meanings -/

/-- A meaning: an operation makes at most one transaction, a frame changes only the flash. -/
theorem exec_cases {i : Instr} {s t : State} (h : exec i s = .next t) :
    (i.isCommand = true ∧ OneTransaction s t) ∨ (i.isCommand = false ∧ FrameEnded s t) := by
  cases hc : i.isCommand with
  | true => exact .inl ⟨rfl, operate_cases (exec_command s hc ▸ h)⟩
  | false =>
    refine .inr ⟨rfl, ?_⟩
    cases i with
    | flashRdsr rest => cases h; exact FrameEnded.refl s
    | flashWren => exact execFlashWren_cases h
    | flashSe a => exact execFlashSe_cases h
    | flashPp a data => exact execFlashPp_cases h
    | _ => cases hc

/-- The decoder of the command port gives operations only. -/
theorem decodeDescriptor_isCommand {d : BitVec 68} {i : Instr} (h : decodeDescriptor d = .ok i) :
    i.isCommand = true := by
  unfold decodeDescriptor at h
  split at h
  all_goals first | (cases h; rfl) | (split at h <;> cases h <;> rfl) | cases h

/-! ### The exchange of bytes (R148, R157, R158, R166) -/

/-- The flash operation in progress goes on, or it has finished. -/
inductive Progress (s t : State) : Prop where
  | same (fm : t.flash.fm = s.flash.fm) (wip : t.flash.wip = s.flash.wip) (pending : t.flash.pending = s.flash.pending)
  | finished (k : Nat) (was : s.flash.wip = true) (fm : t.flash.fm = applyPending k s.flash.fm s.flash.pending)
      (wip : t.flash.wip = false) (pending : t.flash.pending = .none)
      (ev : .flashDone s.flash.pending ∈ t.hist)

/-- What an exchange changes: only the flash, the history and the number of draws. -/
structure ByteSide (s t : State) : Prop where
  cfg : t.cfg = s.cfg
  seq : t.seq = s.seq
  chip : t.chip = s.chip
  host : t.host = s.host
  sched : t.env.schedule = s.env.schedule
  transport : t.env.transportFails = s.env.transportFails
  wel : t.flash.wel = s.flash.wel
  hist : s.hist <:+ t.hist
  bus : busTransactions t = busTransactions s
  progress : Progress s t

theorem ByteSide.refl (s : State) : ByteSide s s :=
  ⟨rfl, rfl, rfl, rfl, rfl, rfl, rfl, List.suffix_rfl, rfl, .same rfl rfl rfl⟩

theorem ByteSide.trans {s t u : State} (a : ByteSide s t) (b : ByteSide t u) : ByteSide s u := by
  refine ⟨b.cfg.trans a.cfg, b.seq.trans a.seq, b.chip.trans a.chip, b.host.trans a.host, b.sched.trans a.sched,
    b.transport.trans a.transport, b.wel.trans a.wel, a.hist.trans b.hist, b.bus.trans a.bus, ?_⟩
  cases a.progress with
  | same f w p =>
    cases b.progress with
    | same f' w' p' => exact .same (f'.trans f) (w'.trans w) (p'.trans p)
    | finished k was f' w' p' ev =>
      rw [f, p] at f'
      rw [p] at ev
      exact .finished k (w ▸ was) f' w' p' ev
  | finished k was f w p ev =>
    cases b.progress with
    | same f' w' p' =>
      exact .finished k was (f'.trans f) (w'.trans w) (p'.trans p) (b.hist.mem ev)
    | finished k' was' f' w' p' ev' => rw [w] at was'; cases was'

theorem finishOperation_side (s : State) (h : s.flash.wip = true) : ByteSide s (finishOperation s) :=
  ⟨rfl, rfl, rfl, rfl, rfl, rfl, rfl, List.suffix_cons .., rfl,
    .finished s.env.draws h rfl rfl rfl (List.mem_cons_self ..)⟩

theorem busyCountdown_side (s : State) : ByteSide s (busyCountdown s) := by
  unfold busyCountdown
  split
  · next h =>
    split
    · exact finishOperation_side s h
    · exact ⟨rfl, rfl, rfl, rfl, rfl, rfl, rfl, List.suffix_rfl, rfl, .same rfl rfl rfl⟩
  · exact ByteSide.refl s

/-- Receiving from a line that no device drives changes at most the number of draws. -/
theorem lineReply_side (line : Option Byte) (s : State) : ByteSide s (lineReply line s).2 := by
  cases line <;> exact ⟨rfl, rfl, rfl, rfl, rfl, rfl, rfl, List.suffix_rfl, rfl, .same rfl rfl rfl⟩

theorem lineReply_flash (line : Option Byte) (s : State) : (lineReply line s).2.flash = s.flash := by
  cases line <;> rfl

theorem receiveByte_side (b : Byte) (s : State) : ByteSide s (receiveByte b s).2 := by
  have h0 : ByteSide s { s with flash := { s.flash with frame := s.flash.frame ++ [b] } } :=
    ⟨rfl, rfl, rfl, rfl, rfl, rfl, rfl, List.suffix_rfl, rfl, .same rfl rfl rfl⟩
  have hd : ∀ u : State, ByteSide u (drawByte u).2 := fun u =>
    ⟨rfl, rfl, rfl, rfl, rfl, rfl, rfl, List.suffix_rfl, rfl, .same rfl rfl rfl⟩
  unfold receiveByte
  simp only
  split
  · unfold statusReply
    split
    · exact h0.trans (hd _)
    · unfold referenceReply
      split
      · exact h0
      · refine h0.trans ((busyCountdown_side _).trans ?_)
        exact ⟨rfl, rfl, rfl, rfl, rfl, rfl, rfl, List.suffix_rfl, rfl, .same rfl rfl rfl⟩
    · exact h0.trans (lineReply_side _ _)
  · unfold idleReply
    split
    · exact h0.trans (hd _)
    · exact h0
    · exact h0.trans (lineReply_side _ _)

theorem exchange_side (bytes : List Byte) (s : State) : ByteSide s (exchange bytes s).2 := by
  induction bytes generalizing s with
  | nil => exact ByteSide.refl s
  | cons b rest ih => exact (receiveByte_side b s).trans (ih _)

theorem exchange_length (bytes : List Byte) (s : State) : (exchange bytes s).1.length = bytes.length := by
  induction bytes generalizing s with
  | nil => rfl
  | cons b rest ih => simp [exchange, ih]

theorem busyCountdown_frame (s : State) : (busyCountdown s).flash.frame = s.flash.frame := by
  unfold busyCountdown
  split
  · split <;> rfl
  · rfl

theorem receiveByte_frame (b : Byte) (s : State) :
    (receiveByte b s).2.flash.frame = s.flash.frame ++ [b] := by
  unfold receiveByte
  simp only
  split
  · unfold statusReply
    split
    · rfl
    · unfold referenceReply
      split
      · rfl
      · exact busyCountdown_frame _
    · rw [lineReply_flash]
  · unfold idleReply
    split
    · rfl
    · rfl
    · rw [lineReply_flash]

theorem exchange_frame (bytes : List Byte) (s : State) :
    (exchange bytes s).2.flash.frame = s.flash.frame ++ bytes := by
  induction bytes generalizing s with
  | nil => simp [exchange]
  | cons b rest ih => simp [exchange, ih, receiveByte_frame]

/-- What the engine's step leaves unchanged (R140, R148). -/
structure CompletionSide (s t : State) : Prop where
  cfg : t.cfg = s.cfg
  seq : t.seq = s.seq
  host : t.host = s.host
  other : t.chip.other = s.chip.other
  spitx : t.chip.spitx = s.chip.spitx
  cs : t.chip.cs = s.chip.cs
  transport : t.env.transportFails = s.env.transportFails
  hist : s.hist <:+ t.hist
  bus : busTransactions t = busTransactions s
  done : (s.chip.fly = none ∧ t.chip = s.chip) ∨ (s.chip.fly ≠ none ∧ t.chip.fly = none ∧
    t.chip.spictl = s.chip.spictl ||| bitMask s.cfg.doneBit)
  progress : Progress s t

theorem engineCompletes_side (u : State) : CompletionSide u (engineCompletes u) := by
  unfold engineCompletes
  split
  · next hf => exact ⟨rfl, rfl, rfl, rfl, rfl, rfl, rfl, List.suffix_rfl, rfl, .inl ⟨hf, rfl⟩, .same rfl rfl rfl⟩
  · next f hf =>
    have e := exchange_side (wireBytes f.n f.tx) u
    refine ⟨e.cfg, e.seq, e.host, by simp [e.chip], by simp [e.chip], by simp [e.chip], e.transport,
      e.hist.trans (List.suffix_cons ..), e.bus,
      .inr ⟨by simp [hf], rfl, rfl⟩, ?_⟩
    cases e.progress with
    | same a b c => exact .same a b c
    | finished k a b c d ev => exact .finished k a b c d (List.mem_cons_of_mem _ ev)

/-- What the flash's own step leaves unchanged (R166). -/
structure FinishSide (s t : State) : Prop where
  cfg : t.cfg = s.cfg
  seq : t.seq = s.seq
  host : t.host = s.host
  chip : t.chip = s.chip
  transport : t.env.transportFails = s.env.transportFails
  hist : s.hist <:+ t.hist
  bus : busTransactions t = busTransactions s
  progress : Progress s t

theorem flashFinishes_side (u : State) : FinishSide u (flashFinishes u) := by
  unfold flashFinishes
  split
  · split
    · next h => exact ⟨rfl, rfl, rfl, rfl, rfl, List.suffix_cons .., rfl, (finishOperation_side u h).progress⟩
    · exact ⟨rfl, rfl, rfl, rfl, rfl, List.suffix_rfl, rfl, .same rfl rfl rfl⟩
  all_goals exact ⟨rfl, rfl, rfl, rfl, rfl, List.suffix_rfl, rfl, .same rfl rfl rfl⟩

/-! ### Steps -/

/-- Only the schedule and the transport's outcome differ. -/
structure SchedSide (s u : State) : Prop where
  cfg : u.cfg = s.cfg
  seq : u.seq = s.seq
  chip : u.chip = s.chip
  flash : u.flash = s.flash
  host : u.host = s.host
  hist : u.hist = s.hist
  draws : u.env.draws = s.env.draws

theorem schedSide_nextTurn (s : State) : SchedSide s (nextTurn s).2 := by
  constructor <;> simp

/-- The host's move (R45). -/
inductive HostDid (u : State) : State → Prop where
  | none : HostDid u u
  | filled (a : Nat) (bytes : List Byte) (rest : List HostMove) (hb : u.seq.busy = false) :
      HostDid u { u with host := { buf := Memory.writeAll unlistedBuf u.host.buf a bytes, moves := rest } }
  | dropped (rest : List HostMove) : HostDid u { u with host := { u.host with moves := rest } }
  | accepted (rest : List HostMove) (i : Instr) (t : State) (hb : u.seq.busy = false) (hc : i.isCommand = true)
      (ha : accept i { u with host := { u.host with moves := rest } } = .next t) : HostDid u t

theorem hostTurn_cases {u t : State} (h : hostTurn u = .next t) : HostDid u t := by
  unfold hostTurn at h
  split at h
  · cases h; exact .none
  · next a bytes rest hm =>
    unfold hostFill at h
    split at h
    · cases h; exact .none
    · next hb =>
      split at h <;> cases h
      exact .filled a bytes rest (by simpa using hb)
  · next d rest hm =>
    unfold hostIssue at h
    simp only at h
    split at h
    · cases h; exact .dropped rest
    · next hb =>
      have hb' : u.seq.busy = false := by simpa using hb
      split at h
      · next i hd =>
        have hc := decodeDescriptor_isCommand hd
        rw [exec_command _ hc, operate] at h
        rw [if_neg (by exact hb)] at h
        exact .accepted rest i t hb' hc h
      · cases h

/-- What one step can do: the engine completes, the flash finishes, the block is reset, the host moves, the operation in progress
takes its next micro-step, or nothing. -/
theorem step_cases {s t : State} (h : step s = .next t) :
    s.cfg.wf = true ∧ ∃ u, SchedSide s u ∧
      (t = engineCompletes u ∨ t = flashFinishes u ∨ t = resetEvent u ∨ t = u ∨ HostDid u t ∨
        (u.seq.busy = true ∧ ∃ i, topLevelOp u = some i ∧ exec i u = .next t)) := by
  obtain ⟨hw, h⟩ := step_next h
  refine ⟨hw, ?_⟩
  have hs := schedSide_nextTurn s
  have hseq : ∀ u : State, SchedSide s u → seqTurn u = .next t →
      (t = u ∨ (u.seq.busy = true ∧ ∃ i, topLevelOp u = some i ∧ exec i u = .next t)) := by
    intro u _ hu
    unfold seqTurn at hu
    split at hu
    · next hb =>
      split at hu
      · cases hu; exact .inl rfl
      · next i hi => exact .inr ⟨hb, i, hi, hu⟩
    · cases hu; exact .inl rfl
  unfold takeTurn at h
  split at h
  · refine ⟨_, hs, ?_⟩
    rcases hseq _ hs h with h | h
    · exact .inr (.inr (.inr (.inl h)))
    · exact .inr (.inr (.inr (.inr (.inr h))))
  · unfold seqFailsTurn at h
    split at h
    · have hs' : SchedSide s
          { (nextTurn s).2 with env := { (nextTurn s).2.env with transportFails := true } } :=
        ⟨hs.cfg, hs.seq, hs.chip, hs.flash, hs.host, hs.hist, hs.draws⟩
      refine ⟨_, hs', ?_⟩
      rcases hseq _ hs' h with h | h
      · exact .inr (.inr (.inr (.inl h)))
      · exact .inr (.inr (.inr (.inr (.inr h))))
    · cases h; exact ⟨_, hs, .inr (.inr (.inr (.inl rfl)))⟩
  · cases h; exact ⟨_, hs, .inl rfl⟩
  · cases h; exact ⟨_, hs, .inr (.inl rfl)⟩
  · exact ⟨_, hs, .inr (.inr (.inr (.inr (.inl (hostTurn_cases h)))))⟩
  · cases h; exact ⟨_, hs, .inr (.inr (.inl rfl))⟩

/-! ### The history only grows (R47) -/

theorem HostDid.hist {u t : State} (h : HostDid u t) : u.hist <:+ t.hist := by
  cases h with
  | accepted rest i _ hb hc ha => exact (accept_cases ha).hist
  | _ => exact List.suffix_rfl

theorem exec_hist {i : Instr} {s t : State} (hw : s.cfg.wf = true) (h : exec i s = .next t) : s.hist <:+ t.hist := by
  rcases exec_cases h with ⟨_, a, u, ha, ht, hu⟩ | ⟨_, e, _⟩
  · exact ha.hist.trans ((ht.hist (facts_of_wf (ha.cfg ▸ hw))).trans hu.hist)
  · exact e.hist ▸ List.suffix_rfl

/-- A step adds events to the history and takes none away. -/
theorem step_hist {s t : State} (h : step s = .next t) : s.hist <:+ t.hist := by
  obtain ⟨hw, u, hs, hc⟩ := step_cases h
  rw [← hs.hist]
  rcases hc with rfl | rfl | rfl | rfl | hd | ⟨_, i, _, he⟩
  · exact (engineCompletes_side u).hist
  · exact (flashFinishes_side u).hist
  · exact List.suffix_rfl
  · exact List.suffix_rfl
  · exact hd.hist
  · exact exec_hist (hs.cfg ▸ hw) he

end Sys2Proof.Machine
end

