-- ==== Sys2Proof/Laws/Runs.lean ====
section
/-! SUPPORT. Laws of runs: how a run is cut in two, what stays known after a transport failure, and what
each step of a run does while WAITDONE, issued by the host, polls. -/

namespace Sys2Proof.Machine

open Sys2Proof

theorem Reaches.zero (s : State) : Reaches s 0 s := rfl

theorem reaches_zero_iff {s t : State} : Reaches s 0 t ↔ s = t := by
  constructor
  · intro h; cases h; rfl
  · rintro rfl; rfl

theorem run_succ (M : Host.Core) (n : Nat) (s : M.State) :
    M.run (n + 1) s = (match M.step s with | .next u => M.run n u | .fault f => .fault f | .refused r => .refused r) := rfl

theorem run_succ_iff {M : Host.Core} {n : Nat} {s t : M.State} :
    M.run (n + 1) s = .next t ↔ ∃ u, M.step s = .next u ∧ M.run n u = .next t := by
  rw [run_succ]
  cases M.step s with
  | next u => exact ⟨fun h => ⟨u, rfl, h⟩, fun ⟨v, h, hv⟩ => by cases h; exact hv⟩
  | fault f => exact ⟨fun h => (nomatch h), fun ⟨v, h, _⟩ => (nomatch h)⟩
  | refused r => exact ⟨fun h => (nomatch h), fun ⟨v, h, _⟩ => (nomatch h)⟩

/-- A run of one step more begins with a step. -/
theorem reaches_succ_iff {s t : State} {n : Nat} : Reaches s (n + 1) t ↔ ∃ u, step s = .next u ∧ Reaches u n t :=
  run_succ_iff (M := Sys2Proof.core)

theorem Reaches.trans {s t u : State} {n m : Nat} (h : Reaches s n t) (k : Reaches t m u) : Reaches s (n + m) u := by
  induction n generalizing s with
  | zero => rw [reaches_zero_iff] at h; subst h; simpa using k
  | succ n ih =>
    obtain ⟨v, hv, hr⟩ := reaches_succ_iff.1 h
    rw [Nat.succ_add]
    exact reaches_succ_iff.2 ⟨v, hv, ih hr⟩

theorem reaches_add_iff {s t : State} {n m : Nat} : Reaches s (n + m) t ↔ ∃ u, Reaches s n u ∧ Reaches u m t := by
  refine ⟨?_, fun ⟨u, a, b⟩ => a.trans b⟩
  induction n generalizing s with
  | zero => intro h; exact ⟨s, Reaches.zero s, by simpa using h⟩
  | succ n ih =>
    intro h
    rw [Nat.succ_add] at h
    obtain ⟨v, hv, hr⟩ := reaches_succ_iff.1 h
    obtain ⟨u, a, b⟩ := ih hr
    exact ⟨u, reaches_succ_iff.2 ⟨v, hv, a⟩, b⟩

theorem Reaches.step {s t u : State} {n : Nat} (h : Reaches s n t) (k : step t = .next u) : Reaches s (n + 1) u :=
  h.trans (reaches_succ_iff.2 ⟨u, k, Reaches.zero u⟩)

/-- What every step keeps, every run keeps. -/
theorem Reaches.keeps {p : State → Prop} (hp : ∀ s t, p s → Machine.step s = .next t → p t) {s t : State} {n : Nat}
    (h : Reaches s n t) (hs : p s) : p t := by
  induction n generalizing s with
  | zero => rw [reaches_zero_iff] at h; exact h ▸ hs
  | succ n ih =>
    obtain ⟨u, hu, hr⟩ := reaches_succ_iff.1 h
    exact ih hr (hp s u hs hu)

/-! ### What stays known after a transport failure -/

theorem upToFailure_append {l later : List Event} (h : .raised .transportFailure ∈ l) :
    upToFailure (later ++ l) = upToFailure l := by
  induction later with
  | nil => rfl
  | cons e later ih =>
    rw [List.cons_append, upToFailure, if_pos (by simp [h]), ih]

theorem chipUnknown_of_suffix {s t : State} (h : s.hist <:+ t.hist) (k : chipUnknown s = true) : chipUnknown t = true := by
  simp only [chipUnknown, List.contains_iff_mem] at *
  exact h.mem k

/-- Once a transaction has failed the known history never changes. -/
theorem knownHistory_of_suffix {s t : State} (h : s.hist <:+ t.hist) (k : chipUnknown s = true) :
    knownHistory t = knownHistory s := by
  obtain ⟨later, hl⟩ := h
  rw [knownHistory, ← hl]
  exact upToFailure_append (by simpa [chipUnknown] using k)

theorem Run.advance_hist (r : Run) : r.state.hist <:+ r.advance.state.hist := by
  unfold Run.advance
  split
  · split
    · next h => exact step_hist h
    all_goals exact List.suffix_rfl
  · exact List.suffix_rfl

/-- The history of a run only grows (R47). -/
theorem Run.steps_hist (n : Nat) (r : Run) : r.state.hist <:+ (Run.steps n r).state.hist := by
  induction n generalizing r with
  | zero => exact List.suffix_rfl
  | succ n ih => exact r.advance_hist.trans (ih r.advance)

/-! ### WAITDONE, issued by the host -/

/-- WAITDONE is in progress, issued by the host. -/
structure Polling (s : State) : Prop where
  wf : s.cfg.wf = true
  busy : s.seq.busy = true
  pc : ∃ l, s.seq.pc = [⟨.waitdone, l⟩]
  transport : s.env.transportFails = false

theorem Polling.op {s : State} (h : Polling s) : topLevelOp s = some .waitdone := by
  obtain ⟨l, hl⟩ := h.pc
  simp [topLevelOp, hl]

/-- What one step does while WAITDONE polls: it ends; or another agent steps and at most completes the transfer in flight, which sets
DONE; or the sequencer polls, found DONE clear, and polls again (R114). -/
inductive PollStep (s : State) : State → Prop where
  | ended (t : State) (h : t.seq.busy = false) : PollStep s t
  | other (t : State) (turn : (nextTurn s).1 ≠ .seq ∧ (nextTurn s).1 ≠ .seqFails) (p : Polling t) (cfg : t.cfg = s.cfg)
      (seq : t.seq = s.seq) (bus : busTransactions t = busTransactions s)
      (chip : t.chip = s.chip ∨ (s.chip.fly ≠ none ∧ t.chip.fly = none ∧ doneFlag t.cfg t.chip.spictl = true)) :
      PollStep s t
  | polled (t : State) (clear : doneFlag s.cfg s.chip.spictl = false) (p : Polling t) (cfg : t.cfg = s.cfg)
      (chip : t.chip = s.chip) (bus : busTransactions t = busTransactions s + 1) (label : t.seq.pc = [⟨.waitdone, 1⟩])
      (polls : t.seq.dpolls = (if s.seq.pc = [⟨.waitdone, 0⟩] then 0 else s.seq.dpolls) + 1)
      (more : pollsExhausted s.cfg t.seq.dpolls = false) : PollStep s t

/-- One poll of WAITDONE, issued by the host, in any state that differs from `s` only in its schedule. -/
theorem microStep_waitdone {s : State} (h : Polling s) : ∃ t, microStep s = .next t ∧
    ((t.seq.busy = false ∧ (doneFlag s.cfg s.chip.spictl = true ∨ s.cfg.pollLimit ≠ none)) ∨
      (doneFlag s.cfg s.chip.spictl = false ∧ Polling t ∧ t.cfg = s.cfg ∧ t.chip = s.chip ∧ t.env = s.env ∧
        busTransactions t = busTransactions s + 1 ∧ t.seq.pc = [⟨.waitdone, 1⟩] ∧
        t.seq.dpolls = (if s.seq.pc = [⟨.waitdone, 0⟩] then 0 else s.seq.dpolls) + 1 ∧
        pollsExhausted s.cfg t.seq.dpolls = false)) := by
  have f := facts_of_wf h.wf
  obtain ⟨l, hl⟩ := h.pc
  have hm : microStep s = pollDone (if l = 0 then setDpolls 0 s else s) := by
    simp only [microStep, hl]
    cases l <;> rfl
  have key : ∀ u : State, u.cfg = s.cfg → u.chip = s.chip → u.env = s.env → u.hist = s.hist → u.seq.busy = s.seq.busy →
      u.seq.pc = s.seq.pc → u.seq.dpolls = (if s.seq.pc = [⟨.waitdone, 0⟩] then 0 else s.seq.dpolls) →
      ∃ t, pollDone u = .next t ∧ ((t.seq.busy = false ∧ (doneFlag s.cfg s.chip.spictl = true ∨ s.cfg.pollLimit ≠ none)) ∨
      (doneFlag s.cfg s.chip.spictl = false ∧ Polling t ∧ t.cfg = s.cfg ∧ t.chip = s.chip ∧ t.env = s.env ∧
        busTransactions t = busTransactions s + 1 ∧ t.seq.pc = [⟨.waitdone, 1⟩] ∧
        t.seq.dpolls = (if s.seq.pc = [⟨.waitdone, 0⟩] then 0 else s.seq.dpolls) + 1 ∧
        pollsExhausted s.cfg t.seq.dpolls = false)) := by
    intro u h1 h2 h3 h4 h5 h6 h7
    rw [pollDone_ok (callers := []) (l := l) (h1 ▸ f) (by rw [h3]; exact h.transport) (h6.trans hl)]
    rw [h1, h2]
    split
    · next hd => exact ⟨_, rfl, .inl ⟨rfl, .inl hd⟩⟩
    · next hd =>
      split
      · next hx =>
        obtain ⟨k, hk, _⟩ := pollsExhausted_iff.1 hx
        exact ⟨_, rfl, .inl ⟨rfl, .inr (by simp [hk])⟩⟩
      · next hx =>
        refine ⟨_, rfl, .inr ⟨by simpa using hd, ⟨?_, ?_, ⟨1, rfl⟩, ?_⟩, ?_, ?_, ?_, ?_, rfl, ?_, ?_⟩⟩
        · show u.cfg.wf = true; rw [h1]; exact h.wf
        · exact h5.trans h.busy
        · show u.env.transportFails = false; rw [h3]; exact h.transport
        · exact h1
        · exact h2
        · exact h3
        · show (List.filter Event.isBus (_ :: u.hist)).length = _
          rw [h4]; rfl
        · show u.seq.dpolls + 1 = _; rw [h7]
        · simpa using hx
  rw [hm]
  split
  · next h0 => exact key _ rfl rfl rfl rfl rfl rfl (by rw [hl, h0, if_pos rfl]; rfl)
  · next h0 => exact key _ rfl rfl rfl rfl rfl rfl (by rw [if_neg]; rw [hl]; simp [h0])

theorem Polling.of_eq {s u : State} (h : Polling s) (cfg : u.cfg = s.cfg) (seq : u.seq = s.seq)
    (transport : u.env.transportFails = s.env.transportFails) : Polling u :=
  ⟨cfg ▸ h.wf, seq ▸ h.busy, seq ▸ h.pc, transport.trans h.transport⟩

/-- A host's move while the block is busy changes only the moves to come (R45, R201). -/
theorem hostTurn_busy {u : State} (h : u.seq.busy = true) :
    ∃ m, hostTurn u = .next { u with host := { u.host with moves := m } } := by
  unfold hostTurn
  split
  · exact ⟨u.host.moves, rfl⟩
  · next a bytes rest hm => exact ⟨u.host.moves, by simp [hostFill, h]⟩
  · next d rest hm => exact ⟨rest, by simp [hostIssue, h]⟩

/-- While WAITDONE polls every step answers a next state. -/
theorem step_polling {s : State} (h : Polling s) : ∃ t, step s = .next t ∧ PollStep s t := by
  have f := facts_of_wf h.wf
  have hn : Polling (nextTurn s).2 := h.of_eq (by simp) (by simp) (by simp)
  rw [step_of_wf s h.wf]
  have htop := hn.op
  cases ht : (nextTurn s).1 with
  | seq =>
    rw [takeTurn, seqTurn, if_pos hn.busy, htop]
    simp only
    rw [exec_running _ rfl hn.busy htop]
    obtain ⟨t, he, hc⟩ := microStep_waitdone hn
    refine ⟨t, he, ?_⟩
    rcases hc with hc | ⟨a, b, c, d, _, e, g, i, j⟩
    · exact .ended t hc.1
    · refine .polled t (by simpa using a) b (by simpa using c) (by simpa using d) ?_ g (by simpa using i)
        (by simpa using j)
      rw [e]; simp [busTransactions]
  | seqFails =>
    rw [takeTurn, seqFailsTurn, if_pos hn.busy, seqTurn, if_pos (by exact hn.busy)]
    rw [show topLevelOp { (nextTurn s).2 with env := { (nextTurn s).2.env with transportFails := true } } = some .waitdone
      from htop]
    simp only
    rw [exec_running _ rfl (by exact hn.busy) (by exact htop)]
    obtain ⟨l, hl⟩ := hn.pc
    have hx : ∃ t, microStep { (nextTurn s).2 with env := { (nextTurn s).2.env with transportFails := true } } = .next t
        ∧ t.seq.busy = false := by
      simp only [microStep, hl]
      cases l <;> exact ⟨_, rfl, rfl⟩
    obtain ⟨t, h1, h2⟩ := hx
    exact ⟨t, h1, .ended t h2⟩
  | eng =>
    have e := engineCompletes_side (nextTurn s).2
    refine ⟨_, rfl, .other _ ⟨by simp [ht], by simp [ht]⟩ (hn.of_eq e.cfg e.seq e.transport) (by simpa using e.cfg)
      (by simpa using e.seq) ?_ ?_⟩
    · rw [e.bus]; simp [busTransactions]
    · rcases e.done with ⟨_, hd⟩ | ⟨a, b, c⟩
      · exact .inl (by simpa using hd)
      · refine .inr ⟨by simpa using a, b, ?_⟩
        rw [c, e.cfg]; exact doneFlag_set (by simpa using f) _
  | flash =>
    have e := flashFinishes_side (nextTurn s).2
    refine ⟨_, rfl, .other _ ⟨by simp [ht], by simp [ht]⟩ (hn.of_eq e.cfg e.seq e.transport) (by simpa using e.cfg)
      (by simpa using e.seq) ?_ (.inl (by simpa using e.chip))⟩
    rw [e.bus]; simp [busTransactions]
  | host =>
    obtain ⟨m, hm⟩ := hostTurn_busy hn.busy
    refine ⟨_, hm, .other _ ⟨by simp [ht], by simp [ht]⟩ (hn.of_eq rfl rfl rfl) (by simp) (by simp) ?_ (.inl (by simp))⟩
    simp [busTransactions]
  | reset => exact ⟨_, rfl, .ended _ rfl⟩

end Sys2Proof.Machine
end

