-- ==== Sys2Proof/Laws/Words.lean ====
section
/-! SUPPORT. The words written to SPITX as concatenations of their bytes, and the sector of an address as a number
(spec/30_encoding.md R74, R76; spec/44_engine_and_flash.md R160). -/

namespace Sys2Proof.Machine

open Sys2Proof

theorem cmdWord1_eq (op : Byte) : cmdWord1 op = op ++ (0 : BitVec 24) := by revert op; decide

theorem cmdWord_eq (op : Byte) (a : Word) : cmdWord op a = op ++ a.extractLsb' 0 24 := by
  apply BitVec.eq_of_getLsbD_eq
  intro i hi
  rw [cmdWord, BitVec.getLsbD_or, BitVec.getLsbD_append]
  by_cases h : i < 24
  · simp [h, hi]
  · simp [h, hi]

theorem packWord_eq (a b c d : Byte) : packWord a b c d = a ++ b ++ c ++ d := by
  have hn : ∀ (x : Byte) (k : Nat), 8 ≤ k → x.getLsbD k = false := fun x k hk => BitVec.getLsbD_of_ge x k hk
  apply BitVec.eq_of_getLsbD_eq
  intro i hi
  simp only [packWord, BitVec.getLsbD_or, BitVec.getLsbD_append, BitVec.getLsbD_shiftLeft, BitVec.getLsbD_setWidth, hi,
    decide_true, Bool.true_and]
  by_cases h : i < 8
  · simp [h, show i < 16 by omega, show i < 24 by omega]
  · by_cases h2 : i < 16
    · simp [h, h2, show i < 24 by omega, show i - 8 < 8 by omega, show i - 8 < 32 by omega, hn d i (by omega)]
    · by_cases h3 : i < 24
      · simp [h, h2, h3, show ¬ i - 8 < 8 by omega, show i - 8 - 8 = i - 16 by omega, show i - 16 < 8 by omega,
          show i - 16 < 32 by omega, hn d i (by omega), hn c (i - 8) (by omega)]
      · simp [h, h2, h3, show ¬ i - 8 < 8 by omega, show i - 8 - 8 = i - 16 by omega, show ¬ i - 16 < 8 by omega,
          show i - 16 - 8 = i - 24 by omega, show i - 24 < 32 by omega, hn d i (by omega), hn c (i - 8) (by omega),
          hn b (i - 16) (by omega)]

theorem sectorBase_eq (a : FlashAddr) : sectorBase a = a.toNat / 4096 * 4096 := by
  have h : a &&& ~~~(0xFFF : FlashAddr) = (a >>> (12 : Nat)) <<< (12 : Nat) := by
    apply BitVec.eq_of_getLsbD_eq
    intro i hi
    have hm : (0xFFF : FlashAddr).getLsbD i = decide (i < 12) := by
      have : ∀ j : Fin 24, (0xFFF : FlashAddr).getLsbD j.val = decide (j.val < 12) := by decide
      exact this ⟨i, hi⟩
    rw [BitVec.getLsbD_and, BitVec.getLsbD_not, hm, BitVec.getLsbD_shiftLeft, BitVec.getLsbD_ushiftRight]
    by_cases h : i < 12
    · simp [h]
    · simp [h, hi, show 12 + (i - 12) = i by omega]
  have ha := a.isLt
  rw [sectorBase, h, BitVec.toNat_shiftLeft, BitVec.toNat_ushiftRight, Nat.shiftRight_eq_div_pow, Nat.shiftLeft_eq]
  omega

theorem sectorAligned_iff (a : Word) : sectorAligned a = true ↔ a.toNat % 4096 = 0 := by
  rw [sectorAligned, beq_iff_eq, ← BitVec.toNat_inj]
  simp only [BitVec.extractLsb'_toNat, Nat.shiftRight_zero]
  exact Iff.rfl

end Sys2Proof.Machine
end

