-- ==== Sys2Proof/Tests/Slice0.lean ====
section
/-! SUPPORT. Tests: the WellFormed smoke, the decoding of words written out from spec/30_encoding.md, single steps with their results
taken from the vectors of spec/95_test_vectors.md, and for every obligation with hypotheses a witness that meets them. -/

namespace Sys2Proof.Machine.Tests

open Sys2Proof

/-! ## States -/

/-- The machine after reset, an operation in progress with these frames, SPICTL and TMP at `ctl`. -/
def at_ (pc : List Frame) (ctl : Word) (cs : Bool) : State :=
  { State.reset with
    seq := { Sequencer.reset with busy := true, pc := pc, tmp := ctl }
    chip := { State.reset.chip with spictl := ctl, cs := cs } }

def withSched (t : List Turn) (s : State) : State := { s with env := { s.env with sched := t } }

def withMoves (m : List HostMove) (s : State) : State := { s with host := { s.host with moves := m } }

def withCfg (c : Cfg) (s : State) : State := { s with cfg := c }

def withFlash (fl : Flash) (s : State) : State := { s with flash := fl }

def withFly (n : Nat) (tx : Word) (s : State) : State := { s with chip := { s.chip with fly := some ⟨n, tx⟩ } }

def withLater (l : Later) (s : State) : State := { s with env := { s.env with later := l } }

def withOperands (a n : Word) (s : State) : State := { s with seq := { s.seq with addr := a, cnt := n } }

def withIdx (i : Word) (s : State) : State := { s with seq := { s.seq with idx := i } }

/-- The idle machine, the host about to present a descriptor. -/
def issuing (d : BitVec 68) : State := withMoves [.issue d] State.reset

/-- A flash frame received and not yet ended. -/
def framed (bytes : List Byte) : Flash := { State.reset.flash with frame := bytes }

def contractCfg : Cfg := { refCfg with flashModel := .contract }

/-- No device, on a line that reads `line` (R121 (c)). -/
def absentCfg (line : Option Byte) : Cfg := { refCfg with flashModel := .absent line }

/-- A configuration with a byte-count field of three bits. -/
def wideCfg : Cfg := { refCfg with nbW := 3, csLsb := 5, csW := 1, msenBit := 5 }

def afterState (o : Out) : Option State :=
  match o with
  | .next t => some t
  | _ => none

def spictlAfter (o : Out) : Option Word := (afterState o).map (·.chip.spictl)

/-! ## WellFormed smoke: each check refuses an ill-formed term -/

theorem test_wf_setcnt : (Instr.setcnt 3).wf refCfg = true ∧ (Instr.setcnt 4).wf refCfg = false := by decide
theorem test_wf_erase :
    (Instr.erase 0xFFFFFF).wf refCfg = true ∧ (Instr.erase 0x1000000).wf refCfg = false ∧
      (Instr.erase 0x1000000).fieldsOk = false := by decide
theorem test_wf_progpage_addr :
    (Instr.progpage 0x1000000 4).wf refCfg = false ∧ (Instr.progpage 0x1000000 4).fieldsOk = false := by decide
theorem test_wf_progpage_count :
    (Instr.progpage 0x1000 4096).wf refCfg = true ∧ (Instr.progpage 0x1000 4097).wf refCfg = false ∧
      (Instr.progpage 0x1000 0xFFFFFFFC).wf refCfg = true := by decide
theorem test_cfg_ref : refCfg.wf = true := by decide
theorem test_cfg_registers : { refCfg with regSpitx := 0x12 }.wf = false := by decide
theorem test_cfg_fields : { refCfg with doneBit := 3 }.wf = false := by decide
theorem test_cfg_field_in_word : { refCfg with modeLsb := 31 }.wf = false := by decide
theorem test_cfg_csfield : { refCfg with csLsb := 7 }.wf = false ∧ { refCfg with csLsb := 5 }.wf = true := by decide
/-- Log entry 3: a chip-select field of no bits stands anywhere, strictly inside MODE too. -/
theorem test_cfg_csfield_empty : { refCfg with csW := 0, csLsb := 1 }.wf = true := by decide
theorem test_cfg_count : { refCfg with nbW := 1 }.wf = false := by decide
theorem test_cfg_buffer : { refCfg with bufCap := 4094 }.wf = false := by decide
theorem test_cfg_codes : { refCfg with mUpdate := 2 }.wf = false := by decide
theorem test_cfg_opcodes : { refCfg with opPp := 0x20 }.wf = false := by decide
theorem test_cfg_pollLimit :
    { refCfg with pollLimit := some 0 }.wf = false ∧ { refCfg with pollLimit := some 1 }.wf = true ∧
      { refCfg with pollLimit := some (2 ^ 32 - 1) }.wf = true ∧ { refCfg with pollLimit := some (2 ^ 32) }.wf = false := by
  decide
theorem test_cfg_page :
    { refCfg with flashPage := some 255 }.wf = false ∧ { refCfg with flashPage := some 256 }.wf = true := by decide
theorem test_badConfig_refused :
    step (withCfg { refCfg with nbW := 1 } State.reset) = .refused .badConfig := by rfl

/-! ## Decoding: words written out from R77 to R79 and R82 -/

theorem test_table_disjoint :
    opcodeTable.Pairwise (fun r q => r.format ≠ q.format ∨ r.pattern ≠ q.pattern) := by decide
/-- V-EN-10. -/
theorem test_decode_irw : decodeDescriptor 0x10000001105000000 = .ok (.irw 0x11 0x05000000) := by decide
theorem test_decode_irr : decodeDescriptor 0x20000001200000000 = .ok (.irr 0x12) := by decide
theorem test_decode_mspien : decodeDescriptor 0x30000000000000000 = .ok .mspien := by decide
theorem test_decode_mspidis : decodeDescriptor 0x40000000000000000 = .ok .mspidis := by decide
/-- V-EN-11. -/
theorem test_decode_setmode : decodeDescriptor 0x50000000200000000 = .ok (.setmode .transfer) := by decide
theorem test_decode_setcnt : decodeDescriptor 0x60000000300000000 = .ok (.setcnt 3) := by decide
theorem test_decode_waitdone : decodeDescriptor 0x70000000000000000 = .ok .waitdone := by decide
theorem test_decode_rdstatus : decodeDescriptor 0x80000000000000000 = .ok .rdstatus := by decide
/-- V-EN-12. -/
theorem test_decode_sendcmd : decodeDescriptor 0x90000000600000000 = .ok (Pseudo.wren refCfg) := by decide
theorem test_decode_erase : decodeDescriptor 0xA0000100000000000 = .ok (.erase 0x1000) := by decide
theorem test_decode_waitflash : decodeDescriptor 0xB0000000000000000 = .ok .waitflash := by decide
/-- V-EN-9, V-EN-13. -/
theorem test_decode_progpage :
    decodeDescriptor 0xC0000100400000004 = .ok (.progpage 0x1004 4) ∧
      decodeDescriptor 0xC00001000FFFFFFFC = .ok (.progpage 0x1000 (-4)) := by decide
theorem test_decode_flashRdsr : decodeFrame refCfg [0x05, 0, 0, 0] = .ok (.flashRdsr [0, 0, 0]) := by decide
theorem test_decode_flashWren : decodeFrame refCfg [0x06] = .ok .flashWren := by decide
theorem test_decode_flashSe : decodeFrame refCfg [0x20, 0xAB, 0xCD, 0xEF] = .ok (.flashSe 0xABCDEF) := by decide
theorem test_decode_flashPp :
    decodeFrame refCfg [0x02, 0x00, 0x10, 0x04, 0x01] = .ok (.flashPp 0x001004 [0x01]) := by decide
/-- V-EN-14. -/
theorem test_decode_reserved :
    decodeDescriptor 0x00000000000000000 = .error .reservedOp ∧
      decodeDescriptor 0xD0000000000000000 = .error .reservedOp ∧
      decodeDescriptor 0xE0000000000000000 = .error .reservedOp ∧
      decodeDescriptor 0xF0000000000000000 = .error .reservedOp := by decide
/-- V-EN-15, V-EN-16, V-EN-18, V-EN-19. -/
theorem test_decode_range :
    decodeDescriptor 0x10000010000000000 = .error .operandRange ∧
      decodeDescriptor 0x50000000400000000 = .error .operandRange ∧
      decodeDescriptor 0x90000010600000000 = .error .operandRange ∧
      decodeDescriptor 0xA0100000000000000 = .error .operandRange := by decide
/-- V-EN-1 to V-EN-8. -/
theorem test_words :
    cmdWord1 0x05 = 0x05000000 ∧ cmdWord 0x20 0x00ABCDEF = 0x20ABCDEF ∧ cmdWord 0x02 0x1004 = 0x02001004 ∧
      cntVal 1 = 0 ∧ cntVal 4 = 3 ∧ packWord 0xDE 0xAD 0xBE 0xEF = 0xDEADBEEF := by decide
/-- V-EG-3. -/
theorem test_wire :
    wireBytes 2 0xAABBCCDD = [0xAA, 0xBB] ∧ shiftIn 0x11223344 [0x55, 0x66] = 0x33445566 ∧
      shiftIn 0x11223344 [0x55, 0x66, 0x77] = 0x44556677 := by decide
/-- R85: SETXFER is defined for 1 to 4 bytes. -/
theorem test_setxfer :
    Pseudo.setxfer 1 = some (.setcnt 0) ∧ Pseudo.setxfer 4 = some (.setcnt 3) ∧ Pseudo.setxfer 0 = none ∧
      Pseudo.setxfer 5 = none := by decide
theorem test_text : (Instr.setmode .update).text = "SETMODE update" := by decide

/-! ## One instruction placed and run from reset -/

theorem test_fetch_descriptor :
    step (State.reset.withFetchWord 68 0x60000000300000000) = exec (.setcnt 3) State.reset := by rfl
theorem test_fetch_frame :
    (afterState (step (State.reset.withFetchWord 8 0x06))).map (fun t => (t.flash.wel, t.chip.cs)) =
      some (true, false) := by decide

/-! ## Single steps, with the results of spec/95_test_vectors.md -/

/-- V-IR-1. -/
theorem test_irw_spitx :
    (afterState (exec (.irw 0x11 0x06000000) (at_ [⟨.irw 0x11 0x06000000, 0⟩] 0x40 false))).map
      (fun t => (t.chip.spitx, t.seq.busy)) = some (0x06000000, false) := by decide
/-- V-IR-3: DONE is kept. -/
theorem test_irw_spictl :
    spictlAfter (exec (.irw 0x10 0x40) (at_ [⟨.irw 0x10 0x40, 0⟩] 0xCC false)) = some 0xC0 := by decide
/-- V-IR-4. -/
theorem test_irr_spictl :
    (afterState (exec (.irr 0x10) (withFly 4 0 (at_ [⟨.irr 0x10, 0⟩] 0x4E true)))).map (·.seq.result) =
      some 0x4E := by decide
/-- V-IR-5: the read of SPIRX in flight goes on. -/
theorem test_irr_spirx_in_flight :
    (afterState (exec (.irr 0x12) (withFly 4 0 (at_ [⟨.irr 0x12, 0⟩] 0x4E true)))).map
      (fun t => (t.seq.busy, t.env.draws)) = some (false, 1) := by rfl
/-- V-MC-1. -/
theorem test_mspien : spictlAfter (exec .mspien (at_ [⟨.mspien, 1⟩] 0 false)) = some 0x40 := by decide
/-- V-MC-2: the open status frame is closed. -/
theorem test_mspien_closes :
    (afterState (exec .mspien (withFlash (framed [0x05, 0]) (at_ [⟨.mspien, 1⟩] 0xABCD12CE true)))).map
      (fun t => (t.chip.spictl, t.chip.cs)) = some (0xABCD12CC, false) := by decide
/-- V-MC-3. -/
theorem test_mspidis :
    (afterState (exec .mspidis (withFlash (framed [0x05]) (at_ [⟨.mspidis, 1⟩] 0xCE true)))).map
      (fun t => (t.chip.spictl, t.chip.cs, ledAvailable t.cfg t.chip.spictl)) = some (0x8C, false, true) := by decide
/-- V-MC-4. -/
theorem test_setmode_enable :
    (afterState (exec (.setmode .enable) (at_ [⟨.setmode .enable, 1⟩] 0x40 false))).map
      (fun t => (t.chip.spictl, t.chip.cs)) = some (0x41, true) := by decide
/-- V-MC-11. -/
theorem test_setmode_msen :
    exec (.setmode .enable) (at_ [⟨.setmode .enable, 1⟩] 0 false) = .refused .msenOff := by rfl
/-- V-MC-5, its second transaction. -/
theorem test_setcnt :
    (afterState (exec (.setcnt 3) (at_ [⟨.setcnt 3, 1⟩] 0x41 true))).map (fun t => (t.chip.spictl, t.seq.pc)) =
      some (0x4D, [⟨.setcnt 3, 2⟩]) := by decide
/-- V-MC-5, its last transaction. -/
theorem test_setcnt_starts :
    (afterState (exec (.setcnt 3) (at_ [⟨.setmode .transfer, 1⟩, ⟨.setcnt 3, 2⟩] 0x4D true))).map
      (fun t => (t.chip.spictl, t.chip.fly, t.seq.busy)) = some (0x4E, some ⟨4, 0⟩, false) := by decide
/-- V-MC-7: DONE clear, polls again. -/
theorem test_waitdone_polls :
    (afterState (exec .waitdone (withFly 4 0 (at_ [⟨.waitdone, 0⟩] 0x4E true)))).map
      (fun t => (t.seq.dpolls, t.seq.busy)) = some (1, true) := by decide
/-- V-ERR-1: the third poll of a bound of three. -/
theorem test_waitdone_bound :
    (afterState (exec .waitdone
      (withFly 1 0 (withCfg { refCfg with pollLimit := some 3 }
        { at_ [⟨.waitdone, 1⟩] 0x42 true with seq := { Sequencer.reset with busy := true, pc := [⟨.waitdone, 1⟩], dpolls := 2 } })))).map
      (fun t => (t.seq.err, t.seq.busy, t.chip.cs)) = some (1, false, true) := by decide
/-- V-RS-2: the last micro-step. -/
theorem test_rdstatus :
    (afterState (exec .rdstatus
      { at_ [⟨.rdstatus, 8⟩] 0xCE true with chip := { State.reset.chip with spictl := 0xCE, spirx := 0x01010101 } })).map
      (fun t => (t.seq.stat, t.seq.result, t.seq.busy)) = some (1, 1, false) := by decide
/-- V-SD-1: the frame `06` ends. -/
theorem test_sendcmd :
    (afterState (exec (.sendcmd 0x06)
      (withFlash (framed [0x06]) (at_ [⟨.setmode .idle, 1⟩, ⟨.sendcmd 0x06, 5⟩] 0xC2 true)))).map
      (fun t => (t.chip.spictl, t.flash.wel, t.seq.busy)) = some (0xC0, true, false) := by decide
/-- V-SD-3: under the contract the frame `9F` is a fault. -/
theorem test_sendcmd_undefined :
    exec (.sendcmd 0x9F)
      (withCfg contractCfg (withFlash (framed [0x9F]) (at_ [⟨.setmode .idle, 1⟩, ⟨.sendcmd 0x9F, 5⟩] 0xC2 true))) =
      .fault .flashFrameUndefined := by rfl
/-- V-ER-1: the command word. -/
theorem test_erase_word :
    (afterState (exec (.erase 0x1000) (withOperands 0x1000 0 (at_ [⟨.erase 0x1000, 2⟩] 0xC1 true)))).map
      (·.chip.spitx) = some 0x20001000 := by decide
/-- V-ER-1, V-ER-2: the erase starts, of the sector that holds the address. -/
theorem test_erase_starts :
    (afterState (exec (.erase 0x2345)
      (withFlash { framed [0x20, 0x00, 0x23, 0x45] with wel := true }
        (withOperands 0x2345 0 (at_ [⟨.setmode .idle, 1⟩, ⟨.erase 0x2345, 5⟩] 0xCE true))))).map
      (fun t => (t.flash.wel, t.flash.wip, t.flash.pending)) = some (false, true, .erase 0x2000) := by decide
/-- V-WF-3: all ones, no poll limit: the status is read again. -/
theorem test_waitflash_absent :
    (afterState (exec .waitflash
      { at_ [⟨.rdstatus, 8⟩, ⟨.waitflash, 1⟩] 0xCE true with
        cfg := absentCfg (some 0xFF), chip := { State.reset.chip with spictl := 0xCE, spirx := 0xFFFFFFFF } })).map
      (fun t => (t.seq.stat, t.seq.pc, t.seq.busy)) = some (0xFF, [⟨.waitflash, 1⟩], true) := by decide
/-- V-WF-2: the status is not busy. -/
theorem test_waitflash :
    (afterState (exec .waitflash (at_ [⟨.rdstatus, 8⟩, ⟨.waitflash, 1⟩] 0xCE true))).map
      (fun t => (t.seq.fpolls, t.seq.busy)) = some (1, false) := by decide
/-- L1-5: the packing. -/
theorem test_progpage_word :
    (afterState (exec (.progpage 0x1004 4)
      (withOperands 0x1004 4
        { at_ [⟨.progpage 0x1004 4, 12⟩] 0xCE true with host := { buf := [(0, 1), (1, 2), (2, 3), (3, 4)], moves := [] } }))).map
      (fun t => (t.chip.spitx, t.seq.pc)) = some (0x01020304, [⟨.progpage 0x1004 4, 15⟩]) := by decide
/-- V-PP-5: a negative count sends no data. -/
theorem test_progpage_negative :
    (afterState (exec (.progpage 0x1004 (-4)) (withOperands 0x1004 (-4) (at_ [⟨.progpage 0x1004 (-4), 12⟩] 0xCE true)))).map
      (fun t => t.seq.pc.getLast?) = some (some ⟨.progpage 0x1004 (-4), 19⟩) := by decide
theorem test_flashRdsr : exec (.flashRdsr [0, 0]) State.reset = .next State.reset := by rfl
theorem test_flashWren : (afterState (exec .flashWren State.reset)).map (·.flash.wel) = some true := by decide
/-- V-ER-4: lost while busy. -/
theorem test_flashWren_busy :
    (afterState (exec .flashWren (withFlash { State.reset.flash with wip := true } State.reset))).map (·.flash.wel) =
      some false := by decide
/-- V-ER-3. -/
theorem test_flashSe_disabled : exec (.flashSe 0x2000) State.reset = .next State.reset := by rfl
/-- V-PP-1. -/
theorem test_flashPp :
    (afterState (exec (.flashPp 0x1004 [1, 2]) (withFlash { State.reset.flash with wel := true } State.reset))).map
      (·.flash.pending) = some (.program [(0x1004, 1), (0x1005, 2)]) := by decide
/-- V-PP-4. -/
theorem test_flashPp_empty :
    (afterState (exec (.flashPp 0x1004 []) (withFlash { State.reset.flash with wel := true } State.reset))).map
      (·.flash.wel) = some true := by decide
/-- R161 (1), R168 C-c: not write-enabled, an empty program is ignored under the contract too. -/
theorem test_flashPp_empty_disabled :
    exec (.flashPp 0x1004 []) (withCfg contractCfg State.reset) = .next (withCfg contractCfg State.reset) := by rfl
/-- V-PP-6: the AND. -/
theorem test_program_and :
    (applyPending 0 [(4, 0x3C), (5, 0x3C), (6, 0x3C), (7, 0x3C)] (.program [(4, 0xF0), (5, 0x0F), (6, 0xAA), (7, 0x55)])) =
      [(4, 0x30), (5, 0x0C), (6, 0x28), (7, 0x14)] := by decide
/-- R167, a page of four bytes: the data wraps in the reference flash. -/
theorem test_program_page :
    programOf { refCfg with flashPage := some 4 } 0x1006 [1, 2, 3] =
      .program [(0x1004, 3), (0x1005, 0xFF), (0x1006, 1), (0x1007, 2)] := by decide
/-- V-MC-6: completion. -/
theorem test_engine :
    (afterState (step (withFly 4 0x20001000 (at_ [⟨.waitdone, 0⟩] 0x4E true)))).map
      (fun t => (t.chip.spictl, t.chip.spirx, t.chip.fly, t.flash.frame)) =
      some (0xCE, 0xFFFFFFFF, none, [0x20, 0x00, 0x10, 0x00]) := by decide
/-- R121 (c): no device, the received bytes are what the line reads as, in a status frame too. -/
theorem test_engine_absent :
    (afterState (step (withCfg (absentCfg (some 0xA5))
      (withFlash (framed [0x05, 0, 0, 0]) (withFly 4 0x05000000 (at_ [⟨.waitdone, 0⟩] 0x4E true)))))).map
      (·.chip.spirx) = some 0xA5A5A5A5 := by decide
/-- V-ERR-3: the transport fails. -/
theorem test_transport_fails :
    (afterState (step (withSched [.seqFails] (at_ [⟨.sendcmd 0x06, 1⟩] 0xCC false)))).map
      (fun t => (t.seq.err, t.seq.busy, t.chip.spictl, t.env.transportFails)) = some (2, false, 0xCC, false) := by decide
/-- V-EN-17, V-EN-20. -/
theorem test_issue_refused :
    step (issuing 0x60000000400000000) = .refused .operandRange ∧
      step (issuing 0xC0000100000001001) = .refused .countExceedsBuffer := ⟨rfl, rfl⟩
/-- R44: a marked run goes no further. -/
theorem test_marked_run :
    (Run.steps 3 (Run.start (issuing 0x00000000000000000))).outcome = .refused .reservedOp := by decide
/-- R171: an operation whose bottom frame popped has completed; one that the reset event cut off, or that was never issued, has
not. -/
theorem test_outcome :
    (Run.steps 1 (Run.start (at_ [⟨.waitdone, 0⟩] 0xCE true))).outcome = .ended .completed ∧
      (Run.steps 1 (Run.start (withSched [.reset] (at_ [⟨.waitdone, 0⟩] 0xCE true)))).outcome = .ended .cutOff ∧
      (Run.steps 1 (Run.start State.reset)).outcome = .ended .notIssued ∧
      (Run.steps 1 (Run.start (withSched [.seqFails] (at_ [⟨.waitdone, 0⟩] 0xCE true)))).outcome = .ended (.errored 2) := by
  decide
/-- R212: the run ends with the host's last command; a fill is no command (R45). -/
theorem test_final :
    (Run.start (withMoves [.fill 0 [1]] State.reset)).isFinal = true ∧
      (Run.start (withMoves [.fill 0 [1], .issue 0x30000000000000000] State.reset)).isFinal = false ∧
      (Run.start (at_ [⟨.waitdone, 0⟩] 0x40 false)).isFinal = false := by decide
theorem test_memory_canonical :
    Memory.write unlistedFlash [(3, (0x00 : Byte))] 3 0xFF = [] ∧ Memory.wf unlistedFlash [(3, (0xFF : Byte))] = false := by
  decide

/-! ## Witnesses: for each obligation with hypotheses, states and operands that meet them, clause by clause -/

/-- Every state built by `at_` has a configuration that R7 accepts. -/
theorem witness_configuration (pc : List Frame) (ctl : Word) (cs : Bool) : (at_ pc ctl cs).cfg.wf = true := test_cfg_ref

theorem witness_DecodeOfEncode : refCfg.wf = true ∧ (Instr.progpage 0xFFFFFF 0xFFFFFFFF).fieldsOk = true := by decide
theorem witness_EncodeOfDecode :
    decode refCfg (.descriptor 0xC00FFFFFFFFFFFFFF) = .ok (.progpage 0xFFFFFF 0xFFFFFFFF) ∧
      decode refCfg (.frame [0x20, 0xFF, 0xFF, 0xFF]) = .ok (.flashSe 0xFFFFFF) := by decide
theorem witness_DecodedCodeHasOneRow : decode refCfg (.frame [0x02, 0, 0x10, 4]) = .ok (.flashPp 0x1004 []) := by decide
theorem witness_ResetEvent :
    (withSched [.reset] (at_ [⟨.waitdone, 1⟩] 0x42 true)).cfg.wf = true ∧
      (nextTurn (withSched [.reset] (at_ [⟨.waitdone, 1⟩] 0x42 true))).1 = .reset := by decide
theorem witness_Acceptance :
    State.reset.seq.busy = false ∧ (Instr.progpage 0xFFFFFF 4096).wf State.reset.cfg = true ∧
      (Instr.setcnt 3).wf State.reset.cfg = true ∧ (Instr.erase 0xFFFFFF).wf State.reset.cfg = true := by decide
theorem witness_IllFormedCommandsRefused_config : (withCfg { refCfg with nbW := 1 } State.reset).cfg.wf = false := by decide
theorem witness_IllFormedCommandsRefused (d : BitVec 68) :
    (issuing d).cfg.wf = true ∧ (nextTurn (issuing d)).1 = .host ∧ (issuing d).seq.busy = false ∧
      (issuing d).host.moves = .issue d :: [] := ⟨test_cfg_ref, rfl, rfl, rfl⟩
theorem witness_IllFormedCommandsRefused_clauses :
    descOp 0xF0000000000000000 = 0xF ∧
      (descOp 0x90000010000000000 = 0x9 ∧ 2 ^ 8 ≤ (descA0 0x90000010000000000).toNat) ∧
      (descOp 0x50000000400000000 = 0x5 ∧ 4 ≤ (descA0 0x50000000400000000).toNat) ∧
      (descOp 0x60000000400000000 = 0x6 ∧ 2 ^ refCfg.nbW ≤ (descA0 0x60000000400000000).toNat) ∧
      (descOp 0xA0100000000000000 = 0xA ∧ 2 ^ 24 ≤ (descA0 0xA0100000000000000).toNat) ∧
      (descOp 0xC00FFFFFF00001001 = 0xC ∧ (descA0 0xC00FFFFFF00001001).toNat < 2 ^ 24 ∧
        (refCfg.bufCap : Int) < (descA1 0xC00FFFFFF00001001).toInt) := by decide
theorem witness_BusyIgnoresCommands :
    let s := withSched [.host] (withMoves [.issue 0] (at_ [⟨.waitdone, 1⟩] 0x42 true))
    s.cfg.wf = true ∧ (nextTurn s).1 = .host ∧ s.seq.busy = true ∧ s.host.moves = .issue 0 :: [] ∧
      topLevelOp s ≠ some .mspien := by decide
theorem witness_HostFillsBuffer (a : Nat) (bytes : List Byte) :
    let s := withMoves [.fill a bytes] State.reset
    s.cfg.wf = true ∧ (nextTurn s).1 = .host ∧ s.host.moves = .fill a bytes :: [] ∧
      Memory.wf unlistedBuf s.host.buf = true ∧ s.seq.busy = false := ⟨test_cfg_ref, rfl, rfl, rfl, rfl⟩
theorem witness_HostFillsBuffer_clauses :
    refCfg.bufCap < 4095 + [(1 : Byte), 2].length ∧ 4094 + [(1 : Byte), 2].length ≤ refCfg.bufCap ∧
      (withSched [.host] (withMoves [.fill 0 [1]] (at_ [⟨.waitdone, 1⟩] 0x42 true))).seq.busy = true := by decide
theorem witness_StepRunsDecodedInstruction :
    decode (issuing 0x30000000000000000).cfg (.descriptor 0x30000000000000000) = .ok .mspien ∧
      ((at_ [⟨.mspien, 1⟩] 0x40 false).cfg.wf = true ∧ (nextTurn (at_ [⟨.mspien, 1⟩] 0x40 false)).1 = .seq ∧
        topLevelOp (at_ [⟨.mspien, 1⟩] 0x40 false) = some .mspien) ∧
      decode refCfg (.frame (withFlash (framed [0x06]) State.reset).flash.frame) = .ok .flashWren := by decide
theorem witness_IrwStores :
    (∀ r ∈ ([0x11, 0x12, 0xFF] : List RegNum),
      runningAt (.irw r 5) [⟨.irw r 5, 0⟩] (at_ [⟨.irw r 5, 0⟩] 0x40 false) = true) ∧
      (at_ [⟨.irw 0x11 5, 0⟩] 0x40 false).chip.fly = none ∧ namedReg refCfg 0xFF = false := by decide
theorem witness_IrwControl (v ctl : Word) (cs : Bool) :
    let s := at_ [⟨.irw 0x10 v, 0⟩] ctl cs
    s.cfg.wf = true ∧ runningAt (.irw 0x10 v) [⟨.irw 0x10 v, 0⟩] s = true ∧ 0x10 = s.cfg.regSpictl ∧
      s.chip.fly = none := ⟨test_cfg_ref, by simp [runningAt, at_, topLevelOp, State.reset], rfl, rfl⟩
/-- The SPICTL values of the nine clauses of IrwControl, old and new, and of those of SetmodeWrites. -/
theorem witness_IrwControl_clauses :
    (modeOf refCfg 0x40 = .idle ∧ modeOf refCfg 0x00 = .idle) ∧ (modeOf refCfg 0x41 = .enable ∧ msenFlag refCfg 0x41 = true) ∧
      (modeOf refCfg 0x4E = .transfer ∧ msenFlag refCfg 0x4E = true ∧ transferBytes refCfg 0x4E = 4) ∧
      (modeOf refCfg 0x4F = .update ∧ msenFlag refCfg 0x4F = true) ∧ (msenFlag refCfg 0x01 = false ∧ modeOf refCfg 0x01 ≠ .idle) ∧
      (wideCfg.wf = true ∧ modeOf wideCfg 0x32 = .transfer ∧ msenFlag wideCfg 0x32 = true ∧ 4 < transferBytes wideCfg 0x32) := by
  decide
theorem witness_IrrReads :
    (∀ r ∈ ([0x10, 0x11, 0x12, 0xFF] : List RegNum),
      runningAt (.irr r) [⟨.irr r, 0⟩] (at_ [⟨.irr r, 0⟩] 0x40 false) = true) ∧
      (withFly 4 0 (at_ [⟨.irr 0x12, 0⟩] 0x4E true)).chip.fly ≠ none := by decide
theorem witness_OverlapFaults :
    let s := fun f => withFly 4 0 (at_ [f] 0x4E true)
    (s ⟨.irw 0x11 5, 0⟩).chip.fly ≠ none ∧ runningAt (.irw 0x11 5) [⟨.irw 0x11 5, 0⟩] (s ⟨.irw 0x11 5, 0⟩) = true ∧
      namedReg refCfg 0x11 = true ∧
      (runningAt .mspien [⟨.mspien, 1⟩] (s ⟨.mspien, 1⟩) = true ∧ valueWrittenBack refCfg 0x4E .mspien ≠ none) ∧
      (runningAt .rdstatus [⟨.rdstatus, 2⟩] (s ⟨.rdstatus, 2⟩) = true ∧ commandWordAt refCfg 0 ⟨.rdstatus, 2⟩ ≠ none) ∧
      (runningAt (.progpage 0 4) [⟨.progpage 0 4, 14⟩] (withIdx 4092 (s ⟨.progpage 0 4, 14⟩)) = true ∧
        (withIdx 4092 (s ⟨.progpage 0 4, 14⟩)).seq.idx.toNat + 3 < refCfg.bufCap) := by decide
theorem witness_WriteThenRead :
    State.reset.cfg.wf = true ∧ Memory.wf unlistedReg State.reset.chip.other = true ∧
      (∃ t, writeReg 0xFF 5 State.reset = .next t) ∧
      (∃ t, writeReg 0x10 0xFFFFFF3C (at_ [] 0xC0 false) = .next t ∧ t.chip.fly = none) ∧
      (∃ t, writeReg 0x10 0x4E (at_ [] 0xCD true) = .next t ∧ t.chip.fly ≠ none) :=
  ⟨by decide, rfl, ⟨_, rfl⟩, ⟨_, rfl, rfl⟩, ⟨_, rfl, by decide⟩⟩
theorem witness_OperationsBegin :
    ∀ i ∈ ([.mspien, .mspidis, .setmode .idle, .setcnt 3, .rdstatus, .sendcmd 6, .erase 0, .waitflash, .progpage 0 4] :
        List Instr),
      beginsWithRead i = true ∧ runningAt i [⟨i, 0⟩] (at_ [⟨i, 0⟩] 0x40 false) = true := by decide
theorem witness_CallsBegin :
    let s := withOperands 0xFFF000 4 (at_ [⟨.progpage 0xFFF000 4, 4⟩] 0x40 false)
    runningAt (.progpage 0xFFF000 4) [⟨.progpage 0xFFF000 4, 4⟩] s = true ∧ stackOk s = true ∧ operandsLoaded s = true ∧
      calleeAt s.cfg ⟨.progpage 0xFFF000 4, 4⟩ = some (.erase 0xFFF000) := by decide
theorem witness_MasterSpiWrites :
    (runningAt .mspien [⟨.mspien, 1⟩] (at_ [⟨.mspien, 1⟩] 0x00 false) = true ∧ modeOf refCfg 0x00 = .idle) ∧
      (runningAt .mspidis [⟨.mspidis, 1⟩] (at_ [⟨.mspidis, 1⟩] 0x4E false) = true ∧
        (at_ [⟨.mspidis, 1⟩] 0x4E false).chip.cs = false) := by decide
theorem witness_SetmodeWrites (m : ModeName) (ctl : Word) (cs : Bool) :
    let s := at_ [⟨.setmode m, 1⟩] ctl cs
    s.cfg.wf = true ∧ runningAt (.setmode m) [⟨.setmode m, 1⟩] s = true ∧ s.chip.fly = none ∧ s.chip.cs = cs ∧
      s.chip.spictl = ctl ∧ s.seq.tmp = ctl :=
  ⟨test_cfg_ref, by simp [runningAt, at_, topLevelOp, State.reset], rfl, rfl, rfl, rfl⟩
theorem witness_SetcntWrites (ctl : Word) :
    let s := at_ [⟨.setcnt 3, 1⟩] ctl true
    s.cfg.wf = true ∧ runningAt (.setcnt 3) [⟨.setcnt 3, 1⟩] s = true ∧ s.chip.fly = none ∧ s.chip.spictl = ctl ∧
      modeOf s.cfg s.seq.tmp = modeOf s.cfg s.chip.spictl := ⟨test_cfg_ref, rfl, rfl, rfl, rfl⟩
/-- The SPICTL values of its clauses: 0x40, 0x41, 0x42 and 0x43 with MSEN, 0x01 without. -/
theorem witness_SetcntWrites_clauses :
    modeOf refCfg 0x40 = .idle ∧ (modeOf refCfg 0x41 = .enable ∧ msenFlag refCfg 0x41 = true) ∧
      (modeOf refCfg 0x42 = .transfer ∧ msenFlag refCfg 0x42 = true) ∧
      (modeOf refCfg 0x43 = .update ∧ msenFlag refCfg 0x43 = true) ∧
      (modeOf refCfg 0x01 ≠ .idle ∧ msenFlag refCfg 0x01 = false) := by decide
theorem witness_WaitdonePolls :
    runningAt .waitdone [⟨.waitdone, 0⟩] (at_ [⟨.waitdone, 0⟩] 0xCE true) = true ∧ doneFlag refCfg 0xCE = true ∧
      doneFlag refCfg 0x4E = false ∧ refCfg.pollLimit = none ∧
      { refCfg with pollLimit := some 1 }.pollLimit = some 1 ∧ 1 ≤ (1 : Word).toNat ∧
      runningAt .rdstatus [⟨.rdstatus, 4⟩] (at_ [⟨.rdstatus, 4⟩] 0xCE true) = true ∧
      calleeAt refCfg ⟨.rdstatus, 4⟩ = some .waitdone := by decide
theorem witness_OpenFrameEnds :
    let s := fun bytes => withFlash (framed bytes) (at_ [⟨.setmode .idle, 1⟩] 0xCE true)
    let w := withFlash (framed [0x06]) (at_ [⟨.irw 0x10 0x40, 0⟩] 0xCE true)
    (∀ b ∈ ([[], [0x06], [0x9F]] : List (List Byte)),
      runningAt (.setmode .idle) [⟨.setmode .idle, 1⟩] (s b) = true ∧ (s b).chip.fly = none ∧ (s b).chip.cs = true ∧
        valueWrittenBack refCfg (s b).seq.tmp (.setmode .idle) = some 0xCC ∧ modeOf refCfg (s b).chip.spictl ≠ .idle) ∧
      (runningAt (.irw 0x10 0x40) [⟨.irw w.cfg.regSpictl 0x40, 0⟩] w = true ∧ modeOf w.cfg 0x40 = .idle ∧
        w.chip.fly = none ∧ w.chip.cs = true ∧ modeOf w.cfg w.chip.spictl ≠ .idle) ∧
      decode refCfg (.frame (s [0x06]).flash.frame) = .ok .flashWren ∧
      decode refCfg (.frame (s [0x9F]).flash.frame) = .error .undefinedFrame ∧ refCfg.flashModel ≠ .contract ∧
      decode (absentCfg none) (.frame [0x9F]) = .error .undefinedFrame ∧ (absentCfg none).flashModel ≠ .contract ∧
      contractCfg.flashModel = .contract ∧ decode contractCfg (.frame [0x9F]) = .error .undefinedFrame := by decide
theorem witness_FieldIsolation :
    (∀ op ∈ ([.mspien, .mspidis, .setmode .enable, .setcnt 3] : List Instr),
      runningAt op [⟨op, 1⟩] (at_ [⟨op, 1⟩] 0xABCD12C0 false) = true ∧
        (afterState (exec op (at_ [⟨op, 1⟩] 0xABCD12C0 false))).isSome = true) ∧
      ∀ b, b < 32 → b ≠ refCfg.doneBit →
        (at_ [⟨.mspien, 1⟩] 0xABCD12C0 false).seq.tmp.getLsbD b =
          (at_ [⟨.mspien, 1⟩] 0xABCD12C0 false).chip.spictl.getLsbD b := ⟨by decide, fun _ _ _ => rfl⟩
theorem witness_CommandWordsSent :
    let s := at_ [⟨.erase 0xFFF000, 2⟩] 0x41 true
    runningAt (.erase 0xFFF000) [⟨.erase 0xFFF000, 2⟩] s = true ∧ s.chip.fly = none ∧
      commandWordAt s.cfg 0xFFF000 ⟨.erase 0xFFF000, 2⟩ = some 0x20FFF000 ∧
      commandWordAt s.cfg 0 ⟨.rdstatus, 2⟩ = some 0x05000000 ∧ commandWordAt s.cfg 0 ⟨.sendcmd 6, 2⟩ = some 0x06000000 ∧
      commandWordAt s.cfg 0x1004 ⟨.progpage 0x1004 4, 9⟩ = some 0x02001004 := by decide
theorem witness_StatusReadEndsOperation :
    runningAt .rdstatus [⟨.rdstatus, 8⟩] (at_ [⟨.rdstatus, 8⟩] 0xCE true) = true ∧
      (let pc : List Frame := [⟨.rdstatus, 8⟩, ⟨.waitflash, 1⟩, ⟨.progpage 0 4, 19⟩]
       runningAt (.progpage 0 4) pc (at_ pc 0xCE true) = true ∧ (at_ pc 0xCE true).chip.spirx.getLsbD 0 = false ∧
         (at_ pc 0xCE true).chip.fly = none) := by decide
theorem witness_WaitflashTests :
    (let pc : List Frame := [⟨.rdstatus, 8⟩, ⟨.waitflash, 1⟩]
     runningAt .waitflash pc (at_ pc 0xCE true) = true ∧ (at_ pc 0xCE true).chip.fly = none) ∧
      (let pc : List Frame := [⟨.rdstatus, 8⟩, ⟨.waitflash, 1⟩, ⟨.progpage 0 4, 2⟩]
       runningAt (.progpage 0 4) pc (at_ pc 0xCE true) = true) ∧
      ((0xFE : Word).extractLsb' 0 8).getLsbD 0 = false ∧ ((0x01 : Word).extractLsb' 0 8).getLsbD 0 = true ∧
      refCfg.pollLimit = none ∧ { refCfg with pollLimit := some 1 }.pollLimit = some 1 := by decide
theorem witness_CommandFramesEnd :
    (let s := withFlash (framed [0x06]) (at_ [⟨.setmode .idle, 1⟩, ⟨.sendcmd 0x06, 5⟩] 0xC2 true)
     runningAt (.sendcmd 0x06) [⟨.setmode .idle, 1⟩, ⟨.sendcmd 0x06, 5⟩] s = true ∧ s.chip.fly = none ∧ s.chip.cs = true ∧
       modeOf s.cfg s.chip.spictl ≠ .idle ∧ s.flash.wip = false ∧ s.cfg.flashModel.attached = true ∧
       s.cfg.opWren = 0x06 ∧ s.flash.frame = [0x06]) ∧
      (let s := withFlash { framed [0x20, 0xFF, 0xFF, 0xFF] with wel := true }
          (at_ [⟨.setmode .idle, 1⟩, ⟨.erase 0xFFFFFF, 5⟩] 0xCE true)
       runningAt (.erase 0xFFFFFF) [⟨.setmode .idle, 1⟩, ⟨.erase 0xFFFFFF, 5⟩] s = true ∧ s.flash.wel = true ∧
         s.flash.frame = [s.cfg.opSe, (0xFFFFFF : Word).extractLsb' 16 8, (0xFFFFFF : Word).extractLsb' 8 8,
           (0xFFFFFF : Word).extractLsb' 0 8]) := by decide
theorem witness_ProgpageBranches (a : Word) :
    let s := withOperands a 4 (at_ [⟨.progpage a 4, 1⟩] 0x40 false)
    s.cfg.wf = true ∧ runningAt (.progpage a 4) [⟨.progpage a 4, 1⟩] s = true ∧ s.seq.addr = a :=
  ⟨test_cfg_ref, by simp [runningAt, withOperands, at_, topLevelOp, State.reset], rfl⟩
theorem witness_ProgpageLoops :
    let s := fun l n => withIdx 4088 (withOperands 0 n (at_ [⟨.progpage 0 n, l⟩] 0xCE true))
    (∀ l ∈ [12, 17, 18], runningAt (.progpage 0 4096) [⟨.progpage 0 4096, l⟩] (s l 4096) = true) ∧
      refCfg.ppWordWait = false ∧ (s 18 4096).seq.idx + 4 = 4092 ∧ (4092 : Word).toInt < (s 18 4096).seq.cnt.toInt ∧
      (4092 : Word).toNat + 3 < refCfg.bufCap ∧ (s 18 4096).chip.fly = none ∧ (withFly 4 0 (s 18 4096)).chip.fly ≠ none ∧
      (s 12 0).seq.cnt.toInt ≤ (0 : Word).toInt := by decide
theorem witness_TransferCompletes :
    (let s := withFly 4 0x20001000 (at_ [⟨.waitdone, 1⟩] 0x4E true)
     s.cfg.wf = true ∧ (nextTurn s).1 = .eng ∧ s.chip.fly = some ⟨4, 0x20001000⟩ ∧ s.flash.wip = false) ∧
      (nextTurn (withSched [.eng] State.reset)).1 = .eng ∧ (withSched [.eng] State.reset).chip.fly = none := by decide
theorem witness_StatusByte :
    let s := fun fl => withFlash fl State.reset
    ((s (framed [0x05])).flash.frame.head? = some refCfg.opRdsr ∧ (s (framed [0x06])).flash.frame.head? ≠ some refCfg.opRdsr ∧
      (s (framed [])).flash.frame.head? ≠ some refCfg.opRdsr) ∧
      (contractCfg.flashModel = .contract ∧ (absentCfg (some 0xFF)).flashModel = .absent (some 0xFF) ∧
        (absentCfg none).flashModel = .absent none ∧ refCfg.flashModel = .reference) ∧
      { framed [0x05] with frameStatus := some 1 }.frameStatus = some 1 ∧
      ((framed [0x05]).frameStatus = none ∧ (framed [0x05]).wip = false) ∧
      ({ framed [0x05] with wip := true }.wip = true ∧ { framed [0x05] with wip := true }.busyLeft = 0) ∧
      { framed [0x05] with wip := true, busyLeft := 1 }.busyLeft = 0 + 1 := by decide
theorem witness_FlashWriteEnable :
    (withFlash (framed [0x06]) State.reset).flash.frame = [refCfg.opWren] ∧
      (State.reset.flash.wip = false ∧ State.reset.cfg.flashModel.attached = true) ∧
      (withFlash { State.reset.flash with wip := true } State.reset).flash.wip = true ∧
      (withCfg (absentCfg none) State.reset).cfg.flashModel.attached = false := by decide
theorem witness_FlashSectorErase :
    ((withFlash (framed [0x20, 0xFF, 0xFF, 0xFF]) State.reset).flash.frame = [refCfg.opSe, 0xFF, 0xFF, 0xFF] ∧
        (0xFFFFFF : FlashAddr) = (0xFF : Byte) ++ (0xFF : Byte) ++ (0xFF : Byte)) ∧
      (withFlash { State.reset.flash with wel := true } State.reset).flash.wel = true ∧ State.reset.flash.wip = false ∧
      State.reset.cfg.flashModel.attached = true ∧ State.reset.flash.wel = false ∧
      (withCfg (absentCfg none) State.reset).cfg.flashModel.attached = false := by decide
theorem witness_FlashPageProgram :
    ((withFlash (framed [0x02, 0, 0x10, 4]) State.reset).flash.frame = refCfg.opPp :: 0 :: 0x10 :: 4 :: [] ∧
        (0x1004 : FlashAddr) = (0 : Byte) ++ (0x10 : Byte) ++ (4 : Byte)) ∧
      [(1 : Byte)] ≠ [] ∧ (withFlash { State.reset.flash with wel := true } State.reset).flash.wel = true ∧
      State.reset.flash.wip = false ∧ State.reset.flash.wel = false ∧ State.reset.cfg.flashModel = .reference ∧
      State.reset.cfg.flashModel.attached = true ∧ (withCfg contractCfg State.reset).cfg.flashModel = .contract ∧
      (withCfg (absentCfg none) State.reset).cfg.flashModel.attached = false := by decide
theorem witness_OtherFrames :
    (withFlash (framed [0x05, 0]) State.reset).flash.frame.head? = some refCfg.opRdsr ∧
      State.reset.flash.frame = [] ∧
      (withFlash (framed [0x9F]) State.reset).flash.frame = 0x9F :: [] ∧ State.reset.cfg.wf = true ∧
      ((0x9F : Byte) ≠ refCfg.opRdsr ∧ (0x9F : Byte) ≠ refCfg.opWren ∧ (0x9F : Byte) ≠ refCfg.opSe ∧
        (0x9F : Byte) ≠ refCfg.opPp) ∧
      [(0 : Byte), 0].length ≠ 3 ∧ [(0 : Byte), 0].length < 3 ∧ contractCfg.flashModel = .contract ∧
      refCfg.flashModel ≠ .contract ∧ (absentCfg none).flashModel ≠ .contract := by decide
theorem witness_ProgramTargets :
    (refCfg.wf = true ∧ refCfg.flashPage = none) ∧
      ({ contractCfg with flashPage := some 256 }.wf = true ∧ (0x10FC : FlashAddr).toNat % 256 + [(1 : Byte), 2, 3, 4].length ≤ 256 ∧
        256 < (0x10FD : FlashAddr).toNat % 256 + [(1 : Byte), 2, 3, 4].length) ∧
      ({ refCfg with flashPage := some 1 }.wf = true ∧ { refCfg with flashPage := some 1 }.flashModel = .reference) := by
  decide
theorem witness_EraseEffect :
    (0x1000 ≤ 0x1FFF ∧ 0x1FFF ≤ 0x1000 + 4095) ∧ 0x1000 + 4096 ≤ 0x2000 ∧ 0xFFF < 0x1000 := by decide
theorem witness_ProgramEffect : Memory.wf unlistedFlash [(4, (0x3C : Byte))] = true := by decide
theorem witness_FlashFinishes :
    let s := withSched [.flash] (withFlash { State.reset.flash with wip := true, pending := .erase 0 } State.reset)
    s.cfg.wf = true ∧ (nextTurn s).1 = .flash ∧ s.cfg.flashModel ≠ .contract ∧
      (withCfg contractCfg s).cfg.wf = true ∧ (withCfg contractCfg s).cfg.flashModel = .contract ∧ s.flash.wip = true := by
  decide
/-- In the step at which the reference flash finishes an erase the array changes. -/
theorem witness_ArrayChangesOnlyWhenAnOperationFinishes :
    let s := withFly 2 0x05000000
      (withFlash { State.reset.flash with wip := true, pending := .erase 0, fm := [(5, 1)] } (at_ [⟨.waitdone, 1⟩] 0x46 true))
    (afterState (step s)).map (fun t => (t.flash.fm, s.seq.busy)) = some ([], true) := by decide
theorem witness_OperationsFrame :
    (∃ t, exec .waitdone (withFly 4 0 (at_ [⟨.waitdone, 1⟩] 0x4E true)) = .next t) ∧
      (withFly 4 0 (at_ [⟨.waitdone, 1⟩] 0x4E true)).chip.fly ≠ none ∧
      (∃ t, exec (.setmode .transfer) (at_ [⟨.setmode .transfer, 1⟩] 0xCD true) = .next t ∧ t.chip.fly ≠ none) :=
  ⟨⟨_, rfl⟩, by decide, ⟨_, rfl, by decide⟩⟩
theorem witness_ControlInv :
    ControlInv (withOperands 0x1004 4 (at_ [⟨.setmode .idle, 1⟩, ⟨.rdstatus, 0⟩, ⟨.waitflash, 1⟩, ⟨.progpage 0x1004 4, 5⟩] 0x40 false)) :=
  ⟨by decide, by decide, by decide, by decide, by decide⟩
theorem witness_ResultWriters :
    let s := withOperands 0x1004 4
      (at_ [⟨.setmode .idle, 1⟩, ⟨.rdstatus, 0⟩, ⟨.waitflash, 1⟩, ⟨.progpage 0x1004 4, 5⟩] 0x40 false)
    ControlInv s ∧ s.seq.busy = true ∧ ∃ t, exec (.progpage 0x1004 4) s = .next t :=
  ⟨witness_ControlInv, rfl, _, rfl⟩
theorem witness_ModeControlFrame :
    (∀ i ∈ ([.mspien, .mspidis, .setmode .idle, .setcnt 3, .waitdone] : List Instr),
      stackOk (at_ [⟨i, 0⟩] 0xC0 false) = true ∧ (afterState (exec i (at_ [⟨i, 0⟩] 0xC0 false))).isSome = true) ∧
      ControlInv (at_ [⟨.setcnt 3, 0⟩] 0xC0 false) :=
  ⟨by decide, by decide, by decide, by decide, by decide, by decide⟩
theorem witness_TransportFailureEnds :
    let s := { withOperands 0x1004 4 (at_ [⟨.progpage 0x1004 4, 12⟩] 0xCE true) with env := ⟨[], .prompt, true, 0⟩ }
    s.cfg.wf = true ∧ ControlInv s ∧ BufferInv s ∧ s.seq.busy = true ∧ topLevelOp s = some (.progpage 0x1004 4) ∧
      s.env.transportFails = true := by
  refine ⟨by decide, ⟨by decide, by decide, by decide, by decide, by decide⟩, ?_, rfl, by decide, rfl⟩
  intro f a n h _
  cases h
  exact ⟨by decide, by decide, by decide⟩
/-- The read clause: the transaction of WAITDONE is a read; and a run that stands at a failed state has a final state. -/
theorem witness_TransportFailureEnds_read :
    let s := { at_ [⟨.waitdone, 0⟩] 0x4E true with env := ⟨[], .prompt, true, 0⟩ }
    (∃ u, exec .waitdone { s with env := { s.env with transportFails := false } } = .next u ∧
      u.hist = [] ++ .busRead 0x10 0x4E :: s.hist) ∧
      ∃ t, exec .waitdone s = .next t ∧ (Run.mk t (.errored 2) none none).final ≠ none :=
  ⟨⟨_, rfl, rfl⟩, ⟨_, rfl, by decide⟩⟩
/-- The host goes on after the failure: IRR makes a transaction, and there is no final state though the block is not busy (U3). -/
theorem witness_TransportFailureEnds_later :
    let s := withMoves [.issue 0x20000001100000000] { at_ [⟨.irw 0x11 5, 0⟩] 0 false with env := ⟨[], .prompt, true, 0⟩ }
    ∃ t, exec (.irw 0x11 5) s = .next t ∧
      busTransactions t < busTransactions (Run.steps 2 (Run.start t)).state ∧
      (Run.steps 2 (Run.start t)).state.seq.busy = false ∧ (Run.steps 2 (Run.start t)).final = none :=
  ⟨_, rfl, by decide⟩
theorem witness_NestingAtMostFive :
    (at_ [⟨.setmode .transfer, 1⟩, ⟨.setcnt 3, 2⟩, ⟨.rdstatus, 3⟩, ⟨.waitflash, 1⟩, ⟨.progpage 1 2, 5⟩] 0x40 false).seq.pc.length = 5 ∧
      ControlInv (withOperands 1 2
        (at_ [⟨.setmode .transfer, 1⟩, ⟨.setcnt 3, 2⟩, ⟨.rdstatus, 3⟩, ⟨.waitflash, 1⟩, ⟨.progpage 1 2, 5⟩] 0x40 false)) :=
  ⟨rfl, by decide, by decide, by decide, by decide, by decide⟩
theorem witness_ControlInvKept :
    let s := withOperands 0x1004 4
      (at_ [⟨.setmode .idle, 1⟩, ⟨.rdstatus, 0⟩, ⟨.waitflash, 1⟩, ⟨.progpage 0x1004 4, 5⟩] 0x40 false)
    ControlInv s ∧ ∃ t, step s = .next t := ⟨witness_ControlInv, _, rfl⟩
theorem witness_EngineInvKept :
    let s := withFly 4 0 (at_ [⟨.waitdone, 1⟩] 0x4E true)
    EngineInv s ∧ ∃ t, step s = .next t :=
  ⟨⟨by decide, by decide, fun f h => by cases h; decide⟩, _, rfl⟩
theorem witness_FlashAndStoresKept :
    let s := withFly 2 0x05000000
      (withFlash { State.reset.flash with wip := true, pending := .erase 0, fm := [(5, 1)] } (at_ [⟨.waitdone, 1⟩] 0x46 true))
    FlashInv s ∧ StoresCanonical s ∧ ∃ t, step s = .next t :=
  ⟨⟨fun _ => by decide, fun _ => rfl⟩, ⟨by decide, by decide, by decide⟩, _, rfl⟩
theorem witness_FreshInvKept :
    let s := at_ [⟨.setmode .enable, 1⟩] 0xABCD1240 false
    atWriteBack s = true ∧ FreshInv s ∧ ∃ t, step s = .next t := ⟨by decide, fun _ _ _ _ => rfl, _, rfl⟩
theorem witness_BufferInvKept :
    let s := withIdx 4092 (withOperands 0 4096 (at_ [⟨.progpage 0 4096, 18⟩] 0xCE true))
    s.cfg.wf = true ∧ ControlInv s ∧ BufferInv s ∧ s.seq.busy = true ∧ ∃ t, step s = .next t := by
  refine ⟨by decide, ⟨by decide, by decide, by decide, by decide, by decide⟩, ?_, rfl, _, rfl⟩
  intro f a n h _
  cases h
  exact ⟨by decide, by decide, by decide⟩
theorem witness_LoopFreeOperationsEnd :
    ∀ p ∈ ([(.irw 0xFF 5, 1), (.irr 0x12, 1), (.mspien, 2), (.mspidis, 2), (.setmode .enable, 2), (.setcnt 3, 4)] :
        List (Instr × Nat)),
      let s := at_ [⟨p.1, 0⟩] (if p.1 = .setcnt 3 then 0x41 else 0x40) (decide (p.1 = .setcnt 3))
      s.cfg.wf = true ∧ quiet s = true ∧ s.chip.fly = none ∧ runningAt p.1 [⟨p.1, 0⟩] s = true ∧
        (afterState (Host.Core.run Sys2Proof.core p.2 s)).isSome = true := by decide
theorem witness_RdstatusRun :
    (let s := at_ [⟨.rdstatus, 0⟩] 0x40 false
     s.cfg.wf = true ∧ quiet s = true ∧ atRest s = true ∧ runningAt .rdstatus [⟨.rdstatus, 0⟩] s = true ∧
       s.flash.wip = false) ∧
      atRest (withFlash (framed [0x05, 0]) (at_ [⟨.rdstatus, 0⟩] 0xCE true)) = true ∧ refCfg.flashModel.attached = true ∧
      (absentCfg (some 0x5A)).flashModel = .absent (some 0x5A) := by decide
theorem witness_CommandRuns :
    (let s := at_ [⟨.sendcmd 0x06, 0⟩] 0x40 false
     quiet s = true ∧ atRest s = true ∧ s.flash.wip = false ∧ runningAt (.sendcmd 0x06) [⟨.sendcmd 0x06, 0⟩] s = true ∧
       s.cfg.opWren = 0x06 ∧ s.cfg.flashModel.attached = true) ∧
      (let s := withOperands 0xFFFFFF 0
          (withFlash { State.reset.flash with wel := true } (at_ [⟨.erase 0xFFFFFF, 0⟩] 0x40 false))
       atRest s = true ∧ runningAt (.erase 0xFFFFFF) [⟨.erase 0xFFFFFF, 0⟩] s = true ∧ (0xFFFFFF : Word).toNat < 2 ^ 24 ∧
         s.seq.addr = 0xFFFFFF ∧ s.flash.wel = true) := by decide
theorem witness_WaitflashRun :
    let s := withFlash { State.reset.flash with wip := true, pending := .erase 0, busyLeft := 1 }
      (at_ [⟨.waitflash, 0⟩] 0x40 false)
    s.cfg.wf = true ∧ quiet s = true ∧ atRest s = true ∧ s.cfg.flashModel = .reference ∧ s.cfg.pollLimit = none ∧
      runningAt .waitflash [⟨.waitflash, 0⟩] s = true ∧ s.flash.wip = true ∧
      runningAt .waitflash [⟨.waitflash, 0⟩] (at_ [⟨.waitflash, 0⟩] 0x40 false) = true := by decide
theorem witness_ProgpageRun :
    let s := withOperands 0xFFF000 4096 (at_ [⟨.progpage 0xFFF000 4096, 0⟩] 0 false)
    s.cfg.wf = true ∧ quiet s = true ∧ s.cfg.flashModel = .reference ∧ s.cfg.pollLimit = none ∧ s.cfg.flashPage = none ∧
      launchPremises s = true ∧ Memory.wf unlistedFlash s.flash.fm = true ∧ (0xFFF000 : Word).toNat < 2 ^ 24 ∧
      (0xFFF000 : Word).toNat % 4096 = 0 ∧ 0 < (4096 : Word).toInt ∧ (4096 : Word).toInt ≤ 4096 ∧
      (4096 : Word).toInt ≤ (s.cfg.bufCap : Int) ∧ s.seq.addr = 0xFFF000 ∧ s.seq.cnt = 4096 ∧ s.seq.err = 0 ∧
      runningAt (.progpage 0xFFF000 4096) [⟨.progpage 0xFFF000 4096, 0⟩] s = true := by decide

/-! ### Runs that end and runs that do not -/

theorem reaches_fixed {s t : State} {n : Nat} (h : step s = .next s) (r : Reaches s n t) : t = s := by
  induction n with
  | zero => exact (reaches_zero_iff.1 r).symm
  | succ n ih =>
    obtain ⟨u, hu, hr⟩ := reaches_succ_iff.1 r
    rw [h] at hu
    cases hu
    exact ih hr

/-- WAITDONE just accepted, a transfer in flight. -/
def waiting : State := withFly 4 0 (at_ [⟨.waitdone, 0⟩] 0x4E true)

/-- WAITDONE just accepted, the smallest poll limit, nothing in flight, DONE clear. -/
def limited : State := withCfg { refCfg with pollLimit := some 1 } (at_ [⟨.waitdone, 0⟩] 0x40 false)

/-- A prompt schedule is fair to the engine and to the sequencer: the transfer completes, then WAITDONE finds DONE set. -/
theorem witness_WaitsEndOrHang_inFlight :
    waiting.cfg.wf = true ∧ runningAt .waitdone [⟨.waitdone, 0⟩] waiting = true ∧ waiting.chip.fly ≠ none ∧
      EngineFair waiting ∧ SequencerFair waiting := by
  obtain ⟨s1, s2, h1, h2, h3, f1, f2, b2, n1⟩ : ∃ s1 s2, step waiting = .next s1 ∧ step s1 = .next s2 ∧ step s2 = .next s2 ∧
      s1.chip.fly = none ∧ s2.chip.fly = none ∧ s2.seq.busy = false ∧ (nextTurn s1).1 = .seq :=
    ⟨_, _, rfl, rfl, rfl, rfl, rfl, rfl, rfl⟩
  have cases_ : ∀ n t, Reaches waiting n t → t = waiting ∨ t = s1 ∨ t = s2 := by
    intro n t r
    match n, r with
    | 0, r => exact .inl (reaches_zero_iff.1 r).symm
    | n + 1, r =>
      obtain ⟨u, hu, hr⟩ := reaches_succ_iff.1 r
      rw [h1] at hu; cases hu
      match n, hr with
      | 0, hr => exact .inr (.inl (reaches_zero_iff.1 hr).symm)
      | n + 1, hr =>
        obtain ⟨u, hu, hr⟩ := reaches_succ_iff.1 hr
        rw [h2] at hu; cases hu
        exact .inr (.inr (reaches_fixed h3 hr))
  have one : Reaches waiting 1 s1 := reaches_succ_iff.2 ⟨s1, h1, Reaches.zero s1⟩
  refine ⟨test_cfg_ref, rfl, by decide, ?_, ?_⟩
  · intro n t r hf _
    rcases cases_ n t r with rfl | rfl | rfl
    · exact ⟨1, s1, one, f1⟩
    · exact absurd f1 hf
    · exact absurd f2 hf
  · intro n t r hb
    rcases cases_ n t r with rfl | rfl | rfl
    · exact ⟨1, s1, one, .inr (.inl n1)⟩
    · exact ⟨0, _, Reaches.zero _, .inr (.inl n1)⟩
    · rw [b2] at hb; cases hb

theorem witness_WaitsEndOrHang_limit :
    limited.cfg.wf = true ∧ runningAt .waitdone [⟨.waitdone, 0⟩] limited = true ∧ limited.cfg.pollLimit = some 1 ∧
      SequencerFair limited := by
  obtain ⟨s1, h1, h2, b1⟩ : ∃ s1, step limited = .next s1 ∧ step s1 = .next s1 ∧ s1.seq.busy = false := ⟨_, rfl, rfl, rfl⟩
  refine ⟨by decide, rfl, rfl, ?_⟩
  intro n t r hb
  match n, r with
  | 0, r => exact ⟨0, t, Reaches.zero t, .inr (.inl (by rw [← reaches_zero_iff.1 r]; rfl))⟩
  | n + 1, r =>
    obtain ⟨u, hu, hr⟩ := reaches_succ_iff.1 r
    rw [h1] at hu; cases hu
    rw [reaches_fixed h2 hr, b1] at hb; cases hb

/-- WAITFLASH just accepted, from rest. -/
def waitingFlash : State := at_ [⟨.waitflash, 0⟩] 0x40 false

/-- What the premises need of one state of a run: the flash is not busy, the next step lands a transfer in flight, and the sequencer
has the next turn or the one after it. -/
def promptAt (s : State) : Bool :=
  !s.flash.wip &&
    match step s with
    | .next t =>
      (s.chip.fly.isNone || t.chip.fly.isNone) &&
        (!s.seq.busy || decide ((nextTurn s).1 = .seq) || decide ((nextTurn t).1 = .seq))
    | _ => false

/-- A run of 18 steps, prompt at each, to an end it does not leave. -/
def promptRun (s : State) : Prop :=
  (∀ n ∈ List.range 18, (afterState (Host.Core.run Sys2Proof.core n s)).all promptAt = true) ∧
    (afterState (Host.Core.run Sys2Proof.core 18 s)).all
      (fun t => promptAt t && decide (afterState (step t) = some t)) = true

/-- Such a run is fair to the engine, the flash and the sequencer. -/
theorem fair_of_promptRun {s : State} (h : promptRun s) : EngineFair s ∧ FlashFair s ∧ SequencerFair s := by
  have every : ∀ n t, Reaches s n t → promptAt t = true := by
    intro n t r
    by_cases hn : n < 18
    · simpa [afterState, show Host.Core.run Sys2Proof.core n s = .next t from r] using h.1 n (List.mem_range.2 hn)
    · obtain ⟨m, rfl⟩ : ∃ m, n = 18 + m := ⟨n - 18, by omega⟩
      obtain ⟨e, r1, r2⟩ := reaches_add_iff.1 r
      have h := h.2
      rw [show Host.Core.run Sys2Proof.core 18 s = .next e from r1] at h
      have h' : (promptAt e && decide (afterState (step e) = some e)) = true := h
      simp only [Bool.and_eq_true, decide_eq_true_eq] at h'
      have hs : step e = .next e := by
        have := h'.2
        unfold afterState at this
        split at this
        · next u hu => cases this; exact hu
        · cases this
      exact reaches_fixed hs r2 ▸ h'.1
  have after : ∀ s, promptAt s = true → s.flash.wip = false ∧ ∃ t, step s = .next t ∧ (s.chip.fly = none ∨ t.chip.fly = none) ∧
      (s.seq.busy = false ∨ (nextTurn s).1 = .seq ∨ (nextTurn t).1 = .seq) := by
    intro s h
    unfold promptAt at h
    split at h
    · next t ht => exact ⟨by simp_all, t, ht, by simp_all, by simp_all [or_assoc]⟩
    · simp at h
  refine ⟨?_, ?_, ?_⟩
  · intro n t r hf _
    obtain ⟨_, u, hu, hc, _⟩ := after t (every n t r)
    exact ⟨1, u, reaches_succ_iff.2 ⟨u, hu, Reaches.zero u⟩, hc.resolve_left hf⟩
  · intro n t r hw
    rw [(after t (every n t r)).1] at hw
    cases hw
  · intro n t r hb
    obtain ⟨_, u, hu, _, hc⟩ := after t (every n t r)
    rcases hc with hc | hc | hc
    · rw [hb] at hc; cases hc
    · exact ⟨0, t, Reaches.zero t, .inr (.inl hc)⟩
    · exact ⟨1, u, reaches_succ_iff.2 ⟨u, hu, Reaches.zero u⟩, .inr (.inl hc)⟩

theorem witness_WaitsEndOrHang_waitflash :
    waitingFlash.cfg.wf = true ∧ atRest waitingFlash = true ∧ waitingFlash.cfg.flashModel.attached = true ∧
      runningAt .waitflash [⟨.waitflash, 0⟩] waitingFlash = true ∧ EngineFair waitingFlash ∧ FlashFair waitingFlash ∧
      SequencerFair waitingFlash :=
  ⟨by decide, by decide, by decide, by decide, fair_of_promptRun ⟨by decide, by decide⟩⟩

/-- WAITFLASH just accepted, the smallest poll limit, no device on a line of ones. -/
def limitedFlash : State := withCfg { absentCfg (some 0xFF) with pollLimit := some 1 } waitingFlash

theorem witness_WaitsEndOrHang_waitflash_limit :
    limitedFlash.cfg.wf = true ∧ atRest limitedFlash = true ∧ limitedFlash.cfg.pollLimit = some 1 ∧
      runningAt .waitflash [⟨.waitflash, 0⟩] limitedFlash = true ∧ SequencerFair limitedFlash :=
  ⟨by decide, by decide, rfl, by decide, (fair_of_promptRun ⟨by decide, by decide⟩).2.2⟩

/-- An engine that gets no turn, with a transfer in flight and without; and the absent device of V-WF-3. -/
theorem witness_WaitsEndOrHang_hangs :
    (∀ s ∈ [withLater (.cycle .seq []) (withFly 4 0 (at_ [⟨.waitdone, 0⟩] 0x4E true)),
        withLater (.cycle .seq []) (at_ [⟨.waitdone, 0⟩] 0x40 false)],
      s.cfg.wf = true ∧ runningAt .waitdone [⟨.waitdone, 0⟩] s = true ∧ s.cfg.pollLimit = none ∧
        doneFlag s.cfg s.chip.spictl = false ∧ s.env.sched = [] ∧ s.env.later = .cycle .seq []) ∧
      (let s := withCfg (absentCfg (some 0xFF)) (at_ [⟨.waitflash, 0⟩] 0x40 false)
       s.cfg.wf = true ∧ quiet s = true ∧ atRest s = true ∧ s.cfg.pollLimit = none ∧
         s.cfg.flashModel = .absent (some 0xFF) ∧ (0xFF : Byte).getLsbD 0 = true ∧
         runningAt .waitflash [⟨.waitflash, 0⟩] s = true) := by decide

end Sys2Proof.Machine.Tests
end

section
/-! PROOFS. How an operation begins, and which descriptors the block refuses when the host issues them (spec/30_encoding.md R79, R80). -/

namespace Sys2Proof.Machine

open Sys2Proof

/-! ### The beginning of an operation -/

/-- The operations that begin with a read of SPICTL are the sequencer's. -/
theorem isCommand_of_beginsWithRead {i : Instr} (h : beginsWithRead i = true) : i.isCommand = true := by
  cases i with
  | flashRdsr rest => cases h
  | flashWren => cases h
  | flashSe a => cases h
  | flashPp a data => cases h
  | _ => rfl

/-- Settles O18: the operation in progress is at its first label, where `microStep_begins` says what it does. -/
theorem operationsBegin : Obligations.OperationsBegin := by
  intro i s hw hb hr
  obtain ⟨he, hp, hf⟩ := exec_top (isCommand_of_beginsWithRead hb) hr
  exact he.trans (microStep_begins (facts_of_wf hw) hf hb hp)

/-! ### Descriptors that the decoder rejects -/

theorem byteOperand_eq_none {a : Word} (h : 2 ^ 8 ≤ a.toNat) : byteOperand a = none := if_neg (Nat.not_lt.mpr h)

theorem modeOfIndex_eq_none {a : Word} (h : 4 ≤ a.toNat) : modeOfIndex a = none := by
  unfold modeOfIndex
  split
  case h_5 => rfl
  all_goals omega

theorem addrFits_eq_false {a : Word} (h : 2 ^ 24 ≤ a.toNat) : addrFits a = false := decide_eq_false (Nat.not_lt.mpr h)

theorem decodeDescriptor_reserved {d : BitVec 68}
    (h : descOp d = 0x0 ∨ descOp d = 0xD ∨ descOp d = 0xE ∨ descOp d = 0xF) :
    decodeDescriptor d = .error .reservedOp := by
  rcases h with h | h | h | h <;> simp [decodeDescriptor, h]

theorem decodeDescriptor_byteRange {d : BitVec 68} (h : descOp d = 0x1 ∨ descOp d = 0x2 ∨ descOp d = 0x9)
    (ha : 2 ^ 8 ≤ (descA0 d).toNat) : decodeDescriptor d = .error .operandRange := by
  rcases h with h | h | h <;> simp [decodeDescriptor, h, byteOperand_eq_none ha]

theorem decodeDescriptor_modeRange {d : BitVec 68} (h : descOp d = 0x5) (ha : 4 ≤ (descA0 d).toNat) :
    decodeDescriptor d = .error .operandRange := by
  simp [decodeDescriptor, h, modeOfIndex_eq_none ha]

theorem decodeDescriptor_addrRange {d : BitVec 68} (h : descOp d = 0xA ∨ descOp d = 0xC)
    (ha : 2 ^ 24 ≤ (descA0 d).toNat) : decodeDescriptor d = .error .operandRange := by
  rcases h with h | h <;> simp [decodeDescriptor, h, addrFits_eq_false ha]

theorem decodeDescriptor_setcnt {d : BitVec 68} (h : descOp d = 0x6) :
    decodeDescriptor d = .ok (.setcnt (descA0 d)) := by
  simp [decodeDescriptor, h]

theorem decodeDescriptor_progpage {d : BitVec 68} (h : descOp d = 0xC) (ha : addrFits (descA0 d) = true) :
    decodeDescriptor d = .ok (.progpage (descA0 d) (descA1 d)) := by
  simp [decodeDescriptor, h, ha]

/-! ### The host's issue of a descriptor -/

section Issue

variable {s : State} {d : BitVec 68} {rest : List HostMove} (hw : s.cfg.wf = true) (ht : (nextTurn s).1 = .host)
  (hb : s.seq.busy = false) (hm : s.host.moves = .issue d :: rest)

include hw ht hm in
/-- The host's turn, its first move a descriptor (R45 (b)). -/
theorem step_issue : step s = hostIssue d rest (nextTurn s).2 := by
  simp [step_of_wf s hw, ht, takeTurn, hostTurn, hm]

include hw ht hb hm

/-- A descriptor the decoder rejects is refused (R80). -/
theorem step_issue_rejected {e : Reject} (hd : decodeDescriptor d = .error e) :
    step s = .refused (refusalOfReject e) := by
  rw [step_issue hw ht hm]
  simp [hostIssue, hb, hd]

/-- An operation whose operands break R79 or R132 is refused at acceptance. -/
theorem step_issue_illFormed {i : Instr} (hd : decodeDescriptor d = .ok i) (hi : i.wf s.cfg = false) :
    step s = .refused (refusalOf i) := by
  rw [step_issue hw ht hm]
  simp [hostIssue, hb, hd, exec_command _ (decodeDescriptor_isCommand hd), operate, accept, hi]

end Issue

/-- Settles O9: the decoder rejects the reserved codes and the byte, mode and address operands out of range; acceptance
refuses the counts of SETCNT and PROGPAGE, which the configuration bounds. -/
theorem illFormedCommandsRefused : Obligations.IllFormedCommandsRefused := by
  refine ⟨fun s hw => by simp [step, hw], fun s d rest hw ht hb hm => ⟨?_, ?_, ?_, ?_, ?_, ?_⟩⟩
  · exact fun ho => step_issue_rejected hw ht hb hm (decodeDescriptor_reserved ho)
  · exact fun ho ha => step_issue_rejected hw ht hb hm (decodeDescriptor_byteRange ho ha)
  · exact fun ho ha => step_issue_rejected hw ht hb hm (decodeDescriptor_modeRange ho ha)
  · intro ho ha
    have hi : (Instr.setcnt (descA0 d)).wf s.cfg = false := decide_eq_false (Nat.not_lt.mpr ha)
    exact step_issue_illFormed hw ht hb hm (decodeDescriptor_setcnt ho) hi
  · exact fun ho ha => step_issue_rejected hw ht hb hm (decodeDescriptor_addrRange ho ha)
  · intro ho ha hn
    have hfit : addrFits (descA0 d) = true := decide_eq_true ha
    have hcount : byteCountFits s.cfg (descA1 d) = false := decide_eq_false (Int.not_le.mpr hn)
    rw [step_issue_illFormed hw ht hb hm (decodeDescriptor_progpage ho hfit) (by simp [Instr.wf, hcount])]
    simp [refusalOf, hfit]

end Sys2Proof.Machine
end

section
/-! PROOFS. The invariant of PROGPAGE's data loop (spec/43_page_program.md R132, R135, R54), over every step. `BufferInv` speaks of the
bottom frame only, and every micro-step either leaves that frame alone, moves it to its next label, or drops it. So it is enough
that the bottom frame satisfies the invariant at its label and at the next one (`BottomSafe`), which every micro-step outside the data
loop's own tests starts from. -/

namespace Sys2Proof.Machine

open Sys2Proof

/-! ### The invariant, frame by frame -/

/-- What `BufferInv` asks of the bottom frame `f`. -/
def ChunkOk (s : State) (f : Frame) : Prop :=
  ∀ a n, f.op = .progpage a n →
    s.seq.cnt.toInt ≤ (s.cfg.bufCap : Int) ∧
    (13 ≤ f.label → f.label ≤ 18 → 0 ≤ s.seq.idx.toInt ∧ s.seq.idx.toInt % 4 = 0) ∧
    (14 ≤ f.label → f.label ≤ 18 → s.seq.idx.toInt < s.seq.cnt.toInt)

theorem bufferInv_iff {s : State} : BufferInv s ↔ ∀ f, s.seq.pc.getLast? = some f → ChunkOk s f :=
  ⟨fun h f hf a n ho => h f a n hf ho, fun h f a n hf ho => h f hf a n ho⟩

theorem bufferInv_of_idle {s : State} (h : s.seq.pc = []) : BufferInv s :=
  bufferInv_iff.mpr fun f hf => by simp [h] at hf

/-- The registers and the configuration of which `ChunkOk` speaks are the same. -/
def SameChunk (s t : State) : Prop := t.cfg = s.cfg ∧ t.seq.cnt = s.seq.cnt ∧ t.seq.idx = s.seq.idx

theorem ChunkOk.congr {s t : State} {f : Frame} (h : ChunkOk s f) (e : SameChunk s t) : ChunkOk t f := by
  obtain ⟨hc, hn, hi⟩ := e
  simpa only [ChunkOk, hc, hn, hi] using h

theorem chunkOk_of_ne_progpage {s : State} {f : Frame} (h : ∀ a n, f.op ≠ .progpage a n) : ChunkOk s f :=
  fun a n ho => absurd ho (h a n)

/-- Outside the data loop the invariant asks for the count only. -/
theorem ChunkOk.outside {s : State} {f : Frame} (h : ChunkOk s f) {l : Nat} (hl : l ≤ 12 ∨ 19 ≤ l) :
    ChunkOk s { f with label := l } := fun a n ho =>
  ⟨(h a n ho).1, fun (_ : 13 ≤ l) (_ : l ≤ 18) => by omega, fun (_ : 14 ≤ l) (_ : l ≤ 18) => by omega⟩

/-- The next label asks for no more, but at the labels that enter the data loop and test for the next chunk. -/
theorem ChunkOk.next {s : State} {f : Frame} (h : ChunkOk s f) (h12 : f.label ≠ 12) (h13 : f.label ≠ 13) :
    ChunkOk s { f with label := f.label + 1 } := fun a n ho => by
  obtain ⟨hc, hi, hlt⟩ := h a n ho
  exact ⟨hc, fun (_ : 13 ≤ f.label + 1) (_ : f.label + 1 ≤ 18) => hi (by omega) (by omega),
    fun (_ : 14 ≤ f.label + 1) (_ : f.label + 1 ≤ 18) => hlt (by omega) (by omega)⟩

/-! ### Stacks whose bottom frame may stay or move to its next label -/

/-- The invariant holds of the bottom frame of `pc`, where it stands and at its next label. -/
def BottomOk (s : State) (pc : List Frame) : Prop :=
  ∀ f, pc.getLast? = some f → ChunkOk s f ∧ ChunkOk s { f with label := f.label + 1 }

/-- The invariant holds of the bottom frame of the state, where it stands and at its next label. -/
def BottomSafe (s : State) : Prop := BottomOk s s.seq.pc

theorem getLast?_cons_cases {g b : Frame} {callers : List Frame} (h : (g :: callers).getLast? = some b) :
    (callers = [] ∧ b = g) ∨ callers.getLast? = some b := by
  cases callers with
  | nil => exact .inl ⟨rfl, by simpa using h.symm⟩
  | cons f rest => exact .inr (by simpa using h)

theorem getLast?_cons_of_getLast? {b : Frame} {callers : List Frame} (g : Frame) (h : callers.getLast? = some b) :
    (g :: callers).getLast? = some b := by
  simp [List.getLast?_cons, h]

theorem BottomOk.congr {s t : State} {pc : List Frame} (h : BottomOk s pc) (e : SameChunk s t) : BottomOk t pc :=
  fun f hf => ⟨(h f hf).1.congr e, (h f hf).2.congr e⟩

theorem BottomOk.tail {s : State} {f : Frame} {callers : List Frame} (h : BottomOk s (f :: callers)) :
    BottomOk s callers := fun b hb => h b (getLast?_cons_of_getLast? f hb)

theorem BottomOk.cons {s : State} {g : Frame} {callers : List Frame} (h : BottomOk s callers)
    (hg : callers = [] → ChunkOk s g ∧ ChunkOk s { g with label := g.label + 1 }) : BottomOk s (g :: callers) := by
  intro b hb
  rcases getLast?_cons_cases hb with ⟨hn, rfl⟩ | hb
  · exact hg hn
  · exact h b hb

theorem BottomSafe.bufferInv {s : State} (h : BottomSafe s) : BufferInv s := bufferInv_iff.mpr fun f hf => (h f hf).1

/-- With the top frame replaced by `g`, the invariant is asked of `g` only where `g` is the bottom frame itself. -/
theorem BottomOk.bufferInv_setPc {s : State} {g : Frame} {callers : List Frame} (h : BottomOk s callers)
    (hg : callers = [] → ChunkOk s g) : BufferInv (setPc (g :: callers) s) := by
  refine bufferInv_iff.mpr fun b hb => ?_
  rcases getLast?_cons_cases hb with ⟨hn, rfl⟩ | hb
  · exact hg hn
  · exact (h b hb).1

theorem BottomSafe.congr {s t : State} (h : BottomSafe s) (hc : t.cfg = s.cfg) (hq : t.seq = s.seq) : BottomSafe t := by
  rw [BottomSafe, hq]
  exact BottomOk.congr h ⟨hc, by rw [hq], by rw [hq]⟩

/-- A call leaves the frames below as they are; no operation calls PROGPAGE. -/
theorem BottomSafe.pushFrame {s : State} (h : BottomSafe s) {op : Instr} (ho : ∀ a n, op ≠ .progpage a n) :
    BottomSafe (pushFrame op s) :=
  BottomOk.cons h fun _ => ⟨chunkOk_of_ne_progpage ho, chunkOk_of_ne_progpage ho⟩

/-- The top frame may go to a label outside the data loop. -/
theorem BottomSafe.gotoLabel {s : State} (h : BottomSafe s) {l : Nat} (hl : l ≤ 11 ∨ 19 ≤ l) :
    BottomSafe (gotoLabel l s) := by
  unfold Machine.gotoLabel
  split
  · exact h
  · next f callers hp =>
    have hs : BottomOk s (f :: callers) := hp ▸ h
    refine BottomOk.cons hs.tail fun hn => ?_
    have hf : ChunkOk s f := (hs f (by simp [hn])).1
    exact ⟨hf.outside (by omega), hf.outside (l := l + 1) (by omega)⟩

/-- The top frame's next label keeps the invariant. -/
theorem BottomSafe.nextLabel {s : State} (h : BottomSafe s) : BufferInv (nextLabel s) := by
  unfold Machine.nextLabel
  split
  · exact h.bufferInv
  · next f callers hp =>
    have hs : BottomOk s (f :: callers) := hp ▸ h
    exact hs.tail.bufferInv_setPc fun hn => (hs f (by simp [hn])).2

/-! ### Returns -/

theorem sameChunk_afterCall (f : Frame) (callers : List Frame) (s : State) : SameChunk s (afterCall f callers s).1 := by
  unfold afterCall
  cases f.op with
  | waitflash =>
    simp only
    split
    · cases callers <;> exact ⟨rfl, rfl, rfl⟩
    · exact ⟨rfl, rfl, rfl⟩
  | _ => exact ⟨rfl, rfl, rfl⟩

theorem afterCall_progpage_goto {f : Frame} {callers : List Frame} {s t : State} {a n : Word} {l : Nat}
    (ho : f.op = .progpage a n) (h : afterCall f callers s = (t, .goto l)) : l = f.label + 1 := by
  simp only [afterCall, ho, afterProgpage, Prod.mk.injEq] at h
  split at h
  · simpa using h.2.symm
  · simp at h

/-- A return keeps the invariant: it moves the bottom frame at most to its next label. -/
theorem BottomOk.returnTo {callers : List Frame} {s : State} (h : BottomOk s callers) :
    BufferInv (returnTo callers s) := by
  induction callers generalizing s with
  | nil => exact bufferInv_of_idle rfl
  | cons f callers ih =>
    have he := sameChunk_afterCall f callers s
    unfold Machine.returnTo
    split
    · next t l heq =>
      rw [heq] at he
      refine (h.tail.congr he).bufferInv_setPc fun hn a n ho => ?_
      rw [afterCall_progpage_goto (f := f) ho heq]
      exact ((h f (by simp [hn])).2.congr he) a n ho
    · next t heq =>
      rw [heq] at he
      exact ih (h.tail.congr he)
    · exact bufferInv_of_idle rfl

/-! ### Outcomes that keep the invariant and are no refusal for a buffer index -/

/-- A next state keeps `BufferInv`, and a refusal is not that for a buffer index. -/
def StaysInBuffer : Out → Prop
  | .next t => BufferInv t
  | .fault _ => True
  | .refused r => r ≠ .bufferIndex

/-- The end of a frame is never refused (R156 to R163). -/
theorem endFrame_ne_refused (s : State) (e : Refusal) : endFrame s ≠ .refused e := by
  have hu : undefinedFrame s ≠ .refused e := by
    unfold undefinedFrame
    split <;> simp
  rw [endFrame]
  cases decodeFrame s.cfg s.flash.frame with
  | ok i =>
    cases i with
    | flashRdsr rest => exact nofun
    | flashWren => exact nofun
    | flashSe a => exact nofun
    | flashPp a data => exact nofun
    | _ => exact hu
  | error x =>
    cases x with
    | emptyFrame => exact nofun
    | _ => exact hu

/-- The refusals of a change of mode (R145, R154). -/
theorem changeMode_refused {om nm : ModeName} {s : State} {e : Refusal} (h : changeMode om nm s = .refused e) :
    e = .notSelected ∨ e = .byteCount := by
  cases nm with
  | idle =>
    simp only [changeMode, deassertCs] at h
    split at h
    · exact absurd h (endFrame_ne_refused _ e)
    · cases h
  | enable =>
    simp only [changeMode, assertCs] at h
    split at h <;> cases h
  | transfer =>
    simp only [changeMode, startTransfer] at h
    split at h
    · cases h; exact .inl rfl
    · split at h <;> cases h
      exact .inr rfl
  | update =>
    simp only [changeMode, latchUpdate] at h
    split at h <;> cases h
    exact .inl rfl

/-- The refusals of a write transaction (R145, R151, R153, R154): none is for a buffer index. -/
theorem writeReg_refused {r : RegNum} {v : Word} {s : State} {e : Refusal} (h : writeReg r v s = .refused e) :
    e = .msenOff ∨ e = .modeRewritten ∨ e = .notSelected ∨ e = .byteCount := by
  unfold writeReg at h
  split at h
  · cases h
  split at h
  · simp only [writeSpictl] at h
    split at h
    · cases h; exact .inl rfl
    split at h
    · unfold sameMode at h
      split at h <;> cases h <;> exact .inr (.inl rfl)
    · exact .inr (.inr (changeMode_refused h))
  split at h
  · cases h
  split at h <;> cases h

/-! ### The bus primitives -/

/-- A read transaction: the invariant is left to what the sequencer does with the value. -/
theorem iread_stays {r : RegNum} {k : Word → State → Out} {s : State} (h : BottomSafe s)
    (hk : ∀ v u, BottomSafe u → StaysInBuffer (k v u)) : StaysInBuffer (iread r k s) := by
  unfold iread
  split
  · exact bufferInv_of_idle rfl
  · refine hk _ _ (h.congr ?_ ?_) <;> (unfold readReg; split <;> rfl)

/-- A write transaction: the invariant is left to what the sequencer does after it. -/
theorem iwrite_stays {r : RegNum} {v : Word} {k : State → Out} {s : State} (f : Facts s.cfg) (h : BottomSafe s)
    (hk : ∀ u, BottomSafe u → StaysInBuffer (k u)) : StaysInBuffer (iwrite r v k s) := by
  unfold iwrite
  split
  · exact bufferInv_of_idle rfl
  · cases hw : writeReg r v s with
    | next u =>
      have e := (writeReg_cases f hw).side
      exact hk u (h.congr e.cfg e.seq)
    | fault x => trivial
    | refused x =>
      show x ≠ .bufferIndex
      rcases writeReg_refused hw with rfl | rfl | rfl | rfl <;> decide

theorem advance_stays {s : State} (h : BottomSafe s) : StaysInBuffer (advance s) := h.nextLabel

theorem returnOp_stays {s : State} (h : BottomSafe s) : StaysInBuffer (returnOp s) := by
  refine BottomOk.returnTo ?_
  cases hp : s.seq.pc with
  | nil => intro b hb; cases hb
  | cons f callers => exact BottomOk.tail (f := f) (hp ▸ h)

/-- The poll loop's test: return, error, or back to label 1 (R114). -/
theorem testDone_stays {s : State} (h : BottomSafe s) : StaysInBuffer (testDone s) := by
  unfold testDone
  split
  · exact returnOp_stays h
  split
  · exact bufferInv_of_idle rfl
  · exact (h.gotoLabel (.inl (by decide))).bufferInv

/-! ### The micro-steps outside PROGPAGE, and its calls -/

section MicroSteps

variable {s : State} (f : Facts s.cfg) (h : BottomSafe s)

include h

theorem readSpictl_stays : StaysInBuffer (readSpictl s) := iread_stays h fun _ _ hu => advance_stays hu

theorem microIrr_stays (r : RegNum) (l : Nat) : StaysInBuffer (microIrr r l s) :=
  iread_stays h fun _ _ hu => returnOp_stays hu

theorem pollDone_stays : StaysInBuffer (pollDone s) := iread_stays h fun _ _ hu => testDone_stays hu

theorem microWaitdone_stays (l : Nat) : StaysInBuffer (microWaitdone l s) := by
  unfold microWaitdone
  split
  · exact pollDone_stays (s := setDpolls 0 s) h
  · exact pollDone_stays h

theorem callWaitdone_stays : StaysInBuffer (callWaitdone s) := microWaitdone_stays (h.pushFrame (by simp)) 0

theorem callMspien_stays : StaysInBuffer (callMspien s) := readSpictl_stays (h.pushFrame (by simp))

theorem callSetmode_stays (m : ModeName) : StaysInBuffer (callSetmode m s) := readSpictl_stays (h.pushFrame (by simp))

theorem callSetcnt_stays (c : Word) : StaysInBuffer (callSetcnt c s) := readSpictl_stays (h.pushFrame (by simp))

theorem callRdstatus_stays : StaysInBuffer (callRdstatus s) := callSetmode_stays (h.pushFrame (by simp)) .idle

theorem callSendcmd_stays (op : Byte) : StaysInBuffer (callSendcmd op s) :=
  callSetmode_stays (h.pushFrame (by simp)) .idle

theorem callErase_stays : StaysInBuffer (callErase s) := callSetmode_stays (h.pushFrame (by simp)) .idle

theorem microWaitflash_stays (l : Nat) : StaysInBuffer (microWaitflash l s) := by
  unfold microWaitflash
  split
  · exact callRdstatus_stays (BottomSafe.gotoLabel (s := { s with seq := { s.seq with fpolls := 0 } }) h (.inl (by decide)))
  · exact callRdstatus_stays h

theorem callWaitflash_stays : StaysInBuffer (callWaitflash s) := microWaitflash_stays (h.pushFrame (by simp)) 0

include f

theorem microIrw_stays (r : RegNum) (v : Word) (l : Nat) : StaysInBuffer (microIrw r v l s) :=
  iwrite_stays f h fun _ hu => returnOp_stays hu

theorem microMspien_stays (l : Nat) : StaysInBuffer (microMspien l s) := by
  unfold microMspien
  split
  · exact readSpictl_stays h
  · exact iwrite_stays f h fun _ hu => returnOp_stays hu

theorem microMspidis_stays (l : Nat) : StaysInBuffer (microMspidis l s) := by
  unfold microMspidis
  split
  · exact readSpictl_stays h
  · exact iwrite_stays f h fun _ hu => returnOp_stays hu

theorem microSetmode_stays (m : ModeName) (l : Nat) : StaysInBuffer (microSetmode m l s) := by
  unfold microSetmode
  split
  · exact readSpictl_stays h
  · exact iwrite_stays f h fun _ hu => returnOp_stays hu

theorem microSetcnt_stays (c : Word) (l : Nat) : StaysInBuffer (microSetcnt c l s) := by
  unfold microSetcnt
  split
  · exact readSpictl_stays h
  · exact iwrite_stays f h fun _ hu => advance_stays hu
  · exact callSetmode_stays h .transfer

theorem sendWord_stays (w : Word) : StaysInBuffer (sendWord w s) :=
  iwrite_stays (s := { s with seq := { s.seq with word := w } }) f h fun _ hu => advance_stays hu

theorem microRdstatus_stays (l : Nat) : StaysInBuffer (microRdstatus l s) := by
  unfold microRdstatus
  split
  · exact callSetmode_stays h .idle
  · exact callSetmode_stays h .enable
  · exact sendWord_stays f h _
  · exact callSetcnt_stays h 3
  · exact callWaitdone_stays h
  · exact callSetmode_stays h .update
  · exact callSetmode_stays h .transfer
  · exact callWaitdone_stays h
  · exact iread_stays h fun _ _ hu => returnOp_stays hu

theorem microSendcmd_stays (op : Byte) (l : Nat) : StaysInBuffer (microSendcmd op l s) := by
  unfold microSendcmd
  split
  · exact callSetmode_stays h .idle
  · exact callSetmode_stays h .enable
  · exact sendWord_stays f h _
  · exact callSetcnt_stays h _
  · exact callWaitdone_stays h
  · exact callSetmode_stays h .idle

theorem microErase_stays (l : Nat) : StaysInBuffer (microErase l s) := by
  unfold microErase
  split
  · exact callSetmode_stays h .idle
  · exact callSetmode_stays h .enable
  · exact sendWord_stays f h _
  · exact callSetcnt_stays h _
  · exact callWaitdone_stays h
  · exact callSetmode_stays h .idle

end MicroSteps

/-! ### The data loop of PROGPAGE (R131, R135) -/

/-- PROGPAGE's frame is the only one, its count fits the buffer, and `IDX` is a multiple of 4 not below 0: what the loop test
starts from. -/
structure AtLoopTest (a n : Word) (l : Nat) (s : State) : Prop where
  pc : s.seq.pc = [⟨.progpage a n, l⟩]
  cnt : s.seq.cnt.toInt ≤ (s.cfg.bufCap : Int)
  idx_nonneg : 0 ≤ s.seq.idx.toInt
  idx_mod : s.seq.idx.toInt % 4 = 0

section Loop

variable {a n : Word} {l : Nat} {s : State} (f : Facts s.cfg)

theorem AtLoopTest.gotoLabel_eq (h : AtLoopTest a n l s) (k : Nat) :
    gotoLabel k s = setPc [⟨.progpage a n, k⟩] s := by simp [gotoLabel, h.pc]

theorem AtLoopTest.chunkOk (h : AtLoopTest a n l s) {k : Nat}
    (hk : k ≤ 13 ∨ 19 ≤ k ∨ s.seq.idx.toInt < s.seq.cnt.toInt) : ChunkOk s ⟨.progpage a n, k⟩ := fun _ _ _ =>
  ⟨h.cnt, fun _ _ => ⟨h.idx_nonneg, h.idx_mod⟩, fun (_ : 14 ≤ k) (_ : k ≤ 18) => by omega⟩

/-- PROGPAGE's frame may go to a label after the data loop, and to any label where `IDX` is below the count. -/
theorem AtLoopTest.safe_gotoLabel (h : AtLoopTest a n l s) {k : Nat}
    (hk : 19 ≤ k ∨ s.seq.idx.toInt < s.seq.cnt.toInt) : BottomSafe (gotoLabel k s) := by
  rw [h.gotoLabel_eq]
  intro b hb
  obtain rfl : ⟨.progpage a n, k⟩ = b := by simpa using hb
  exact ⟨h.chunkOk (by omega), h.chunkOk (k := k + 1) (by omega)⟩

include f

/-- `PP.14` reads four bytes inside the buffer: `IDX` and the capacity are multiples of 4. -/
theorem AtLoopTest.progpageWord_stays (h : AtLoopTest a n l s) (hlt : s.seq.idx.toInt < s.seq.cnt.toInt) :
    StaysInBuffer (progpageWord s) := by
  have ⟨_, hcnt, hnn, hmod⟩ := h
  have hin : s.seq.idx.toNat + 3 < s.cfg.bufCap := by
    have hcap := f.cap_mod
    have hi : s.seq.idx.toInt = s.seq.idx.toNat := BitVec.toInt_eq_toNat_of_lt (BitVec.toInt_pos_iff.mp hnn)
    omega
  simp only [progpageWord]
  rw [if_pos hin]
  refine sendWord_stays ?_ (h.safe_gotoLabel (.inr hlt)) _
  rwa [h.gotoLabel_eq]

theorem AtLoopTest.progpageTest_stays (h : AtLoopTest a n l s) : StaysInBuffer (progpageTest s) := by
  unfold progpageTest
  split
  · next hm => exact h.progpageWord_stays f (by simpa [moreChunks] using hm)
  · exact callWaitflash_stays (h.safe_gotoLabel (.inl (by decide)))

/-- `PP.18`: `IDX + 4` does not wrap, because `IDX` is below the capacity, a multiple of 4 below `2^31` (R13). -/
theorem AtLoopTest.progpageNext_stays (h : AtLoopTest a n l s) (hlt : s.seq.idx.toInt < s.seq.cnt.toInt) :
    StaysInBuffer (progpageNext s) := by
  obtain ⟨hpc, hcnt, hnn, hmod⟩ := h
  have hadd : (s.seq.idx + 4).toInt = s.seq.idx.toInt + 4 := by
    have hm := f.cap_mod
    have hc := f.cap_lt
    rw [BitVec.toInt_add]
    show (s.seq.idx.toInt + 4).bmod (2 ^ 32) = _
    rw [Int.bmod_eq_of_le (by omega) (by omega)]
  have ht : AtLoopTest a n l (setIdx (s.seq.idx + 4) s) :=
    ⟨hpc, hcnt, by rw [setIdx_seq, hadd]; omega, by rw [setIdx_seq, hadd]; omega⟩
  exact ht.progpageTest_stays f

end Loop

/-- A micro-step of PROGPAGE, its frame the only one. -/
theorem microProgpage_stays {a n : Word} {l : Nat} {s : State} (f : Facts s.cfg) (h : BufferInv s)
    (hp : s.seq.pc = [⟨.progpage a n, l⟩]) : StaysInBuffer (microProgpage l s) := by
  obtain ⟨hcnt, hidx, hlt⟩ := h ⟨.progpage a n, l⟩ a n (by simp [hp]) rfl
  simp only at hidx hlt
  have hok : ChunkOk s ⟨.progpage a n, l⟩ := bufferInv_iff.mp h _ (by simp [hp])
  have hsafe : l ≠ 12 → l ≠ 13 → BottomSafe s := fun h12 h13 b hb => by
    rw [hp] at hb
    cases hb
    exact ⟨hok, hok.next h12 h13⟩
  have hloop : 13 ≤ l → l ≤ 18 → AtLoopTest a n l s := fun h1 h2 => ⟨hp, hcnt, (hidx h1 h2).1, (hidx h1 h2).2⟩
  unfold microProgpage
  split
  · exact callMspien_stays (hsafe (by decide) (by decide))
  · have hs := hsafe (by decide) (by decide)
    split
    · exact callWaitflash_stays (hs.gotoLabel (.inl (by decide)))
    · exact callWaitflash_stays (hs.gotoLabel (.inl (by decide)))
  · exact callWaitflash_stays (hsafe (by decide) (by decide))
  · exact callSendcmd_stays (hsafe (by decide) (by decide)) _
  · exact callErase_stays (hsafe (by decide) (by decide))
  · exact callWaitflash_stays (hsafe (by decide) (by decide))
  · exact callSendcmd_stays (hsafe (by decide) (by decide)) _
  · exact callSetmode_stays (hsafe (by decide) (by decide)) .idle
  · exact callSetmode_stays (hsafe (by decide) (by decide)) .enable
  · exact sendWord_stays f (hsafe (by decide) (by decide)) _
  · exact callSetcnt_stays (hsafe (by decide) (by decide)) 3
  · exact callWaitdone_stays (hsafe (by decide) (by decide))
  · exact AtLoopTest.progpageTest_stays (s := setIdx 0 s) f ⟨hp, hcnt, by simp, by simp⟩
  · exact (hloop (by decide) (by decide)).progpageTest_stays f
  · exact (hloop (by decide) (by decide)).progpageWord_stays f (hlt (by decide) (by decide))
  · exact callSetmode_stays (hsafe (by decide) (by decide)) .enable
  · exact callSetmode_stays (hsafe (by decide) (by decide)) .transfer
  · split
    · exact callWaitdone_stays (hsafe (by decide) (by decide))
    · exact (hloop (by decide) (by decide)).progpageNext_stays f (hlt (by decide) (by decide))
  · exact (hloop (by decide) (by decide)).progpageNext_stays f (hlt (by decide) (by decide))
  · exact callWaitflash_stays ((hsafe (by omega) (by omega)).gotoLabel (.inr (by decide)))

/-! ### Any micro-step of a legal control state -/

/-- The bottom frame of a stack of two frames or more waits at a label that calls (R24 (b)). -/
theorem callsOk_bottom {c : Cfg} {f g b : Frame} {rest : List Frame} (h : callsOk c (f :: g :: rest) = true)
    (hb : (g :: rest).getLast? = some b) : ∃ i, calleeAt c b = some i := by
  induction rest generalizing f g with
  | nil =>
    simp only [callsOk, Bool.and_eq_true, decide_eq_true_eq] at h
    cases hb
    exact ⟨_, h.1⟩
  | cons g' rest ih =>
    rw [callsOk, Bool.and_eq_true] at h
    exact ih h.2 (by simpa using hb)

/-- With another operation than PROGPAGE at the top, PROGPAGE's frame waits at a call, and no call is at a label that enters the
data loop or tests for the next chunk. -/
theorem safe_of_top {f : Frame} {callers : List Frame} {s : State} (hb : BufferInv s)
    (hc : callsOk s.cfg (f :: callers) = true) (hp : s.seq.pc = f :: callers) (ho : ∀ a n, f.op ≠ .progpage a n) :
    BottomSafe s := by
  intro b hl
  have hok := bufferInv_iff.mp hb b hl
  refine ⟨hok, ?_⟩
  rw [hp] at hl
  cases callers with
  | nil =>
    cases hl
    exact chunkOk_of_ne_progpage ho
  | cons g rest =>
    obtain ⟨i, hi⟩ := callsOk_bottom hc (by simpa using hl)
    obtain ⟨op, l⟩ := b
    intro a n hop
    simp only at hop
    subst hop
    have hl := calleeAt_progpage hi
    exact hok.next (by simp only; omega) (by simp only; omega) a n rfl

theorem microStep_stays {s : State} (f : Facts s.cfg) (hc : callsOk s.cfg s.seq.pc = true) (hb : BufferInv s) :
    StaysInBuffer (microStep s) := by
  cases hp : s.seq.pc with
  | nil =>
    simp only [microStep, hp]
    exact hb
  | cons g callers =>
    rw [hp] at hc
    have hs := safe_of_top hb hc hp
    obtain ⟨op, l⟩ := g
    simp only [microStep, hp]
    cases op with
    | irw r v => exact microIrw_stays f (hs (by simp)) r v l
    | irr r => exact microIrr_stays (hs (by simp)) r l
    | mspien => exact microMspien_stays f (hs (by simp)) l
    | mspidis => exact microMspidis_stays f (hs (by simp)) l
    | setmode m => exact microSetmode_stays f (hs (by simp)) m l
    | setcnt c => exact microSetcnt_stays f (hs (by simp)) c l
    | waitdone => exact microWaitdone_stays (hs (by simp)) l
    | rdstatus => exact microRdstatus_stays f (hs (by simp)) l
    | sendcmd op => exact microSendcmd_stays f (hs (by simp)) op l
    | erase a => exact microErase_stays f (hs (by simp)) l
    | waitflash => exact microWaitflash_stays (hs (by simp)) l
    | progpage a n => exact microProgpage_stays f hb (by rw [hp, progpage_bottom hc])
    | _ => exact hb

/-! ### Every step -/

/-- Acceptance keeps the invariant: a PROGPAGE whose count does not fit the buffer is not accepted (R132 (b)). -/
theorem accept_bufferInv {i : Instr} {s t : State} (h : accept i s = .next t) : BufferInv t := by
  unfold accept at h
  split at h
  · next hw =>
    cases h
    intro f a n hf ho
    obtain rfl : ⟨i, 0⟩ = f := by simpa using hf
    obtain rfl : i = .progpage a n := ho
    simp only [Instr.wf, byteCountFits, Bool.and_eq_true, decide_eq_true_eq] at hw
    exact ⟨hw.2, fun h => by simp at h, fun h => by simp at h⟩
  · cases h

theorem BufferInv.congr {s t : State} (h : BufferInv s) (hc : t.cfg = s.cfg) (hq : t.seq = s.seq) : BufferInv t := by
  simpa only [BufferInv, hc, hq] using h

/-- The operation in progress is one of the sequencer's. -/
theorem isCommand_of_topLevelOp {s : State} {i : Instr} (h : stackOk s = true) (ht : topLevelOp s = some i) :
    i.isCommand = true := by
  simp only [stackOk, Bool.and_eq_true, List.all_eq_true] at h
  simp only [topLevelOp, Option.map_eq_some_iff] at ht
  obtain ⟨f, hf, rfl⟩ := ht
  exact (h.2 f (List.mem_of_getLast? hf)).1

/-- The next step of the operation in progress keeps the invariant. -/
theorem exec_stays {s : State} {i : Instr} (hw : s.cfg.wf = true) (hs : stackOk s = true) (hb : BufferInv s)
    (hbusy : s.seq.busy = true) (ht : topLevelOp s = some i) : StaysInBuffer (exec i s) := by
  rw [exec_running s (isCommand_of_topLevelOp hs ht) hbusy ht]
  simp only [stackOk, Bool.and_eq_true] at hs
  exact microStep_stays (facts_of_wf hw) hs.1 hb

theorem hostDid_bufferInv {u t : State} (h : HostDid u t) (hb : BufferInv u) : BufferInv t := by
  cases h with
  | accepted rest i _ _ _ ha => exact accept_bufferInv ha
  | _ => exact hb

theorem step_bufferInv {s t : State} (hs : stackOk s = true) (hb : BufferInv s) (h : step s = .next t) :
    BufferInv t := by
  obtain ⟨hw, u, e, hc⟩ := step_cases h
  have hu : BufferInv u := hb.congr e.cfg e.seq
  rcases hc with rfl | rfl | rfl | rfl | hd | ⟨hbusy, i, hi, he⟩
  · exact hu.congr (engineCompletes_side u).cfg (engineCompletes_side u).seq
  · exact hu.congr (flashFinishes_side u).cfg (flashFinishes_side u).seq
  · exact bufferInv_of_idle rfl
  · exact hu
  · exact hostDid_bufferInv hd hu
  · have hsu : stackOk u = true := by simpa only [stackOk, e.cfg, e.seq] using hs
    have := exec_stays (e.cfg ▸ hw) hsu hu hbusy hi
    rwa [he] at this

/-- Settles O54: by cases on what a step can do, the micro-steps by `microStep_stays`, which says that none is refused for a buffer
index either. -/
theorem bufferInvKept : Obligations.BufferInvKept := by
  refine ⟨fun s t ⟨_, hs, _⟩ hb h => step_bufferInv hs hb h, fun a n s hw ⟨_, hs, _⟩ hb hbusy hr => ?_⟩
  by_cases ht : topLevelOp s = some (.progpage a n)
  · have h := exec_stays hw hs hb hbusy ht
    rw [hr] at h
    exact h rfl
  · rw [exec_command s rfl, operate, if_pos hbusy, if_neg ht] at hr
    cases hr

end Sys2Proof.Machine
end

section
/-! PROOFS. What a step leaves unchanged (spec/10_state.md R20, R55; spec/44_engine_and_flash.md R140, R142, R168): the frame of a write
transaction in any configuration, of the twelve operations, and of every step. -/

namespace Sys2Proof.Machine

open Sys2Proof

/-! ### A write transaction in any configuration -/

theorem WriteSide.trans {s t u : State} (a : WriteSide s t) (b : WriteSide t u) : WriteSide s u :=
  ⟨b.cfg.trans a.cfg, b.seq.trans a.seq, b.host.trans a.host, b.sched.trans a.sched, b.transport.trans a.transport,
    b.fm.trans a.fm, a.hist.trans b.hist⟩

theorem EndSide.writeSide {s t : State} (e : EndSide s t) : WriteSide s t :=
  ⟨e.cfg, e.seq, e.host, e.sched, e.transport, e.fm, e.hist ▸ List.suffix_rfl⟩

/-- A change of the chip with an event. -/
theorem writeSide_record (s : State) (c : Chip) (e : Event) : WriteSide s (record e { s with chip := c }) :=
  ⟨rfl, rfl, rfl, rfl, rfl, rfl, List.suffix_cons ..⟩

theorem changeMode_side {om nm : ModeName} {s t : State} (h : changeMode om nm s = .next t) : WriteSide s t := by
  cases nm with
  | idle =>
    simp only [changeMode, deassertCs] at h
    split at h
    · exact (writeSide_record ..).trans ((writeSide_record ..).trans (endFrame_cases h).1.writeSide)
    · cases h
      exact (EndSide.refl s).writeSide
  | enable =>
    simp only [changeMode, assertCs] at h
    split at h <;> cases h
    · exact (EndSide.refl s).writeSide
    · exact ⟨rfl, rfl, rfl, rfl, rfl, rfl, List.suffix_cons ..⟩
  | transfer =>
    simp only [changeMode, startTransfer] at h
    split at h
    · cases h
    · split at h <;> cases h
      exact writeSide_record ..
  | update =>
    simp only [changeMode, latchUpdate] at h
    split at h <;> cases h
    exact (EndSide.refl s).writeSide

/-- What no write transaction changes, whatever the configuration. -/
theorem writeReg_side {r : RegNum} {v : Word} {s t : State} (h : writeReg r v s = .next t) : WriteSide s t := by
  unfold writeReg at h
  split at h
  · cases h
  split at h
  · simp only [writeSpictl] at h
    split at h
    · cases h
    split at h
    · unfold sameMode at h
      split at h <;> cases h <;> exact writeSide_record ..
    · exact (writeSide_record ..).trans (changeMode_side h)
  split at h
  · cases h; exact writeSide_record ..
  split at h <;> cases h <;> exact writeSide_record ..

/-- A write takes no transfer out of flight: to a named register it would be the overlap fault (R150). -/
theorem writeReg_fly {r : RegNum} {v : Word} {s t : State} (h : writeReg r v s = .next t) (hf : s.chip.fly ≠ none) :
    t.chip.fly = s.chip.fly := by
  have hsome : s.chip.fly.isSome = true := Option.isSome_iff_ne_none.mpr hf
  unfold writeReg at h
  split at h
  · cases h
  · next hn =>
    have hr : namedReg s.cfg r = false := by simpa [hsome] using hn
    simp only [namedReg, Bool.or_eq_false_iff, beq_eq_false_iff_ne] at hr
    obtain ⟨⟨h1, h2⟩, h3⟩ := hr
    rw [if_neg h1, if_neg h2, if_neg h3] at h
    cases h
    rfl

/-- DONE after a write: as it was, or cleared by the transfer that starts (R30, R142, R145). -/
theorem Written.done {r : RegNum} {v : Word} {s t : State} (f : Facts s.cfg) (h : Written s r v t) :
    doneFlag s.cfg t.chip.spictl = doneFlag s.cfg s.chip.spictl ∨
      (doneFlag s.cfg t.chip.spictl = false ∧ s.chip.fly = none ∧ t.chip.fly ≠ none) := by
  cases h with
  | spitx => exact .inl rfl
  | spirx => exact .inl rfl
  | other => exact .inl rfl
  | stored => exact .inl (doneFlag_keepDone f _ _)
  | selected => exact .inl (doneFlag_keepDone f _ _)
  | started hr hf => exact .inr ⟨doneFlag_clear f _, hf, by simp [transferStarted]⟩
  | ended u _ _ _ _ hu =>
    rw [(endFrame_cases hu).1.chip]
    exact .inl (doneFlag_keepDone f _ _)

/-! ### The operations -/

/-- What no step of an operation changes, and what it may do to a transfer in flight and to DONE. -/
structure OperationSide (s t : State) : Prop where
  cfg : t.cfg = s.cfg
  host : t.host = s.host
  sched : t.env.schedule = s.env.schedule
  fm : t.flash.fm = s.flash.fm
  fly : s.chip.fly ≠ none → t.chip.fly = s.chip.fly
  done : s.cfg.wf = true →
    doneFlag s.cfg t.chip.spictl = doneFlag s.cfg s.chip.spictl ∨
      (doneFlag s.cfg t.chip.spictl = false ∧ s.chip.fly = none ∧ t.chip.fly ≠ none)

theorem Transaction.operationSide {s t : State} (h : Transaction s t) : OperationSide s t := by
  cases h with
  | none => exact ⟨rfl, rfl, rfl, rfl, fun _ => rfl, fun _ => .inl rfl⟩
  | failed => exact ⟨rfl, rfl, rfl, rfl, fun _ => rfl, fun _ => .inl rfl⟩
  | read r =>
    unfold readReg
    split <;> exact ⟨rfl, rfl, rfl, rfl, fun _ => rfl, fun _ => .inl rfl⟩
  | write r v _ h =>
    have e := writeReg_side h
    exact ⟨e.cfg, e.host, e.sched, e.fm, writeReg_fly h,
      fun hw => (writeReg_cases (facts_of_wf hw) h).done (facts_of_wf hw)⟩

/-- What the sequencer does to its own registers before and after the transaction changes nothing of this. -/
theorem OneTransaction.operationSide {s t : State} (h : OneTransaction s t) : OperationSide s t := by
  obtain ⟨a, u, ha, ht, hu⟩ := h
  obtain ⟨cfg, host, sched, fm, fly, done⟩ := ht.operationSide
  refine ⟨hu.cfg.trans (cfg.trans ha.cfg), hu.host.trans (host.trans ha.host), ?_, ?_, ?_, ?_⟩
  · rw [hu.env, sched, ha.env]
  · rw [hu.flash, fm, ha.flash]
  · rw [hu.chip, ← ha.chip]; exact fly
  · rw [hu.chip, ← ha.chip, ← ha.cfg]; exact done

theorem exec_operationSide {i : Instr} {s t : State} (hc : i.isCommand = true) (h : exec i s = .next t) :
    OperationSide s t := (operate_cases (exec_command s hc ▸ h)).operationSide

/-- Settles O45: a step of an operation makes at most one transaction, and `writeReg_side` says what a write leaves unchanged. -/
theorem operationsFrame : Obligations.OperationsFrame := by
  intro i s t hc h
  obtain ⟨cfg, host, sched, fm, fly, done⟩ := exec_operationSide hc h
  obtain ⟨hs, hl⟩ := Prod.mk.inj sched
  exact ⟨cfg, host, hs, hl, fm, fly, done⟩

/-! ### Every step -/

/-- The meaning of any instruction leaves the configuration, the host and the array alone. -/
theorem exec_side {i : Instr} {s t : State} (h : exec i s = .next t) :
    t.cfg = s.cfg ∧ t.host = s.host ∧ t.flash.fm = s.flash.fm := by
  rcases exec_cases h with ⟨_, o⟩ | ⟨_, e, _⟩
  · have e := o.operationSide
    exact ⟨e.cfg, e.host, e.fm⟩
  · exact ⟨e.cfg, e.host, e.fm⟩

/-- The host's move leaves the configuration and the flash alone, and the buffer while an operation runs (R45, R55). -/
theorem HostDid.side {u t : State} (h : HostDid u t) :
    t.cfg = u.cfg ∧ (u.seq.busy = true → t.host.buf = u.host.buf) ∧ t.flash = u.flash := by
  cases h with
  | none => exact ⟨rfl, fun _ => rfl, rfl⟩
  | filled a bytes rest hb => exact ⟨rfl, fun hb' => by simp [hb] at hb', rfl⟩
  | dropped rest => exact ⟨rfl, fun _ => rfl, rfl⟩
  | accepted rest i t hb hc ha =>
    have e := accept_cases ha
    exact ⟨e.cfg, fun _ => by rw [e.host], e.flash⟩

/-- An array that changed is that of a recorded operation that has finished. -/
theorem Progress.of_fm_ne {s t : State} (h : Progress s t) (hne : t.flash.fm ≠ s.flash.fm) :
    s.flash.wip = true ∧ t.flash.wip = false ∧ t.flash.pending = .none ∧
      .flashDone s.flash.pending ∈ t.hist ∧ ∃ k, t.flash.fm = applyPending k s.flash.fm s.flash.pending := by
  cases h with
  | same fm wip pending => exact absurd fm hne
  | finished k was fm wip pending ev => exact ⟨was, wip, pending, ev, k, fm⟩

/-- Settles O44: the engine's completion and the flash's own step are the only ones that may finish a recorded operation. -/
theorem arrayChangesOnlyWhenAnOperationFinishes : Obligations.ArrayChangesOnlyWhenAnOperationFinishes := by
  intro s t h
  obtain ⟨-, u, e, hc⟩ := step_cases h
  rw [← e.cfg, ← e.seq, ← e.host, ← e.flash]
  rcases hc with rfl | rfl | rfl | rfl | hd | ⟨-, i, -, he⟩
  · have c := engineCompletes_side u
    exact ⟨c.cfg, fun _ => by rw [c.host], c.progress.of_fm_ne⟩
  · have c := flashFinishes_side u
    exact ⟨c.cfg, fun _ => by rw [c.host], c.progress.of_fm_ne⟩
  · exact ⟨rfl, fun _ => rfl, fun hne => absurd rfl hne⟩
  · exact ⟨rfl, fun _ => rfl, fun hne => absurd rfl hne⟩
  · obtain ⟨hcfg, hbuf, hflash⟩ := hd.side
    exact ⟨hcfg, hbuf, fun hne => absurd (congrArg Flash.fm hflash) hne⟩
  · obtain ⟨hcfg, hhost, hfm⟩ := exec_side he
    exact ⟨hcfg, fun _ => by rw [hhost], fun hne => absurd hfm hne⟩

end Sys2Proof.Machine
end

section
/-! PROOFS. The control state (spec/10_state.md R22 to R25, R45): every step keeps it legal, and a step of an operation in progress leaves
ADDR, CNT and, but for the operations of R22, RESULT alone. Within a step a micro-program only pushes a frame at a label that calls it,
moves the top frame to another of its labels, or returns: `MidStep` is what holds between these moves. -/

namespace Sys2Proof.Machine

open Sys2Proof

/-! ### Which operation calls which -/

/-- The depth of calls below an operation: it calls operations of lower rank only. The operations that nothing calls have rank 4. -/
def callRank : Instr → Nat
  | .mspien => 0
  | .setmode _ => 0
  | .waitdone => 0
  | .setcnt _ => 1
  | .rdstatus => 2
  | .sendcmd _ => 2
  | .erase _ => 2
  | .waitflash => 3
  | .irw _ _ => 4
  | .irr _ => 4
  | .mspidis => 4
  | .progpage _ _ => 4
  | .flashRdsr _ => 4
  | .flashWren => 4
  | .flashSe _ => 4
  | .flashPp _ _ => 4

theorem callRank_le (i : Instr) : callRank i ≤ 4 := by cases i <;> simp [callRank]

/-- A call is of lower rank than its caller (R113, R121 to R124, R131). -/
theorem calleeAt_rank {c : Cfg} {f : Frame} {i : Instr} (h : calleeAt c f = some i) : callRank i < callRank f.op := by
  obtain ⟨op, l⟩ := f
  cases op with
  | setcnt n => simp [callRank, calleeAt_setcnt h]
  | waitflash => simp [callRank, calleeAt_waitflash h]
  | rdstatus => rcases calleeAt_rdstatus h with h | h | h | h | h | h | h <;> simp [callRank, h]
  | sendcmd op => rcases calleeAt_sendcmd h with h | h | h | h | h <;> simp [callRank, h]
  | erase a => rcases calleeAt_erase h with h | h | h | h | h <;> simp [callRank, h]
  | progpage a n =>
    rcases calleeAt_progpage h with h | h | h | h | h | h | h | h | h | h | h | h | h | h <;> simp [callRank, h]
  | _ => cases h

theorem calleeAt_rank_lt {c : Cfg} {f : Frame} {i : Instr} (h : calleeAt c f = some i) : callRank i < 4 :=
  Nat.lt_of_lt_of_le (calleeAt_rank h) (callRank_le f.op)

/-- Only operations of the sequencer are called. -/
theorem isCommand_of_calleeAt {c : Cfg} {f : Frame} {i : Instr} (h : calleeAt c f = some i) : i.isCommand = true := by
  have hr := calleeAt_rank_lt h
  revert hr
  cases i <;> simp [callRank, Instr.isCommand]

theorem callsOk_cons_cons {c : Cfg} {f g : Frame} {rest : List Frame} :
    callsOk c (f :: g :: rest) = true ↔ calleeAt c g = some f.op ∧ callsOk c (g :: rest) = true := by
  simp [callsOk]

/-- The ranks rise strictly towards the bottom of the stack, and none is above 4. -/
theorem callRank_add_length {c : Cfg} {f : Frame} {callers : List Frame} (h : callsOk c (f :: callers) = true) :
    callRank f.op + callers.length ≤ 4 := by
  induction callers generalizing f with
  | nil => exact callRank_le f.op
  | cons g rest ih =>
    obtain ⟨hg, hr⟩ := callsOk_cons_cons.mp h
    have hlt := calleeAt_rank hg
    have hle := ih hr
    rw [List.length_cons]
    omega

/-! ### Legal stacks -/

/-- The frames `pc` are those of the micro-programs: what `stackOk` asks of the state's own. -/
structure CallStack (c : Cfg) (pc : List Frame) : Prop where
  calls : callsOk c pc = true
  frames : ∀ f ∈ pc, f.op.isCommand = true ∧ f.label ≤ lastLabel f.op

theorem stackOk_iff {s : State} : stackOk s = true ↔ CallStack s.cfg s.seq.pc := by
  simp only [stackOk, Bool.and_eq_true, List.all_eq_true, decide_eq_true_eq]
  exact ⟨fun ⟨a, b⟩ => ⟨a, b⟩, fun ⟨a, b⟩ => ⟨a, b⟩⟩

namespace CallStack

variable {c : Cfg} {f : Frame} {callers : List Frame}

theorem tail (h : CallStack c (f :: callers)) : CallStack c callers := by
  refine ⟨?_, fun g hg => h.frames g (List.mem_cons_of_mem f hg)⟩
  cases callers with
  | nil => rfl
  | cons g rest => exact (callsOk_cons_cons.mp h.calls).2

theorem label_le (h : CallStack c (f :: callers)) : f.label ≤ lastLabel f.op := (h.frames f List.mem_cons_self).2

/-- The top frame may move to any label of its operation. -/
theorem relabel (h : CallStack c (f :: callers)) {l : Nat} (hl : l ≤ lastLabel f.op) :
    CallStack c (⟨f.op, l⟩ :: callers) := by
  refine ⟨?_, List.forall_mem_cons.mpr ⟨⟨(h.frames f List.mem_cons_self).1, hl⟩, h.tail.frames⟩⟩
  cases callers with
  | nil => rfl
  | cons g rest => exact callsOk_cons_cons.mpr (callsOk_cons_cons.mp h.calls)

/-- At a label that calls an operation its frame may be pushed (R24 (b)). -/
theorem push (h : CallStack c (f :: callers)) {op : Instr} (hc : calleeAt c f = some op) :
    CallStack c (⟨op, 0⟩ :: f :: callers) :=
  ⟨callsOk_cons_cons.mpr ⟨hc, h.calls⟩,
    List.forall_mem_cons.mpr ⟨⟨isCommand_of_calleeAt hc, Nat.zero_le _⟩, h.frames⟩⟩

/-- An operation that nothing calls is the bottom frame. -/
theorem bottom (h : CallStack c (f :: callers)) (hr : callRank f.op = 4) : callers = [] := by
  have := callRank_add_length h.calls
  exact List.eq_nil_of_length_eq_zero (by omega)

end CallStack

/-- PROGPAGE finds its address in ADDR (R45): its frame is the bottom one. -/
theorem progpage_addr {s : State} {a n : Word} {l : Nat} {callers : List Frame}
    (hp : s.seq.pc = ⟨.progpage a n, l⟩ :: callers) (hs : stackOk s = true) (hl : operandsLoaded s = true) :
    s.seq.addr = a := by
  have hc : callers = [] := progpage_bottom (hp ▸ (stackOk_iff.mp hs).calls)
  simp only [operandsLoaded, topLevelOp, hp, hc, List.getLast?_singleton, Option.map_some, Bool.and_eq_true,
    beq_iff_eq] at hl
  exact hl.1

/-- Settles O49: the ranks of the frames rise from 0 to 4 at most. -/
theorem nestingAtMostFive : Obligations.NestingAtMostFive := by
  rintro s ⟨_, hs, _⟩
  have hc := (stackOk_iff.mp hs).calls
  cases hp : s.seq.pc with
  | nil => simp
  | cons f callers =>
    have := callRank_add_length (hp ▸ hc)
    rw [List.length_cons]
    omega

theorem ControlInv.congr {s t : State} (h : ControlInv s) (hc : t.cfg = s.cfg) (hq : t.seq = s.seq) : ControlInv t := by
  simpa only [ControlInv, busyMeansRunning, stackOk, operandsLoaded, topLevelOp, hc, hq] using h

/-- An idle block has a legal control state, whatever its working registers hold. -/
theorem controlInv_of_idle {s : State} (hp : s.seq.pc = []) (hb : s.seq.busy = false) (he : s.seq.err ≠ 3) :
    ControlInv s :=
  ⟨by simp [busyMeansRunning, hp, hb], by simp [stackOk, hp, callsOk], by simp [operandsLoaded, topLevelOp, hp],
    by simp [hb], he⟩

/-! ### In the course of a step -/

/-- The operations that write RESULT when the host issues them (R22). -/
def WritesResult (i : Instr) : Prop := (∃ r, i = .irr r) ∨ i = .rdstatus ∨ i = .waitflash

/-- A state in the course of a step of operation `i` that began with the sequencer at `q`; the top frame is `f`. -/
structure MidStep (i : Instr) (q : Sequencer) (f : Frame) (s : State) : Prop where
  top : ∃ callers, s.seq.pc = f :: callers
  stack : stackOk s = true
  op : topLevelOp s = some i
  loaded : operandsLoaded s = true
  busy : s.seq.busy = true
  err : s.seq.err = 0
  addr : s.seq.addr = q.addr
  cnt : s.seq.cnt = q.cnt
  result : ¬ WritesResult i → s.seq.result = q.result

/-- A state in which a step of operation `i` that began with the sequencer at `q` may end. -/
structure StepEnd (i : Instr) (q : Sequencer) (t : State) : Prop where
  control : ControlInv t
  addr : t.seq.addr = q.addr
  cnt : t.seq.cnt = q.cnt
  result : ¬ WritesResult i → t.seq.result = q.result

/-- A next state is one in which the step may end. -/
def EndsLegally (i : Instr) (q : Sequencer) : Out → Prop
  | .next t => StepEnd i q t
  | .fault _ => True
  | .refused _ => True

/-- The control state with the operand registers. -/
def Sequencer.control (q : Sequencer) : List Frame × Bool × BitVec 2 × Word × Word := (q.pc, q.busy, q.err, q.addr, q.cnt)

theorem operandsLoaded_congr {s t : State} (ho : topLevelOp t = topLevelOp s) (ha : t.seq.addr = s.seq.addr)
    (hn : t.seq.cnt = s.seq.cnt) : operandsLoaded t = operandsLoaded s := by
  simp only [operandsLoaded, ho, ha, hn]

namespace MidStep

variable {i : Instr} {q : Sequencer} {f : Frame} {s : State}

/-- A step of the operation in progress begins in such a state. -/
theorem of_controlInv (h : ControlInv s) (hb : s.seq.busy = true) (ho : topLevelOp s = some i) :
    ∃ f, MidStep i s.seq f s := by
  obtain ⟨_, hs, hl, he, _⟩ := h
  cases hp : s.seq.pc with
  | nil => simp [topLevelOp, hp] at ho
  | cons f callers => exact ⟨f, ⟨callers, hp⟩, hs, ho, hl, hb, he hb, rfl, rfl, fun _ => rfl⟩

theorem ends (h : MidStep i q f s) : StepEnd i q s := by
  obtain ⟨callers, hp⟩ := h.top
  refine ⟨⟨by simp [busyMeansRunning, hp, h.busy], h.stack, h.loaded, fun _ => h.err, ?_⟩, h.addr, h.cnt, h.result⟩
  rw [h.err]
  decide

theorem callStack (h : MidStep i q f s) {callers : List Frame} (hp : s.seq.pc = f :: callers) :
    CallStack s.cfg (f :: callers) := hp ▸ stackOk_iff.mp h.stack

theorem label_le (h : MidStep i q f s) : f.label ≤ lastLabel f.op := by
  obtain ⟨_, hp⟩ := h.top
  exact (h.callStack hp).label_le

/-- Other frames with the same operation at the bottom. -/
theorem setPc (h : MidStep i q f s) {g : Frame} {rest : List Frame} (hs : CallStack s.cfg (g :: rest))
    (ho : (g :: rest).getLast?.map (·.op) = some i) : MidStep i q g (setPc (g :: rest) s) :=
  have hop : topLevelOp (Machine.setPc (g :: rest) s) = some i := ho
  ⟨⟨rest, rfl⟩, stackOk_iff.mpr hs, hop, (operandsLoaded_congr (hop.trans h.op.symm) rfl rfl).trans h.loaded,
    h.busy, h.err, h.addr, h.cnt, h.result⟩

theorem getLast?_op (h : MidStep i q f s) {callers : List Frame} (hp : s.seq.pc = f :: callers) :
    (f :: callers).getLast?.map (·.op) = some i := hp ▸ h.op

/-- A call (R24 (b)). -/
theorem pushFrame (h : MidStep i q f s) {op : Instr} (hc : calleeAt s.cfg f = some op) :
    MidStep i q ⟨op, 0⟩ (pushFrame op s) := by
  obtain ⟨callers, hp⟩ := h.top
  rw [Machine.pushFrame, hp]
  exact h.setPc ((h.callStack hp).push hc) (by simpa using h.getLast?_op hp)

theorem relabel (h : MidStep i q f s) {callers : List Frame} (hp : s.seq.pc = f :: callers) {l : Nat}
    (hl : l ≤ lastLabel f.op) : MidStep i q ⟨f.op, l⟩ (Machine.setPc (⟨f.op, l⟩ :: callers) s) := by
  refine h.setPc ((h.callStack hp).relabel hl) ?_
  rw [← h.getLast?_op hp]
  cases callers <;> simp

theorem gotoLabel (h : MidStep i q f s) {l : Nat} (hl : l ≤ lastLabel f.op) :
    MidStep i q ⟨f.op, l⟩ (gotoLabel l s) := by
  obtain ⟨callers, hp⟩ := h.top
  rw [Machine.gotoLabel, hp]
  exact h.relabel hp hl

theorem nextLabel (h : MidStep i q f s) (hl : f.label + 1 ≤ lastLabel f.op) :
    MidStep i q ⟨f.op, f.label + 1⟩ (nextLabel s) := by
  obtain ⟨callers, hp⟩ := h.top
  rw [Machine.nextLabel, hp]
  exact h.relabel hp hl

/-- With one frame the operation is the one the host issued. -/
theorem op_eq (h : MidStep i q f s) (hp : s.seq.pc = [f]) : i = f.op := by
  simpa using (h.getLast?_op hp).symm

/-- An operation that nothing calls was issued by the host. -/
theorem op_eq_of_callRank (h : MidStep i q f s) (hr : callRank f.op = 4) : i = f.op := by
  obtain ⟨callers, hp⟩ := h.top
  exact h.op_eq (by rw [hp, (h.callStack hp).bottom hr])

/-- Registers of no operand change freely, and RESULT if the operation in progress may write it. -/
theorem of_same {t : State} (h : MidStep i q f s) (hc : t.cfg = s.cfg) (hq : t.seq.control = s.seq.control)
    (hr : ¬ WritesResult i → t.seq.result = s.seq.result) : MidStep i q f t := by
  simp only [Sequencer.control, Prod.mk.injEq] at hq
  obtain ⟨hp, hb, he, ha, hn⟩ := hq
  have ho : topLevelOp t = topLevelOp s := by simp only [topLevelOp, hp]
  refine ⟨hp ▸ h.top, ?_, ho.trans h.op, (operandsLoaded_congr ho ha hn).trans h.loaded, hb.trans h.busy, he.trans h.err,
    ha.trans h.addr, hn.trans h.cnt, fun hw => (hr hw).trans (h.result hw)⟩
  rw [stackOk_iff, hc, hp]
  exact stackOk_iff.mp h.stack

theorem congr {t : State} (h : MidStep i q f s) (hc : t.cfg = s.cfg) (hq : t.seq = s.seq) : MidStep i q f t :=
  h.of_same hc (congrArg _ hq) fun _ => congrArg _ hq

/-- An error drops every frame (R174). -/
theorem raiseError (h : MidStep i q f s) (e : ErrorKind) : StepEnd i q (raiseError e s) :=
  ⟨controlInv_of_idle rfl rfl (by cases e <;> simp [ErrorKind.code]), h.addr, h.cnt, h.result⟩

/-- The bottom frame's return (R24 (d)). -/
theorem finish (h : MidStep i q f s) : StepEnd i q (finish s) :=
  ⟨controlInv_of_idle rfl rfl (by rw [finish_seq]; simp only [h.err]; decide), h.addr, h.cnt, h.result⟩

/-- The frame below the top one called it, and is the top frame when that has returned. -/
theorem pop {g : Frame} {rest : List Frame} (h : MidStep i q f (Machine.setPc (f :: g :: rest) s)) :
    calleeAt s.cfg g = some f.op ∧ MidStep i q g (Machine.setPc (g :: rest) s) := by
  have hs := h.callStack rfl
  exact ⟨(callsOk_cons_cons.mp hs.calls).1, h.setPc hs.tail (by simpa using h.getLast?_op rfl)⟩

/-- The test of WAITFLASH returns with its registers set (R22, R124): only issued by the host it writes RESULT. -/
theorem waitflashReturns {l : Nat} {callers : List Frame}
    (h : MidStep i q ⟨.waitflash, l⟩ (Machine.setPc (⟨.waitflash, l⟩ :: callers) s)) :
    MidStep i q ⟨.waitflash, l⟩
      (Machine.setPc (⟨.waitflash, l⟩ :: callers) (waitflashResult callers (countStatusRead s))) := by
  cases callers with
  | nil => exact h.of_same rfl rfl fun hw => absurd (.inr (.inr (h.op_eq rfl))) hw
  | cons g rest => exact h.of_same rfl rfl fun _ => rfl

/-- The top operation returns to the frames below it (R24 (b), (d)). -/
theorem returnTo {callers : List Frame} (h : MidStep i q f (Machine.setPc (f :: callers) s)) :
    StepEnd i q (returnTo callers s) := by
  induction callers generalizing f s with
  | nil => exact h.finish
  | cons g rest ih =>
    obtain ⟨hc, hg⟩ := h.pop
    obtain ⟨op, l⟩ := g
    have hgoto : ∀ {k}, k ≤ lastLabel op → StepEnd i q (Machine.setPc (⟨op, k⟩ :: rest) s) :=
      fun hk => (hg.relabel rfl hk).ends
    cases op with
    | setcnt n => exact ih hg
    | rdstatus =>
      have hl : l < 8 := by have := calleeAt_rdstatus hc; omega
      exact hgoto hl
    | sendcmd b =>
      rw [returnTo_sendcmd]
      split
      · next hl => exact hgoto hl
      · exact ih hg
    | erase a =>
      rw [returnTo_erase]
      split
      · next hl => exact hgoto hl
      · exact ih hg
    | progpage a n =>
      rw [returnTo_progpage]
      split
      · next hl => exact hgoto hl
      · exact ih hg
    | waitflash =>
      have hcount : MidStep i q ⟨.waitflash, l⟩ (Machine.setPc (⟨.waitflash, l⟩ :: rest) (countStatusRead s)) :=
        hg.of_same rfl rfl fun _ => rfl
      rw [returnTo_waitflash]
      split
      · exact ih hg.waitflashReturns
      split
      · exact hcount.raiseError _
      · exact (hcount.relabel rfl (Nat.le_refl 1)).ends
    | _ => cases hc

theorem returnOp (h : MidStep i q f s) : EndsLegally i q (returnOp s) := by
  obtain ⟨callers, hp⟩ := h.top
  have hs : MidStep i q f (Machine.setPc (f :: callers) s) := by
    rw [← hp]
    exact h
  rw [Machine.returnOp, hp]
  exact hs.returnTo

theorem advance (h : MidStep i q f s) (hl : f.label + 1 ≤ lastLabel f.op) : EndsLegally i q (advance s) :=
  (h.nextLabel hl).ends

/-! ### The bus primitives -/

theorem transportFailed (h : MidStep i q f s) : EndsLegally i q (transportFailed s) :=
  (h.congr (t := { s with env := { s.env with transportFails := false } }) rfl rfl).raiseError _

/-- A read transaction: the rest of the step is what the sequencer does with the value. -/
theorem iread (h : MidStep i q f s) {r : RegNum} {k : Word → State → Out}
    (hk : ∀ v u, MidStep i q f u → EndsLegally i q (k v u)) : EndsLegally i q (iread r k s) := by
  unfold Machine.iread
  split
  · exact h.transportFailed
  · refine hk _ _ (h.congr ?_ ?_) <;> (unfold readReg; split <;> rfl)

/-- A write transaction: the rest of the step is what the sequencer does after it. -/
theorem iwrite (h : MidStep i q f s) {r : RegNum} {v : Word} {k : State → Out}
    (hk : ∀ u, MidStep i q f u → EndsLegally i q (k u)) : EndsLegally i q (iwrite r v k s) := by
  unfold Machine.iwrite
  split
  · exact h.transportFailed
  · cases hw : writeReg r v s with
    | next u => exact hk u (h.congr (writeReg_side hw).cfg (writeReg_side hw).seq)
    | fault x => trivial
    | refused x => trivial

/-- A read of SPICTL into TMP, a micro-step that is not the last. -/
theorem readSpictl (h : MidStep i q f s) (hl : f.label + 1 ≤ lastLabel f.op) : EndsLegally i q (readSpictl s) :=
  h.iread fun v u hu =>
    MidStep.advance (s := setTmp v u) (hu.of_same rfl rfl fun _ => rfl) hl

/-- A write of SPITX from WORD, a micro-step that is not the last. -/
theorem sendWord (h : MidStep i q f s) (hl : f.label + 1 ≤ lastLabel f.op) (w : Word) :
    EndsLegally i q (sendWord w s) :=
  MidStep.iwrite (s := { s with seq := { s.seq with word := w } })
    (h.of_same rfl rfl fun _ => rfl) fun _ hu => hu.advance hl

/-! ### The micro-steps -/

theorem microIrw {r : RegNum} {v : Word} {l : Nat} (h : MidStep i q ⟨.irw r v, l⟩ s) : EndsLegally i q (microIrw r v l s) :=
  h.iwrite fun _ hu => hu.returnOp

/-- IRR is called by nothing, so the host issued it and it may write RESULT (R22). -/
theorem microIrr {r : RegNum} {l : Nat} (h : MidStep i q ⟨.irr r, l⟩ s) : EndsLegally i q (microIrr r l s) := by
  have hi : i = .irr r := h.op_eq_of_callRank rfl
  exact h.iread fun v u hu =>
    MidStep.returnOp (s := setResult v u)
      (hu.of_same rfl rfl fun hw => absurd (.inl ⟨r, hi⟩) hw)

theorem microMspien {l : Nat} (h : MidStep i q ⟨.mspien, l⟩ s) : EndsLegally i q (microMspien l s) := by
  unfold Machine.microMspien
  split
  · exact h.readSpictl (Nat.le_refl 1)
  · exact h.iwrite fun _ hu => hu.returnOp

theorem microMspidis {l : Nat} (h : MidStep i q ⟨.mspidis, l⟩ s) : EndsLegally i q (microMspidis l s) := by
  unfold Machine.microMspidis
  split
  · exact h.readSpictl (Nat.le_refl 1)
  · exact h.iwrite fun _ hu => hu.returnOp

theorem microSetmode {m : ModeName} {l : Nat} (h : MidStep i q ⟨.setmode m, l⟩ s) :
    EndsLegally i q (microSetmode m l s) := by
  unfold Machine.microSetmode
  split
  · exact h.readSpictl (Nat.le_refl 1)
  · exact h.iwrite fun _ hu => hu.returnOp

theorem callMspien (h : MidStep i q f s) (hc : calleeAt s.cfg f = some .mspien) : EndsLegally i q (callMspien s) :=
  (h.pushFrame hc).microMspien

theorem callSetmode (h : MidStep i q f s) {m : ModeName} (hc : calleeAt s.cfg f = some (.setmode m)) :
    EndsLegally i q (callSetmode m s) :=
  (h.pushFrame hc).microSetmode

theorem microSetcnt {n : Word} {l : Nat} (h : MidStep i q ⟨.setcnt n, l⟩ s) : EndsLegally i q (microSetcnt n l s) := by
  unfold Machine.microSetcnt
  split
  · exact h.readSpictl (Nat.le_succ 1)
  · exact h.iwrite fun _ hu => hu.advance (Nat.le_refl 2)
  · have hl : l ≤ 2 := h.label_le
    obtain rfl : l = 2 := by grind
    exact h.callSetmode rfl

theorem callSetcnt (h : MidStep i q f s) {n : Word} (hc : calleeAt s.cfg f = some (.setcnt n)) :
    EndsLegally i q (callSetcnt n s) :=
  (h.pushFrame hc).microSetcnt

theorem testDone {l : Nat} (h : MidStep i q ⟨.waitdone, l⟩ s) : EndsLegally i q (testDone s) := by
  unfold Machine.testDone
  split
  · exact h.returnOp
  split
  · exact h.raiseError _
  · exact (h.gotoLabel (Nat.le_refl 1)).ends

theorem pollDone {l : Nat} (h : MidStep i q ⟨.waitdone, l⟩ s) : EndsLegally i q (pollDone s) :=
  h.iread fun v u hu =>
    MidStep.testDone (s := setDpolls (u.seq.dpolls + 1) (setTmp v u))
      (hu.of_same rfl rfl fun _ => rfl)

theorem microWaitdone {l : Nat} (h : MidStep i q ⟨.waitdone, l⟩ s) : EndsLegally i q (microWaitdone l s) := by
  unfold Machine.microWaitdone
  split
  · exact MidStep.pollDone (s := setDpolls 0 s) (h.of_same rfl rfl fun _ => rfl)
  · exact h.pollDone

theorem callWaitdone (h : MidStep i q f s) (hc : calleeAt s.cfg f = some .waitdone) :
    EndsLegally i q (callWaitdone s) :=
  (h.pushFrame hc).microWaitdone

/-- The status goes to STAT, and to RESULT only if the host issued RDSTATUS (R22, R121). -/
theorem takeStatus {l : Nat} (h : MidStep i q ⟨.rdstatus, l⟩ s) (v : Word) :
    MidStep i q ⟨.rdstatus, l⟩ (takeStatus v s) := by
  refine h.of_same rfl rfl fun hw => if_neg fun h1 => hw (.inr (.inl ?_))
  obtain ⟨callers, hp⟩ := h.top
  obtain rfl : callers = [] := by simpa [hp] using h1
  exact h.op_eq hp

theorem microRdstatus {l : Nat} (h : MidStep i q ⟨.rdstatus, l⟩ s) : EndsLegally i q (microRdstatus l s) := by
  unfold Machine.microRdstatus
  split
  · exact h.callSetmode rfl
  · exact h.callSetmode rfl
  · exact h.sendWord (by simp [lastLabel]) _
  · exact h.callSetcnt rfl
  · exact h.callWaitdone rfl
  · exact h.callSetmode rfl
  · exact h.callSetmode rfl
  · exact h.callWaitdone rfl
  · exact h.iread fun v _ hu => (hu.takeStatus v).returnOp

theorem callRdstatus (h : MidStep i q f s) (hc : calleeAt s.cfg f = some .rdstatus) :
    EndsLegally i q (callRdstatus s) :=
  (h.pushFrame hc).microRdstatus

theorem microSendcmd {op : Byte} {l : Nat} (h : MidStep i q ⟨.sendcmd op, l⟩ s) :
    EndsLegally i q (microSendcmd op l s) := by
  unfold Machine.microSendcmd
  split
  · exact h.callSetmode rfl
  · exact h.callSetmode rfl
  · exact h.sendWord (by simp [lastLabel]) _
  · exact h.callSetcnt rfl
  · exact h.callWaitdone rfl
  · have hl : l ≤ 5 := h.label_le
    obtain rfl : l = 5 := by grind
    exact h.callSetmode rfl

theorem callSendcmd (h : MidStep i q f s) {op : Byte} (hc : calleeAt s.cfg f = some (.sendcmd op)) :
    EndsLegally i q (callSendcmd op s) :=
  (h.pushFrame hc).microSendcmd

theorem microErase {a : Word} {l : Nat} (h : MidStep i q ⟨.erase a, l⟩ s) : EndsLegally i q (microErase l s) := by
  unfold Machine.microErase
  split
  · exact h.callSetmode rfl
  · exact h.callSetmode rfl
  · exact h.sendWord (by simp [lastLabel]) _
  · exact h.callSetcnt rfl
  · exact h.callWaitdone rfl
  · have hl : l ≤ 5 := h.label_le
    obtain rfl : l = 5 := by grind
    exact h.callSetmode rfl

theorem callErase (h : MidStep i q f s) (hc : calleeAt s.cfg f = some (.erase s.seq.addr)) :
    EndsLegally i q (callErase s) :=
  (h.pushFrame hc).microErase

theorem microWaitflash {l : Nat} (h : MidStep i q ⟨.waitflash, l⟩ s) : EndsLegally i q (microWaitflash l s) := by
  unfold Machine.microWaitflash
  split
  · have hs : MidStep i q ⟨.waitflash, 0⟩ { s with seq := { s.seq with fpolls := 0 } } :=
      h.of_same rfl rfl fun _ => rfl
    exact (hs.gotoLabel (Nat.le_refl 1)).callRdstatus rfl
  · have hl : l ≤ 1 := h.label_le
    obtain rfl : l = 1 := by grind
    exact h.callRdstatus rfl

theorem callWaitflash (h : MidStep i q f s) (hc : calleeAt s.cfg f = some .waitflash) :
    EndsLegally i q (callWaitflash s) :=
  (h.pushFrame hc).microWaitflash

section Progpage

variable {a n : Word} {l : Nat} (h : MidStep i q ⟨.progpage a n, l⟩ s)

include h

theorem progpageWord : EndsLegally i q (progpageWord s) := by
  simp only [Machine.progpageWord]
  split
  · exact (h.gotoLabel (l := 14) (by simp [lastLabel])).sendWord (by simp [lastLabel]) _
  · trivial

theorem progpageEnd : EndsLegally i q (progpageEnd s) :=
  (h.gotoLabel (l := 19) (Nat.le_refl 19)).callWaitflash rfl

theorem progpageTest : EndsLegally i q (progpageTest s) := by
  unfold Machine.progpageTest
  split
  · exact h.progpageWord
  · exact h.progpageEnd

theorem setIdx (v : Word) : MidStep i q ⟨.progpage a n, l⟩ (setIdx v s) :=
  h.of_same rfl rfl fun _ => rfl

theorem microProgpage : EndsLegally i q (microProgpage l s) := by
  unfold Machine.microProgpage
  split
  · exact h.callMspien rfl
  · split
    · exact (h.gotoLabel (l := 2) (by simp [lastLabel])).callWaitflash rfl
    · exact (h.gotoLabel (l := 5) (by simp [lastLabel])).callWaitflash rfl
  · exact h.callWaitflash rfl
  · exact h.callSendcmd rfl
  · obtain ⟨callers, hp⟩ := h.top
    exact h.callErase (by rw [progpage_addr hp h.stack h.loaded]; rfl)
  · exact h.callWaitflash rfl
  · exact h.callSendcmd rfl
  · exact h.callSetmode rfl
  · exact h.callSetmode rfl
  · exact h.sendWord (by simp [lastLabel]) _
  · exact h.callSetcnt rfl
  · exact h.callWaitdone rfl
  · exact (h.setIdx 0).progpageTest
  · exact h.progpageTest
  · exact h.progpageWord
  · exact h.callSetmode rfl
  · exact h.callSetmode rfl
  · split
    · next hw => exact h.callWaitdone (if_pos hw)
    · exact (h.setIdx _).progpageTest
  · exact (h.setIdx _).progpageTest
  · exact h.progpageEnd

end Progpage

/-- Every micro-step ends in a legal control state. -/
theorem microStep (h : MidStep i q f s) : EndsLegally i q (microStep s) := by
  obtain ⟨callers, hp⟩ := h.top
  have hcmd : f.op.isCommand = true := ((h.callStack hp).frames f List.mem_cons_self).1
  obtain ⟨op, l⟩ := f
  simp only [Machine.microStep, hp]
  cases op with
  | irw r v => exact h.microIrw
  | irr r => exact h.microIrr
  | mspien => exact h.microMspien
  | mspidis => exact h.microMspidis
  | setmode m => exact h.microSetmode
  | setcnt n => exact h.microSetcnt
  | waitdone => exact h.microWaitdone
  | rdstatus => exact h.microRdstatus
  | sendcmd op => exact h.microSendcmd
  | erase a => exact h.microErase
  | waitflash => exact h.microWaitflash
  | progpage a n => exact h.microProgpage
  | _ => cases hcmd

end MidStep

/-! ### Every step -/

/-- The next step of the operation in progress ends in a legal control state. -/
theorem exec_endsLegally {i : Instr} {s : State} (h : ControlInv s) (hc : i.isCommand = true) (hb : s.seq.busy = true)
    (ho : topLevelOp s = some i) : EndsLegally i s.seq (exec i s) := by
  obtain ⟨f, hm⟩ := MidStep.of_controlInv h hb ho
  rw [exec_running s hc hb ho]
  exact hm.microStep

/-- Acceptance loads the operands and clears ERR (R45, R175). -/
theorem accept_controlInv {i : Instr} {s t : State} (hc : i.isCommand = true) (h : accept i s = .next t) :
    ControlInv t := by
  unfold accept at h
  split at h
  · cases h
    refine ⟨rfl, by simp [stackOk, callsOk, hc], ?_, fun _ => ?_, ?_⟩
    · cases i <;> simp [operandsLoaded, topLevelOp, loadOperands]
    · cases i <;> rfl
    · cases i <;> simp [loadOperands, clearError]
  · cases h

theorem accept_result {i : Instr} {s t : State} (h : accept i s = .next t) : t.seq.result = s.seq.result := by
  unfold accept at h
  split at h
  · cases h
    cases i <;> rfl
  · cases h

theorem hostDid_controlInv {u t : State} (h : HostDid u t) (hu : ControlInv u) : ControlInv t := by
  cases h with
  | accepted rest i _ _ hc ha => exact accept_controlInv hc ha
  | _ => exact hu.congr rfl rfl

/-- Settles O50: by cases on what a step can do, the next step of the operation in progress by `exec_endsLegally`. -/
theorem controlInvKept : Obligations.ControlInvKept := by
  intro s t hs h
  obtain ⟨-, u, e, hc⟩ := step_cases h
  have hu : ControlInv u := hs.congr e.cfg e.seq
  rcases hc with rfl | rfl | rfl | rfl | hd | ⟨hb, i, hi, he⟩
  · exact hu.congr (engineCompletes_side u).cfg (engineCompletes_side u).seq
  · exact hu.congr (flashFinishes_side u).cfg (flashFinishes_side u).seq
  · exact controlInv_of_idle rfl rfl (by simp [resetEvent])
  · exact hu
  · exact hostDid_controlInv hd hu
  · have hk := exec_endsLegally hu (isCommand_of_topLevelOp hu.2.1 hi) hb hi
    rw [he] at hk
    exact hk.control

/-- Settles O46: the operation in progress is IRR, RDSTATUS or WAITFLASH where a micro-step writes RESULT, and acceptance alone loads
the operand registers. -/
theorem resultWriters : Obligations.ResultWriters := by
  intro i s t hs hc h
  by_cases hb : s.seq.busy = true
  · by_cases ho : topLevelOp s = some i
    · have hk := exec_endsLegally hs hc hb ho
      rw [h] at hk
      exact ⟨fun h1 h2 h3 => hk.result fun hw => hw.elim (fun ⟨r, hr⟩ => h1 r hr) (fun hw => hw.elim h2 h3),
        fun _ => ⟨hk.addr, hk.cnt⟩⟩
    · rw [exec_command s hc, operate, if_pos hb, if_neg ho] at h
      cases h
      exact ⟨fun _ _ _ => rfl, fun _ => ⟨rfl, rfl⟩⟩
  · rw [exec_command s hc, operate, if_neg hb] at h
    exact ⟨fun _ _ _ => accept_result h, fun hb' => absurd hb' hb⟩

end Sys2Proof.Machine
end

section
/-! PROOFS. Reset, the host's moves and acceptance, which instruction a step runs, and calls and returns (spec/10_state.md R23, R24, R45,
R46, R190). -/

namespace Sys2Proof.Machine

open Sys2Proof

/-! ### Reset -/

/-- Settles O6: the block is idle after reset, so nothing is asked of its working registers. -/
theorem resetState : Obligations.ResetState := by
  have hc : ControlInv State.reset := controlInv_of_idle rfl rfl (by decide)
  have he : EngineInv State.reset := ⟨by decide, by decide, nofun⟩
  have hfl : FlashInv State.reset := ⟨nofun, fun h => absurd rfl h⟩
  have hf : FreshInv State.reset := nofun
  have hb : BufferInv State.reset := bufferInv_of_idle rfl
  exact ⟨rfl, rfl, rfl, rfl, by decide, hc, he, hfl, ⟨rfl, rfl, rfl⟩, hf, hb⟩

/-! ### Acceptance and the host's moves -/

/-- Settles O8: `accept` of a well-formed operation, by the operands it loads. -/
theorem acceptance : Obligations.Acceptance := by
  intro i s hc hb hw
  have ha : exec i s = accept i s := by rw [exec_command s hc, operate, if_neg (by simp [hb])]
  rw [ha, accept, if_pos hw]
  cases i <;> rfl

/-- The host's turn, its first move a fill (R45 (a)). -/
theorem step_fill {s : State} {a : Nat} {bytes : List Byte} {rest : List HostMove} (hw : s.cfg.wf = true)
    (ht : (nextTurn s).1 = .host) (hm : s.host.moves = .fill a bytes :: rest) :
    step s = hostFill a bytes rest (nextTurn s).2 := by
  simp [step_of_wf s hw, ht, takeTurn, hostTurn, hm]

/-- Settles O11: the three cases of `hostFill`; the bytes of the buffer are read back by `Memory.read_writeAll`. -/
theorem hostFillsBuffer : Obligations.HostFillsBuffer := by
  intro s a bytes rest hw ht hm hcanon
  rw [step_fill hw ht hm]
  refine ⟨fun hb => ?_, fun hb hlen => ?_, fun hb hlen => ?_⟩
  · rw [hostFill, if_pos (by simpa using hb)]
  · rw [hostFill, if_neg (by simp [hb]), if_neg (by simpa using hlen)]
  · rw [hostFill, if_neg (by simp [hb]), if_pos (by simpa using hlen)]
    refine ⟨_, rfl, rfl, fun k hk => ?_, fun k hk => ?_, by simp, by simp, by simp, by simp, by simp⟩
    · rw [bufByte, Memory.read_writeAll (by simpa using hcanon), if_pos (by omega), Nat.add_sub_cancel_left]
      rfl
    · rw [bufByte, Memory.read_writeAll (by simpa using hcanon), if_neg (by omega), nextTurn_host]
      rfl

/-- Settles O10: `hostIssue` drops the descriptor while busy, and `operate` leaves the state alone for an operation not in progress. -/
theorem busyIgnoresCommands : Obligations.BusyIgnoresCommands := by
  refine ⟨fun s d rest hw ht hb hm => ?_, fun i s hc hb ho => ?_⟩
  · rw [step_issue hw ht hm]
    simp [hostIssue, hb]
  · rw [exec_command s hc, operate, if_pos hb, if_neg ho]

/-! ### Which instruction a step runs -/

/-- The end of a frame that decodes is the meaning of the frame's instruction (R156). -/
theorem endFrame_of_decodeFrame {s : State} {i : Instr} (h : decodeFrame s.cfg s.flash.frame = .ok i)
    (hi : i.isCommand = false) : endFrame s = exec i s := by
  rw [endFrame, h]
  cases i with
  | flashRdsr rest => rfl
  | flashWren => rfl
  | flashSe a => rfl
  | flashPp a data => rfl
  | _ => cases hi

/-- The decoder of the flash gives frames only. -/
theorem isCommand_of_decodeFrame {c : Cfg} {bytes : List Byte} {i : Instr} (h : decodeFrame c bytes = .ok i) :
    i.isCommand = false := by
  cases bytes with
  | nil => cases h
  | cons op rest =>
    simp only [decodeFrame] at h
    split at h
    · cases h; rfl
    split at h
    · split at h <;> cases h
      rfl
    split at h
    · unfold decodeSe at h
      split at h <;> cases h
      rfl
    split at h
    · unfold decodePp at h
      split at h <;> cases h
      rfl
    · cases h

/-- Settles O12: `hostIssue`, `seqTurn` and `endFrame`, each where it runs an instruction. -/
theorem stepRunsDecodedInstruction : Obligations.StepRunsDecodedInstruction := by
  refine ⟨fun s d rest i hw ht hb hm hd => ?_, fun s i hw ht hb ho => ?_, fun s i hd => ?_⟩
  · have hd' : decodeDescriptor d = .ok i := hd
    rw [step_issue hw ht hm]
    simp [hostIssue, hb, hd']
  · simp [step_of_wf s hw, ht, takeTurn, seqTurn, hb, ho]
  · exact endFrame_of_decodeFrame hd (isCommand_of_decodeFrame hd)

/-! ### Calls and returns -/

theorem gotoLabel_self {s : State} {f : Frame} {callers : List Frame} (hp : s.seq.pc = f :: callers) :
    gotoLabel f.label s = s := by
  rw [gotoLabel, hp]
  show setPc (f :: callers) s = s
  rw [← hp]
  rfl

/-- The call of an operation, by name; ERASE is called with the address in ADDR (R24 (b)). -/
def callOf (callee : Instr) (s : State) : Out :=
  match callee with
  | .mspien => callMspien s
  | .setmode m => callSetmode m s
  | .setcnt c => callSetcnt c s
  | .waitdone => callWaitdone s
  | .rdstatus => callRdstatus s
  | .sendcmd op => callSendcmd op s
  | .erase _ => callErase s
  | .waitflash => callWaitflash s
  | _ => .next s

/-- At a label that calls an operation the micro-step is that call (R113, R121 to R124, R131). -/
theorem microStep_of_calleeAt {s : State} {f : Frame} {callers : List Frame} {callee : Instr}
    (hp : s.seq.pc = f :: callers) (hc : calleeAt s.cfg f = some callee) : microStep s = callOf callee s := by
  obtain ⟨op, l⟩ := f
  simp only [microStep, hp]
  cases op with
  | setcnt n =>
    obtain ⟨rfl, rfl⟩ := calleeAt_setcnt hc
    rfl
  | rdstatus =>
    rcases calleeAt_rdstatus hc with
      ⟨rfl, rfl⟩ | ⟨rfl, rfl⟩ | ⟨rfl, rfl⟩ | ⟨rfl, rfl⟩ | ⟨rfl, rfl⟩ | ⟨rfl, rfl⟩ | ⟨rfl, rfl⟩ <;> rfl
  | sendcmd b =>
    rcases calleeAt_sendcmd hc with ⟨rfl, rfl⟩ | ⟨rfl, rfl⟩ | ⟨rfl, rfl⟩ | ⟨rfl, rfl⟩ | ⟨rfl, rfl⟩ <;> rfl
  | erase a =>
    rcases calleeAt_erase hc with ⟨rfl, rfl⟩ | ⟨rfl, rfl⟩ | ⟨rfl, rfl⟩ | ⟨rfl, rfl⟩ | ⟨rfl, rfl⟩ <;> rfl
  | waitflash =>
    obtain ⟨rfl, rfl⟩ := calleeAt_waitflash hc
    rfl
  | progpage a n =>
    rcases calleeAt_progpage hc with
      ⟨rfl, rfl⟩ | ⟨rfl, rfl⟩ | ⟨rfl, rfl⟩ | ⟨rfl, rfl⟩ | ⟨rfl, rfl⟩ | ⟨rfl, rfl⟩ | ⟨rfl, rfl⟩ | ⟨rfl, rfl⟩ | ⟨rfl, rfl⟩
      | ⟨rfl, rfl⟩ | ⟨rfl, rfl⟩ | ⟨rfl, rfl⟩ | ⟨rfl, hw, rfl⟩ | ⟨rfl, rfl⟩
    on_goal 14 => exact congrArg callWaitflash (gotoLabel_self hp)
    on_goal 13 => exact if_pos hw
    all_goals rfl
  | _ => cases hc

/-- The address with which ERASE is called is the one in ADDR (R131). -/
theorem calleeAt_erase_addr {s : State} {f : Frame} {callers : List Frame} {a : Word} (hp : s.seq.pc = f :: callers)
    (hs : stackOk s = true) (hl : operandsLoaded s = true) (hc : calleeAt s.cfg f = some (.erase a)) :
    s.seq.addr = a := by
  obtain ⟨op, l⟩ := f
  cases op with
  | setcnt n => simpa using calleeAt_setcnt hc
  | rdstatus => simpa using calleeAt_rdstatus hc
  | sendcmd b => simpa using calleeAt_sendcmd hc
  | erase b => simpa using calleeAt_erase hc
  | waitflash => simpa using calleeAt_waitflash hc
  | progpage b n =>
    obtain ⟨-, rfl⟩ : l = 4 ∧ a = b := by simpa using calleeAt_progpage hc
    exact progpage_addr hp hs hl
  | _ => cases hc

/-- A call pushes the frames of the called operation and reads SPICTL (R24 (b)). -/
theorem callOf_begins {s : State} (f : Facts s.cfg) (hf : s.env.transportFails = false) {callee : Instr}
    (hr : callRank callee < 4) (hne : callee ≠ .waitdone) (ha : ∀ a, callee = .erase a → s.seq.addr = a) :
    callOf callee s = .next (opBegun callee s.seq.pc s) := by
  cases callee with
  | mspien => exact callMspien_ok f hf
  | setmode m => exact callSetmode_ok f hf m
  | setcnt c => exact callSetcnt_ok f hf c
  | waitdone => exact absurd rfl hne
  | rdstatus => exact callRdstatus_ok f hf
  | sendcmd op => exact callSendcmd_ok f hf op
  | erase a => exact ha a rfl ▸ callErase_ok f hf
  | waitflash => exact callWaitflash_ok f hf
  | _ => simp [callRank] at hr

/-- Settles O19: at a label that calls, the micro-step is the call, and `callOf_begins` says what a call does. -/
theorem callsBegin : Obligations.CallsBegin := by
  intro i callee f callers s hw hi hr hs hl hc hne
  obtain ⟨he, hp, hf⟩ := exec_top hi hr
  rw [he, microStep_of_calleeAt hp hc, ← hp]
  exact callOf_begins (facts_of_wf hw) hf (calleeAt_rank_lt hc) hne fun a ha => calleeAt_erase_addr hp hs hl (ha ▸ hc)

/-- Settles O20: the laws of `returnTo`, caller by caller. -/
theorem returnsReachTheCaller : Obligations.ReturnsReachTheCaller := by
  refine fun callers s => ⟨rfl, fun l => rfl, fun op l hl => ?_, fun a l hl => ?_, fun a n l hl => ?_, fun c => rfl,
    fun op => ?_, fun a => ?_, fun a n => ?_⟩
  · rw [returnTo_sendcmd, if_pos hl]
  · rw [returnTo_erase, if_pos hl]
  · rw [returnTo_progpage, if_pos hl]
  · rw [returnTo_sendcmd, if_neg (Nat.lt_irrefl 5)]
  · rw [returnTo_erase, if_neg (Nat.lt_irrefl 5)]
  · rw [returnTo_progpage, if_neg (Nat.lt_irrefl 19)]

end Sys2Proof.Machine
end

section
/-! PROOFS. The freshness of TMP at the write half of a read-modify-write (spec/00_scope.md R11; spec/41_mode_control.md R110 to R113,
R115), over every step. A step enters a write half only by the read half, which copies SPICTL into TMP; every other micro-step leaves
at the top of the stack a frame that is at no write half. -/

namespace Sys2Proof.Machine

open Sys2Proof

/-! ### Stacks that are at no write half -/

/-- The operations that write SPICTL back from TMP (R110 to R113). -/
def writesBack : Instr → Bool
  | .mspien => true
  | .mspidis => true
  | .setmode _ => true
  | .setcnt _ => true
  | _ => false

/-- The top frame, if there is one, is of an operation that does not write SPICTL back. -/
def TopPlain (s : State) : Prop := ∀ f, s.seq.pc.head? = some f → writesBack f.op = false

theorem freshInv_of_not_atWriteBack {s : State} (h : atWriteBack s = false) : FreshInv s := fun hw => by
  rw [h] at hw
  cases hw

theorem topPlain_of_idle {s : State} (h : s.seq.pc = []) : TopPlain s := fun f hf => by
  rw [h] at hf
  cases hf

theorem topPlain_of_cons {s : State} {f : Frame} {callers : List Frame} (hp : s.seq.pc = f :: callers)
    (hf : writesBack f.op = false) : TopPlain s := fun g hg => by
  rw [hp] at hg
  cases hg
  exact hf

theorem topPlain_pushFrame {op : Instr} (s : State) (h : writesBack op = false) : TopPlain (pushFrame op s) :=
  topPlain_of_cons rfl h

namespace TopPlain

variable {s : State}

theorem not_atWriteBack (h : TopPlain s) : atWriteBack s = false := by
  cases hp : s.seq.pc with
  | nil => simp only [atWriteBack, hp]
  | cons f callers =>
    have hf := h f (by rw [hp]; rfl)
    obtain ⟨op, l⟩ := f
    simp only [atWriteBack, hp]
    cases op with
    | mspien => cases hf
    | mspidis => cases hf
    | setmode m => cases hf
    | setcnt c => cases hf
    | _ => rfl

theorem freshInv (h : TopPlain s) : FreshInv s := freshInv_of_not_atWriteBack h.not_atWriteBack

theorem congr {t : State} (h : TopPlain s) (hp : t.seq.pc = s.seq.pc) : TopPlain t := by
  rw [TopPlain, hp]
  exact h

theorem gotoLabel (h : TopPlain s) (l : Nat) : TopPlain (gotoLabel l s) := by
  unfold Machine.gotoLabel
  split
  · exact h
  · next f callers hp => exact topPlain_of_cons rfl (h f (by rw [hp]; rfl))

theorem nextLabel (h : TopPlain s) : TopPlain (nextLabel s) := by
  unfold Machine.nextLabel
  split
  · exact h
  · next f callers hp => exact topPlain_of_cons rfl (h f (by rw [hp]; rfl))

end TopPlain

/-- A caller that goes on after a call is of an operation that does not write SPICTL back: SETCNT returns after its call (R113). -/
theorem writesBack_of_afterCall_goto {f : Frame} {callers : List Frame} {s t : State} {l : Nat}
    (h : afterCall f callers s = (t, .goto l)) : writesBack f.op = false := by
  obtain ⟨op, k⟩ := f
  cases op with
  | mspien => cases h
  | mspidis => cases h
  | setmode m => cases h
  | setcnt c => cases h
  | _ => rfl

/-- A return ends at a caller that goes on, or with no frame left. -/
theorem topPlain_returnTo (callers : List Frame) (s : State) : TopPlain (returnTo callers s) := by
  induction callers generalizing s with
  | nil => exact topPlain_of_idle rfl
  | cons f callers ih =>
    unfold returnTo
    split
    · next heq => exact topPlain_of_cons rfl (writesBack_of_afterCall_goto (f := f) heq)
    · exact ih _
    · exact topPlain_of_idle rfl

/-! ### Outcomes that are fresh -/

/-- A next state is fresh. -/
def EndsFresh : Out → Prop
  | .next t => FreshInv t
  | .fault _ => True
  | .refused _ => True

theorem returnOp_fresh (s : State) : EndsFresh (returnOp s) := (topPlain_returnTo s.seq.pc.tail s).freshInv

theorem transportFailed_fresh (s : State) : EndsFresh (transportFailed s) := (topPlain_of_idle rfl).freshInv

/-- A read transaction: freshness is left to what the sequencer does with the value. -/
theorem iread_fresh {r : RegNum} {k : Word → State → Out} {s : State}
    (hk : ∀ v u, u.seq.pc = s.seq.pc → EndsFresh (k v u)) : EndsFresh (iread r k s) := by
  unfold iread
  split
  · exact transportFailed_fresh s
  · refine hk _ _ ?_
    unfold readReg
    split <;> rfl

/-- A write transaction: freshness is left to what the sequencer does after it. -/
theorem iwrite_fresh {r : RegNum} {v : Word} {k : State → Out} {s : State}
    (hk : ∀ u, u.seq.pc = s.seq.pc → EndsFresh (k u)) : EndsFresh (iwrite r v k s) := by
  unfold iwrite
  split
  · exact transportFailed_fresh s
  · cases hw : writeReg r v s with
    | next u => exact hk u (congrArg Sequencer.pc (writeReg_side hw).seq)
    | fault x => trivial
    | refused x => trivial

/-- A write that ends its operation. -/
theorem iwrite_returnOp_fresh (r : RegNum) (v : Word) (s : State) : EndsFresh (iwrite r v returnOp s) :=
  iwrite_fresh fun u _ => returnOp_fresh u

/-- The read half of a read-modify-write copies SPICTL into TMP (R11). -/
theorem readSpictl_fresh {s : State} (f : Facts s.cfg) : EndsFresh (readSpictl s) := by
  cases hf : s.env.transportFails with
  | true =>
    rw [readSpictl, iread, if_pos hf]
    exact transportFailed_fresh s
  | false =>
    rw [readSpictl_ok f hf]
    intro _ b _ _
    unfold nextLabel
    split <;> rfl

theorem TopPlain.advance {s : State} (h : TopPlain s) : EndsFresh (advance s) := h.nextLabel.freshInv

/-! ### Polls and words sent, made by operations that write nothing back -/

section Plain

variable {s : State} (h : TopPlain s)

include h

theorem TopPlain.sendWord (w : Word) : EndsFresh (sendWord w s) := iwrite_fresh fun _ hp => (h.congr hp).advance

/-- The poll loop's test: return, error, or back to label 1 (R114). -/
theorem TopPlain.testDone : EndsFresh (testDone s) := by
  unfold Machine.testDone
  split
  · exact returnOp_fresh s
  split
  · exact (topPlain_of_idle rfl).freshInv
  · exact (h.gotoLabel 1).freshInv

theorem TopPlain.pollDone : EndsFresh (pollDone s) :=
  iread_fresh fun v u hp => TopPlain.testDone (s := setDpolls (u.seq.dpolls + 1) (setTmp v u)) (h.congr hp)

theorem TopPlain.microWaitdone : (l : Nat) → EndsFresh (microWaitdone l s)
  | 0 => TopPlain.pollDone (s := setDpolls 0 s) h
  | _ + 1 => h.pollDone

end Plain

/-! ### Calls -/

theorem startStatusPolls_cfg (s : State) : (startStatusPolls s).cfg = s.cfg := (seqSide_gotoLabel 1 _).cfg

theorem callWaitdone_fresh (s : State) : EndsFresh (callWaitdone s) := (topPlain_pushFrame s rfl).microWaitdone 0

section Calls

variable {s : State} (f : Facts s.cfg)

include f

theorem callMspien_fresh : EndsFresh (callMspien s) := readSpictl_fresh (s := pushFrame .mspien s) f

theorem callSetmode_fresh (m : ModeName) : EndsFresh (callSetmode m s) := readSpictl_fresh (s := pushFrame (.setmode m) s) f

theorem callSetcnt_fresh (c : Word) : EndsFresh (callSetcnt c s) := readSpictl_fresh (s := pushFrame (.setcnt c) s) f

theorem callRdstatus_fresh : EndsFresh (callRdstatus s) := callSetmode_fresh (s := pushFrame .rdstatus s) f .idle

theorem callSendcmd_fresh (op : Byte) : EndsFresh (callSendcmd op s) :=
  callSetmode_fresh (s := pushFrame (.sendcmd op) s) f .idle

theorem callErase_fresh : EndsFresh (callErase s) := callSetmode_fresh (s := pushFrame (.erase s.seq.addr) s) f .idle

theorem callWaitflash_fresh : EndsFresh (callWaitflash s) :=
  callRdstatus_fresh ((startStatusPolls_cfg (pushFrame .waitflash s)).symm ▸ f)

end Calls

/-! ### The micro-steps -/

theorem microIrr_fresh (r : RegNum) (l : Nat) (s : State) : EndsFresh (microIrr r l s) :=
  iread_fresh fun _ _ _ => returnOp_fresh _

section MicroSteps

variable {s : State} (f : Facts s.cfg)

include f

theorem microMspien_fresh : (l : Nat) → EndsFresh (microMspien l s)
  | 0 => readSpictl_fresh f
  | _ + 1 => iwrite_returnOp_fresh ..

theorem microMspidis_fresh : (l : Nat) → EndsFresh (microMspidis l s)
  | 0 => readSpictl_fresh f
  | _ + 1 => iwrite_returnOp_fresh ..

theorem microSetmode_fresh (m : ModeName) : (l : Nat) → EndsFresh (microSetmode m l s)
  | 0 => readSpictl_fresh f
  | _ + 1 => iwrite_returnOp_fresh ..

/-- After its write half SETCNT goes on at its call of SETMODE (R113). -/
theorem microSetcnt_fresh {c : Word} {l : Nat} {callers : List Frame} (hp : s.seq.pc = ⟨.setcnt c, l⟩ :: callers) :
    EndsFresh (microSetcnt c l s) := by
  unfold microSetcnt
  split
  · exact readSpictl_fresh f
  · exact iwrite_fresh fun u hu => freshInv_of_not_atWriteBack (by simp [nextLabel, hu, hp, atWriteBack])
  · exact callSetmode_fresh f .transfer

theorem microWaitflash_fresh : (l : Nat) → EndsFresh (microWaitflash l s)
  | 0 => callRdstatus_fresh ((startStatusPolls_cfg s).symm ▸ f)
  | _ + 1 => callRdstatus_fresh f

variable (h : TopPlain s)

include h

theorem microRdstatus_fresh (l : Nat) : EndsFresh (microRdstatus l s) := by
  unfold microRdstatus
  split
  · exact callSetmode_fresh f .idle
  · exact callSetmode_fresh f .enable
  · exact h.sendWord _
  · exact callSetcnt_fresh f 3
  · exact callWaitdone_fresh s
  · exact callSetmode_fresh f .update
  · exact callSetmode_fresh f .transfer
  · exact callWaitdone_fresh s
  · exact iread_fresh fun _ _ _ => returnOp_fresh _

theorem microSendcmd_fresh (op : Byte) (l : Nat) : EndsFresh (microSendcmd op l s) := by
  unfold microSendcmd
  split
  · exact callSetmode_fresh f .idle
  · exact callSetmode_fresh f .enable
  · exact h.sendWord _
  · exact callSetcnt_fresh f _
  · exact callWaitdone_fresh s
  · exact callSetmode_fresh f .idle

theorem microErase_fresh (l : Nat) : EndsFresh (microErase l s) := by
  unfold microErase
  split
  · exact callSetmode_fresh f .idle
  · exact callSetmode_fresh f .enable
  · exact h.sendWord _
  · exact callSetcnt_fresh f _
  · exact callWaitdone_fresh s
  · exact callSetmode_fresh f .idle

omit f in
theorem progpageWord_fresh : EndsFresh (progpageWord s) := by
  unfold progpageWord
  simp only
  split
  · exact (h.gotoLabel 14).sendWord _
  · trivial

omit h in
theorem callWaitflash_gotoLabel_fresh (l : Nat) : EndsFresh (callWaitflash (gotoLabel l s)) :=
  callWaitflash_fresh ((seqSide_gotoLabel l s).cfg ▸ f)

theorem progpageTest_fresh : EndsFresh (progpageTest s) := by
  unfold progpageTest
  split
  · exact progpageWord_fresh h
  · exact callWaitflash_gotoLabel_fresh f 19

theorem progpageTest_setIdx_fresh (v : Word) : EndsFresh (progpageTest (setIdx v s)) :=
  progpageTest_fresh (s := setIdx v s) f h

theorem microProgpage_fresh (l : Nat) : EndsFresh (microProgpage l s) := by
  unfold microProgpage
  split
  · exact callMspien_fresh f
  · split
    · exact callWaitflash_gotoLabel_fresh f 2
    · exact callWaitflash_gotoLabel_fresh f 5
  · exact callWaitflash_fresh f
  · exact callSendcmd_fresh f _
  · exact callErase_fresh f
  · exact callWaitflash_fresh f
  · exact callSendcmd_fresh f _
  · exact callSetmode_fresh f .idle
  · exact callSetmode_fresh f .enable
  · exact h.sendWord _
  · exact callSetcnt_fresh f 3
  · exact callWaitdone_fresh s
  · exact progpageTest_setIdx_fresh f h 0
  · exact progpageTest_fresh f h
  · exact progpageWord_fresh h
  · exact callSetmode_fresh f .enable
  · exact callSetmode_fresh f .transfer
  · split
    · exact callWaitdone_fresh s
    · exact progpageTest_setIdx_fresh f h _
  · exact progpageTest_setIdx_fresh f h _
  · exact callWaitflash_gotoLabel_fresh f 19

end MicroSteps

/-- Every micro-step ends fresh, whatever the stack below the top frame. -/
theorem microStep_fresh {s : State} (f : Facts s.cfg) : EndsFresh (microStep s) := by
  cases hp : s.seq.pc with
  | nil =>
    simp only [microStep, hp]
    exact (topPlain_of_idle hp).freshInv
  | cons g callers =>
    obtain ⟨op, l⟩ := g
    have hs := topPlain_of_cons hp
    simp only [microStep, hp]
    cases op with
    | irw r v => exact iwrite_returnOp_fresh r v s
    | irr r => exact microIrr_fresh r l s
    | mspien => exact microMspien_fresh f l
    | mspidis => exact microMspidis_fresh f l
    | setmode m => exact microSetmode_fresh f m l
    | setcnt c => exact microSetcnt_fresh f hp
    | waitdone => exact (hs rfl).microWaitdone l
    | rdstatus => exact microRdstatus_fresh f (hs rfl) l
    | sendcmd op => exact microSendcmd_fresh f (hs rfl) op l
    | erase a => exact microErase_fresh f (hs rfl) l
    | waitflash => exact microWaitflash_fresh f l
    | progpage a n => exact microProgpage_fresh f (hs rfl) l
    | _ => exact (hs rfl).freshInv

/-! ### Every step -/

theorem FreshInv.congr {s t : State} (h : FreshInv s) (hc : t.cfg = s.cfg) (hq : t.seq = s.seq) (hr : t.chip = s.chip) :
    FreshInv t := by
  simpa only [FreshInv, atWriteBack, hc, hq, hr] using h

/-- The engine's completion changes DONE only (R148). -/
theorem FreshInv.engineCompletes {s : State} (h : FreshInv s) : FreshInv (engineCompletes s) := by
  have e := engineCompletes_side s
  rcases e.done with ⟨_, hr⟩ | ⟨_, _, hctl⟩
  · exact h.congr e.cfg e.seq hr
  · intro hw b hb hd
    have hw' : atWriteBack s = true := by simpa only [atWriteBack, e.seq] using hw
    rw [e.cfg] at hd
    rw [e.seq, hctl, getLsbD_setBit _ _ _ hb, h hw' b hb hd]
    simp [hd]

/-- An accepted operation is at its first label (R45). -/
theorem accept_fresh {i : Instr} {s t : State} (h : accept i s = .next t) : FreshInv t := by
  unfold accept at h
  split at h
  · cases h
    exact freshInv_of_not_atWriteBack (by cases i <;> rfl)
  · cases h

theorem HostDid.freshInv {u t : State} (h : HostDid u t) (hu : FreshInv u) : FreshInv t := by
  cases h with
  | accepted rest i _ _ _ ha => exact accept_fresh ha
  | _ => exact hu.congr rfl rfl rfl

/-- The next step of the operation in progress keeps TMP fresh. -/
theorem exec_fresh {i : Instr} {s t : State} (f : Facts s.cfg) (hs : FreshInv s) (hb : s.seq.busy = true)
    (ho : topLevelOp s = some i) (h : exec i s = .next t) : FreshInv t := by
  rcases exec_cases h with ⟨hc, _⟩ | ⟨_, e, _⟩
  · have hm := microStep_fresh f
    rw [← exec_running s hc hb ho, h] at hm
    exact hm
  · exact hs.congr e.cfg e.seq e.chip

/-- Settles O53: by cases on what a step can do, the micro-steps by `microStep_fresh`. -/
theorem freshInvKept : Obligations.FreshInvKept := by
  intro s t hs h
  obtain ⟨hw, u, e, hc⟩ := step_cases h
  have hu : FreshInv u := hs.congr e.cfg e.seq e.chip
  rcases hc with rfl | rfl | rfl | rfl | hd | ⟨hb, i, ho, he⟩
  · exact hu.engineCompletes
  · have c := flashFinishes_side u
    exact hu.congr c.cfg c.seq c.chip
  · exact (topPlain_of_idle rfl).freshInv
  · exact hu
  · exact hd.freshInv hu
  · exact exec_fresh (facts_of_wf (e.cfg ▸ hw)) hu hb ho he

end Sys2Proof.Machine
end

section
/-! PROOFS. The byte order of the words on the wire (spec/20_memory.md R57; spec/30_encoding.md R74; spec/44_engine_and_flash.md R149)
and the sector-erase frame (spec/44_engine_and_flash.md R160, R163). -/

namespace Sys2Proof.Machine

open Sys2Proof

/-! ### Bytes on the wire -/

/-- A transfer sends the bytes of its word from the top. -/
theorem wireBytes_append (n : Nat) (b3 b2 b1 b0 : Byte) :
    wireBytes n (b3 ++ b2 ++ b1 ++ b0) = [b3, b2, b1, b0].take n := by
  have h3 : (b3 ++ b2 ++ b1 ++ b0 : Word).extractLsb' 24 8 = b3 := by
    refine (BitVec.extractLsb'_append_eq_of_le (by decide)).trans ?_
    rw [BitVec.extractLsb'_append_eq_of_le (by decide)]
    exact BitVec.extractLsb'_append_eq_left
  have h2 : (b3 ++ b2 ++ b1 ++ b0 : Word).extractLsb' 16 8 = b2 := by
    refine (BitVec.extractLsb'_append_eq_of_le (by decide)).trans ?_
    rw [BitVec.extractLsb'_append_eq_of_le (by decide)]
    exact BitVec.extractLsb'_append_eq_right
  have h1 : (b3 ++ b2 ++ b1 ++ b0 : Word).extractLsb' 8 8 = b1 :=
    (BitVec.extractLsb'_append_eq_of_le (by decide)).trans BitVec.extractLsb'_append_eq_right
  have h0 : (b3 ++ b2 ++ b1 ++ b0 : Word).extractLsb' 0 8 = b0 := BitVec.extractLsb'_append_eq_right
  rw [wireBytes, h3, h2, h1, h0]

theorem shiftIn_nil (v : Word) : shiftIn v [] = v := rfl

/-- A received byte enters at the low end and pushes the highest byte out. -/
theorem shiftIn_cons (b3 b2 b1 b0 c : Byte) (rest : List Byte) :
    shiftIn (b3 ++ b2 ++ b1 ++ b0) (c :: rest) = shiftIn (b2 ++ b1 ++ b0 ++ c) rest := by
  have h : ((b3 ++ b2 ++ b1 ++ b0 : Word) <<< 8) ||| c.setWidth 32 = b2 ++ b1 ++ b0 ++ c := by
    rw [← packWord_eq, ← packWord_eq, packWord, packWord]
    simp [BitVec.shiftLeft_or_distrib, ← BitVec.shiftLeft_add]
  rw [shiftIn, List.foldl_cons, h, shiftIn]

/-- Settles O34: the words as concatenations of their bytes, and one received byte after the other. -/
theorem byteOrder : Obligations.ByteOrder := by
  intro b3 b2 b1 b0 c3 c2 c1 c0 addr
  refine ⟨packWord_eq .., cmdWord_eq .., cmdWord1_eq .., wireBytes_append 1 .., wireBytes_append 2 ..,
    wireBytes_append 3 .., wireBytes_append 4 .., ?_, ?_, ?_, ?_⟩
  · rw [shiftIn_cons, shiftIn_cons, shiftIn_cons, shiftIn_cons, shiftIn_nil]
  · rw [shiftIn_cons, shiftIn_cons, shiftIn_cons, shiftIn_nil]
  · rw [shiftIn_cons, shiftIn_cons, shiftIn_nil]
  · rw [shiftIn_cons, shiftIn_nil]

/-! ### The sector-erase frame -/

theorem decodeFrame_se {c : Cfg} (f : Facts c) (a2 a1 a0 : Byte) :
    decodeFrame c [c.opSe, a2, a1, a0] = .ok (.flashSe (addrOfBytes a2 a1 a0)) := by
  rw [decodeFrame, if_neg f.rdsr_ne_se.symm, if_neg f.wren_ne_se.symm, if_pos rfl, decodeSe]

theorem takesCommand_iff {s : State} :
    takesCommand s = true ↔ s.cfg.flashModel.attached = true ∧ s.flash.wip = false := by
  simp [takesCommand]

theorem startOperation_eq (p : Pending) (s : State) :
    startOperation p s =
      { s with
        flash :=
          { s.flash with
            wel := false
            wip := true
            pending := p
            busyLeft := if s.cfg.flashModel = .reference then s.cfg.busyReads else s.flash.busyLeft } } := by
  unfold startOperation
  cases s.cfg.flashModel <;> rfl

/-- Settles O37: the frame decodes to FLASH_SE, and the erase starts exactly when the latch is set and the flash takes a command. -/
theorem flashSectorErase : Obligations.FlashSectorErase := by
  intro a s
  have hexec : exec (.flashSe a) s = execFlashSe a s := rfl
  refine ⟨fun a2 a1 a0 hw hf ha => ?_, fun hl hb hd => ?_, fun h => ?_⟩
  · subst ha
    exact endFrame_of_decodeFrame (hf ▸ decodeFrame_se (facts_of_wf hw) a2 a1 a0) rfl
  · rw [hexec, execFlashSe, hl, takesCommand_iff.mpr ⟨hd, hb⟩, startOperation_eq, sectorBase_eq]
    rfl
  · have hn : ¬ (s.flash.wel && takesCommand s) = true := by
      rw [Bool.and_eq_true, takesCommand_iff]
      rintro ⟨hl, hd, hb⟩
      simp [hl, hb, hd] at h
    rw [hexec, execFlashSe, if_neg hn]

end Sys2Proof.Machine
end

section
/-! PROOFS. Encoding and decoding (spec/30_encoding.md R77 to R82, R86): what every descriptor decodes to, that the decoders and the encoder
are inverse to each other, that a code that decodes has one row of the opcode table; and the command words on the bus (R74, R120). -/

namespace Sys2Proof.Machine

open Sys2Proof

/-! ### What a descriptor decodes to, by its operation code (R78, R79) -/

section Descriptors

variable {a0 a1 : Word}

theorem byteOperand_of_lt (h : a0.toNat < 256) : byteOperand a0 = some (a0.extractLsb' 0 8) := by
  rw [byteOperand, if_pos h, BitVec.setWidth_eq_extractLsb' (by decide)]

theorem decodeDescriptor_irw {r : RegNum} (h : byteOperand a0 = some r) :
    decodeDescriptor (descriptor 0x1 a0 a1) = .ok (.irw r a1) := by
  simp [decodeDescriptor, h]

theorem decodeDescriptor_irr {r : RegNum} (h : byteOperand a0 = some r) :
    decodeDescriptor (descriptor 0x2 a0 a1) = .ok (.irr r) := by
  simp [decodeDescriptor, h]

theorem decodeDescriptor_mspien : decodeDescriptor (descriptor 0x3 a0 a1) = .ok .mspien := by
  simp [decodeDescriptor]

theorem decodeDescriptor_mspidis : decodeDescriptor (descriptor 0x4 a0 a1) = .ok .mspidis := by
  simp [decodeDescriptor]

theorem decodeDescriptor_setmode {m : ModeName} (h : modeOfIndex a0 = some m) :
    decodeDescriptor (descriptor 0x5 a0 a1) = .ok (.setmode m) := by
  simp [decodeDescriptor, h]

theorem decodeDescriptor_setcnt_operands : decodeDescriptor (descriptor 0x6 a0 a1) = .ok (.setcnt a0) := by
  simpa using decodeDescriptor_setcnt (descOp_descriptor 0x6 a0 a1)

theorem decodeDescriptor_waitdone : decodeDescriptor (descriptor 0x7 a0 a1) = .ok .waitdone := by
  simp [decodeDescriptor]

theorem decodeDescriptor_rdstatus : decodeDescriptor (descriptor 0x8 a0 a1) = .ok .rdstatus := by
  simp [decodeDescriptor]

theorem decodeDescriptor_sendcmd {op : Byte} (h : byteOperand a0 = some op) :
    decodeDescriptor (descriptor 0x9 a0 a1) = .ok (.sendcmd op) := by
  simp [decodeDescriptor, h]

theorem decodeDescriptor_erase (h : addrFits a0 = true) :
    decodeDescriptor (descriptor 0xA a0 a1) = .ok (.erase a0) := by
  simp [decodeDescriptor, h]

theorem decodeDescriptor_waitflash : decodeDescriptor (descriptor 0xB a0 a1) = .ok .waitflash := by
  simp [decodeDescriptor]

theorem decodeDescriptor_progpage_operands (h : addrFits a0 = true) :
    decodeDescriptor (descriptor 0xC a0 a1) = .ok (.progpage a0 a1) := by
  simpa using decodeDescriptor_progpage (descOp_descriptor 0xC a0 a1) (by simpa using h)

/-! ### Operand ranges (R79, R80) -/

/-- The operations with an operand of 8 bits: decoded by `f` when `a0` fits, out of range otherwise. -/
theorem decodeDescriptor_byteOperand {op : BitVec 4} {f : BitVec 8 → Instr} (hop : op = 0x1 ∨ op = 0x2 ∨ op = 0x9)
    (hf : ∀ r, byteOperand a0 = some r → decodeDescriptor (descriptor op a0 a1) = .ok (f r)) :
    decodeDescriptor (descriptor op a0 a1)
      = if a0.toNat < 256 then .ok (f (a0.extractLsb' 0 8)) else .error .operandRange := by
  by_cases h : a0.toNat < 256
  · rw [if_pos h, hf _ (byteOperand_of_lt h)]
  · rw [if_neg h, decodeDescriptor_byteRange (by simpa using hop) (by simpa using h)]

/-- The operations with a flash address: decoded to `i` when `a0` fits 24 bits, out of range otherwise. -/
theorem decodeDescriptor_addrOperand {op : BitVec 4} {i : Instr} (hop : op = 0xA ∨ op = 0xC)
    (hi : addrFits a0 = true → decodeDescriptor (descriptor op a0 a1) = .ok i) :
    decodeDescriptor (descriptor op a0 a1) = if a0.toNat < 2 ^ 24 then .ok i else .error .operandRange := by
  by_cases h : a0.toNat < 2 ^ 24
  · rw [if_pos h, hi (decide_eq_true h)]
  · rw [if_neg h, decodeDescriptor_addrRange (by simpa using hop) (by simpa using h)]

/-- The operand of SETMODE: 0 to 3 name the modes in the source's order, nothing else does. -/
theorem decodeDescriptor_modeOperand :
    decodeDescriptor (descriptor 0x5 a0 a1)
      = if a0 = 0 then .ok (.setmode .idle) else if a0 = 1 then .ok (.setmode .enable)
        else if a0 = 2 then .ok (.setmode .transfer) else if a0 = 3 then .ok (.setmode .update)
        else .error .operandRange := by
  split_ifs with h0 h1 h2 h3
  · subst h0; exact decodeDescriptor_setmode (modeOfIndex_modeIndex .idle)
  · subst h1; exact decodeDescriptor_setmode (modeOfIndex_modeIndex .enable)
  · subst h2; exact decodeDescriptor_setmode (modeOfIndex_modeIndex .transfer)
  · subst h3; exact decodeDescriptor_setmode (modeOfIndex_modeIndex .update)
  · have h4 : 4 ≤ a0.toNat := by bv_omega
    exact decodeDescriptor_modeRange (descOp_descriptor 0x5 a0 a1) (by simpa using h4)

end Descriptors

/-- Settles O2: one lemma per operation code. -/
theorem descriptorOperandsDecode : Obligations.DescriptorOperandsDecode := by
  intro a0 a1
  have reserved {op : BitVec 4} (h : op = 0x0 ∨ op = 0xD ∨ op = 0xE ∨ op = 0xF) :
      decodeDescriptor (descriptor op a0 a1) = .error .reservedOp :=
    decodeDescriptor_reserved (by simpa using h)
  exact ⟨reserved (by decide),
    decodeDescriptor_byteOperand (by decide) fun _ => decodeDescriptor_irw,
    decodeDescriptor_byteOperand (by decide) fun _ => decodeDescriptor_irr,
    decodeDescriptor_mspien, decodeDescriptor_mspidis, decodeDescriptor_modeOperand, decodeDescriptor_setcnt_operands,
    decodeDescriptor_waitdone, decodeDescriptor_rdstatus,
    decodeDescriptor_byteOperand (by decide) fun _ => decodeDescriptor_sendcmd,
    decodeDescriptor_addrOperand (by decide) decodeDescriptor_erase, decodeDescriptor_waitflash,
    decodeDescriptor_addrOperand (by decide) decodeDescriptor_progpage_operands,
    reserved (by decide), reserved (by decide), reserved (by decide)⟩

/-! ### What a frame decodes to (R82) -/

theorem decodeFrame_rdsr (c : Cfg) (rest : List Byte) : decodeFrame c (c.opRdsr :: rest) = .ok (.flashRdsr rest) :=
  if_pos rfl

theorem decodeFrame_wren {c : Cfg} (f : Facts c) : decodeFrame c [c.opWren] = .ok .flashWren := by
  rw [decodeFrame, if_neg f.rdsr_ne_wren.symm, if_pos rfl]

theorem decodeFrame_pp {c : Cfg} (f : Facts c) (a2 a1 a0 : Byte) (data : List Byte) :
    decodeFrame c (c.opPp :: a2 :: a1 :: a0 :: data) = .ok (.flashPp (addrOfBytes a2 a1 a0) data) := by
  rw [decodeFrame, if_neg f.rdsr_ne_pp.symm, if_neg f.wren_ne_pp.symm, if_neg f.se_ne_pp.symm, if_pos rfl, decodePp]

/-- Settles O3: one lemma per instruction; the opcodes of the frames are told apart by R75. -/
theorem decodeOfEncode : Obligations.DecodeOfEncode := by
  intro c i hw hok
  have f := facts_of_wf hw
  cases i with
  | irw r v => exact decodeDescriptor_irw (byteOperand_setWidth r)
  | irr r => exact decodeDescriptor_irr (byteOperand_setWidth r)
  | mspien => exact decodeDescriptor_mspien (a0 := 0) (a1 := 0)
  | mspidis => exact decodeDescriptor_mspidis (a0 := 0) (a1 := 0)
  | setmode m => exact decodeDescriptor_setmode (modeOfIndex_modeIndex m)
  | setcnt v => exact decodeDescriptor_setcnt_operands
  | waitdone => exact decodeDescriptor_waitdone (a0 := 0) (a1 := 0)
  | rdstatus => exact decodeDescriptor_rdstatus (a0 := 0) (a1 := 0)
  | sendcmd op => exact decodeDescriptor_sendcmd (byteOperand_setWidth op)
  | erase a => exact decodeDescriptor_erase hok
  | waitflash => exact decodeDescriptor_waitflash (a0 := 0) (a1 := 0)
  | progpage a n => exact decodeDescriptor_progpage_operands hok
  | flashRdsr rest => exact decodeFrame_rdsr c rest
  | flashWren => exact decodeFrame_wren f
  | flashSe a => exact (decodeFrame_se f _ _ _).trans (by rw [addrOfBytes_extract])
  | flashPp a data => exact (decodeFrame_pp f _ _ _ data).trans (by rw [addrOfBytes_extract])

/-! ### What was decoded is what the encoder writes (R77, R82) -/

/-- The descriptor `d` is the encoder's descriptor `e` of `i` but for the operand fields that `i` does not use. -/
def AgreeOnUsedFields (i : Instr) (e d : BitVec 68) : Prop :=
  descOp e = descOp d ∧ (usesA0 i = true → descA0 e = descA0 d) ∧ (usesA1 i = true → descA1 e = descA1 d)

theorem agreeOnUsedFields_descriptor {i : Instr} {d : BitVec 68} {op : BitVec 4} {a0 a1 : Word}
    (hop : (descOp d).toNat = op.toNat) (h0 : usesA0 i = true → a0 = descA0 d)
    (h1 : usesA1 i = true → a1 = descA1 d) : AgreeOnUsedFields i (descriptor op a0 a1) d := by
  rw [AgreeOnUsedFields, descOp_descriptor, descA0_descriptor, descA1_descriptor]
  exact ⟨(BitVec.eq_of_toNat_eq hop).symm, h0, h1⟩

theorem encode_of_decodeDescriptor (c : Cfg) {d : BitVec 68} {i : Instr} (h : decodeDescriptor d = .ok i) :
    i.fieldsOk = true ∧ ∃ e, encode c i = .descriptor e ∧ AgreeOnUsedFields i e d := by
  unfold decodeDescriptor at h
  split at h
  case h_1 hop => -- IRW
    split at h <;> cases h
    next hr => exact ⟨rfl, _, rfl, agreeOnUsedFields_descriptor hop (fun _ => byteOperand_some hr) fun _ => rfl⟩
  case h_2 hop => -- IRR
    split at h <;> cases h
    next hr => exact ⟨rfl, _, rfl, agreeOnUsedFields_descriptor hop (fun _ => byteOperand_some hr) nofun⟩
  case h_5 hop => -- SETMODE
    split at h <;> cases h
    next hm => exact ⟨rfl, _, rfl, agreeOnUsedFields_descriptor hop (fun _ => modeOfIndex_some hm) nofun⟩
  case h_6 hop => -- SETCNT
    cases h
    exact ⟨rfl, _, rfl, agreeOnUsedFields_descriptor hop (fun _ => rfl) nofun⟩
  case h_9 hop => -- SENDCMD
    split at h <;> cases h
    next hb => exact ⟨rfl, _, rfl, agreeOnUsedFields_descriptor hop (fun _ => byteOperand_some hb) nofun⟩
  case h_10 hop => -- ERASE
    split at h <;> cases h
    next ha => exact ⟨ha, _, rfl, agreeOnUsedFields_descriptor hop (fun _ => rfl) nofun⟩
  case h_12 hop => -- PROGPAGE
    split at h <;> cases h
    next ha => exact ⟨ha, _, rfl, agreeOnUsedFields_descriptor hop (fun _ => rfl) fun _ => rfl⟩
  case h_13 => cases h -- reserved
  -- the operations without operands
  all_goals
    next hop =>
      cases h
      exact ⟨rfl, _, rfl, agreeOnUsedFields_descriptor hop nofun nofun⟩

theorem decodeSe_ok {rest : List Byte} {i : Instr} (h : decodeSe rest = .ok i) :
    ∃ a, rest = bytesOfAddr a ∧ i = .flashSe a := by
  unfold decodeSe at h
  split at h <;> cases h
  exact ⟨_, (bytesOfAddr_addrOfBytes ..).symm, rfl⟩

theorem decodePp_ok {rest : List Byte} {i : Instr} (h : decodePp rest = .ok i) :
    ∃ a data, rest = bytesOfAddr a ++ data ∧ i = .flashPp a data := by
  unfold decodePp at h
  split at h <;> cases h
  exact ⟨_, _, by rw [bytesOfAddr_addrOfBytes]; rfl, rfl⟩

theorem encode_of_decodeFrame {c : Cfg} {bytes : List Byte} {i : Instr} (h : decodeFrame c bytes = .ok i) :
    encode c i = .frame bytes := by
  cases bytes with
  | nil => cases h
  | cons op rest =>
    simp only [decodeFrame] at h
    split at h
    next hop => cases h; rw [hop]; rfl
    split at h
    next hop =>
      split at h <;> cases h
      rw [hop]; rfl
    split at h
    next hop => obtain ⟨a, rfl, rfl⟩ := decodeSe_ok h; rw [hop]; rfl
    split at h
    next hop => obtain ⟨a, data, rfl, rfl⟩ := decodePp_ok h; rw [hop]; rfl
    · cases h

/-- Settles O4: the inversions of the two decoders. -/
theorem encodeOfDecode : Obligations.EncodeOfDecode := by
  refine ⟨fun c d i h => ?_, fun c bytes i h => ⟨isCommand_of_decodeFrame h, encode_of_decodeFrame h⟩⟩
  exact ⟨decodeDescriptor_isCommand h, encode_of_decodeDescriptor c h⟩

/-! ### The opcode table (R86) -/

theorem descriptor_eta (d : BitVec 68) : descriptor (descOp d) (descA0 d) (descA1 d) = d := by
  rw [descriptor, descOp, descA0, descA1,
    BitVec.extractLsb'_append_extractLsb'_eq_extractLsb' (show 32 = 0 + 32 from rfl),
    BitVec.extractLsb'_append_extractLsb'_eq_extractLsb' (show 64 = 0 + (32 + 32) from rfl), BitVec.extractLsb'_eq_self]

/-- The table tells descriptors apart by their operation code alone. -/
theorem rowsOf_congr {d e : BitVec 68} (h : descOp d = descOp e) : rowsOf (.descriptor d) = rowsOf (.descriptor e) := by
  rw [← descriptor_eta d, ← descriptor_eta e, Laws.Row.rowsOf_descriptor, Laws.Row.rowsOf_descriptor, h]

/-- Every instruction's code lies in its own row and in no other. -/
theorem rowsOf_encode (i : Instr) : rowsOf (encode refCfg i) = [i.mnemonic] := by
  cases i with
  | irw r v => exact Laws.Row.irw r v
  | irr r => exact Laws.Row.irr r
  | mspien => exact Laws.Row.mspien
  | mspidis => exact Laws.Row.mspidis
  | setmode m => exact Laws.Row.setmode m
  | setcnt v => exact Laws.Row.setcnt v
  | waitdone => exact Laws.Row.waitdone
  | rdstatus => exact Laws.Row.rdstatus
  | sendcmd op => exact Laws.Row.sendcmd op
  | erase a => exact Laws.Row.erase a
  | waitflash => exact Laws.Row.waitflash
  | progpage a n => exact Laws.Row.progpage a n
  | flashRdsr rest => exact Laws.Row.flashRdsr rest
  | flashWren => exact Laws.Row.flashWren
  | flashSe a => exact Laws.Row.flashSe a
  | flashPp a data => exact Laws.Row.flashPp a data

/-- Settles O5: a code that decodes agrees in its operation code, or in every byte, with the encoder's, which has one row. -/
theorem decodedCodeHasOneRow : Obligations.DecodedCodeHasOneRow := by
  intro code i h
  cases code with
  | descriptor d =>
    obtain ⟨-, e, he, hop, -⟩ := encode_of_decodeDescriptor refCfg h
    rw [← rowsOf_congr hop, ← he, rowsOf_encode]
  | frame bytes => rw [← encode_of_decodeFrame h, rowsOf_encode]

/-- Settles O1: sixteen fixed words, each read by the decoder. -/
theorem tableWordsDecode : Obligations.TableWordsDecode := by
  unfold Obligations.TableWordsDecode
  decide

/-! ### Command words (R74, R120 to R123, R131) -/

/-- At a label that sends a command word the micro-step writes that word to SPITX. -/
theorem microStep_of_commandWordAt {s : State} {f : Frame} {callers : List Frame} {w : Word}
    (hp : s.seq.pc = f :: callers) (hw : commandWordAt s.cfg s.seq.addr f = some w) : microStep s = sendWord w s := by
  obtain ⟨op, l⟩ := f
  simp only [microStep, hp]
  cases op with
  | rdstatus =>
    obtain ⟨rfl, rfl⟩ := Option.ite_some_none_eq_some.mp hw
    rw [← cmdWord1_eq]
    rfl
  | sendcmd b =>
    obtain ⟨rfl, rfl⟩ := Option.ite_some_none_eq_some.mp hw
    rw [← cmdWord1_eq]
    rfl
  | erase a =>
    obtain ⟨rfl, rfl⟩ := Option.ite_some_none_eq_some.mp hw
    rw [← cmdWord_eq]
    rfl
  | progpage a n =>
    obtain ⟨rfl, rfl⟩ := Option.ite_some_none_eq_some.mp hw
    rw [← cmdWord_eq]
    rfl
  | _ => cases hw

/-- Settles O27: the micro-step is `sendWord`, and `sendWord_ok` says what that does. -/
theorem commandWordsSent : Obligations.CommandWordsSent := by
  intro i f callers s w hw hi hr hfly hword
  obtain ⟨he, hp, hf⟩ := exec_top hi hr
  have hpc : (wordSent w s).seq.pc = f :: callers := hp
  rw [he, microStep_of_commandWordAt hp hword, sendWord_ok (facts_of_wf hw) w hf hfly, nextLabel, hpc]

end Sys2Proof.Machine
end

section
/-! PROOFS. Register access (spec/40_register_access.md R102 to R104), and the end of an open frame by whichever operation writes mode idle
(spec/44_engine_and_flash.md R143, R156, R162). Each of these operations is at a micro-step that makes one bus transaction and returns, so
that what is left to say is what the transaction does. -/

namespace Sys2Proof.Machine

open Sys2Proof

/-! ### A write transaction that ends its operation -/

/-- The write succeeds: the operation returns to the frames below it (R24 (b), (d)). -/
theorem andThen_writeReg_returnOp {r : RegNum} {v : Word} {s t : State} {f : Frame} {callers : List Frame}
    (hp : s.seq.pc = f :: callers) (h : writeReg r v s = .next t) :
    andThen (writeReg r v s) returnOp = .next (returnTo callers t) := by
  rw [h, returnOp_next hp t (congrArg Sequencer.pc (writeReg_side h).seq)]

/-- IRW's micro-step is its one write transaction (R102). -/
theorem microStep_irw {r : RegNum} {v : Word} {l : Nat} {s : State} {callers : List Frame}
    (hp : s.seq.pc = ⟨.irw r v, l⟩ :: callers) : microStep s = iwrite r v returnOp s := by
  simp only [microStep, hp, microIrw]

section Irw

variable {r : RegNum} {v : Word} {s : State} (hr : runningAt (.irw r v) [⟨.irw r v, 0⟩] s = true)

include hr

/-- The write that IRW, issued by the host, makes succeeds: the block is Idle and not busy. -/
theorem exec_irw_next {t : State} (h : writeReg r v s = .next t) : exec (.irw r v) s = .next (finish t) := by
  obtain ⟨he, hp, hf⟩ := exec_top rfl hr
  rw [he, microStep_irw hp, iwrite_ok hf, andThen_writeReg_returnOp hp h, returnTo_nil]

theorem exec_irw_refused {e : Refusal} (h : writeReg r v s = .refused e) : exec (.irw r v) s = .refused e := by
  obtain ⟨he, hp, hf⟩ := exec_top rfl hr
  rw [he, microStep_irw hp, iwrite_ok hf, h]
  rfl

end Irw

/-! ### A write to SPICTL that is refused (R145, R151, R153, R154) -/

section Refused

variable {s : State} {v : Word} (f : Facts s.cfg) (hfly : s.chip.fly = none)

include f hfly

/-- Master SPI off in a mode that is not idle (R151). -/
theorem write_msenOff (he : msenFlag s.cfg v = false) (hm : modeOf s.cfg v ≠ .idle) :
    writeReg s.cfg.regSpictl v s = .refused .msenOff := by
  rw [writeReg_spictl v hfly, writeSpictl_eq f, if_pos ⟨he, hm⟩]

/-- Transfer or update written again (R153). -/
theorem write_modeRewritten (he : msenFlag s.cfg v = true) (hm : modeOf s.cfg v = .transfer ∨ modeOf s.cfg v = .update)
    (h : modeOf s.cfg s.chip.spictl = modeOf s.cfg v) : writeReg s.cfg.regSpictl v s = .refused .modeRewritten := by
  rw [writeReg_spictl v hfly, writeSpictl_eq f, if_neg (by simp [he]), if_pos h.symm, h]
  rcases hm with hm | hm <;> rw [hm] <;> rfl

/-- To transfer or update out of idle, or with chip-select deasserted (R154). -/
theorem write_notSelected (he : msenFlag s.cfg v = true) (hm : modeOf s.cfg v = .transfer ∨ modeOf s.cfg v = .update)
    (hne : modeOf s.cfg s.chip.spictl ≠ modeOf s.cfg v) (h : modeOf s.cfg s.chip.spictl = .idle ∨ s.chip.cs = false) :
    writeReg s.cfg.regSpictl v s = .refused .notSelected := by
  rw [writeReg_spictl v hfly, writeSpictl_eq f, if_neg (by simp [he]), if_neg (Ne.symm hne)]
  rcases hm with hm | hm <;> rw [hm] <;> exact if_pos h

/-- To transfer with a byte count above 4 (R145). -/
theorem write_byteCount (he : msenFlag s.cfg v = true) (hm : modeOf s.cfg v = .transfer)
    (h : modeOf s.cfg s.chip.spictl = .enable ∨ modeOf s.cfg s.chip.spictl = .update) (hcs : s.chip.cs = true)
    (hn : 4 < transferBytes s.cfg v) : writeReg s.cfg.regSpictl v s = .refused .byteCount := by
  have hne : modeOf s.cfg s.chip.spictl ≠ .transfer := by rcases h with h | h <;> simp [h]
  have hsel : ¬ (modeOf s.cfg s.chip.spictl = .idle ∨ (controlStored v s).chip.cs = false) := by
    rcases h with h | h <;> simp [h, controlStored, hcs]
  have hn' : transferBytes s.cfg (keepDone s.cfg s.chip.spictl v) > 4 := by rwa [transferBytes_keepDone f]
  rw [writeReg_spictl v hfly, writeSpictl_eq f, if_neg (by simp [he]), hm, if_neg hne.symm, changeMode, startTransfer,
    if_neg hsel]
  exact if_pos hn'

end Refused

/-- Settles O14: one lemma for each row of the table of R154 and one for each refusal. -/
theorem irwControl : Obligations.IrwControl := by
  intro r v s hw hr hctl hfly om nm
  subst hctl
  have f := facts_of_wf hw
  refine ⟨fun hm h => ?_, fun hm he h => ?_, fun hm he h hcs => ?_, fun hm he h hcs hn => ?_, fun hm he h hcs => ?_,
    fun he hm => ?_, fun he hm h => ?_, fun he hm hne h => ?_, fun he hm h hcs hn => ?_⟩
  · exact exec_irw_next hr (write_idle f hfly hm h)
  · exact exec_irw_next hr (write_enable_kept f hfly hm he h)
  · exact exec_irw_next hr (write_enable f hfly hm he h hcs)
  · exact exec_irw_next hr (write_transfer f hfly hm he h hcs hn)
  · exact exec_irw_next hr (write_update f hfly hm he h hcs)
  · exact exec_irw_refused hr (write_msenOff f hfly he hm)
  · exact exec_irw_refused hr (write_modeRewritten f hfly he hm h)
  · exact exec_irw_refused hr (write_notSelected f hfly he hm hne h)
  · exact exec_irw_refused hr (write_byteCount f hfly he hm h hcs hn)

/-! ### Writes to the other registers (R102, R147) -/

theorem namedReg_eq_false_iff {c : Cfg} {r : RegNum} :
    namedReg c r = false ↔ r ≠ c.regSpictl ∧ r ≠ c.regSpitx ∧ r ≠ c.regSpirx := by
  simp [namedReg, and_assoc]

/-- A write to SPIRX with no transfer in flight (R147). -/
theorem write_spirx {s : State} (f : Facts s.cfg) (v : Word) (hfly : s.chip.fly = none) :
    writeReg s.cfg.regSpirx v s =
      .next (record (.busWrite s.cfg.regSpirx v) { s with chip := { s.chip with spirx := v } }) := by
  simp [writeReg, hfly, f.ctl_ne_rx.symm, f.tx_ne_rx.symm]

/-- A write to a register of no name, a transfer in flight or not (R147). -/
theorem write_unnamed {r : RegNum} {s : State} (v : Word) (h : namedReg s.cfg r = false) :
    writeReg r v s =
      .next (record (.busWrite r v)
        { s with chip := { s.chip with other := Memory.write unlistedReg s.chip.other r.toNat v } }) := by
  obtain ⟨h1, h2, h3⟩ := namedReg_eq_false_iff.mp h
  simp [writeReg, h, h1, h2, h3]

/-- Settles O13: one lemma for each kind of register. -/
theorem irwStores : Obligations.IrwStores := by
  intro r v s hw hr
  have f := facts_of_wf hw
  refine ⟨fun htx hfly => ?_, fun hrx hfly => ?_, fun hn => ?_⟩
  · subst htx
    exact exec_irw_next hr (write_spitx f v hfly)
  · subst hrx
    exact exec_irw_next hr (write_spirx f v hfly)
  · exact exec_irw_next hr (write_unnamed v hn)

/-! ### Reads (R103, R141) -/

/-- A read answers the stored value, but of SPIRX while a transfer is in flight (R141). -/
theorem readReg_stored {r : RegNum} {v : Word} {s : State} (h : r ≠ s.cfg.regSpirx ∨ s.chip.fly = none)
    (hv : regValue r s = v) : readReg r s = (v, s) := by
  rw [readReg, if_neg, hv]
  rintro ⟨hr, hfly⟩
  rcases h with h | h
  · exact h hr
  · simp [h] at hfly

section RegValue

variable {r : RegNum} {s : State}

theorem regValue_spictl (hr : r = s.cfg.regSpictl) : regValue r s = s.chip.spictl := if_pos hr

theorem regValue_spitx (f : Facts s.cfg) (hr : r = s.cfg.regSpitx) : regValue r s = s.chip.spitx := by
  rw [regValue, hr, if_neg f.ctl_ne_tx.symm, if_pos rfl]

theorem regValue_spirx (f : Facts s.cfg) (hr : r = s.cfg.regSpirx) : regValue r s = s.chip.spirx := by
  rw [regValue, hr, if_neg f.ctl_ne_rx.symm, if_neg f.tx_ne_rx.symm, if_pos rfl]

theorem regValue_unnamed (h : namedReg s.cfg r = false) :
    regValue r s = Memory.read unlistedReg s.chip.other r.toNat := by
  obtain ⟨h1, h2, h3⟩ := namedReg_eq_false_iff.mp h
  rw [regValue, if_neg h1, if_neg h2, if_neg h3]

end RegValue

/-- IRR issued by the host: RESULT takes what the read answers, and the operation ends (R22, R103). -/
theorem exec_irr {r : RegNum} {v : Word} {s u : State} (hr : runningAt (.irr r) [⟨.irr r, 0⟩] s = true)
    (h : readReg r s = (v, u)) (hu : u.seq.pc = s.seq.pc) :
    exec (.irr r) s = .next (finish (setResult v (record (.busRead r v) u))) := by
  obtain ⟨he, hp, hf⟩ := exec_top rfl hr
  have hmicro : microStep s = returnOp (setResult v (record (.busRead r v) u)) := by
    simp only [microStep, hp, microIrr, iread_ok hf, h]
  rw [he, hmicro]
  simp [returnOp, hu, hp]

/-- Settles O15: `readReg` answers the stored value and the same state, or a draw and the state with that draw taken. -/
theorem irrReads : Obligations.IrrReads := by
  intro r s hw hr
  have f := facts_of_wf hw
  refine ⟨fun h => ?_, fun hrx hfly => ?_⟩
  · exact ⟨regValue r s, regValue_spictl, regValue_spitx f, regValue_spirx f, regValue_unnamed,
      exec_irr hr (readReg_stored h rfl) rfl⟩
  · have hdraw : readReg r s = drawWord s := if_pos ⟨hrx, Option.isSome_iff_ne_none.mpr hfly⟩
    exact ⟨_, exec_irr hr hdraw rfl⟩

/-! ### The round trip (R104) -/

/-- A register other than SPICTL reads what was written to it. -/
theorem Written.readReg_same {r : RegNum} {v : Word} {s t : State} (f : Facts s.cfg)
    (hwf : Memory.wf unlistedReg s.chip.other = true) (h : Written s r v t) (hr : r ≠ s.cfg.regSpictl) :
    readReg r t = (v, t) := by
  cases h with
  | spitx htx => exact readReg_stored (.inl (htx ▸ f.tx_ne_rx)) (regValue_spitx f htx)
  | spirx hrx hfly => exact readReg_stored (.inr hfly) (regValue_spirx f hrx)
  | other hn =>
    obtain ⟨-, -, hrx⟩ := namedReg_eq_false_iff.mp hn
    refine readReg_stored (.inl hrx) ?_
    rw [regValue_unnamed (by exact hn)]
    exact (Memory.read_write hwf).trans (if_pos rfl)
  | stored hctl => exact absurd hctl hr
  | selected hctl => exact absurd hctl hr
  | started hctl => exact absurd hctl hr
  | ended u hctl => exact absurd hctl hr

/-- SPICTL holds every bit written but DONE, which is the engine's: as it was, or 0 if the write started a transfer (R30, R145). -/
theorem Written.spictl_bits {v : Word} {s t : State} (f : Facts s.cfg) (h : Written s s.cfg.regSpictl v t) :
    (∀ b, b < 32 → b ≠ s.cfg.doneBit → t.chip.spictl.getLsbD b = v.getLsbD b) ∧
      t.chip.spictl.getLsbD s.cfg.doneBit
        = if t.chip.fly = none then s.chip.spictl.getLsbD s.cfg.doneBit else false := by
  obtain ⟨-, -, ⟨hctl, hfly⟩ | ⟨hctl, hfly⟩⟩ := h.spictl f
  · rw [hctl, if_pos hfly]
    exact ⟨fun b hb hne => by rw [getLsbD_keepDone _ _ _ _ hb, if_neg hne], doneFlag_keepDone f _ _⟩
  · rw [hctl, if_neg hfly]
    refine ⟨fun b hb hne => ?_, doneFlag_clear f _⟩
    rw [getLsbD_clearBit _ _ _ hb, getLsbD_keepDone _ _ _ _ hb, if_neg hne]
    simp [hne]

/-- Settles O17: by what a write can do (`Written`), the register written reads back. -/
theorem writeThenRead : Obligations.WriteThenRead := by
  intro r v s t hw hwf h
  have f := facts_of_wf hw
  have hwr := writeReg_cases f h
  refine ⟨hwr.readReg_same f hwf, fun hr => ?_⟩
  subst hr
  have hcfg : t.cfg = s.cfg := (writeReg_side h).cfg
  have hread : readReg s.cfg.regSpictl t = (t.chip.spictl, t) := hcfg ▸ readReg_spictl (hcfg ▸ f)
  exact ⟨_, hread, hwr.spictl_bits f⟩

/-! ### The end of an open frame (R143, R156, R162) -/

/-- At the write half of MSPIEN, MSPIDIS or SETMODE the micro-step writes SPICTL back and returns (R110 to R112). -/
theorem microStep_of_valueWrittenBack {s : State} {f : Frame} {callers : List Frame} {v : Word}
    (hp : s.seq.pc = f :: callers) (hop : f.op = .mspien ∨ f.op = .mspidis ∨ ∃ m, f.op = .setmode m) (hl : f.label = 1)
    (hv : valueWrittenBack s.cfg s.seq.tmp f.op = some v) : microStep s = iwrite s.cfg.regSpictl v returnOp s := by
  obtain ⟨op, l⟩ := f
  subst hl
  simp only [microStep, hp]
  obtain rfl | rfl | ⟨m, rfl⟩ := hop <;> cases hv <;> rfl

theorem endFrame_nil {s : State} (h : s.flash.frame = []) : endFrame s = .next s := by
  rw [endFrame, h]
  rfl

theorem endFrame_of_undefinedFrame {s : State} (h : decodeFrame s.cfg s.flash.frame = .error .undefinedFrame) :
    endFrame s = undefinedFrame s := by
  rw [endFrame, h]

theorem undefinedFrame_contract {s : State} (h : s.cfg.flashModel = .contract) :
    undefinedFrame s = .fault .flashFrameUndefined := by
  rw [undefinedFrame, h]

theorem undefinedFrame_ignored {s : State} (h : s.cfg.flashModel ≠ .contract) : undefinedFrame s = .next s := by
  unfold undefinedFrame
  split
  · next hm => exact absurd hm h
  · rfl
  · rfl

/-- Settles O25: the micro-step writes mode idle, which ends the frame (`write_idle_frame`), and `endFrame` is the meaning of what the frame
decodes to. -/
theorem openFrameEnds : Obligations.OpenFrameEnds := by
  intro i f v callers s hw hi hr hwrite hfly hcs hom u
  have hc := facts_of_wf hw
  obtain ⟨he, hp, hf⟩ := exec_top hi hr
  have hstep : modeOf s.cfg v = .idle ∧ microStep s = iwrite s.cfg.regSpictl v returnOp s := by
    rcases hwrite with ⟨hop, hl, hv⟩ | ⟨rfl, hm⟩
    · exact ⟨valueWrittenBack_idle hc hv hop,
        microStep_of_valueWrittenBack hp (hop.imp_right (Or.imp_right fun h => ⟨_, h⟩)) hl hv⟩
    · exact ⟨hm, microStep_irw hp⟩
  obtain ⟨hm, hmicro⟩ := hstep
  have hexec : exec i s = andThen (writeReg s.cfg.regSpictl v s) returnOp := by rw [he, hmicro, iwrite_ok hf]
  have hend : writeReg s.cfg.regSpictl v s = endFrame u := write_idle_frame hc hfly hm hom hcs
  have hnext {t : State} (h : endFrame u = .next t) : exec i s = .next (returnTo callers t) :=
    hexec.trans (andThen_writeReg_returnOp hp (hend.trans h))
  refine ⟨fun hnil => ?_, fun j t hd hj => ?_, fun hd hmodel => ?_, fun hd hmodel => ?_⟩
  · exact hnext (endFrame_nil hnil)
  · exact hnext ((endFrame_of_decodeFrame (s := u) hd (isCommand_of_decodeFrame hd)).trans hj)
  · exact hnext ((endFrame_of_undefinedFrame (s := u) hd).trans (undefinedFrame_ignored hmodel))
  · rw [hexec, hend, endFrame_of_undefinedFrame (s := u) hd, undefinedFrame_contract (s := u) hmodel]
    rfl

end Sys2Proof.Machine
end

section
/-! PROOFS. The mode-control operations (spec/41_mode_control.md R110 to R114, R115, R117): what the write half of a read-modify-write does,
one poll of WAITDONE, and what none of the five operations touches. -/

namespace Sys2Proof.Machine

open Sys2Proof

/-! ### The write half (R110 to R113) -/

/-- MSPIEN, MSPIDIS and SETMODE: the operations whose write half is their last micro-step. -/
def WritesBackLast (op : Instr) : Prop := op = .mspien ∨ op = .mspidis ∨ ∃ m, op = .setmode m

section WriteHalf

variable {i : Instr} {callers : List Frame} {s : State} (hi : i.isCommand = true)

include hi

/-- Where the write half is the last micro-step, the operation is one write transaction and a return (R110 to R112). -/
theorem exec_writesBackLast {op : Instr} {v : Word} (hop : WritesBackLast op)
    (hr : runningAt i (⟨op, 1⟩ :: callers) s = true) (hv : valueWrittenBack s.cfg s.seq.tmp op = some v) :
    exec i s = andThen (writeReg s.cfg.regSpictl v s) returnOp := by
  obtain ⟨he, hp, hf⟩ := exec_top hi hr
  rw [he, microStep_of_valueWrittenBack hp hop rfl hv, iwrite_ok hf]

theorem exec_writesBackLast_next {op : Instr} {v : Word} {u : State} (hop : WritesBackLast op)
    (hr : runningAt i (⟨op, 1⟩ :: callers) s = true) (hv : valueWrittenBack s.cfg s.seq.tmp op = some v)
    (hw : writeReg s.cfg.regSpictl v s = .next u) : exec i s = .next (returnTo callers u) :=
  (exec_writesBackLast hi hop hr hv).trans (andThen_writeReg_returnOp (exec_top hi hr).2.1 hw)

theorem exec_writesBackLast_refused {op : Instr} {v : Word} {e : Refusal} (hop : WritesBackLast op)
    (hr : runningAt i (⟨op, 1⟩ :: callers) s = true) (hv : valueWrittenBack s.cfg s.seq.tmp op = some v)
    (hw : writeReg s.cfg.regSpictl v s = .refused e) : exec i s = .refused e := by
  rw [exec_writesBackLast hi hop hr hv, hw]
  rfl

/-- SETCNT's write half is a write transaction, after which it goes on to its next label (R113). -/
theorem exec_setcnt_write {c : Word} (hr : runningAt i (⟨.setcnt c, 1⟩ :: callers) s = true) :
    exec i s = andThen (writeReg s.cfg.regSpictl (withCount s.cfg s.seq.tmp c) s) advance := by
  obtain ⟨he, hp, hf⟩ := exec_top hi hr
  rw [he, ← iwrite_ok hf]
  simp only [microStep, hp, microSetcnt]

end WriteHalf

/-- Settles O21: what is written is in mode idle, and with no frame open a write of mode idle is storage only (`write_idle`). -/
theorem masterSpiWrites : Obligations.MasterSpiWrites := by
  intro i op callers s hw hi hop hr hfly h
  have f := facts_of_wf hw
  have hwrites {v : Word} (hv : valueWrittenBack s.cfg s.seq.tmp op = some v) :
      exec i s = .next (returnTo callers (controlStored v s)) :=
    exec_writesBackLast_next hi (hop.imp_right .inl) hr hv
      (write_idle f hfly (valueWrittenBack_idle f hv (hop.imp_right .inl)) h)
  rcases hop with rfl | rfl
  · exact ⟨_, fun _ => rfl, nofun, hwrites rfl⟩
  · exact ⟨_, nofun, fun _ => rfl, hwrites rfl⟩

/-- Settles O22: one lemma for each row of the table of R154 and one for each refusal. -/
theorem setmodeWrites : Obligations.SetmodeWrites := by
  intro i m callers s hw hi hr hfly v om
  have f := facts_of_wf hw
  have hop : WritesBackLast (.setmode m) := .inr (.inr ⟨m, rfl⟩)
  have hm : modeOf s.cfg v = m := modeOf_withMode f _ _
  have he : msenFlag s.cfg v = msenFlag s.cfg s.seq.tmp := msenFlag_withMode f _ _
  have hn : transferBytes s.cfg v = transferBytes s.cfg s.seq.tmp := transferBytes_withMode f _ _
  have next {u : State} (h : writeReg s.cfg.regSpictl v s = .next u) : exec i s = .next (returnTo callers u) :=
    exec_writesBackLast_next hi hop hr rfl h
  have refused {e : Refusal} (h : writeReg s.cfg.regSpictl v s = .refused e) : exec i s = .refused e :=
    exec_writesBackLast_refused hi hop hr rfl h
  rw [← he, ← hn, ← hm]
  exact ⟨fun h1 h2 => next (write_idle f hfly h1 h2), fun h1 h2 h3 => next (write_enable_kept f hfly h1 h2 h3),
    fun h1 h2 h3 h4 => next (write_enable f hfly h1 h2 (fun h => h3 h) h4),
    fun h1 h2 h3 h4 h5 => next (write_transfer f hfly h1 h2 h3 h4 h5),
    fun h1 h2 h3 h4 => next (write_update f hfly h1 h2 h3 h4), fun h1 h2 => refused (write_msenOff f hfly h1 h2),
    fun h1 h2 h3 => refused (write_modeRewritten f hfly h1 h2 h3),
    fun h1 h2 h3 h4 => refused (write_notSelected f hfly h1 h2 h3 h4),
    fun h1 h2 h3 h4 h5 => refused (write_byteCount f hfly h1 h2 h3 h4 h5)⟩

/-- Settles O23: the byte-count field holds neither the mode nor MSEN, so the write leaves the mode as it was (R153). -/
theorem setcntWrites : Obligations.SetcntWrites := by
  intro i c callers s hw hi hr hfly htmp om
  have f := facts_of_wf hw
  have hm : modeOf s.cfg (withCount s.cfg s.seq.tmp c) = om := (modeOf_withCount f _ _).trans htmp
  have he : msenFlag s.cfg (withCount s.cfg s.seq.tmp c) = msenFlag s.cfg s.seq.tmp := msenFlag_withCount f _ _
  have hexec := exec_setcnt_write hi hr
  refine ⟨fun h => ?_, fun h hms => ?_, fun h hms => ?_⟩
  · have hstored : writeReg s.cfg.regSpictl (withCount s.cfg s.seq.tmp c) s
        = .next (controlStored (withCount s.cfg s.seq.tmp c) s) := by
      rcases h with h | ⟨h, hms⟩
      · exact write_idle f hfly (hm.trans h) (.inl h)
      · exact write_enable_kept f hfly (hm.trans h) (he.trans hms) (.inl h)
    rw [hexec, hstored]
    simp only [andThen, advance, nextLabel, controlStored, (exec_top hi hr).2.1]
    rfl
  · rw [hexec, write_modeRewritten f hfly (he.trans hms) (hm.symm ▸ h) hm.symm]
    rfl
  · rw [hexec, write_msenOff f hfly (he.trans hms) (hm.symm ▸ h)]
    rfl

/-! ### One poll of WAITDONE (R114) -/

section Poll

variable {s : State} {callers : List Frame} {l : Nat} {n : Word} (f : Facts s.cfg) (hf : s.env.transportFails = false)
  (hp : s.seq.pc = ⟨.waitdone, l⟩ :: callers) (hn : s.seq.dpolls + 1 = n)

include f hf hp hn

/-- The three outcomes of a poll, `n` the count with this one. -/
theorem pollDone_outcomes :
    let u : State := { controlRead s with seq := { s.seq with tmp := s.chip.spictl, dpolls := n } }
    (doneFlag s.cfg s.chip.spictl = true → pollDone s = .next (returnTo callers u)) ∧
    (doneFlag s.cfg s.chip.spictl = false → (∀ k, s.cfg.pollLimit = some k → n.toNat < k) →
      pollDone s = .next (setPc (⟨.waitdone, 1⟩ :: callers) u)) ∧
    (∀ k, doneFlag s.cfg s.chip.spictl = false → s.cfg.pollLimit = some k → k ≤ n.toNat →
      pollDone s = .next (raiseError (.deviceUnresponsive .waitdone) u)) := by
  subst hn
  intro u
  have hpoll := pollDone_ok f hf hp
  refine ⟨fun hd => ?_, fun hd hk => ?_, fun k hd hk hle => ?_⟩
  · rw [hpoll, if_pos hd]
  · have hx : ¬ pollsExhausted s.cfg (s.seq.dpolls + 1) = true := fun hx => by
      obtain ⟨k, hk', hle⟩ := pollsExhausted_iff.mp hx
      exact Nat.not_le.mpr (hk k hk') hle
    rw [hpoll, if_neg (by simp [hd]), if_neg hx]
  · rw [hpoll, if_neg (by simp [hd]), if_pos (pollsExhausted_iff.mpr ⟨k, hk, hle⟩)]

end Poll

/-- Where WAITDONE is called and returns, its caller goes on at its next label (R121 to R123, R131). -/
theorem returnTo_of_calls_waitdone {c : Cfg} {f : Frame} (callers : List Frame) (s : State)
    (h : calleeAt c f = some .waitdone) : returnTo (f :: callers) s = setPc (⟨f.op, f.label + 1⟩ :: callers) s := by
  obtain ⟨op, l⟩ := f
  cases op with
  | setcnt n => simpa using calleeAt_setcnt h
  | waitflash => simpa using calleeAt_waitflash h
  | rdstatus => rfl
  | sendcmd b =>
    have hl : l < 5 := by have := calleeAt_sendcmd h; simp at this; omega
    rw [returnTo_sendcmd, if_pos hl]
  | erase a =>
    have hl : l < 5 := by have := calleeAt_erase h; simp at this; omega
    rw [returnTo_erase, if_pos hl]
  | progpage a n =>
    have hl : l < 19 := by have := calleeAt_progpage h; simp at this; omega
    rw [returnTo_progpage, if_pos hl]
  | _ => cases h

/-- Settles O24: WAITDONE's micro-step is one poll, after DPOLLS was zeroed at its first label, and a call of WAITDONE is that first label. -/
theorem waitdonePolls : Obligations.WaitdonePolls := by
  intro i f callers s hw hi hr
  have fs := facts_of_wf hw
  obtain ⟨he, hp, hf⟩ := exec_top hi hr
  refine ⟨fun hop => ?_, fun hc => ?_⟩
  · obtain ⟨op, l⟩ := f
    subst hop
    rw [he]
    cases l with
    | zero =>
      have hm : microStep s = pollDone (setDpolls 0 s) := by simp only [microStep, hp, microWaitdone]
      rw [hm]
      exact pollDone_outcomes (s := setDpolls 0 s) fs hf hp rfl
    | succ l =>
      have hm : microStep s = pollDone s := by simp only [microStep, hp, microWaitdone]
      rw [hm]
      exact pollDone_outcomes fs hf hp rfl
  · have hm : microStep s = pollDone (setDpolls 0 (pushFrame .waitdone s)) := microStep_of_calleeAt hp hc
    obtain ⟨hdone, hmore, hbound⟩ := pollDone_outcomes (s := setDpolls 0 (pushFrame .waitdone s)) (n := 1) fs hf
      (congrArg (_ :: ·) hp) rfl
    rw [he, hm]
    refine ⟨fun hd => ?_, fun hd hk => ?_, fun hd hk => ?_⟩
    · rw [hdone hd, returnTo_of_calls_waitdone _ _ hc]
      rfl
    · exact hmore hd fun k hk' => lt_of_le_of_ne (pollLimit_bounds hw hk').1 fun h => hk (hk'.trans (congrArg some h.symm))
    · exact hbound 1 hd hk le_rfl

/-! ### Field isolation (R115) -/

/-- What a write half leaves in the chip is what its write transaction leaves. -/
theorem exec_writeHalf {i op : Instr} {callers : List Frame} {s t : State} {v : Word} (hi : i.isCommand = true)
    (hr : runningAt i (⟨op, 1⟩ :: callers) s = true) (hv : valueWrittenBack s.cfg s.seq.tmp op = some v)
    (h : exec i s = .next t) : ∃ u, writeReg s.cfg.regSpictl v s = .next u ∧ t.chip = u.chip := by
  have hwrite : ∃ k, SeqCont k ∧ exec i s = andThen (writeReg s.cfg.regSpictl v s) k := by
    cases op with
    | mspien => exact ⟨_, seqCont_returnOp, exec_writesBackLast hi (.inl rfl) hr hv⟩
    | mspidis => exact ⟨_, seqCont_returnOp, exec_writesBackLast hi (.inr (.inl rfl)) hr hv⟩
    | setmode m => exact ⟨_, seqCont_returnOp, exec_writesBackLast hi (.inr (.inr ⟨m, rfl⟩)) hr hv⟩
    | setcnt c => cases hv; exact ⟨_, seqCont_advance, exec_setcnt_write hi hr⟩
    | _ => cases hv
  obtain ⟨k, hk, he⟩ := hwrite
  rw [he] at h
  cases hu : writeReg s.cfg.regSpictl v s with
  | next u => rw [hu] at h; exact ⟨u, rfl, (hk u t h).chip⟩
  | fault e => rw [hu] at h; cases h
  | refused e => rw [hu] at h; cases h

/-- A change of mode changes only the two bits of the mode. -/
theorem getLsbD_withMode_other {c : Cfg} (v : Word) (m : ModeName) {b : Nat} (hb : b < 32) (h0 : b ≠ c.modeLsb)
    (h1 : b ≠ c.modeLsb + 1) : (withMode c v m).getLsbD b = v.getLsbD b :=
  getLsbD_setfield_other _ _ _ _ _ (by omega) hb (by simp [bitsDisjoint]; omega)

/-- Two SPICTL values that agree in every bit but DONE are in one mode (R7). -/
theorem modeOf_eq_of_bits {c : Cfg} (f : Facts c) {v u : Word}
    (h : ∀ b, b < 32 → b ≠ c.doneBit → v.getLsbD b = u.getLsbD b) : modeOf c v = modeOf c u := by
  have hin := f.mode_in
  have hd := f.mode_done
  simp only [bitsDisjoint, Bool.or_eq_true, decide_eq_true_eq] at hd
  exact modeOf_congr _ _ fun b h1 h2 => h b (by omega) (by omega)

/-- Settles O26: SPICTL holds every bit written but DONE (`Written.spictl_bits`), and what is written differs from the fresh TMP only in the
named fields. -/
theorem fieldIsolation : Obligations.FieldIsolation := by
  intro i op callers s t hw hi hr hfresh h
  have f := facts_of_wf hw
  have hbits {v : Word} (hv : valueWrittenBack s.cfg s.seq.tmp op = some v) :
      ∀ b, b < 32 → b ≠ s.cfg.doneBit → t.chip.spictl.getLsbD b = v.getLsbD b := by
    obtain ⟨u, hu, hchip⟩ := exec_writeHalf hi hr hv h
    rw [hchip]
    exact ((writeReg_cases f hu).spictl_bits f).1
  refine ⟨?_, ?_, fun hop => ?_⟩
  · rintro m rfl
    refine ⟨(modeOf_eq_of_bits f (hbits rfl)).trans (modeOf_withMode f _ _), fun b hb hd h0 h1 => ?_⟩
    rw [hbits rfl b hb hd, getLsbD_withMode_other _ _ hb h0 h1, hfresh b hb hd]
  · rintro n rfl
    have hnb := f.nb_in
    have hdone := f.nb_done
    simp only [bitsDisjoint, Bool.or_eq_true, decide_eq_true_eq] at hdone
    refine ⟨?_, ?_, fun b hb hd hout => ?_⟩
    · rw [field_congr _ _ _ _ (by omega) fun b h1 h2 => hbits rfl b (by omega) (by omega)]
      exact field_setfield_same _ _ _ _ hnb
    · rw [modeOf_eq_of_bits f (hbits rfl), modeOf_withCount f, modeOf_eq_of_bits f hfresh]
    · rw [hbits rfl b hb hd, ← hfresh b hb hd]
      exact getLsbD_setfield_other _ _ _ _ _ (by omega) hb (by simp [bitsDisjoint]; omega)
  · have hmsen : s.cfg.msenBit ≠ s.cfg.doneBit := by
      have := f.done_msen
      simp [bitsDisjoint] at this
      omega
    have hother {b : Nat} (hb : b < 32) (hd : b ≠ s.cfg.doneBit) (h0 : b ≠ s.cfg.modeLsb) (h1 : b ≠ s.cfg.modeLsb + 1) :
        (withMode s.cfg s.seq.tmp .idle).getLsbD b = s.chip.spictl.getLsbD b := by
      rw [getLsbD_withMode_other _ _ hb h0 h1, hfresh b hb hd]
    rcases hop with rfl | rfl
    · refine ⟨(modeOf_eq_of_bits f (hbits rfl)).trans (valueWrittenBack_idle f rfl (.inl rfl)), ?_, fun b hb hd hm h0 h1 => ?_⟩
      · rw [msenFlag, hbits rfl _ f.msen_in hmsen, getLsbD_setBit _ _ _ f.msen_in]
        simp
      · rw [hbits rfl b hb hd, getLsbD_setBit _ _ _ hb, hother hb hd h0 h1]
        simp [hm]
    · refine ⟨(modeOf_eq_of_bits f (hbits rfl)).trans (valueWrittenBack_idle f rfl (.inr (.inl rfl))), ?_,
        fun b hb hd hm h0 h1 => ?_⟩
      · rw [msenFlag, hbits rfl _ f.msen_in hmsen, getLsbD_clearBit _ _ _ f.msen_in]
        simp
      · rw [hbits rfl b hb hd, getLsbD_clearBit _ _ _ hb, hother hb hd h0 h1]
        simp [hm]

/-! ### What the five operations never touch (R117) -/

/-- MSPIEN, MSPIDIS, SETMODE, SETCNT and WAITDONE. -/
def IsModeControl : Instr → Prop
  | .mspien | .mspidis | .setmode _ | .setcnt _ | .waitdone => True
  | _ => False

/-- The registers that R117 says stay as they were. -/
structure ModeSide (s t : State) : Prop where
  spitx : t.chip.spitx = s.chip.spitx
  spirx : t.chip.spirx = s.chip.spirx
  other : t.chip.other = s.chip.other
  word : t.seq.word = s.seq.word
  stat : t.seq.stat = s.seq.stat
  idx : t.seq.idx = s.seq.idx
  fpolls : t.seq.fpolls = s.seq.fpolls
  result : t.seq.result = s.seq.result

theorem ModeSide.refl (s : State) : ModeSide s s := ⟨rfl, rfl, rfl, rfl, rfl, rfl, rfl, rfl⟩

theorem ModeSide.trans {s t u : State} (a : ModeSide s t) (b : ModeSide t u) : ModeSide s u :=
  ⟨b.spitx.trans a.spitx, b.spirx.trans a.spirx, b.other.trans a.other, b.word.trans a.word, b.stat.trans a.stat,
    b.idx.trans a.idx, b.fpolls.trans a.fpolls, b.result.trans a.result⟩

/-- Only operations of the five are called by one of them. -/
theorem isModeControl_of_calleeAt {c : Cfg} {f : Frame} {i : Instr} (h : calleeAt c f = some i)
    (hf : IsModeControl f.op) : IsModeControl i := by
  obtain ⟨op, l⟩ := f
  cases op with
  | setcnt n => obtain ⟨-, rfl⟩ := calleeAt_setcnt h; trivial
  | mspien => cases h
  | mspidis => cases h
  | setmode m => cases h
  | waitdone => cases h
  | _ => cases hf

/-- While one of the five runs, every frame is of one of them. -/
theorem isModeControl_of_callsOk {c : Cfg} {pc : List Frame} {b : Frame} (hc : callsOk c pc = true)
    (hb : pc.getLast? = some b) (hm : IsModeControl b.op) : ∀ f ∈ pc, IsModeControl f.op := by
  induction pc with
  | nil => exact fun f hf => absurd hf List.not_mem_nil
  | cons f callers ih =>
    cases callers with
    | nil =>
      cases hb
      simpa using hm
    | cons g rest =>
      obtain ⟨hcall, hrest⟩ := callsOk_cons_cons.mp hc
      have hcallers := ih hrest (by simpa using hb)
      exact List.forall_mem_cons.mpr ⟨isModeControl_of_calleeAt hcall (hcallers g List.mem_cons_self), hcallers⟩

theorem returnTo_modeSide {callers : List Frame} (s : State) (h : ∀ f ∈ callers, IsModeControl f.op) :
    ModeSide s (returnTo callers s) := by
  induction callers with
  | nil => exact ⟨rfl, rfl, rfl, rfl, rfl, rfl, rfl, rfl⟩
  | cons f callers ih =>
    obtain ⟨hf, hcallers⟩ := List.forall_mem_cons.mp h
    obtain ⟨op, l⟩ := f
    cases op with
    | mspien => exact ih hcallers
    | mspidis => exact ih hcallers
    | setmode m => exact ih hcallers
    | setcnt n => exact ih hcallers
    | waitdone => exact ih hcallers
    | _ => cases hf

/-- A write to SPICTL changes no other register. -/
theorem writeReg_spictl_chip {v : Word} {s t : State} (h : writeReg s.cfg.regSpictl v s = .next t) :
    t.chip.spitx = s.chip.spitx ∧ t.chip.spirx = s.chip.spirx ∧ t.chip.other = s.chip.other := by
  unfold writeReg at h
  split at h
  · cases h
  rw [if_pos rfl] at h
  simp only [writeSpictl] at h
  split at h
  · cases h
  split at h
  · unfold sameMode at h
    split at h <;> cases h <;> exact ⟨rfl, rfl, rfl⟩
  unfold changeMode at h
  split at h
  · unfold deassertCs at h
    split at h
    · rw [(endFrame_cases h).1.chip]
      exact ⟨rfl, rfl, rfl⟩
    · cases h; exact ⟨rfl, rfl, rfl⟩
  · unfold assertCs at h
    split at h <;> cases h <;> exact ⟨rfl, rfl, rfl⟩
  · unfold startTransfer at h
    split at h
    · cases h
    split at h <;> cases h
    exact ⟨rfl, rfl, rfl⟩
  · unfold latchUpdate at h
    split at h <;> cases h
    exact ⟨rfl, rfl, rfl⟩

theorem writeReg_spictl_modeSide {v : Word} {s t : State} (h : writeReg s.cfg.regSpictl v s = .next t) : ModeSide s t := by
  obtain ⟨htx, hrx, hother⟩ := writeReg_spictl_chip h
  have hq := (writeReg_side h).seq
  exact ⟨htx, hrx, hother, by rw [hq], by rw [hq], by rw [hq], by rw [hq], by rw [hq]⟩

/-- An outcome that leaves the registers of R117 as they were in `s`. -/
def KeepsModeSide (s : State) : Out → Prop
  | .next t => ModeSide s t
  | _ => True

theorem KeepsModeSide.of_modeSide {s u : State} {o : Out} (h : ModeSide s u) (ho : KeepsModeSide u o) : KeepsModeSide s o := by
  cases o with
  | next t => exact h.trans ho
  | fault e => trivial
  | refused e => trivial

theorem iread_keepsModeSide {r : RegNum} {k : Word → State → Out} {s : State}
    (hk : ∀ v u, u.seq.pc = s.seq.pc → KeepsModeSide u (k v u)) : KeepsModeSide s (iread r k s) := by
  unfold iread
  split
  · exact ⟨rfl, rfl, rfl, rfl, rfl, rfl, rfl, rfl⟩
  · have hread : (readReg r s).2.chip = s.chip ∧ (readReg r s).2.seq = s.seq := by
      unfold readReg
      split <;> exact ⟨rfl, rfl⟩
    obtain ⟨hchip, hseq⟩ := hread
    refine .of_modeSide ?_ (hk _ _ (congrArg Sequencer.pc hseq))
    constructor <;> simp [hchip, hseq]

theorem iwrite_keepsModeSide {v : Word} {k : State → Out} {s : State}
    (hk : ∀ u, u.seq.pc = s.seq.pc → KeepsModeSide u (k u)) : KeepsModeSide s (iwrite s.cfg.regSpictl v k s) := by
  unfold iwrite
  split
  · exact ⟨rfl, rfl, rfl, rfl, rfl, rfl, rfl, rfl⟩
  · cases h : writeReg s.cfg.regSpictl v s with
    | next u => exact .of_modeSide (writeReg_spictl_modeSide h) (hk u (congrArg Sequencer.pc (writeReg_side h).seq))
    | fault e => trivial
    | refused e => trivial

theorem setPc_modeSide (pc : List Frame) (s : State) : ModeSide s (setPc pc s) := ⟨rfl, rfl, rfl, rfl, rfl, rfl, rfl, rfl⟩

theorem nextLabel_modeSide (s : State) : ModeSide s (nextLabel s) := by
  unfold nextLabel
  split
  · exact .refl s
  · exact setPc_modeSide _ s

theorem gotoLabel_modeSide (l : Nat) (s : State) : ModeSide s (gotoLabel l s) := by
  unfold gotoLabel
  split
  · exact .refl s
  · exact setPc_modeSide _ s

theorem readSpictl_keepsModeSide (s : State) : KeepsModeSide s (readSpictl s) :=
  iread_keepsModeSide fun v u _ =>
    .of_modeSide (u := setTmp v u) ⟨rfl, rfl, rfl, rfl, rfl, rfl, rfl, rfl⟩ (nextLabel_modeSide _)

section MicroSteps

variable {s : State} (h : ∀ f ∈ s.seq.pc.tail, IsModeControl f.op)

include h

theorem returnOp_keepsModeSide {u : State} (hp : u.seq.pc = s.seq.pc) : KeepsModeSide u (returnOp u) :=
  returnTo_modeSide u (hp ▸ h)

theorem writeBack_keepsModeSide (v : Word) : KeepsModeSide s (iwrite s.cfg.regSpictl v returnOp s) :=
  iwrite_keepsModeSide fun _ hp => returnOp_keepsModeSide h hp

theorem pollDone_keepsModeSide : KeepsModeSide s (pollDone s) := by
  refine iread_keepsModeSide fun v u hp =>
    .of_modeSide (u := setDpolls (u.seq.dpolls + 1) (setTmp v u)) ⟨rfl, rfl, rfl, rfl, rfl, rfl, rfl, rfl⟩ ?_
  unfold testDone
  split
  · exact returnOp_keepsModeSide h hp
  split
  · exact ⟨rfl, rfl, rfl, rfl, rfl, rfl, rfl, rfl⟩
  · exact gotoLabel_modeSide 1 _

end MicroSteps

/-- A micro-step of one of the five, called by frames of the five. -/
theorem microStep_keepsModeSide {s : State} (h : ∀ f ∈ s.seq.pc, IsModeControl f.op) : KeepsModeSide s (microStep s) := by
  cases hp : s.seq.pc with
  | nil =>
    simp only [microStep, hp]
    exact .refl s
  | cons f callers =>
    obtain ⟨op, l⟩ := f
    have htop : IsModeControl op := h ⟨op, l⟩ (hp ▸ List.mem_cons_self)
    have htail : ∀ f ∈ s.seq.pc.tail, IsModeControl f.op := fun f hf => h f (List.mem_of_mem_tail hf)
    simp only [microStep, hp]
    cases op with
    | mspien =>
      cases l with
      | zero => exact readSpictl_keepsModeSide s
      | succ l => exact writeBack_keepsModeSide htail _
    | mspidis =>
      cases l with
      | zero => exact readSpictl_keepsModeSide s
      | succ l => exact writeBack_keepsModeSide htail _
    | setmode m =>
      cases l with
      | zero => exact readSpictl_keepsModeSide s
      | succ l => exact writeBack_keepsModeSide htail _
    | setcnt n =>
      match l with
      | 0 => exact readSpictl_keepsModeSide s
      | 1 => exact iwrite_keepsModeSide fun u _ => nextLabel_modeSide u
      | l + 2 => exact .of_modeSide (setPc_modeSide _ s) (readSpictl_keepsModeSide (pushFrame (.setmode .transfer) s))
    | waitdone =>
      cases l with
      | zero => exact .of_modeSide (u := setDpolls 0 s) ⟨rfl, rfl, rfl, rfl, rfl, rfl, rfl, rfl⟩ (pollDone_keepsModeSide htail)
      | succ l => exact pollDone_keepsModeSide htail
    | _ => cases htop

theorem accept_modeSide {i : Instr} {s t : State} (h : accept i s = .next t) : ModeSide s t := by
  unfold accept at h
  split at h <;> cases h
  cases i <;> exact ⟨rfl, rfl, rfl, rfl, rfl, rfl, rfl, rfl⟩

/-- Settles O47: the frames are all of the five operations (`isModeControl_of_callsOk`), and their micro-steps read and write SPICTL only. -/
theorem modeControlFrame : Obligations.ModeControlFrame := by
  intro i s t hc hop h
  obtain ⟨hm, hi⟩ : IsModeControl i ∧ i.isCommand = true := by
    rcases hop with rfl | rfl | ⟨m, rfl⟩ | ⟨n, rfl⟩ | rfl <;> exact ⟨trivial, rfl⟩
  have hside : ModeSide s t := by
    rw [exec_command s hi, operate] at h
    split at h
    · split at h
      · next ht =>
        obtain ⟨-, hs, -⟩ := hc
        obtain ⟨b, hb, rfl⟩ := Option.map_eq_some_iff.mp ht
        have := microStep_keepsModeSide (isModeControl_of_callsOk (stackOk_iff.mp hs).calls hb hm)
        rwa [h] at this
      · cases h
        exact .refl s
    · exact accept_modeSide h
  exact ⟨hside.spitx, hside.spirx, hside.other, hside.word, hside.stat, hside.idx, hside.fpolls, hside.result⟩

end Sys2Proof.Machine
end

section
/-! PROOFS. Progress of a run (spec/10_state.md R12; spec/60_exceptions.md R180; spec/44_engine_and_flash.md R152): rules that lead from one
kind of state to another under the premises on the schedule, and with them the two waits of WAITDONE (spec/41_mode_control.md R114). -/

namespace Sys2Proof.Machine

open Sys2Proof

/-! ### Leading from one kind of state to another -/

/-- In the run from `s`, after every state where `P` holds the operation ends or a state comes where `Q` holds. -/
def Leads (s : State) (P Q : State → Prop) : Prop :=
  ∀ n t, Reaches s n t → P t → ∃ m u, Reaches t m u ∧ (u.seq.busy = false ∨ Q u)

/-- The next turn is one of the sequencer's, its transaction failing or not. -/
def SeqNext (s : State) : Prop := (nextTurn s).1 = .seq ∨ (nextTurn s).1 = .seqFails

theorem Reaches.of_step {s t : State} (h : Machine.step s = .next t) : Reaches s 1 t := reaches_succ_iff.mpr ⟨t, h, Reaches.zero t⟩

/-- The last step of a run. -/
theorem reaches_succ_last {s u : State} {n : Nat} (h : Reaches s (n + 1) u) : ∃ t, Reaches s n t ∧ step t = .next u := by
  obtain ⟨t, ht, hu⟩ := reaches_add_iff.mp h
  obtain ⟨v, hv, hz⟩ := reaches_succ_iff.mp hu
  exact ⟨t, ht, reaches_zero_iff.mp hz ▸ hv⟩

namespace Leads

variable {s : State} {P Q R : State → Prop}

theorem of_imp (h : ∀ t, P t → Q t) : Leads s P Q := fun _ t _ hp => ⟨0, t, Reaches.zero t, .inr (h t hp)⟩

theorem trans (h : Leads s P Q) (k : Leads s Q R) : Leads s P R := by
  intro n t ht hp
  obtain ⟨m, u, hu, hend | hq⟩ := h n t ht hp
  · exact ⟨m, u, hu, .inl hend⟩
  · obtain ⟨l, v, hv, hr⟩ := k (n + m) u (ht.trans hu) hq
    exact ⟨m + l, v, hu.trans hv, hr⟩

theorem mono_left (h : Leads s Q R) (hi : ∀ t, P t → Q t) : Leads s P R := (of_imp hi).trans h

theorem or_left (h : Leads s P R) (k : Leads s Q R) : Leads s (fun t => P t ∨ Q t) R :=
  fun n t ht hp => hp.elim (h n t ht) (k n t ht)

/-- What leads nowhere else leads to the operation's end. -/
theorem ends (h : Leads s P fun _ => False) {n : Nat} {t : State} (ht : Reaches s n t) (hp : P t) : Ends s := by
  obtain ⟨m, u, hu, hend | hq⟩ := h n t ht hp
  · exact ⟨n + m, u, ht.trans hu, hend⟩
  · exact hq.elim

/-- `P` holds until the sequencer's turn at the latest, which leads to `Q`. -/
theorem of_step (hf : SequencerFair s) (busy : ∀ t, P t → t.seq.busy = true)
    (h : ∀ t, P t → ∃ u, step t = .next u ∧ (u.seq.busy = false ∨ Q u ∨ (P u ∧ ¬ SeqNext t))) : Leads s P Q := by
  intro n t ht hp
  obtain ⟨m, v, hv, hturn⟩ := hf n t ht (busy t hp)
  induction m generalizing n t with
  | zero =>
    obtain rfl := reaches_zero_iff.mp hv
    obtain ⟨u, hu, hend | hq | ⟨-, hno⟩⟩ := h t hp
    · exact ⟨1, u, .of_step hu, .inl hend⟩
    · exact ⟨1, u, .of_step hu, .inr hq⟩
    · rcases hturn with hb | hturn
      · rw [busy t hp] at hb
        cases hb
      · exact absurd hturn hno
  | succ m ih =>
    obtain ⟨u, hu, huv⟩ := reaches_succ_iff.mp hv
    obtain ⟨u', hu', hcase⟩ := h t hp
    obtain rfl : u = u' := by rw [hu] at hu'; cases hu'; rfl
    rcases hcase with hend | hq | ⟨hp', -⟩
    · exact ⟨1, u, .of_step hu, .inl hend⟩
    · exact ⟨1, u, .of_step hu, .inr hq⟩
    · obtain ⟨l, w, hw, hr⟩ := ih (n + 1) u (ht.step hu) hp' huv
      exact ⟨1 + l, w, (Reaches.of_step hu).trans hw, hr⟩

/-- Each turn of the sequencer makes the measure of `P` smaller, or leads to `Q`. -/
theorem of_measure {α : Type} [Preorder α] [WellFoundedLT α] {P : α → State → Prop} (hf : SequencerFair s)
    (busy : ∀ a t, P a t → t.seq.busy = true)
    (h : ∀ a t, P a t → ∃ u, step t = .next u ∧
      (u.seq.busy = false ∨ Q u ∨ (∃ b < a, P b u) ∨ (P a u ∧ ¬ SeqNext t))) (a : α) : Leads s (P a) Q := by
  induction a using WellFoundedLT.induction with
  | ind a ih =>
    have hstep : Leads s (P a) fun u => Q u ∨ ∃ b < a, P b u :=
      of_step hf (busy a) fun t hp => by simpa only [or_assoc] using h a t hp
    exact hstep.trans (or_left (of_imp fun _ hq => hq) fun n t ht ⟨b, hb, hp⟩ => ih b hb n t ht hp)

end Leads

/-! ### Runs that never reach the goal -/

theorem busTransactions_mono {s t : State} (h : s.hist <:+ t.hist) : busTransactions s ≤ busTransactions t :=
  (h.filter Event.isBus).length_le

/-- The history only grows along a run (R47). -/
theorem Reaches.hist {s t : State} {n : Nat} (h : Reaches s n t) : s.hist <:+ t.hist :=
  h.keeps (p := fun u => s.hist <:+ u.hist) (fun _ _ hu hs => hu.trans (step_hist hs)) List.suffix_rfl

/-- What each step keeps unless the operation ends or `Q` comes, a run that meets neither keeps. -/
theorem Reaches.stays {t : State} {P Q : State → Prop} (hp : P t)
    (h : ∀ t, P t → ∃ u, Machine.step t = .next u ∧ (u.seq.busy = false ∨ Q u ∨ P u))
    (hno : ∀ m u, Reaches t m u → ¬ (u.seq.busy = false ∨ Q u)) {m : Nat} {u : State} (hu : Reaches t m u) : P u := by
  induction m generalizing u with
  | zero => exact reaches_zero_iff.mp hu ▸ hp
  | succ m ih =>
    obtain ⟨v, hv, hvu⟩ := reaches_succ_last hu
    obtain ⟨u', hu', hcase⟩ := h v (ih hv)
    obtain rfl : u = u' := by rw [hvu] at hu'; cases hu'; rfl
    rcases hcase with hend | hq | hp'
    · exact absurd (.inl hend) (hno _ u hu)
    · exact absurd (.inr hq) (hno _ u hu)
    · exact hp'

/-- ENGINE_FAIR (R152): while a transfer is in flight and each turn of the sequencer is one more bus transaction, `P` does not last. -/
theorem Leads.of_engineFair {s : State} {P Q : State → Prop} (hf : SequencerFair s) (he : EngineFair s)
    (busy : ∀ t, P t → t.seq.busy = true) (fly : ∀ t, P t → t.chip.fly ≠ none)
    (h : ∀ t, P t → ∃ u, step t = .next u ∧
      (u.seq.busy = false ∨ Q u ∨ (P u ∧ (SeqNext t → busTransactions t < busTransactions u)))) : Leads s P Q := by
  intro n t ht hp
  by_contra hcon
  have hno : ∀ m u, Reaches t m u → ¬ (u.seq.busy = false ∨ Q u) := fun m u hu hq => hcon ⟨m, u, hu, hq⟩
  have hstay {m : Nat} {u : State} : Reaches t m u → P u :=
    Reaches.stays hp (fun t hp => (h t hp).imp fun _ hu => hu.imp_right (Or.imp_right (Or.imp_right And.left))) hno
  have hmany : ∀ k, ∃ m u, Reaches t m u ∧ busTransactions t + k ≤ busTransactions u := by
    intro k
    induction k with
    | zero => exact ⟨0, t, Reaches.zero t, le_rfl⟩
    | succ k ih =>
      obtain ⟨m, u, hu, hk⟩ := ih
      obtain ⟨l, v, hv, hturn⟩ := hf (n + m) u (ht.trans hu) (busy u (hstay hu))
      have hpv := hstay (hu.trans hv)
      have hseq : SeqNext v := hturn.resolve_left (by simp [busy v hpv])
      obtain ⟨w, hw, hcase⟩ := h v hpv
      have htw := (hu.trans hv).step hw
      have hlt : busTransactions v < busTransactions w := by
        rcases hcase with hend | hq | ⟨-, hlt⟩
        · exact absurd (.inl hend) (hno _ w htw)
        · exact absurd (.inr hq) (hno _ w htw)
        · exact hlt hseq
      have := busTransactions_mono hv.hist
      exact ⟨_, w, htw, by omega⟩
  obtain ⟨m, u, hu, hnone⟩ := he n t ht (fly t hp) hmany
  exact fly u (hstay hu) hnone

/-! ### WAITDONE (R114, R152, R211) -/

/-- WAITDONE with DONE set ends at the sequencer's next turn. -/
theorem leads_end_of_done {s : State} (hf : SequencerFair s) :
    Leads s (fun t => Polling t ∧ doneFlag t.cfg t.chip.spictl = true) fun _ => False := by
  refine .of_step hf (fun t ht => ht.1.busy) fun t ⟨hp, hd⟩ => ?_
  obtain ⟨u, hu, hstep⟩ := step_polling hp
  refine ⟨u, hu, ?_⟩
  cases hstep with
  | ended h => exact .inl h
  | other turn p cfg seq bus chip =>
    refine .inr (.inr ⟨⟨p, ?_⟩, not_or.mpr turn⟩)
    rcases chip with hc | ⟨-, -, hd'⟩
    · rw [cfg, hc, hd]
    · exact hd'
  | polled clear => simp [hd] at clear

/-- WAITDONE with a transfer in flight comes to find DONE set under ENGINE_FAIR (R152). -/
theorem leads_done_of_engineFair {s : State} (hf : SequencerFair s) (he : EngineFair s) :
    Leads s (fun t => Polling t ∧ t.chip.fly ≠ none) fun t => Polling t ∧ doneFlag t.cfg t.chip.spictl = true := by
  refine .of_engineFair hf he (fun t ht => ht.1.busy) (fun t ht => ht.2) fun t ⟨hp, hfly⟩ => ?_
  obtain ⟨u, hu, hstep⟩ := step_polling hp
  refine ⟨u, hu, ?_⟩
  cases hstep with
  | ended h => exact .inl h
  | other turn p cfg seq bus chip =>
    rcases chip with hc | ⟨-, -, hd⟩
    · exact .inr (.inr ⟨⟨p, hc ▸ hfly⟩, fun h => absurd h (not_or.mpr turn)⟩)
    · exact .inr (.inl ⟨p, hd⟩)
  | polled clear p cfg chip bus => exact .inr (.inr ⟨⟨p, chip ▸ hfly⟩, fun _ => by omega⟩)

/-- A poll counter below the limit has not wrapped: counting once more makes what is left smaller. -/
theorem pollsLeft_lt {c : Cfg} {k : Nat} {n m : Word} (hk : c.pollLimit = some k) (hkb : k < 2 ^ 32) (hm : m = n + 1)
    (hn : n.toNat < k) (hx : pollsExhausted c m = false) : m.toNat < k ∧ k - m.toNat < k - n.toNat := by
  have hlt : m.toNat < k := by
    by_contra hge
    rw [pollsExhausted_iff.mpr ⟨k, hk, Nat.le_of_not_lt hge⟩] at hx
    cases hx
  have hadd : m.toNat = n.toNat + 1 := by
    rw [hm, BitVec.toNat_add, show (1 : Word).toNat = 1 from rfl]
    omega
  omega

/-- WAITDONE with `a` polls left of its limit `k`, `k` itself before the first. -/
def PollsLeft (k a : Nat) (s : State) : Prop :=
  Polling s ∧ s.cfg.pollLimit = some k ∧
    ((s.seq.pc = [⟨.waitdone, 0⟩] ∧ a = k) ∨
      (s.seq.pc = [⟨.waitdone, 1⟩] ∧ s.seq.dpolls.toNat < k ∧ a = k - s.seq.dpolls.toNat))

/-- WAITDONE with a poll limit ends (R114 (c), R211). -/
theorem leads_end_of_pollLimit {s : State} (hf : SequencerFair s) (k a : Nat) :
    Leads s (PollsLeft k a) fun _ => False := by
  refine .of_measure hf (fun a t ht => ht.1.busy) (fun a t ht => ?_) a
  obtain ⟨hp, hk, hleft⟩ := ht
  obtain ⟨hk1, hkb⟩ := pollLimit_bounds hp.wf hk
  obtain ⟨u, hu, hstep⟩ := step_polling hp
  refine ⟨u, hu, ?_⟩
  cases hstep with
  | ended h => exact .inl h
  | other turn p cfg seq bus chip => exact .inr (.inr (.inr ⟨⟨p, cfg ▸ hk, by rwa [seq]⟩, not_or.mpr turn⟩))
  | polled clear p cfg chip bus label polls more =>
    have hnext : u.seq.dpolls.toNat < k ∧ k - u.seq.dpolls.toNat < a := by
      rcases hleft with ⟨hpc, rfl⟩ | ⟨hpc, hd, rfl⟩
      · rw [if_pos hpc] at polls
        exact pollsLeft_lt hk hkb polls hk1 more
      · rw [if_neg (by simp [hpc])] at polls
        exact pollsLeft_lt hk hkb polls hd more
    exact .inr (.inr (.inl ⟨_, hnext.2, p, cfg ▸ hk, .inr ⟨label, hnext.1, rfl⟩⟩))

theorem polling_of_runningAt {s : State} (hw : s.cfg.wf = true) (hr : runningAt .waitdone [⟨.waitdone, 0⟩] s = true) :
    Polling s := by
  obtain ⟨hb, hp, -, hf⟩ := (runningAt_iff s).mp hr
  exact ⟨hw, hb, ⟨0, hp⟩, hf⟩

theorem waitdone_ends_of_engineFair {s : State} (hp : Polling s) (hfly : s.chip.fly ≠ none) (he : EngineFair s)
    (hf : SequencerFair s) : Ends s :=
  ((leads_done_of_engineFair hf he).trans (leads_end_of_done hf)).ends (Reaches.zero s) ⟨hp, hfly⟩

theorem waitdone_ends_of_pollLimit {s : State} {k : Nat} (hp : Polling s) (hpc : s.seq.pc = [⟨.waitdone, 0⟩])
    (hk : s.cfg.pollLimit = some k) (hf : SequencerFair s) : Ends s :=
  (leads_end_of_pollLimit hf k k).ends (Reaches.zero s) ⟨hp, hk, .inl ⟨hpc, rfl⟩⟩

/-- A kind of state in which the block is busy and which every step keeps never ends (R180). -/
theorem hangs_of_keeps {s : State} {P : State → Prop} (hs : P s) (busy : ∀ t, P t → t.seq.busy = true)
    (h : ∀ t, P t → ∃ u, step t = .next u ∧ P u) : Hangs s := by
  have hrun : ∀ n, ∃ t, Reaches s n t ∧ P t := by
    intro n
    induction n with
    | zero => exact ⟨s, Reaches.zero s, hs⟩
    | succ n ih =>
      obtain ⟨t, ht, hp⟩ := ih
      obtain ⟨u, hu, hp'⟩ := h t hp
      exact ⟨u, ht.step hu, hp'⟩
  exact fun n => (hrun n).imp fun t ht => ⟨ht.1, busy t ht.2⟩

/-- WAITDONE that has only its own turns, DONE clear and no poll limit. -/
structure PollingAlone (s : State) : Prop where
  polling : Polling s
  noLimit : s.cfg.pollLimit = none
  clear : doneFlag s.cfg s.chip.spictl = false
  sched : s.env.sched = []
  later : s.env.later = .cycle .seq []

theorem nextTurn_cycle_seq {s : State} (hs : s.env.sched = []) (hl : s.env.later = .cycle .seq []) :
    nextTurn s = (.seq, s) := by
  obtain ⟨cfg, seq, chip, flash, host, ⟨sched, later, fails, draws⟩, hist⟩ := s
  subst hs hl
  rfl

theorem PollingAlone.keeps {s : State} (h : PollingAlone s) : ∃ t, step s = .next t ∧ PollingAlone t := by
  have hstep : step s = microStep s := by
    rw [step_of_wf s h.polling.wf, nextTurn_cycle_seq h.sched h.later, takeTurn, seqTurn, if_pos h.polling.busy, h.polling.op]
    exact exec_running s rfl h.polling.busy h.polling.op
  obtain ⟨t, ht, ⟨-, hd | hl⟩ | ⟨hc, hp, hcfg, hchip, henv, -⟩⟩ := microStep_waitdone h.polling
  · simp [h.clear] at hd
  · exact absurd h.noLimit hl
  · exact ⟨t, hstep.trans ht, hp, hcfg ▸ h.noLimit, by rw [hcfg, hchip, hc], henv ▸ h.sched, henv ▸ h.later⟩

end Sys2Proof.Machine
end

section
/-! PROOFS. The stages of a WAITFLASH issued by the host (spec/42_flash_primitives.md R121, R124), one bus transaction each: what the chip
and the open frame are at each, and that the sequencer's turn goes on to the next stage whatever the other agents did in between. -/

namespace Sys2Proof.Machine

open Sys2Proof

/-! ### Stages -/

/-- The bus transaction that WAITFLASH makes next, each named after what it does to the mode, to SPITX or to the transfer. Before the read of
SPICTL that begins a status read (`first` or `again`) and before the write that closes the last frame (`closing`) a status frame may still be
open; `awaitFirst`, `awaitSecond` are the first poll of each call of WAITDONE, `pollFirst`, `pollSecond` the polls after it. -/
inductive Stage where
  | first (isOpen : Bool)
  | again
  | closing (isOpen : Bool)
  | closed
  | opening
  | opened
  | loaded
  | counting
  | counted
  | starting
  | awaitFirst
  | pollFirst
  | landed
  | updating
  | updated
  | restarting
  | awaitSecond
  | pollSecond
  | last

namespace Stage

/-- The frames of a called RDSTATUS at label `l`. -/
def reading (l : Nat) : List Frame := [⟨.rdstatus, l⟩, ⟨.waitflash, 1⟩]

/-- The frames on the stack, top first. -/
def pc : Stage → List Frame
  | first _ => [⟨.waitflash, 0⟩]
  | again => [⟨.waitflash, 1⟩]
  | closing _ => ⟨.setmode .idle, 1⟩ :: reading 0
  | closed => reading 1
  | opening => ⟨.setmode .enable, 1⟩ :: reading 1
  | opened => reading 2
  | loaded => reading 3
  | counting => ⟨.setcnt 3, 1⟩ :: reading 3
  | counted => ⟨.setcnt 3, 2⟩ :: reading 3
  | starting => ⟨.setmode .transfer, 1⟩ :: ⟨.setcnt 3, 2⟩ :: reading 3
  | awaitFirst => reading 4
  | pollFirst => ⟨.waitdone, 1⟩ :: reading 4
  | landed => reading 5
  | updating => ⟨.setmode .update, 1⟩ :: reading 5
  | updated => reading 6
  | restarting => ⟨.setmode .transfer, 1⟩ :: reading 6
  | awaitSecond => reading 7
  | pollSecond => ⟨.waitdone, 1⟩ :: reading 7
  | last => reading 8

/-- The stage that follows; of a poll, when DONE is set; of the last, when the flash is busy. -/
def next : Stage → Stage
  | first isOpen => closing isOpen
  | again => closing true
  | closing _ => closed
  | closed => opening
  | opening => opened
  | opened => loaded
  | loaded => counting
  | counting => counted
  | counted => starting
  | starting => awaitFirst
  | awaitFirst => landed
  | pollFirst => landed
  | landed => updating
  | updating => updated
  | updated => restarting
  | restarting => awaitSecond
  | awaitSecond => last
  | pollSecond => last
  | last => again

/-- The stages that poll DONE. -/
def polls : Stage → Bool
  | awaitFirst => true
  | pollFirst => true
  | awaitSecond => true
  | pollSecond => true
  | _ => false

/-- The stage after a poll that found DONE clear. -/
def repoll : Stage → Stage
  | awaitFirst => pollFirst
  | awaitSecond => pollSecond
  | g => g

/-- The stages at which a new frame was opened for the status read. -/
def selected : Stage → Bool
  | first _ => false
  | again => false
  | closing _ => false
  | closed => false
  | opening => false
  | _ => true

end Stage

/-! ### What holds at each stage -/

/-- A frame that begins with the status-read opcode: a status read, whatever follows (R162). -/
def StatusFrame (c : Cfg) (frame : List Byte) : Prop := frame.head? = some c.opRdsr

theorem StatusFrame.append {c : Cfg} {frame : List Byte} (h : StatusFrame c frame) (bytes : List Byte) :
    StatusFrame c (frame ++ bytes) := by
  cases frame with
  | nil => cases h
  | cons b rest => exact h

/-- No transfer in flight, the mode `m`, chip-select asserted or not. -/
structure Still (c : Cfg) (h : Chip) (m : ModeName) (cs : Bool) : Prop where
  fly : h.fly = none
  mode : modeOf c h.spictl = m
  cs : h.cs = cs

/-- A transfer of four bytes was started in an open frame and DONE tells whether it has completed; then, or once it has, the frame is a status
read. -/
structure Transferring (c : Cfg) (h : Chip) (frame : List Byte) : Prop where
  mode : modeOf c h.spictl = .transfer
  cs : h.cs = true
  inFlight : ∀ f, h.fly = some f → f.n = 4 ∧ doneFlag c h.spictl = false ∧ StatusFrame c (frame ++ wireBytes f.n f.tx)
  completed : h.fly = none → doneFlag c h.spictl = true ∧ StatusFrame c frame

/-- What the chip `h` and the flash's frame are at each stage. -/
def Stage.Holds (c : Cfg) (h : Chip) (frame : List Byte) : Stage → Prop
  | first false => Still c h .idle false
  | first true => h.fly = none ∧ modeOf c h.spictl ≠ .idle ∧ h.cs = true ∧ StatusFrame c frame
  | closing false => Still c h .idle false
  | closing true => h.fly = none ∧ modeOf c h.spictl ≠ .idle ∧ h.cs = true ∧ StatusFrame c frame
  | closed => Still c h .idle false
  | opening => Still c h .idle false
  | opened => Still c h .enable true ∧ frame = []
  | loaded => Still c h .enable true ∧ frame = [] ∧ h.spitx = cmdWord1 c.opRdsr
  | counting => Still c h .enable true ∧ frame = [] ∧ h.spitx = cmdWord1 c.opRdsr
  | counted => Still c h .enable true ∧ frame = [] ∧ h.spitx = cmdWord1 c.opRdsr ∧ transferBytes c h.spictl = 4
  | starting => Still c h .enable true ∧ frame = [] ∧ h.spitx = cmdWord1 c.opRdsr ∧ transferBytes c h.spictl = 4
  | awaitFirst => Transferring c h frame ∧ transferBytes c h.spictl = 4
  | pollFirst => Transferring c h frame ∧ transferBytes c h.spictl = 4
  | updated => Still c h .update true ∧ StatusFrame c frame ∧ transferBytes c h.spictl = 4
  | restarting => Still c h .update true ∧ StatusFrame c frame ∧ transferBytes c h.spictl = 4
  | awaitSecond => Transferring c h frame ∧ StatusFrame c frame
  | pollSecond => Transferring c h frame ∧ StatusFrame c frame
  | again => Still c h .transfer true ∧ StatusFrame c frame
  | landed => Still c h .transfer true ∧ StatusFrame c frame ∧ transferBytes c h.spictl = 4
  | updating => Still c h .transfer true ∧ StatusFrame c frame ∧ transferBytes c h.spictl = 4
  | last => Still c h .transfer true ∧ StatusFrame c frame

/-- WAITFLASH, issued by the host, is at stage `g`, master SPI enabled, and the next transaction does not fail in the transport. -/
structure Placed (g : Stage) (s : State) : Prop where
  busy : s.seq.busy = true
  pc : s.seq.pc = g.pc
  transport : s.env.transportFails = false
  msen : msenFlag s.cfg s.chip.spictl = true
  holds : g.Holds s.cfg s.chip s.flash.frame

/-- `Placed`, in a well-formed configuration and with TMP fresh at a write half. -/
structure Reading (g : Stage) (s : State) : Prop extends Placed g s where
  wf : s.cfg.wf = true
  fresh : FreshInv s

theorem Placed.congr {g : Stage} {s t : State} (h : Placed g s) (hc : t.cfg = s.cfg) (hq : t.seq = s.seq)
    (hh : t.chip = s.chip) (hf : t.flash.frame = s.flash.frame) (he : t.env.transportFails = s.env.transportFails) :
    Placed g t :=
  ⟨hq ▸ h.busy, hq ▸ h.pc, he ▸ h.transport, by rw [hc, hh]; exact h.msen, by rw [hc, hh, hf]; exact h.holds⟩

theorem topLevelOp_of_pc {g : Stage} {s : State} (h : s.seq.pc = g.pc) : topLevelOp s = some .waitflash := by
  rw [topLevelOp, h]
  cases g <;> rfl

/-! ### The byte count does not depend on DONE (R7) -/

section TransferBytes

variable {c : Cfg} (f : Facts c)

include f

theorem transferBytes_eq_of_bits {v u : Word} (h : ∀ b, b < 32 → b ≠ c.doneBit → v.getLsbD b = u.getLsbD b) :
    transferBytes c v = transferBytes c u := by
  have hd := f.nb_done
  have hn := f.nb_in
  simp only [bitsDisjoint, Bool.or_eq_true, decide_eq_true_eq] at hd
  rw [transferBytes, transferBytes, field_congr _ u _ _ (by omega)]
  exact fun b h1 h2 => h b (by omega) (by omega)

theorem transferBytes_clearDone (v : Word) : transferBytes c (v &&& ~~~(bitMask c.doneBit)) = transferBytes c v :=
  transferBytes_eq_of_bits f fun b hb hne => by simp [getLsbD_clearBit _ _ _ hb, hne]

theorem transferBytes_setDone (v : Word) : transferBytes c (v ||| bitMask c.doneBit) = transferBytes c v :=
  transferBytes_eq_of_bits f fun b hb hne => by simp [getLsbD_setBit _ _ _ hb, hne]

end TransferBytes

/-! ### A write half, with TMP fresh (R115) -/

section WriteBack

variable {g : Stage} {s : State} (h : Reading g s) {op : Instr} {callers : List Frame} (hop : writesBack op = true)
  (hpc : s.seq.pc = ⟨op, 1⟩ :: callers)

include h hop hpc

/-- At a write half TMP holds what SPICTL holds but for DONE. -/
theorem Reading.tmp_bits : ∀ b, b < 32 → b ≠ s.cfg.doneBit → s.seq.tmp.getLsbD b = s.chip.spictl.getLsbD b := by
  refine h.fresh ?_
  rw [atWriteBack, hpc]
  cases op with
  | mspien => rfl
  | mspidis => rfl
  | setmode m => rfl
  | setcnt c => rfl
  | _ => cases hop

theorem Reading.tmp_mode : modeOf s.cfg s.seq.tmp = modeOf s.cfg s.chip.spictl :=
  modeOf_eq_of_bits (facts_of_wf h.wf) (h.tmp_bits hop hpc)

theorem Reading.tmp_msen : msenFlag s.cfg s.seq.tmp = true := by
  have f := facts_of_wf h.wf
  have hd := f.done_msen
  simp only [bitsDisjoint, Bool.or_eq_true, decide_eq_true_eq] at hd
  rw [msenFlag, h.tmp_bits hop hpc _ f.msen_in (by omega)]
  exact h.msen

theorem Reading.tmp_transferBytes : transferBytes s.cfg s.seq.tmp = transferBytes s.cfg s.chip.spictl :=
  transferBytes_eq_of_bits (facts_of_wf h.wf) (h.tmp_bits hop hpc)

end WriteBack

/-! ### What the sequencer's turn does at each stage -/

/-- What a transaction that is no poll and not the last one of a status read changes, beside the stage. -/
structure Moved (g : Stage) (s t : State) : Prop where
  spirx : t.chip.spirx = s.chip.spirx
  wip : t.flash.wip = s.flash.wip
  frameStatus : g ≠ .opening → t.flash.frameStatus = s.flash.frameStatus
  reset : g = .opening → t.flash.frameStatus = none
  fpolls : (∀ o, g ≠ .first o) → t.seq.fpolls = s.seq.fpolls
  zeroed : ∀ o, g = .first o → t.seq.fpolls = 0
  counted : g = .closing true → statusReads t = statusReads s + 1
  started : g = .restarting → t.chip.fly ≠ none

/-- The sequencer's micro-step takes WAITFLASH from stage `g` to the next. -/
def MovesOn (g : Stage) (s : State) : Prop := ∃ t, microStep s = .next t ∧ Placed g.next t ∧ Moved g s t

section Moves

variable {g : Stage} {s : State} (h : Reading g s)

include h

/-- A call, or the beginning of WAITFLASH itself, reads SPICTL and leaves the chip and the flash as they are. -/
theorem Reading.begins {callee : Instr} {callers : List Frame} (hm : microStep s = .next (opBegun callee callers s))
    (hpc : framesAfterFirstRead callee ++ callers = g.next.pc) (hh : g.next.Holds s.cfg s.chip s.flash.frame)
    (hf : (∀ o, g ≠ .first o) → fpollsAtStart callee s = s.seq.fpolls) (hz : ∀ o, g = .first o → fpollsAtStart callee s = 0)
    (hg : g ≠ .opening ∧ g ≠ .closing true ∧ g ≠ .restarting) : MovesOn g s :=
  ⟨_, hm, ⟨h.busy, hpc, h.transport, h.msen, hh⟩,
    ⟨rfl, rfl, fun _ => rfl, fun ho => absurd ho hg.1, hf, hz, fun hc => absurd hc hg.2.1, fun hr => absurd hr hg.2.2⟩⟩

theorem Reading.calls {f : Frame} {callers : List Frame} {callee : Instr} (hp : g.pc = f :: callers)
    (hc : calleeAt s.cfg f = some callee) (hne : callee ≠ .waitdone) (ha : ∀ a, callee ≠ .erase a) :
    microStep s = .next (opBegun callee g.pc s) := by
  rw [microStep_of_calleeAt (h.pc.trans hp) hc, ← h.pc]
  exact callOf_begins (facts_of_wf h.wf) h.transport (calleeAt_rank_lt hc) hne fun a he => absurd he (ha a)

/-- SETMODE's write half, the frames below it `callers`. -/
theorem Reading.writes {m : ModeName} {callers : List Frame} {u : State} (hp : g.pc = ⟨.setmode m, 1⟩ :: callers)
    (hu : writeReg s.cfg.regSpictl (withMode s.cfg s.seq.tmp m) s = .next u) :
    microStep s = .next (returnTo callers u) := by
  have hpc := h.pc.trans hp
  rw [microStep_of_valueWrittenBack hpc (.inr (.inr ⟨m, rfl⟩)) rfl rfl, iwrite_ok h.transport,
    andThen_writeReg_returnOp hpc hu]

end Moves

section Stored

variable {c : Cfg} (f : Facts c) (old tmp : Word) (m : ModeName)

include f

/-- The mode, MSEN and the byte count of a value written back by SETMODE, as stored. -/
theorem modeOf_stored : modeOf c (keepDone c old (withMode c tmp m)) = m := by
  rw [modeOf_keepDone f, modeOf_withMode f]

theorem msenFlag_stored : msenFlag c (keepDone c old (withMode c tmp m)) = msenFlag c tmp := by
  rw [msenFlag_keepDone f, msenFlag_withMode f]

theorem transferBytes_stored : transferBytes c (keepDone c old (withMode c tmp m)) = transferBytes c tmp := by
  rw [transferBytes_keepDone f, transferBytes_withMode f]

end Stored

section Stages

variable {s : State}

theorem Reading.first {o : Bool} (h : Reading (.first o) s) : MovesOn (.first o) s := by
  refine h.begins (callee := .waitflash) (callers := []) (microStep_begins (facts_of_wf h.wf) h.transport rfl h.pc) rfl ?_
    (fun hn => absurd rfl (hn o)) (fun _ _ => rfl) (by simp)
  have hh := h.holds
  cases o <;> exact hh

theorem Reading.again (h : Reading .again s) : MovesOn .again s := by
  obtain ⟨⟨hfly, hm, hcs⟩, hframe⟩ := h.holds
  exact h.begins (h.calls rfl rfl (by simp) (by simp)) rfl ⟨hfly, by simp [hm], hcs, hframe⟩ (fun _ => rfl) (by simp) (by simp)

theorem Reading.closed (h : Reading .closed s) : MovesOn .closed s :=
  h.begins (h.calls rfl rfl (by simp) (by simp)) rfl h.holds (fun _ => rfl) (by simp) (by simp)

theorem Reading.loaded (h : Reading .loaded s) : MovesOn .loaded s :=
  h.begins (h.calls rfl rfl (by simp) (by simp)) rfl h.holds (fun _ => rfl) (by simp) (by simp)

theorem Reading.counted (h : Reading .counted s) : MovesOn .counted s :=
  h.begins (h.calls rfl rfl (by simp) (by simp)) rfl h.holds (fun _ => rfl) (by simp) (by simp)

theorem Reading.landed (h : Reading .landed s) : MovesOn .landed s :=
  h.begins (h.calls rfl rfl (by simp) (by simp)) rfl h.holds (fun _ => rfl) (by simp) (by simp)

theorem Reading.updated (h : Reading .updated s) : MovesOn .updated s :=
  h.begins (h.calls rfl rfl (by simp) (by simp)) rfl h.holds (fun _ => rfl) (by simp) (by simp)

theorem endFrame_of_statusFrame {t : State} (h : StatusFrame t.cfg t.flash.frame) : endFrame t = .next t := by
  obtain ⟨rest, hr⟩ := List.head?_eq_some_iff.mp h
  exact endFrame_of_decodeFrame (i := .flashRdsr rest) (by rw [hr, decodeFrame_rdsr]) rfl

/-- The end of a status frame is one status read more (R124, R162). -/
theorem statusReads_deselected {r : RegNum} {v : Word} {t u : State} (hc : u.cfg = t.cfg) (h : StatusFrame t.cfg t.flash.frame)
    (hh : u.hist = .frameEnd t.flash.frame :: .csDeassert :: .busWrite r v :: t.hist) : statusReads u = statusReads t + 1 := by
  have hend : Event.isStatusRead t.cfg (.frameEnd t.flash.frame) = true := decide_eq_true h
  rw [statusReads, hh, hc, List.filter_cons_of_pos hend, List.filter_cons_of_neg (by simp [Event.isStatusRead]),
    List.filter_cons_of_neg (by simp [Event.isStatusRead])]
  rfl

theorem Reading.closing {o : Bool} (h : Reading (.closing o) s) : MovesOn (.closing o) s := by
  have f := facts_of_wf h.wf
  have hmsen := (msenFlag_stored f s.chip.spictl s.seq.tmp .idle).trans (h.tmp_msen rfl h.pc)
  have hmode := modeOf_stored f s.chip.spictl s.seq.tmp .idle
  cases o with
  | false =>
    obtain ⟨hfly, hm, hcs⟩ := h.holds
    exact ⟨_, h.writes rfl (write_idle f hfly (modeOf_withMode f _ _) (.inl hm)),
      ⟨h.busy, rfl, h.transport, hmsen, hfly, hmode, hcs⟩,
      ⟨rfl, rfl, fun _ => rfl, nofun, fun _ => rfl, nofun, nofun, nofun⟩⟩
  | true =>
    obtain ⟨hfly, hm, hcs, hframe⟩ := h.holds
    have hw := (write_idle_frame f hfly (modeOf_withMode f s.seq.tmp .idle) hm hcs).trans
      (endFrame_of_statusFrame (t := deselected (controlStored _ s)) hframe)
    exact ⟨_, h.writes rfl hw, ⟨h.busy, rfl, h.transport, hmsen, hfly, hmode, rfl⟩,
      ⟨rfl, rfl, fun _ => rfl, nofun, fun _ => rfl, nofun, fun _ => statusReads_deselected rfl hframe rfl, nofun⟩⟩

theorem Reading.opening (h : Reading .opening s) : MovesOn .opening s := by
  have f := facts_of_wf h.wf
  obtain ⟨hfly, hm, hcs⟩ := h.holds
  have hmsen := h.tmp_msen rfl h.pc
  exact ⟨_, h.writes rfl
      (write_enable f hfly (modeOf_withMode f _ _) ((msenFlag_withMode f _ _).trans hmsen) (by simp [hm]) hcs),
    ⟨h.busy, rfl, h.transport, (msenFlag_stored f _ _ _).trans hmsen, ⟨hfly, modeOf_stored f _ _ _, rfl⟩, rfl⟩,
    ⟨rfl, rfl, fun hn => absurd rfl hn, fun _ => rfl, fun _ => rfl, nofun, nofun, nofun⟩⟩

theorem nextLabel_of_pc {t : State} {f : Frame} {callers : List Frame} (hp : t.seq.pc = f :: callers) :
    nextLabel t = setPc ({ f with label := f.label + 1 } :: callers) t := by
  rw [nextLabel, hp]

theorem Reading.opened (h : Reading .opened s) : MovesOn .opened s := by
  obtain ⟨⟨hfly, hm, hcs⟩, hframe⟩ := h.holds
  have hmicro : microStep s = sendWord (cmdWord1 s.cfg.opRdsr) s := by
    simp only [microStep, h.pc, Stage.pc, Stage.reading, microRdstatus]
  generalize hw : cmdWord1 s.cfg.opRdsr = w at hmicro
  have hsent := sendWord_ok (facts_of_wf h.wf) w h.transport hfly
  rw [nextLabel_of_pc (t := wordSent w s) h.pc] at hsent
  exact ⟨_, hmicro.trans hsent, ⟨h.busy, rfl, h.transport, h.msen, ⟨hfly, hm, hcs⟩, hframe, hw.symm⟩,
    ⟨rfl, rfl, fun _ => rfl, nofun, fun _ => rfl, nofun, nofun, nofun⟩⟩

theorem Reading.counting (h : Reading .counting s) : MovesOn .counting s := by
  have f := facts_of_wf h.wf
  obtain ⟨⟨hfly, hm, hcs⟩, hframe, htx⟩ := h.holds
  have hmsen := h.tmp_msen rfl h.pc
  have hmode := (modeOf_withCount f s.seq.tmp 3).trans ((h.tmp_mode rfl h.pc).trans hm)
  have hn : transferBytes s.cfg (withCount s.cfg s.seq.tmp 3) = 4 := by
    refine transferBytes_withCount f _ _ ?_
    have : (2 : Nat) ^ 2 ≤ 2 ^ s.cfg.nbW := Nat.pow_le_pow_right (by omega) f.nb_wide
    exact Nat.lt_of_lt_of_le (by decide) this
  have hmicro : microStep s = andThen (writeReg s.cfg.regSpictl (withCount s.cfg s.seq.tmp 3) s) advance := by
    rw [← iwrite_ok h.transport]
    simp only [microStep, h.pc, Stage.pc, microSetcnt]
  have hw := write_enable_kept f hfly hmode ((msenFlag_withCount f _ 3).trans hmsen) (.inl hm)
  have hstep : microStep s = .next (setPc Stage.counted.pc (controlStored (withCount s.cfg s.seq.tmp 3) s)) := by
    rw [hmicro, hw, andThen, advance, nextLabel_of_pc (t := controlStored _ s) h.pc]
    rfl
  refine ⟨_, hstep, ⟨h.busy, rfl, h.transport, ?_, ⟨hfly, ?_, hcs⟩, hframe, htx, ?_⟩,
    ⟨rfl, rfl, fun _ => rfl, nofun, fun _ => rfl, nofun, nofun, nofun⟩⟩
  · exact (msenFlag_keepDone f _ _).trans ((msenFlag_withCount f _ _).trans hmsen)
  · exact (modeOf_keepDone f _ _).trans hmode
  · exact (transferBytes_keepDone f _ _).trans hn

theorem Reading.updating (h : Reading .updating s) : MovesOn .updating s := by
  have f := facts_of_wf h.wf
  obtain ⟨⟨hfly, hm, hcs⟩, hframe, hn⟩ := h.holds
  have hmsen := h.tmp_msen rfl h.pc
  exact ⟨_, h.writes rfl
      (write_update f hfly (modeOf_withMode f _ _) ((msenFlag_withMode f _ _).trans hmsen) (.inr hm) hcs),
    ⟨h.busy, rfl, h.transport, (msenFlag_stored f _ _ _).trans hmsen, ⟨hfly, modeOf_stored f _ _ _, hcs⟩, hframe,
      (transferBytes_stored f _ _ _).trans ((h.tmp_transferBytes rfl h.pc).trans hn)⟩,
    ⟨rfl, rfl, fun _ => rfl, nofun, fun _ => rfl, nofun, nofun, nofun⟩⟩

/-- SETMODE transfer starts a transfer of four bytes in an open frame. -/
theorem Reading.starts {g : Stage} {callers : List Frame} (h : Reading g s) (hp : g.pc = ⟨.setmode .transfer, 1⟩ :: callers)
    (hr : ∀ u, returnTo callers u = setPc g.next.pc u) (hg : g = .starting ∨ g = .restarting)
    (hfly : s.chip.fly = none) (hcs : s.chip.cs = true)
    (hm : modeOf s.cfg s.chip.spictl = .enable ∨ modeOf s.cfg s.chip.spictl = .update)
    (hn : transferBytes s.cfg s.chip.spictl = 4)
    (hframe : StatusFrame s.cfg (s.flash.frame ++ wireBytes 4 s.chip.spitx))
    (hh : ∀ k, Transferring s.cfg k s.flash.frame → transferBytes s.cfg k.spictl = 4 →
      g.next.Holds s.cfg k s.flash.frame) : MovesOn g s := by
  have f := facts_of_wf h.wf
  have hpc := h.pc.trans hp
  have hmsen := h.tmp_msen rfl hpc
  have htmp := (h.tmp_transferBytes rfl hpc).trans hn
  have hw := write_transfer f hfly (modeOf_withMode f s.seq.tmp .transfer) ((msenFlag_withMode f _ _).trans hmsen) hm hcs
    (by rw [transferBytes_withMode f, htmp])
  have hstored := (transferBytes_stored f s.chip.spictl s.seq.tmp .transfer).trans htmp
  have hsampled : transferBytes s.cfg (controlStored (withMode s.cfg s.seq.tmp .transfer) s).chip.spictl = 4 := hstored
  have hmoved : Transferring s.cfg (transferStarted (controlStored (withMode s.cfg s.seq.tmp .transfer) s)).chip
      s.flash.frame := by
    refine ⟨(modeOf_clearBit f _ _ f.mode_done).trans (modeOf_stored f _ _ _), hcs, fun fl hfl => ?_, nofun⟩
    obtain rfl : _ = fl := Option.some.inj hfl
    refine ⟨hstored, doneFlag_clear f _, ?_⟩
    rwa [← hsampled] at hframe
  refine ⟨_, (h.writes hp hw).trans (congrArg _ (hr _)), ⟨h.busy, rfl, h.transport, ?_, hh _ hmoved ?_⟩, ?_⟩
  · exact (msenFlag_clearDone f _).trans ((msenFlag_stored f _ _ _).trans hmsen)
  · exact (transferBytes_clearDone f _).trans hstored
  · rcases hg with rfl | rfl <;>
      exact ⟨rfl, rfl, fun _ => rfl, nofun, fun _ => rfl, nofun, nofun, fun _ => nofun⟩

theorem Reading.starting (h : Reading .starting s) : MovesOn .starting s := by
  obtain ⟨⟨hfly, hm, hcs⟩, hframe, htx, hn⟩ := h.holds
  refine h.starts rfl (fun _ => rfl) (.inl rfl) hfly hcs (.inl hm) hn ?_ fun _ ht hk => ⟨ht, hk⟩
  rw [hframe, htx, cmdWord1_eq]
  exact congrArg some BitVec.extractLsb'_append_eq_left

theorem Reading.restarting (h : Reading .restarting s) : MovesOn .restarting s := by
  obtain ⟨⟨hfly, hm, hcs⟩, hframe, hn⟩ := h.holds
  exact h.starts rfl (fun _ => rfl) (.inr rfl) hfly hcs (.inr hm) hn (hframe.append _) fun _ ht _ => ⟨ht, hframe⟩

end Stages

/-! ### Polls and the last transaction of a status read -/

/-- The count of a poll made at stage `g`. -/
def Stage.pollCount (s : State) : Stage → Word
  | .awaitFirst => 1
  | .awaitSecond => 1
  | _ => s.seq.dpolls + 1

/-- What the sequencer's turn does while WAITFLASH goes on: from stage `g` to stage `g'`. -/
inductive SeqStep (s t : State) : Stage → Stage → Prop where
  | moved {g : Stage} (polls : g.polls = false) (notLast : g ≠ .last) (move : Moved g s t) : SeqStep s t g g.next
  | arrived {g : Stage} (polls : g.polls = true) (chip : t.chip = s.chip) (flash : t.flash = s.flash)
      (fpolls : t.seq.fpolls = s.seq.fpolls) : SeqStep s t g g.next
  | polled {g : Stage} (polls : g.polls = true) (clear : doneFlag s.cfg s.chip.spictl = false) (chip : t.chip = s.chip)
      (flash : t.flash = s.flash) (fpolls : t.seq.fpolls = s.seq.fpolls)
      (bus : busTransactions t = busTransactions s + 1) (dpolls : t.seq.dpolls = g.pollCount s)
      (more : pollsExhausted s.cfg t.seq.dpolls = false) : SeqStep s t g g.repoll
  | unready (busyBit : s.chip.spirx.getLsbD 0 = true) (chip : t.chip = s.chip) (flash : t.flash = s.flash)
      (fpolls : t.seq.fpolls = s.seq.fpolls + 1) (more : pollsExhausted s.cfg t.seq.fpolls = false) :
      SeqStep s t .last .again

/-- Why the sequencer's turn ends WAITFLASH, its transaction not failing: a poll limit, or a status byte that says the flash is not busy. -/
def EndCause (g : Stage) (s : State) : Prop := s.cfg.pollLimit ≠ none ∨ (g = .last ∧ s.chip.spirx.getLsbD 0 = false)

/-- The outcomes of the sequencer's turn at stage `g`. -/
def Proceeds (g : Stage) (s : State) : Prop :=
  ∃ t, microStep s = .next t ∧ ((t.seq.busy = false ∧ EndCause g s) ∨ ∃ g', Placed g' t ∧ SeqStep s t g g')

theorem MovesOn.proceeds {g : Stage} {s : State} (h : MovesOn g s) (hp : g.polls = false) (hl : g ≠ .last) :
    Proceeds g s := by
  obtain ⟨t, ht, hplaced, hmoved⟩ := h
  exact ⟨t, ht, .inr ⟨_, hplaced, .moved hp hl hmoved⟩⟩

theorem endCause_of_pollsExhausted {g : Stage} {s : State} {n : Word} (h : pollsExhausted s.cfg n = true) : EndCause g s := by
  obtain ⟨k, hk, -⟩ := pollsExhausted_iff.mp h
  exact .inl (by simp [hk])

section Polls

variable {g : Stage} {s : State}

/-- The state when a poll has been counted, the frames `pc` below it. -/
def pollCounted (n : Word) (pc : List Frame) (s : State) : State :=
  { controlRead s with seq := { s.seq with tmp := s.chip.spictl, dpolls := n, pc := pc } }

/-- One poll of a WAITDONE called by RDSTATUS (R114). -/
theorem Reading.microStep_poll (h : Reading g s) (hg : g.polls = true) :
    microStep s =
      if doneFlag s.cfg s.chip.spictl then .next (pollCounted (g.pollCount s) g.next.pc s)
      else if pollsExhausted s.cfg (g.pollCount s) then
        .next (raiseError (.deviceUnresponsive .waitdone) (pollCounted (g.pollCount s) s.seq.pc s))
      else .next (pollCounted (g.pollCount s) g.repoll.pc s) := by
  have f := facts_of_wf h.wf
  have first {l : Nat} (hp : s.seq.pc = Stage.reading l) (hc : calleeAt s.cfg ⟨.rdstatus, l⟩ = some .waitdone) := by
    have hcalled : (setDpolls 0 (pushFrame .waitdone s)).seq.pc = ⟨.waitdone, 0⟩ :: Stage.reading l :=
      congrArg (List.cons (Frame.mk .waitdone 0)) hp
    exact (microStep_of_calleeAt hp hc).trans (pollDone_ok f h.transport hcalled)
  have later {l : Nat} (hp : s.seq.pc = ⟨.waitdone, 1⟩ :: Stage.reading l) :
      microStep s = pollDone s := by simp only [microStep, hp, microWaitdone]
  cases g with
  | awaitFirst => exact first h.pc rfl
  | awaitSecond => exact first h.pc rfl
  | pollFirst => exact (later h.pc).trans (pollDone_ok f h.transport h.pc)
  | pollSecond => exact (later h.pc).trans (pollDone_ok f h.transport h.pc)
  | _ => cases hg

/-- At a poll a transfer has been started. -/
theorem Placed.transferring (h : Placed g s) (hg : g.polls = true) : Transferring s.cfg s.chip s.flash.frame := by
  have hh := h.holds
  cases g with
  | awaitFirst => exact hh.1
  | awaitSecond => exact hh.1
  | pollFirst => exact hh.1
  | pollSecond => exact hh.1
  | _ => cases hg

theorem Reading.poll (h : Reading g s) (hg : g.polls = true) : Proceeds g s := by
  rw [Proceeds, h.microStep_poll hg]
  split
  · next hd =>
    have ht := h.transferring hg
    have hfly : s.chip.fly = none := Option.eq_none_iff_forall_ne_some.mpr fun fl hfl => by
      simp [(ht.inFlight fl hfl).2.1] at hd
    have hframe := (ht.completed hfly).2
    refine ⟨_, rfl, .inr ⟨g.next, ⟨h.busy, rfl, h.transport, h.msen, ?_⟩, .arrived hg rfl rfl rfl⟩⟩
    have hh := h.holds
    cases g with
    | awaitFirst => exact ⟨⟨hfly, ht.mode, ht.cs⟩, hframe, hh.2⟩
    | awaitSecond => exact ⟨⟨hfly, ht.mode, ht.cs⟩, hframe⟩
    | pollFirst => exact ⟨⟨hfly, ht.mode, ht.cs⟩, hframe, hh.2⟩
    | pollSecond => exact ⟨⟨hfly, ht.mode, ht.cs⟩, hframe⟩
    | _ => cases hg
  · next hd =>
    split
    · next hx => exact ⟨_, rfl, .inl ⟨rfl, endCause_of_pollsExhausted hx⟩⟩
    · next hx =>
      refine ⟨_, rfl, .inr ⟨g.repoll, ⟨h.busy, rfl, h.transport, h.msen, ?_⟩,
        .polled hg (Bool.eq_false_iff.mpr hd) rfl rfl rfl rfl rfl (Bool.eq_false_iff.mpr hx)⟩⟩
      have hh := h.holds
      cases g with
      | awaitFirst => exact hh
      | awaitSecond => exact hh
      | pollFirst => exact hh
      | pollSecond => exact hh
      | _ => cases hg

theorem wipFlag_takeStatus (v : Word) (s : State) : wipFlag (takeStatus v s).seq.stat = v.getLsbD 0 := by
  simp [wipFlag, takeStatus]

theorem Reading.last (h : Reading .last s) : Proceeds .last s := by
  obtain ⟨⟨hfly, hm, hcs⟩, hframe⟩ := h.holds
  rw [Proceeds, rdstatus_last (facts_of_wf h.wf) h.transport hfly h.pc, returnTo_waitflash, wipFlag_takeStatus]
  split
  · next hb => exact ⟨_, rfl, .inl ⟨rfl, .inr ⟨rfl, hb⟩⟩⟩
  · next hb =>
    split
    · next hx => exact ⟨_, rfl, .inl ⟨rfl, endCause_of_pollsExhausted (s := s) hx⟩⟩
    · next hx =>
      exact ⟨_, rfl, .inr ⟨.again, ⟨h.busy, rfl, h.transport, h.msen, ⟨hfly, hm, hcs⟩, hframe⟩,
        .unready (Bool.eq_true_of_not_eq_false hb) rfl rfl rfl (Bool.eq_false_iff.mpr hx)⟩⟩

/-- The sequencer's turn at each stage. -/
theorem Reading.proceeds (h : Reading g s) : Proceeds g s := by
  cases g with
  | first o => exact h.first.proceeds rfl nofun
  | again => exact h.again.proceeds rfl nofun
  | closing o => exact h.closing.proceeds rfl nofun
  | closed => exact h.closed.proceeds rfl nofun
  | opening => exact h.opening.proceeds rfl nofun
  | opened => exact h.opened.proceeds rfl nofun
  | loaded => exact h.loaded.proceeds rfl nofun
  | counting => exact h.counting.proceeds rfl nofun
  | counted => exact h.counted.proceeds rfl nofun
  | starting => exact h.starting.proceeds rfl nofun
  | awaitFirst => exact h.poll rfl
  | pollFirst => exact h.poll rfl
  | landed => exact h.landed.proceeds rfl nofun
  | updating => exact h.updating.proceeds rfl nofun
  | updated => exact h.updated.proceeds rfl nofun
  | restarting => exact h.restarting.proceeds rfl nofun
  | awaitSecond => exact h.poll rfl
  | pollSecond => exact h.poll rfl
  | last => exact h.last

end Polls

end Sys2Proof.Machine
end

section
/-! PROOFS. One step of any agent while WAITFLASH, issued by the host, is at a stage of a status read (spec/10_state.md R12, R20): another
agent leaves it where it is, the sequencer takes it on. -/

namespace Sys2Proof.Machine

open Sys2Proof

/-! ### The other agents -/

section Engine

variable {s : State} (f : Facts s.cfg) {fl : Flight} (hfl : s.chip.fly = some fl)

include hfl

theorem engineCompletes_frame :
    (engineCompletes s).flash.frame = s.flash.frame ++ wireBytes fl.n fl.tx := by
  rw [engineCompletes, hfl]
  exact exchange_frame _ s

theorem engineCompletes_landed : (engineCompletes s).chip.fly = none ∧
    (engineCompletes s).chip.spictl = s.chip.spictl ||| bitMask s.cfg.doneBit := by
  obtain ⟨h, -⟩ | ⟨-, h⟩ := (engineCompletes_side s).done
  · rw [hfl] at h
    cases h
  · exact h

include f

/-- The transfer started in an open frame completes: DONE is set and the frame is a status read. -/
theorem Transferring.engineCompletes (h : Transferring s.cfg s.chip s.flash.frame) :
    Transferring s.cfg (engineCompletes s).chip (engineCompletes s).flash.frame := by
  obtain ⟨hfly, hctl⟩ := engineCompletes_landed hfl
  obtain ⟨hn, -, hframe⟩ := h.inFlight fl hfl
  refine ⟨?_, (engineCompletes_side s).cs.trans h.cs, fun f hf => ?_, fun _ => ⟨?_, ?_⟩⟩
  · rw [hctl, modeOf_setBit f _ _ f.mode_done, h.mode]
  · rw [hfly] at hf
    cases hf
  · rw [hctl, doneFlag_set f]
  · rwa [engineCompletes_frame hfl]

end Engine

/-- A transfer is in flight only where DONE is polled. -/
theorem Placed.polls_of_fly {g : Stage} {s : State} {fl : Flight} (h : Placed g s) (hfl : s.chip.fly = some fl) :
    g.polls = true := by
  have hne : s.chip.fly ≠ none := by simp [hfl]
  have hh := h.holds
  cases g with
  | awaitFirst => rfl
  | pollFirst => rfl
  | awaitSecond => rfl
  | pollSecond => rfl
  | first o => cases o <;> exact absurd hh.1 hne
  | closing o => cases o <;> exact absurd hh.1 hne
  | closed => exact absurd hh.1 hne
  | opening => exact absurd hh.1 hne
  | _ => exact absurd hh.1.fly hne

/-- The engine's step leaves WAITFLASH at its stage. -/
theorem Placed.engineCompletes {g : Stage} {s : State} (f : Facts s.cfg) (h : Placed g s) : Placed g (engineCompletes s) := by
  cases hfl : s.chip.fly with
  | none => rwa [Machine.engineCompletes, hfl]
  | some fl =>
    have e := engineCompletes_side s
    have hcfg := e.cfg
    have hctl := (engineCompletes_landed hfl).2
    refine ⟨e.seq ▸ h.busy, e.seq ▸ h.pc, e.transport.trans h.transport, ?_, ?_⟩
    · rw [hcfg, hctl, msenFlag_setDone f, h.msen]
    · have hpolls := h.polls_of_fly hfl
      have ht := (h.transferring hpolls).engineCompletes f hfl
      have hn : transferBytes s.cfg (Machine.engineCompletes s).chip.spictl = transferBytes s.cfg s.chip.spictl := by
        rw [hctl, transferBytes_setDone f]
      have hframe (hf : StatusFrame s.cfg s.flash.frame) : StatusFrame s.cfg (Machine.engineCompletes s).flash.frame := by
        rw [engineCompletes_frame hfl]
        exact hf.append _
      have hh := h.holds
      rw [hcfg]
      cases g with
      | awaitFirst => exact ⟨ht, hn.trans hh.2⟩
      | pollFirst => exact ⟨ht, hn.trans hh.2⟩
      | awaitSecond => exact ⟨ht, hframe hh.2⟩
      | pollSecond => exact ⟨ht, hframe hh.2⟩
      | _ => cases hpolls

theorem flashFinishes_frame (s : State) : (flashFinishes s).flash.frame = s.flash.frame := by
  unfold flashFinishes
  split
  · split <;> rfl
  · rfl
  · rfl

theorem Placed.flashFinishes {g : Stage} {s : State} (h : Placed g s) : Placed g (flashFinishes s) :=
  have e := flashFinishes_side s
  h.congr e.cfg e.seq e.chip (flashFinishes_frame s) e.transport

/-- What another agent did: the engine's or the flash's step, or nothing to either. -/
def OtherAgent (s t : State) : Prop :=
  t = engineCompletes s ∨ t = flashFinishes s ∨ (t.chip = s.chip ∧ t.flash = s.flash)

/-! ### One step -/

/-- A step while WAITFLASH goes on, from stage `g` to stage `g'`; the schedule aside, another agent's or the sequencer's. -/
inductive ReadStep (s t : State) : Stage → Stage → Prop where
  | other {g : Stage} (u : State) (side : SchedSide s u) (placed : Placed g u) (turn : ¬ SeqNext s) (seq : t.seq = s.seq)
      (agent : OtherAgent u t) : ReadStep s t g g
  | seq {g g' : Stage} (step : SeqStep s t g g') : ReadStep s t g g'

/-- The schedule plays no part in what the sequencer's turn does. -/
theorem SeqStep.of_nextTurn {s t : State} {g g' : Stage} (h : SeqStep (nextTurn s).2 t g g') : SeqStep s t g g' := by
  obtain ⟨sched, later, he⟩ := nextTurn_eq s
  rw [he] at h
  cases h with
  | moved polls notLast m => exact .moved polls notLast ⟨m.spirx, m.wip, m.frameStatus, m.reset, m.fpolls, m.zeroed, m.counted, m.started⟩
  | arrived polls chip flash fpolls => exact .arrived polls chip flash fpolls
  | polled polls clear chip flash fpolls bus dpolls more =>
    exact .polled polls clear chip flash fpolls bus (by cases g <;> exact dpolls) more
  | unready busyBit chip flash fpolls more => exact .unready busyBit chip flash fpolls more

/-- A transaction that fails ends WAITFLASH at every stage (R176). -/
theorem microStep_fails {g : Stage} {s : State} (hp : s.seq.pc = g.pc) (hf : s.env.transportFails = true) :
    ∃ t, microStep s = .next t ∧ t.seq.busy = false := by
  obtain ⟨cfg, ⟨addr, cnt, idx, word, stat, tmp, dpolls, fpolls, result, pc, busy, err⟩, chip, flash, host,
    ⟨sched, later, fails, draws⟩, hist⟩ := s
  obtain rfl : pc = g.pc := hp
  obtain rfl : fails = true := hf
  cases g <;> exact ⟨_, rfl, rfl⟩

/-- What ends WAITFLASH at a step: a failing transaction, the reset event, or what ends it at the sequencer's turn. -/
def StepEnds (g : Stage) (s : State) : Prop :=
  (nextTurn s).1 = .seqFails ∨ (nextTurn s).1 = .reset ∨ EndCause g s

/-- While WAITFLASH is at a stage every step answers a next state: the operation ends, or it is at a stage again. -/
theorem step_reading {g : Stage} {s : State} (h : Reading g s) :
    ∃ t, step s = .next t ∧ ((t.seq.busy = false ∧ StepEnds g s) ∨ ∃ g', Reading g' t ∧ ReadStep s t g g') := by
  have hs := schedSide_nextTurn s
  have hn : Reading g (nextTurn s).2 :=
    ⟨h.toPlaced.congr hs.cfg hs.seq hs.chip (by rw [hs.flash]) (by simp), by rw [hs.cfg]; exact h.wf,
      h.fresh.congr hs.cfg hs.seq hs.chip⟩
  have hexec {u : State} (hb : u.seq.busy = true) (hp : u.seq.pc = g.pc) : seqTurn u = microStep u := by
    have ht := topLevelOp_of_pc hp
    rw [seqTurn, if_pos hb, ht]
    exact exec_running _ rfl hb ht
  have key : ∃ t, step s = .next t ∧
      ((t.seq.busy = false ∧ StepEnds g s) ∨ ∃ g', Placed g' t ∧ ReadStep s t g g') := by
    rw [step_of_wf s h.wf]
    cases hturn : (nextTurn s).1 with
    | seq =>
      obtain ⟨t, ht, hcase⟩ := hn.proceeds
      refine ⟨t, (hexec hn.busy hn.pc).trans ht, ?_⟩
      rcases hcase with ⟨hb, hc⟩ | ⟨g', hp, hstep⟩
      · refine .inl ⟨hb, .inr (.inr ?_)⟩
        rwa [EndCause, hs.cfg, hs.chip] at hc
      · exact .inr ⟨g', hp, .seq hstep.of_nextTurn⟩
    | seqFails =>
      let u : State := { (nextTurn s).2 with env := { (nextTurn s).2.env with transportFails := true } }
      obtain ⟨t, ht, hb⟩ := microStep_fails (s := u) hn.pc rfl
      refine ⟨t, ?_, .inl ⟨hb, .inl hturn⟩⟩
      rw [takeTurn, seqFailsTurn, if_pos hn.busy]
      exact (hexec (u := u) hn.busy hn.pc).trans ht
    | eng =>
      have hp := hn.toPlaced.engineCompletes (facts_of_wf hn.wf)
      exact ⟨_, rfl, .inr ⟨g, hp, .other _ hs hn.toPlaced (by simp [SeqNext, hturn])
        ((engineCompletes_side _).seq.trans hs.seq) (.inl rfl)⟩⟩
    | flash =>
      exact ⟨_, rfl, .inr ⟨g, hn.toPlaced.flashFinishes, .other _ hs hn.toPlaced (by simp [SeqNext, hturn])
        ((flashFinishes_side _).seq.trans hs.seq) (.inr (.inl rfl))⟩⟩
    | host =>
      obtain ⟨m, hm⟩ := hostTurn_busy hn.busy
      exact ⟨_, hm, .inr ⟨g, hn.toPlaced.congr rfl rfl rfl rfl rfl, .other _ hs hn.toPlaced (by simp [SeqNext, hturn]) hs.seq
        (.inr (.inr ⟨rfl, rfl⟩))⟩⟩
    | reset => exact ⟨_, rfl, .inl ⟨rfl, .inr (.inl hturn)⟩⟩
  obtain ⟨t, ht, hcase⟩ := key
  refine ⟨t, ht, hcase.imp_right ?_⟩
  rintro ⟨g', hp, hstep⟩
  exact ⟨g', ⟨hp, (arrayChangesOnlyWhenAnOperationFinishes s t ht).1 ▸ h.wf, freshInvKept s t h.fresh ht⟩, hstep⟩

end Sys2Proof.Machine
end

section
/-! PROOFS. What the flash answers to a status read of WAITFLASH (spec/44_engine_and_flash.md R157, R158; spec/42_flash_primitives.md R124):
once it is not busy, and wherever no device drives a line that always reads one byte, bit 0 of every status byte is known. -/

namespace Sys2Proof.Machine

open Sys2Proof

/-! ### Replies whose bit 0 is known -/

/-- Bit 0 of a status byte is `b` from now on: the flash is not busy, or no device is attached and the line reads it (R124 (b)). -/
def StatusBitIs (b : Bool) (s : State) : Prop :=
  match s.cfg.flashModel with
  | .contract => b = false ∧ s.flash.wip = false
  | .reference => b = false ∧ s.flash.wip = false
  | .absent line => ∃ byte, line = some byte ∧ byte.getLsbD 0 = b

/-- Bit 0 of every status byte of the open frame is `b`, the sample of the reference flash included (R158). -/
def Answering (b : Bool) (s : State) : Prop :=
  StatusBitIs b s ∧ ∀ byte, s.flash.frameStatus = some byte → byte.getLsbD 0 = b

theorem StatusBitIs.congr {b : Bool} {s t : State} (h : StatusBitIs b s) (hc : t.cfg = s.cfg)
    (hw : t.flash.wip = s.flash.wip) : StatusBitIs b t := by
  unfold StatusBitIs at *
  rwa [hc, hw]

theorem statusBitIs_of_attached {s : State} (ha : s.cfg.flashModel.attached = true) (hw : s.flash.wip = false) :
    StatusBitIs false s := by
  unfold StatusBitIs
  cases hm : s.cfg.flashModel with
  | contract => exact ⟨rfl, hw⟩
  | reference => exact ⟨rfl, hw⟩
  | absent line => rw [hm] at ha; cases ha

theorem getLsbD_contractStatus (drawn : Byte) : (contractStatus false drawn).getLsbD 0 = false := by
  simp [contractStatus, referenceStatus]

section Replies

variable {b : Bool} {s : State} (h : Answering b s)

include h

theorem Answering.referenceReply (hm : s.cfg.flashModel = .reference) :
    Answering b (referenceReply s).2 ∧ (referenceReply s).1.getLsbD 0 = b := by
  obtain ⟨hs, hsampled⟩ := h
  obtain ⟨rfl, hw⟩ : b = false ∧ s.flash.wip = false := by rwa [StatusBitIs, hm] at hs
  unfold Machine.referenceReply
  split
  · next byte hb => exact ⟨⟨hs, hsampled⟩, hsampled byte hb⟩
  · have hidle : busyCountdown s = s := by rw [busyCountdown, if_neg (by simp [hw])]
    have hbit : (referenceStatus s.flash.wip).getLsbD 0 = false := by rw [hw]; rfl
    simp only [hidle]
    refine ⟨⟨hs.congr rfl rfl, fun byte hb => ?_⟩, hbit⟩
    obtain rfl : _ = byte := Option.some.inj hb
    exact hbit

theorem Answering.lineReply {line : Option Byte} (hm : s.cfg.flashModel = .absent line) :
    Answering b (lineReply line s).2 ∧ (lineReply line s).1.getLsbD 0 = b := by
  obtain ⟨byte, rfl, hbit⟩ : ∃ byte, line = some byte ∧ byte.getLsbD 0 = b := by
    have hs := h.1
    rwa [StatusBitIs, hm] at hs
  exact ⟨h, hbit⟩

theorem Answering.statusReply : Answering b (statusReply s).2 ∧ (statusReply s).1.getLsbD 0 = b := by
  unfold Machine.statusReply
  cases hm : s.cfg.flashModel with
  | contract =>
    obtain ⟨rfl, hw⟩ : b = false ∧ s.flash.wip = false := by
      have hs := h.1
      rwa [StatusBitIs, hm] at hs
    refine ⟨⟨h.1.congr rfl rfl, h.2⟩, ?_⟩
    rw [hw]
    exact getLsbD_contractStatus _
  | reference => exact h.referenceReply hm
  | absent line => exact h.lineReply hm

theorem Answering.idleReply : Answering b (idleReply s).2 := by
  unfold Machine.idleReply
  cases hm : s.cfg.flashModel with
  | contract => exact ⟨h.1.congr rfl rfl, h.2⟩
  | reference => exact h
  | absent line => exact (h.lineReply hm).1

theorem Answering.receiveByte (byte : Byte) : Answering b (receiveByte byte s).2 ∧
    (StatusFrame s.cfg s.flash.frame → (receiveByte byte s).1.getLsbD 0 = b) := by
  have ht : Answering b { s with flash := { s.flash with frame := s.flash.frame ++ [byte] } } :=
    ⟨h.1.congr rfl rfl, h.2⟩
  simp only [Machine.receiveByte]
  split
  · exact ⟨ht.statusReply.1, fun _ => ht.statusReply.2⟩
  · next hno =>
    refine ⟨ht.idleReply, fun hf => absurd ?_ hno⟩
    obtain ⟨rest, hr⟩ := List.head?_eq_some_iff.mp hf
    simp [answersStatus, hr]

end Replies

/-- A transfer whose bytes the flash answers with status bytes: bit 0 of each is `b`. -/
theorem Answering.exchange {b : Bool} {s : State} (h : Answering b s) (bytes : List Byte) :
    Answering b (exchange bytes s).2 ∧
      (StatusFrame s.cfg s.flash.frame → ∀ r ∈ (exchange bytes s).1, r.getLsbD 0 = b) := by
  induction bytes generalizing s with
  | nil => exact ⟨h, fun _ r hr => absurd hr List.not_mem_nil⟩
  | cons byte rest ih =>
    obtain ⟨hnext, hbit⟩ := h.receiveByte byte
    obtain ⟨hlast, hbits⟩ := ih hnext
    refine ⟨hlast, fun hf => List.forall_mem_cons.mpr ⟨hbit hf, hbits ?_⟩⟩
    rw [receiveByte_frame, (receiveByte_side byte s).cfg]
    exact hf.append _

/-- The byte received last is the lowest of SPIRX (R149). -/
theorem getLsbD_shiftIn {b : Bool} {received : List Byte} (rx : Word) (hne : received ≠ [])
    (h : ∀ r ∈ received, r.getLsbD 0 = b) : (shiftIn rx received).getLsbD 0 = b := by
  obtain ⟨init, last, rfl⟩ := (List.eq_nil_or_concat received).resolve_left hne
  rw [List.concat_eq_append] at h ⊢
  rw [shiftIn, List.foldl_append]
  simpa using h last (by simp)

/-! ### The order of the stages -/

namespace Stage

variable {g : Stage}

theorem selected_of_polls (h : g.polls = true) : g.selected = true := by
  cases g <;> simp [polls] at h <;> rfl

/-- A stage with a new frame follows one, or the write that opened the frame. -/
theorem selected_of_next (h : g.next.selected = true) (hg : g ≠ opening) : g.selected = true := by
  cases g <;> simp [next, selected] at h hg ⊢

theorem eq_restarting_of_next (h : g.next = awaitSecond ∨ g.next = pollSecond) : g = restarting := by
  cases g <;> simp [next] at h ⊢

theorem second_of_next_last (h : g.next = last) : g = awaitSecond ∨ g = pollSecond := by
  cases g <;> simp [next] at h ⊢

theorem second_of_repoll (h : g.repoll = awaitSecond ∨ g.repoll = pollSecond) : g = awaitSecond ∨ g = pollSecond := by
  cases g <;> simp [repoll] at h ⊢

theorem polls_repoll (h : g.polls = true) : g.repoll.polls = true := by
  cases g <;> simp [polls] at h <;> rfl

theorem next_repoll (h : g.polls = true) : g.repoll.next = g.next := by
  cases g <;> simp [polls] at h <;> rfl

end Stage

/-! ### What is known of the status byte at each stage -/

/-- Bit 0 of the status byte that WAITFLASH will read is `b`: of every reply in the frame of this status read, and of SPIRX once the second
transfer has completed. -/
structure Told (b : Bool) (g : Stage) (s : State) : Prop where
  status : StatusBitIs b s
  sampled : g.selected = true → ∀ byte, s.flash.frameStatus = some byte → byte.getLsbD 0 = b
  received : g = .awaitSecond ∨ g = .pollSecond → s.chip.fly = none → s.chip.spirx.getLsbD 0 = b
  read : g = .last → s.chip.spirx.getLsbD 0 = b

/-- Before a frame is opened it is enough that bit 0 is known of the replies to come. -/
theorem told_of_not_selected {b : Bool} {g : Stage} {s : State} (hg : g.selected = false) (h : StatusBitIs b s) :
    Told b g s := by
  refine ⟨h, fun hs => by simp [hg] at hs, ?_, ?_⟩
  · rintro (rfl | rfl) <;> cases hg
  · rintro rfl
    cases hg

theorem Told.congr {b : Bool} {g : Stage} {s t : State} (h : Told b g s) (hc : t.cfg = s.cfg) (hh : t.chip = s.chip)
    (hf : t.flash = s.flash) : Told b g t :=
  ⟨h.status.congr hc (by rw [hf]), by rw [hf]; exact h.sampled, by rw [hh]; exact h.received, by rw [hh]; exact h.read⟩

theorem Told.engineCompletes {b : Bool} {g : Stage} {s : State} (hp : Placed g s) (h : Told b g s) :
    Told b g (engineCompletes s) := by
  cases hfl : s.chip.fly with
  | none => rwa [Machine.engineCompletes, hfl]
  | some fl =>
    have hpolls := hp.polls_of_fly hfl
    have hn := ((hp.transferring hpolls).inFlight fl hfl).1
    obtain ⟨⟨hs, hsampled⟩, hbits⟩ :=
      (show Answering b s from ⟨h.status, h.sampled (Stage.selected_of_polls hpolls)⟩).exchange (wireBytes fl.n fl.tx)
    rw [Machine.engineCompletes, hfl]
    refine ⟨hs.congr rfl rfl, fun _ => hsampled, fun hg _ => ?_, ?_⟩
    · have hframe : StatusFrame s.cfg s.flash.frame := by
        have hh := hp.holds
        rcases hg with rfl | rfl <;> exact hh.2
      refine getLsbD_shiftIn _ (List.ne_nil_of_length_pos ?_) (hbits hframe)
      rw [exchange_length, hn]
      exact Nat.zero_lt_succ _
    · rintro rfl
      cases hpolls

theorem flashFinishes_of_statusBitIs {b : Bool} {s : State} (h : StatusBitIs b s) : flashFinishes s = s := by
  unfold flashFinishes
  unfold StatusBitIs at h
  split
  · next hm =>
    rw [hm] at h
    rw [if_neg (by simp [h.2])]
  · rfl
  · rfl

/-- Another agent's step leaves known what is known. -/
theorem Told.otherAgent {b : Bool} {g : Stage} {s t : State} (hp : Placed g s) (h : Told b g s) (hc : t.cfg = s.cfg)
    (ho : OtherAgent s t) : Told b g t := by
  rcases ho with rfl | rfl | ⟨hh, hf⟩
  · exact h.engineCompletes hp
  · rwa [flashFinishes_of_statusBitIs h.status]
  · exact h.congr hc hh hf

/-- The sequencer's turn leaves known what is known; a new frame has no sample yet, and a new transfer has not completed. -/
theorem Told.seqStep {b : Bool} {g g' : Stage} {s t : State} (h : Told b g s) (ht : Placed g' t) (hc : t.cfg = s.cfg)
    (hs : SeqStep s t g g') : Told b g' t := by
  cases hs with
  | moved polls notLast m =>
    refine ⟨h.status.congr hc m.wip, fun hsel => ?_, fun hg hfly => ?_, fun hg => ?_⟩
    · by_cases ho : g = .opening
      · rw [m.reset ho]
        nofun
      · rw [m.frameStatus ho]
        exact h.sampled (Stage.selected_of_next hsel ho)
    · exact absurd hfly (m.started (Stage.eq_restarting_of_next hg))
    · rcases Stage.second_of_next_last hg with rfl | rfl <;> cases polls
  | arrived polls chip flash =>
    refine ⟨h.status.congr hc (by rw [flash]), fun _ => ?_, fun hg => ?_, fun hg => ?_⟩
    · rw [flash]
      exact h.sampled (Stage.selected_of_polls polls)
    · obtain rfl := Stage.eq_restarting_of_next hg
      cases polls
    · have hh := ht.holds
      rw [hg] at hh
      rw [chip]
      exact h.received (Stage.second_of_next_last hg) (chip ▸ hh.1.fly)
  | polled polls clear chip flash =>
    refine ⟨h.status.congr hc (by rw [flash]), fun _ => ?_, fun hg => ?_, fun hg => ?_⟩
    · rw [flash]
      exact h.sampled (Stage.selected_of_polls polls)
    · rw [chip]
      exact h.received (Stage.second_of_repoll hg)
    · have hlast := Stage.polls_repoll polls
      rw [hg] at hlast
      cases hlast
  | unready busyBit chip flash => exact told_of_not_selected rfl (h.status.congr hc (by rw [flash]))

end Sys2Proof.Machine
end

section
/-! PROOFS. When WAITFLASH and WAITDONE end, and when they hang (spec/41_mode_control.md R114; spec/42_flash_primitives.md R124;
spec/44_engine_and_flash.md R152, R166; spec/60_exceptions.md R180, R211). -/

namespace Sys2Proof.Machine

open Sys2Proof

/-! ### From stage to stage -/

namespace Stage

/-- How many transactions, polls that find DONE clear aside, come before the last one of the status read. -/
def rank : Stage → Nat
  | first _ => 17
  | again => 17
  | closing _ => 16
  | closed => 15
  | opening => 14
  | opened => 13
  | loaded => 12
  | counting => 11
  | counted => 10
  | starting => 9
  | awaitFirst => 8
  | pollFirst => 7
  | landed => 6
  | updating => 5
  | updated => 4
  | restarting => 3
  | awaitSecond => 2
  | pollSecond => 1
  | last => 0

theorem rank_next_lt {g : Stage} (h : g ≠ last) : g.next.rank < g.rank := by
  cases g <;> simp [next, rank] at h ⊢

end Stage

/-- WAITFLASH is at stage `g`, where `X g` holds. -/
def At (X : Stage → State → Prop) (g : Stage) (s : State) : Prop := Reading g s ∧ X g s

/-- What every step of WAITFLASH that does not end it keeps. -/
def KeptByReads (X : Stage → State → Prop) : Prop :=
  ∀ s t g g', Reading g s → Reading g' t → step s = .next t → ReadStep s t g g' → X g s → X g' t

theorem kept_statusReads (n : Nat) : KeptByReads fun _ s => n ≤ statusReads s := by
  intro s t g g' _ _ hst _ h
  have hcfg := (arrayChangesOnlyWhenAnOperationFinishes s t hst).1
  rw [statusReads, hcfg]
  exact h.trans ((step_hist hst).filter _).length_le

theorem Progress.wip_of_false {s t : State} (h : Progress s t) (hw : s.flash.wip = false) : t.flash.wip = false := by
  cases h with
  | same fm wip pending => exact wip.trans hw
  | finished k was fm wip pending ev => exact wip

/-- A status read starts no operation of the flash. -/
theorem kept_notBusy : KeptByReads fun _ s => s.flash.wip = false := by
  intro s t g g' _ _ _ hs h
  cases hs with
  | other u side placed turn seq agent =>
    rw [← side.flash] at h
    rcases agent with rfl | rfl | ⟨-, hf⟩
    · exact (engineCompletes_side u).progress.wip_of_false h
    · exact (flashFinishes_side u).progress.wip_of_false h
    · rw [hf, h]
  | seq hstep =>
    cases hstep with
    | moved polls notLast m => exact m.wip.trans h
    | arrived polls chip flash => rw [flash, h]
    | polled polls clear chip flash => rw [flash, h]
    | unready busyBit chip flash => rw [flash, h]

theorem kept_told (b : Bool) : KeptByReads (Told b) := by
  intro s t g g' hr ht hst hs h
  have hcfg := (arrayChangesOnlyWhenAnOperationFinishes s t hst).1
  cases hs with
  | other u side placed turn seq agent =>
    exact (h.congr side.cfg side.chip side.flash).otherAgent placed (hcfg.trans side.cfg.symm) agent
  | seq hstep => exact h.seqStep ht.toPlaced hcfg hstep

/-- Where no transfer is in flight another agent's step starts none. -/
theorem OtherAgent.fly {s t : State} (h : OtherAgent s t) (hfly : s.chip.fly = none) : t.chip.fly = none := by
  rcases h with rfl | rfl | ⟨hh, -⟩
  · rw [engineCompletes, hfly]
    exact hfly
  · rw [(flashFinishes_side s).chip, hfly]
  · rw [hh, hfly]

section Progress

variable {s : State} {X : Stage → State → Prop} (hX : KeptByReads X) (hf : SequencerFair s)

include hX hf

/-- A stage that polls nothing leads to the next. -/
theorem leads_next_of_not_polls {g : Stage} (hg : g.polls = false) : Leads s (At X g) (At X g.next) := by
  refine .of_step hf (fun t h => h.1.busy) fun t ⟨hr, hx⟩ => ?_
  obtain ⟨u, hu, ⟨hend, -⟩ | ⟨g', hr', hstep⟩⟩ := step_reading hr
  · exact ⟨u, hu, .inl hend⟩
  · refine ⟨u, hu, .inr ?_⟩
    have hx' := hX t u g g' hr hr' hu hstep hx
    cases hstep with
    | other v side placed turn => exact .inr ⟨⟨hr', hx'⟩, turn⟩
    | seq hseq =>
      cases hseq with
      | moved => exact .inl ⟨hr', hx'⟩
      | unready => exact .inl ⟨hr', hx'⟩
      | arrived polls => simp [hg] at polls
      | polled polls => simp [hg] at polls

/-- A poll of DONE that leads to the stage `n`, a transfer in flight or not. -/
def AtPoll (X : Stage → State → Prop) (n : Stage) (s : State) : Prop := ∃ g, g.polls = true ∧ g.next = n ∧ At X g s

omit hX hf in
theorem AtPoll.busy {n : Stage} {t : State} (h : AtPoll X n t) : t.seq.busy = true := by
  obtain ⟨g, -, -, hr, -⟩ := h
  exact hr.busy

omit hf in
/-- A step at a poll: the operation ends, it goes on to `n`, another agent steps, or the sequencer polls once more. -/
theorem AtPoll.step {n : Stage} {t : State} (h : AtPoll X n t) : ∃ u, Machine.step t = .next u ∧
    (u.seq.busy = false ∨ At X n u ∨
      (AtPoll X n u ∧ ¬ SeqNext t ∧ (t.chip.fly = none → u.chip.fly = none)) ∨
      (AtPoll X n u ∧ u.chip = t.chip ∧ doneFlag t.cfg t.chip.spictl = false ∧
        busTransactions u = busTransactions t + 1)) := by
  obtain ⟨g, hg, rfl, hr, hx⟩ := h
  obtain ⟨u, hu, ⟨hend, -⟩ | ⟨g', hr', hstep⟩⟩ := step_reading hr
  · exact ⟨u, hu, .inl hend⟩
  · refine ⟨u, hu, .inr ?_⟩
    have hx' := hX t u g g' hr hr' hu hstep hx
    cases hstep with
    | other v side placed turn seq agent =>
      exact .inr (.inl ⟨⟨g, hg, rfl, hr', hx'⟩, turn, fun hfly => agent.fly (by rw [side.chip, hfly])⟩)
    | seq hseq =>
      cases hseq with
      | moved polls => simp [hg] at polls
      | unready => cases hg
      | arrived polls => exact .inl ⟨hr', hx'⟩
      | polled polls clear chip flash fpolls bus =>
        exact .inr (.inr ⟨⟨g.repoll, Stage.polls_repoll hg, Stage.next_repoll hg, hr', hx'⟩, chip, clear, bus⟩)

/-- Once no transfer is in flight the next poll finds DONE set. -/
theorem leads_of_polls_landed (n : Stage) : Leads s (fun t => AtPoll X n t ∧ t.chip.fly = none) (At X n) := by
  refine .of_step hf (fun t h => h.1.busy) fun t ⟨hp, hfly⟩ => ?_
  obtain ⟨u, hu, hend | hat | ⟨hp', hturn, hfly'⟩ | ⟨-, -, clear, -⟩⟩ := hp.step hX
  · exact ⟨u, hu, .inl hend⟩
  · exact ⟨u, hu, .inr (.inl hat)⟩
  · exact ⟨u, hu, .inr (.inr ⟨⟨hp', hfly' hfly⟩, hturn⟩)⟩
  · obtain ⟨g, hg, -, hr, -⟩ := hp
    simp [((hr.transferring hg).completed hfly).1] at clear

variable (he : EngineFair s)

include he

/-- Under ENGINE_FAIR polling DONE leads on (R152). -/
theorem leads_of_polls (n : Stage) : Leads s (AtPoll X n) (At X n) := by
  have hflight : Leads s (fun t => AtPoll X n t ∧ t.chip.fly ≠ none)
      fun t => At X n t ∨ (AtPoll X n t ∧ t.chip.fly = none) := by
    refine .of_engineFair hf he (fun t h => h.1.busy) (fun t h => h.2) fun t ⟨hp, hfly⟩ => ?_
    obtain ⟨u, hu, hend | hat | ⟨hp', hturn, -⟩ | ⟨hp', hchip, -, hbus⟩⟩ := hp.step hX
    · exact ⟨u, hu, .inl hend⟩
    · exact ⟨u, hu, .inr (.inl (.inl hat))⟩
    · by_cases hfly' : u.chip.fly = none
      · exact ⟨u, hu, .inr (.inl (.inr ⟨hp', hfly'⟩))⟩
      · exact ⟨u, hu, .inr (.inr ⟨⟨hp', hfly'⟩, fun h => absurd h hturn⟩)⟩
    · exact ⟨u, hu, .inr (.inr ⟨⟨hp', hchip ▸ hfly⟩, fun _ => by omega⟩)⟩
  have hlanded := leads_of_polls_landed hX hf n
  have hany := (hflight.trans (.or_left (.of_imp fun _ h => h) hlanded)).or_left hlanded
  exact hany.mono_left fun t hp => (em (t.chip.fly = none)).symm.imp (⟨hp, ·⟩) (⟨hp, ·⟩)

/-- Every stage leads to the next. -/
theorem leads_next (g : Stage) : Leads s (At X g) (At X g.next) := by
  cases hg : g.polls with
  | false => exact leads_next_of_not_polls hX hf hg
  | true => exact (leads_of_polls hX hf he g.next).mono_left fun t h => ⟨g, hg, rfl, h⟩

/-- Every stage leads to the last one of the status read. -/
theorem leads_last (g : Stage) : Leads s (At X g) (At X .last) := by
  by_cases hg : g = .last
  · exact hg ▸ .of_imp fun _ h => h
  · have := Stage.rank_next_lt hg
    exact (leads_next hX hf he g).trans (leads_last g.next)
termination_by g.rank

/-- Every stage leads to the write that closes the frame of a status read. -/
theorem leads_closing (g : Stage) : Leads s (At X g) (At X (.closing true)) :=
  ((leads_last hX hf he g).trans (leads_next hX hf he .last)).trans (leads_next hX hf he .again)

end Progress

/-! ### WAITFLASH under ENGINE_FAIR and FLASH_FAIR -/

/-- The write that closes the frame of a status read is one status read more. -/
theorem leads_statusRead {s : State} (hf : SequencerFair s) (n : Nat) :
    Leads s (At (fun _ t => n ≤ statusReads t) (.closing true)) (At (fun _ t => n + 1 ≤ statusReads t) .closed) := by
  refine .of_step hf (fun t h => h.1.busy) fun t ⟨hr, hn⟩ => ?_
  obtain ⟨u, hu, ⟨hend, -⟩ | ⟨g', hr', hstep⟩⟩ := step_reading hr
  · exact ⟨u, hu, .inl hend⟩
  · refine ⟨u, hu, .inr ?_⟩
    have hn' := kept_statusReads n t u _ g' hr hr' hu hstep hn
    cases hstep with
    | other v side placed turn => exact .inr ⟨⟨hr', hn'⟩, turn⟩
    | seq hseq =>
      cases hseq with
      | moved polls notLast m => exact .inl ⟨hr', le_of_le_of_eq (Nat.succ_le_succ hn) (m.counted rfl).symm⟩
      | arrived polls => cases polls
      | polled polls => cases polls

/-- The last transaction of a status read ends WAITFLASH when the status byte says that the flash is not busy (R124). -/
theorem leads_end_of_told {s : State} (hf : SequencerFair s) : Leads s (At (Told false) .last) fun _ => False := by
  refine .of_step hf (fun t h => h.1.busy) fun t ⟨hr, ht⟩ => ?_
  obtain ⟨u, hu, ⟨hend, -⟩ | ⟨g', hr', hstep⟩⟩ := step_reading hr
  · exact ⟨u, hu, .inl hend⟩
  · refine ⟨u, hu, .inr ?_⟩
    have ht' := kept_told false t u _ g' hr hr' hu hstep ht
    cases hstep with
    | other v side placed turn => exact .inr ⟨⟨hr', ht'⟩, turn⟩
    | seq hseq =>
      cases hseq with
      | moved polls notLast => exact absurd rfl notLast
      | arrived polls => cases polls
      | polled polls => cases polls
      | unready busyBit =>
        rw [ht.read rfl] at busyBit
        cases busyBit

/-- With a flash attached that is not busy WAITFLASH ends at the end of the next status read. -/
theorem leads_end_of_notBusy {s : State} (hf : SequencerFair s) (he : EngineFair s) (g : Stage) :
    Leads s (At (fun _ t => t.cfg.flashModel.attached = true ∧ t.flash.wip = false) g) fun _ => False := by
  have hX : KeptByReads fun _ t => t.cfg.flashModel.attached = true ∧ t.flash.wip = false := by
    intro t u g g' hr hr' hst hstep ⟨ha, hw⟩
    exact ⟨(arrayChangesOnlyWhenAnOperationFinishes t u hst).1 ▸ ha, kept_notBusy t u g g' hr hr' hst hstep hw⟩
  refine (leads_closing hX hf he g).trans (.trans ?_ (leads_end_of_told hf))
  refine (leads_last (kept_told false) hf he (.closing true)).mono_left fun t ⟨hr, ha, hw⟩ => ⟨hr, ?_⟩
  exact told_of_not_selected rfl (statusBitIs_of_attached ha hw)

theorem waitflash_ends_of_flashFair {s : State} {g : Stage} (hr : Reading g s) (ha : s.cfg.flashModel.attached = true)
    (he : EngineFair s) (hff : FlashFair s) (hf : SequencerFair s) : Ends s := by
  by_contra hne
  have hreach {P Q : State → Prop} (h : Leads s P Q) {n : Nat} {t : State} (ht : Reaches s n t) (hp : P t) :
      ∃ m u, Reaches t m u ∧ Q u := by
    obtain ⟨m, u, hu, hend | hq⟩ := h n t ht hp
    · exact absurd ⟨_, u, ht.trans hu, hend⟩ hne
    · exact ⟨m, u, hu, hq⟩
  have hstay {n : Nat} {t : State} : Reaches s n t → ∃ g, Reading g t := by
    refine Reaches.stays (P := fun t => ∃ g, Reading g t) (Q := fun _ => False) ⟨g, hr⟩ (fun t ⟨g, hr⟩ => ?_)
      fun m u hu h => h.elim (fun hend => hne ⟨m, u, hu, hend⟩) id
    obtain ⟨u, hu, ⟨hend, -⟩ | ⟨g', hr', -⟩⟩ := step_reading hr
    · exact ⟨u, hu, .inl hend⟩
    · exact ⟨u, hu, .inr (.inr ⟨g', hr'⟩)⟩
  have hmany : ∀ k, ∃ m u, Reaches s m u ∧ statusReads s + k ≤ statusReads u := by
    intro k
    induction k with
    | zero => exact ⟨0, s, Reaches.zero s, le_rfl⟩
    | succ k ih =>
      obtain ⟨m, u, hu, hk⟩ := ih
      obtain ⟨g, hg⟩ := hstay hu
      obtain ⟨l, v, hv, hq⟩ := hreach
        ((leads_closing (kept_statusReads _) hf he g).trans (leads_statusRead hf (statusReads s + k))) hu ⟨hg, hk⟩
      exact ⟨m + l, v, hu.trans hv, hq.2⟩
  obtain ⟨m, u, hu, hw⟩ : ∃ m u, Reaches s m u ∧ u.flash.wip = false := by
    cases hw : s.flash.wip with
    | false => exact ⟨0, s, Reaches.zero s, hw⟩
    | true => exact hff 0 s (Reaches.zero s) hw hmany
  obtain ⟨g', hg'⟩ := hstay hu
  have hcfg : u.cfg = s.cfg := hu.keeps (p := fun t => t.cfg = s.cfg)
    (fun t v hc hst => (arrayChangesOnlyWhenAnOperationFinishes t v hst).1.trans hc) rfl
  exact hne ((leads_end_of_notBusy hf he g').ends hu ⟨hg', hcfg ▸ ha, hw⟩)

/-! ### WAITFLASH with a poll limit -/

/-- The counters have not reached the limit `k`: of the status reads once WAITFLASH has zeroed it, of the polls once one was made. -/
structure BelowLimit (k : Nat) (g : Stage) (s : State) : Prop where
  limit : s.cfg.pollLimit = some k
  reads : (∀ o, g ≠ .first o) → s.seq.fpolls.toNat < k
  polls : g = .pollFirst ∨ g = .pollSecond → s.seq.dpolls.toNat < k

/-- The status reads left, `k + 1` before the counter is zeroed. -/
def readsLeft (k : Nat) (s : State) : Stage → Nat
  | .first _ => k + 1
  | _ => k - s.seq.fpolls.toNat

/-- What each turn of the sequencer makes smaller: the status reads left, then the stages of this one, then the polls left. -/
def budget (k : Nat) (g : Stage) (s : State) : ℕ ×ₗ ℕ ×ₗ ℕ :=
  toLex (readsLeft k s g, toLex (g.rank, k - s.seq.dpolls.toNat))

section Budget

variable {k : Nat} {s t : State}

theorem budget_lt_of_reads {g g' : Stage} (h : readsLeft k t g' < readsLeft k s g) : budget k g' t < budget k g s :=
  Prod.Lex.toLex_lt_toLex.mpr (.inl h)

theorem budget_lt_of_rank {g g' : Stage} (h : readsLeft k t g' = readsLeft k s g) (hr : g'.rank < g.rank) :
    budget k g' t < budget k g s :=
  Prod.Lex.toLex_lt_toLex.mpr (.inr ⟨h, Prod.Lex.toLex_lt_toLex.mpr (.inl hr)⟩)

theorem budget_lt_of_polls {g g' : Stage} (h : readsLeft k t g' = readsLeft k s g) (hr : g'.rank = g.rank)
    (hp : k - t.seq.dpolls.toNat < k - s.seq.dpolls.toNat) : budget k g' t < budget k g s :=
  Prod.Lex.toLex_lt_toLex.mpr (.inr ⟨h, Prod.Lex.toLex_lt_toLex.mpr (.inr ⟨hr, hp⟩)⟩)

theorem readsLeft_of_not_first {g : Stage} (h : ∀ o, g ≠ .first o) : readsLeft k s g = k - s.seq.fpolls.toNat := by
  cases g with
  | first o => exact absurd rfl (h o)
  | _ => rfl

theorem Stage.next_ne_first (g : Stage) (o : Bool) : g.next ≠ .first o := by cases g <;> nofun

/-- The sequencer's turn keeps the counters below the limit and makes the budget smaller. -/
theorem SeqStep.budget_lt {g g' : Stage} (hw : s.cfg.wf = true) (hc : t.cfg = s.cfg) (hs : SeqStep s t g g')
    (h : BelowLimit k g s) : BelowLimit k g' t ∧ budget k g' t < budget k g s := by
  obtain ⟨hk1, hkb⟩ := pollLimit_bounds hw h.limit
  have hk : t.cfg.pollLimit = some k := hc ▸ h.limit
  cases hs with
  | moved polls notLast m =>
    have hnopoll : ¬ (g.next = .pollFirst ∨ g.next = .pollSecond) := by cases g <;> simp [Stage.next]
    by_cases hfirst : ∃ o, g = .first o
    · obtain ⟨o, rfl⟩ := hfirst
      have hz : t.seq.fpolls.toNat = 0 := by rw [m.zeroed o rfl]; rfl
      exact ⟨⟨hk, fun _ => by omega, fun hp => absurd hp hnopoll⟩, budget_lt_of_reads (by simp [readsLeft, Stage.next, hz])⟩
    · have hne : ∀ o, g ≠ .first o := fun o ho => hfirst ⟨o, ho⟩
      refine ⟨⟨hk, fun _ => by rw [m.fpolls hne]; exact h.reads hne, fun hp => absurd hp hnopoll⟩,
        budget_lt_of_rank ?_ (Stage.rank_next_lt notLast)⟩
      rw [readsLeft_of_not_first (Stage.next_ne_first g), readsLeft_of_not_first hne, m.fpolls hne]
  | arrived polls chip flash fpolls =>
    have hne : ∀ o, g ≠ .first o := by rintro o rfl; cases polls
    have hlast : g ≠ .last := by rintro rfl; cases polls
    have hnopoll : ¬ (g.next = .pollFirst ∨ g.next = .pollSecond) := by cases g <;> simp [Stage.next]
    refine ⟨⟨hk, fun _ => by rw [fpolls]; exact h.reads hne, fun hp => absurd hp hnopoll⟩,
      budget_lt_of_rank ?_ (Stage.rank_next_lt hlast)⟩
    rw [readsLeft_of_not_first (Stage.next_ne_first g), readsLeft_of_not_first hne, fpolls]
  | polled polls clear chip flash fpolls bus dpolls more =>
    have hleft : readsLeft k t g.repoll = readsLeft k s g := by
      cases g <;> simp [Stage.polls] at polls <;> exact congrArg (k - BitVec.toNat ·) fpolls
    have hreads : t.seq.fpolls.toNat < k := by
      rw [fpolls]
      exact h.reads (by rintro o rfl; cases polls)
    by_cases hpoll : g = .pollFirst ∨ g = .pollSecond
    · have hcount : t.seq.dpolls = s.seq.dpolls + 1 := by rcases hpoll with rfl | rfl <;> exact dpolls
      obtain ⟨hlt, hless⟩ := pollsLeft_lt h.limit hkb hcount (h.polls hpoll) more
      refine ⟨⟨hk, fun _ => hreads, fun _ => hlt⟩, budget_lt_of_polls hleft ?_ hless⟩
      rcases hpoll with rfl | rfl <;> rfl
    · have hcount : t.seq.dpolls = 0 + 1 := by
        cases g <;> simp [Stage.polls] at polls hpoll <;> exact dpolls
      refine ⟨⟨hk, fun _ => hreads, fun _ => (pollsLeft_lt h.limit hkb hcount hk1 more).1⟩, budget_lt_of_rank hleft ?_⟩
      cases g <;> simp [Stage.polls] at polls hpoll <;> decide
  | unready busyBit chip flash fpolls more =>
    obtain ⟨hlt, hless⟩ := pollsLeft_lt h.limit hkb fpolls (h.reads nofun) more
    exact ⟨⟨hk, fun _ => hlt, nofun⟩, budget_lt_of_reads hless⟩

end Budget

/-- WAITFLASH with a poll limit ends, whatever is attached (R124, R211). -/
theorem waitflash_ends_of_pollLimit {s : State} {g : Stage} {k : Nat} (hr : Reading g s) (hb : BelowLimit k g s)
    (hf : SequencerFair s) : Ends s := by
  have hleads (a : ℕ ×ₗ ℕ ×ₗ ℕ) :
      Leads s (fun t => ∃ g, Reading g t ∧ BelowLimit k g t ∧ budget k g t = a) fun _ => False := by
    refine .of_measure (P := fun a t => ∃ g, Reading g t ∧ BelowLimit k g t ∧ budget k g t = a) hf
      (fun a t ⟨g, hr, _⟩ => hr.busy) (fun a t ⟨g, hr, hb, ha⟩ => ?_) a
    obtain ⟨u, hu, ⟨hend, -⟩ | ⟨g', hr', hstep⟩⟩ := step_reading hr
    · exact ⟨u, hu, .inl hend⟩
    · have hcfg := (arrayChangesOnlyWhenAnOperationFinishes t u hu).1
      refine ⟨u, hu, .inr (.inr ?_)⟩
      cases hstep with
      | other v side placed turn seq =>
        have hsame : budget k g u = budget k g t := by
          unfold budget
          rw [seq]
          cases g <;> simp only [readsLeft, seq]
        exact .inr ⟨⟨g, hr', ⟨hcfg ▸ hb.limit, by rw [seq]; exact hb.reads, by rw [seq]; exact hb.polls⟩, hsame.trans ha⟩, turn⟩
      | seq hseq =>
        obtain ⟨hb', hlt⟩ := hseq.budget_lt hr.wf hcfg hb
        exact .inl ⟨_, ha ▸ hlt, g', hr', hb', rfl⟩
  exact (hleads _).ends (Reaches.zero s) ⟨g, hr, hb, rfl⟩

/-! ### WAITFLASH with no device on a line that reads busy -/

theorem engineCompletes_schedule (s : State) : (engineCompletes s).env.schedule = s.env.schedule := by
  unfold engineCompletes
  split
  · rfl
  · exact (exchange_side _ s).sched

/-- In a quiet environment WAITFLASH sees the engine's and the sequencer's turns only. -/
theorem Reading.turn_of_quiet {g : Stage} {s : State} (hr : Reading g s) (hq : quiet s = true) :
    (nextTurn s).1 = .eng ∨ (nextTurn s).1 = .seq := by
  rw [nextTurn_quiet s hq]
  unfold defaultTurn
  split
  · exact .inl rfl
  · exact .inr (if_pos hr.busy)

/-- A quiet environment stays quiet while WAITFLASH goes on. -/
theorem Reading.quiet_of_step {g g' : Stage} {s t : State} (hr : Reading g s) (hr' : Reading g' t) (hq : quiet s = true)
    (h : Machine.step s = .next t) : quiet t = true := by
  have hsched : t.env.schedule = s.env.schedule := by
    have htake := (step_next h).2
    have hturn := hr.turn_of_quiet hq
    rw [nextTurn_quiet s hq] at htake hturn
    rcases hturn with he | he <;> rw [show defaultTurn s = _ from he] at htake
    · cases htake
      exact engineCompletes_schedule s
    · have ht := topLevelOp_of_pc hr.pc
      rw [takeTurn, seqTurn, if_pos hr.busy, ht] at htake
      exact (exec_operationSide (i := .waitflash) rfl htake).sched
  obtain ⟨h1, h2⟩ := Prod.mk.inj hsched
  simp only [quiet, Bool.and_eq_true] at hq ⊢
  rw [h1, h2, hr'.transport]
  exact ⟨hq.1, rfl⟩

/-- WAITFLASH, prompt and with no poll limit, on a line that reads busy. -/
structure ReadingBusy (s : State) : Prop where
  reading : ∃ g, Reading g s ∧ Told true g s
  quiet : quiet s = true
  noLimit : s.cfg.pollLimit = none

theorem ReadingBusy.keeps {s : State} (h : ReadingBusy s) : ∃ t, step s = .next t ∧ ReadingBusy t := by
  obtain ⟨⟨g, hr, ht⟩, hq, hl⟩ := h
  obtain ⟨u, hu, ⟨-, hfails | hreset | hlimit | ⟨rfl, hbit⟩⟩ | ⟨g', hr', hstep⟩⟩ := step_reading hr
  · rcases hr.turn_of_quiet hq with h | h <;> cases h.symm.trans hfails
  · rcases hr.turn_of_quiet hq with h | h <;> cases h.symm.trans hreset
  · exact absurd hl hlimit
  · rw [ht.read rfl] at hbit
    cases hbit
  · exact ⟨u, hu, ⟨g', hr', kept_told true s u g g' hr hr' hu hstep ht⟩, hr.quiet_of_step hr' hq hu,
      (arrayChangesOnlyWhenAnOperationFinishes s u hu).1 ▸ hl⟩

/-! ### The statement -/

/-- WAITFLASH just accepted, from rest, is at its first stage. -/
theorem reading_first {s : State} (hw : s.cfg.wf = true) (hrest : atRest s = true)
    (hr : runningAt .waitflash [⟨.waitflash, 0⟩] s = true) : Reading (.first s.chip.cs) s := by
  obtain ⟨hb, hp, -, hf⟩ := (runningAt_iff s).mp hr
  simp only [atRest, Bool.and_eq_true, Option.isNone_iff_eq_none] at hrest
  obtain ⟨⟨hfly, hmsen⟩, hcs⟩ := hrest
  refine ⟨⟨hb, hp, hf, hmsen, ?_⟩, hw, (topPlain_of_cons hp rfl).freshInv⟩
  by_cases hm : modeOf s.cfg s.chip.spictl = .idle
  · rw [if_pos hm] at hcs
    obtain hcs : s.chip.cs = false := by simpa using hcs
    rw [hcs]
    exact ⟨hfly, hm, hcs⟩
  · rw [if_neg hm] at hcs
    obtain ⟨hcs, hframe⟩ : s.chip.cs = true ∧ s.flash.frame.head? = some s.cfg.opRdsr := by simpa using hcs
    rw [hcs]
    exact ⟨hfly, hm, hcs, hframe⟩

/-- Settles O60: WAITDONE by `Leads` over its polls, WAITFLASH by `Leads` over the stages of its status reads, and each hang by a kind of
state that every step keeps. -/
theorem waitsEndOrHang : Obligations.WaitsEndOrHang := by
  refine ⟨fun s hw hr hfly he hf => ?_, fun s k hw hr hk hf => ?_, fun s hw hrest ha hr he hff hf => ?_,
    fun s k hw hrest hk hr hf => ?_, fun s hw hr hk hd hs hl => ?_, fun s b hw hq hrest hk hm hb hr => ?_⟩
  · exact waitdone_ends_of_engineFair (polling_of_runningAt hw hr) hfly he hf
  · exact waitdone_ends_of_pollLimit (polling_of_runningAt hw hr) ((runningAt_iff s).mp hr).2.1 hk hf
  · exact waitflash_ends_of_flashFair (reading_first hw hrest hr) ha he hff hf
  · exact waitflash_ends_of_pollLimit (reading_first hw hrest hr) ⟨hk, fun h => absurd rfl (h _), nofun⟩ hf
  · exact hangs_of_keeps (P := PollingAlone) ⟨polling_of_runningAt hw hr, hk, hd, hs, hl⟩ (fun t ht => ht.polling.busy)
      fun t ht => ht.keeps
  · refine hangs_of_keeps (P := ReadingBusy) ⟨⟨_, reading_first hw hrest hr, told_of_not_selected rfl ?_⟩, hq, hk⟩
      (fun t ⟨⟨g, hg, _⟩, _, _⟩ => hg.busy) fun t ht => ht.keeps
    rw [StatusBitIs, hm]
    exact ⟨b, rfl, hb⟩

end Sys2Proof.Machine
end

section
/-! PROOFS. The ends of the flash primitives (spec/42_flash_primitives.md R121 to R124): the last read of a status read and the test that
WAITFLASH makes after it, and the write that ends the frame of a write-enable or of an erase. -/

namespace Sys2Proof.Machine

open Sys2Proof

/-! ### The last read of a status read (R121, R124) -/

/-- A status read called by WAITFLASH has ended: STAT holds the status and the read is counted. -/
def statusCounted (s : State) : State :=
  { s with
    seq := { s.seq with stat := s.chip.spirx.extractLsb' 0 8, fpolls := s.seq.fpolls + 1 }
    hist := .busRead s.cfg.regSpirx s.chip.spirx :: s.hist }

/-- A status read issued by the host has ended: STAT and RESULT hold the status, the block is Idle. -/
def statusAnswered (s : State) : State :=
  { s with
    seq :=
      { s.seq with
        stat := s.chip.spirx.extractLsb' 0 8
        result := (s.chip.spirx.extractLsb' 0 8).setWidth 32
        pc := []
        busy := false }
    hist := .busRead s.cfg.regSpirx s.chip.spirx :: s.hist }

theorem microStep_rdstatus_last {s : State} (hw : s.cfg.wf = true) (hf : s.env.transportFails = false) (hfly : s.chip.fly = none)
    (hp : s.seq.pc = [⟨.rdstatus, 8⟩]) : microStep s = .next (statusAnswered s) := by
  rw [rdstatus_last (facts_of_wf hw) hf hfly hp, returnTo_nil]
  simp [takeStatus, finish, record, statusAnswered, hp]

section LastRead

variable {s : State} {callers : List Frame} (hw : s.cfg.wf = true) (hf : s.env.transportFails = false)
  (hfly : s.chip.fly = none) (hp : s.seq.pc = ⟨.rdstatus, 8⟩ :: ⟨.waitflash, 1⟩ :: callers)

include hw hf hfly hp

/-- A status read called by WAITFLASH takes the status into STAT alone; then WAITFLASH tests it. -/
theorem microStep_statusRead_last :
    microStep s = .next
      (if s.chip.spirx.getLsbD 0 = false then returnTo callers (waitflashResult callers (statusCounted s))
      else if pollsExhausted s.cfg (s.seq.fpolls + 1) then
        raiseError (.deviceUnresponsive .waitflash) (statusCounted s)
      else setPc (⟨.waitflash, 1⟩ :: callers) (statusCounted s)) := by
  have hnested : s.seq.pc.length ≠ 1 := by simp [hp]
  have hcount : countStatusRead (takeStatus s.chip.spirx (record (.busRead s.cfg.regSpirx s.chip.spirx) s)) = statusCounted s := by
    simp [countStatusRead, takeStatus, record, statusCounted, hnested]
  rw [rdstatus_last (facts_of_wf hw) hf hfly hp, returnTo_waitflash, wipFlag_takeStatus, hcount]
  rfl

theorem microStep_statusRead_ready (hb : s.chip.spirx.getLsbD 0 = false) :
    microStep s = .next (returnTo callers (waitflashResult callers (statusCounted s))) := by
  rw [microStep_statusRead_last hw hf hfly hp, if_pos hb]

theorem microStep_statusRead_busy (hb : s.chip.spirx.getLsbD 0 = true)
    (hx : pollsExhausted s.cfg (s.seq.fpolls + 1) = false) :
    microStep s = .next (setPc (⟨.waitflash, 1⟩ :: callers) (statusCounted s)) := by
  rw [microStep_statusRead_last hw hf hfly hp, if_neg (ne_false_of_eq_true hb), if_neg (ne_true_of_eq_false hx)]

theorem microStep_statusRead_exhausted (hb : s.chip.spirx.getLsbD 0 = true)
    (hx : pollsExhausted s.cfg (s.seq.fpolls + 1) = true) :
    microStep s = .next (raiseError (.deviceUnresponsive .waitflash) (statusCounted s)) := by
  rw [microStep_statusRead_last hw hf hfly hp, if_neg (ne_false_of_eq_true hb), if_pos hx]

end LastRead

/-- Settles O28: RDSTATUS by its last micro-step, PROGPAGE by the test of the WAITFLASH that is its last call. -/
theorem statusReadEndsOperation : Obligations.StatusReadEndsOperation := by
  refine fun s hw hfly => ⟨fun hr => ?_, fun a n hr hb => ?_⟩
  · obtain ⟨he, hp, hf⟩ := exec_top rfl hr
    exact he.trans (microStep_rdstatus_last hw hf hfly hp)
  · obtain ⟨he, hp, hf⟩ := exec_top rfl hr
    rw [he, microStep_statusRead_ready hw hf hfly hp hb, returnTo_progpage, if_neg (Nat.lt_irrefl 19)]
    rfl

/-- Settles O29: the three outcomes of WAITFLASH's test, and what its return is when the host issued it. -/
theorem waitflashTests : Obligations.WaitflashTests := by
  intro i callers s hw hi hr hfly stat u
  obtain ⟨he, hp, hf⟩ := exec_top hi hr
  have hbit : stat.getLsbD 0 = s.chip.spirx.getLsbD 0 := by simp [stat]
  rw [hbit, he]
  refine ⟨fun hb hne => ?_, fun hb hnil => ?_, fun hb hk => ?_, fun k hb hk hle => ?_⟩
  · obtain ⟨f, rest, rfl⟩ := List.exists_cons_of_ne_nil hne
    exact microStep_statusRead_ready hw hf hfly hp hb
  · subst hnil
    exact microStep_statusRead_ready hw hf hfly hp hb
  · refine microStep_statusRead_busy hw hf hfly hp hb (Bool.eq_false_iff.mpr fun hx => ?_)
    obtain ⟨k, hk', hle⟩ := pollsExhausted_iff.mp hx
    exact Nat.not_le.mpr (hk k hk') hle
  · exact microStep_statusRead_exhausted hw hf hfly hp hb (pollsExhausted_iff.mpr ⟨k, hk, hle⟩)

/-! ### The end of a command frame (R143, R159, R160) -/

/-- The bytes of a sector-erase frame for the address in the low 24 bits of `a` (R82). -/
def seFrame (c : Cfg) (a : Word) : List Byte := c.opSe :: bytesOfAddr (a.extractLsb' 0 24)

theorem seFrame_eq (c : Cfg) (a : Word) :
    seFrame c a = [c.opSe, a.extractLsb' 16 8, a.extractLsb' 8 8, a.extractLsb' 0 8] := by
  simp [seFrame, bytesOfAddr, BitVec.extractLsb'_extractLsb'_of_le]

section FrameEnds

variable {s : State} (f : Facts s.cfg)

include f

theorem endFrame_wren (hframe : s.flash.frame = [s.cfg.opWren]) :
    endFrame s = .next (if takesCommand s then { s with flash := { s.flash with wel := true } } else s) :=
  endFrame_of_decodeFrame (hframe ▸ decodeFrame_wren f) rfl

theorem endFrame_se {a : Word} (hframe : s.flash.frame = seFrame s.cfg a) :
    endFrame s = .next (if s.flash.wel && takesCommand s then startOperation (.erase (a.toNat % 2 ^ 24 / 4096 * 4096)) s else s) := by
  have hdecode : decodeFrame s.cfg s.flash.frame = .ok (.flashSe (a.extractLsb' 0 24)) := by
    rw [hframe, ← addrOfBytes_extract (a.extractLsb' 0 24)]
    exact decodeFrame_se f _ _ _
  rw [endFrame_of_decodeFrame hdecode rfl]
  show execFlashSe _ s = _
  rw [execFlashSe, sectorBase_eq, BitVec.extractLsb'_toNat, Nat.shiftRight_zero]

end FrameEnds

/-- The last write of an operation issued by the host, of SETMODE idle with a frame open: the frame ends and the operation returns (R143). -/
theorem exec_closing {i : Instr} {f : Frame} {s u : State} (hw : s.cfg.wf = true) (hi : i.isCommand = true)
    (hr : runningAt i [⟨.setmode .idle, 1⟩, f] s = true) (hfly : s.chip.fly = none) (hcs : s.chip.cs = true)
    (hm : modeOf s.cfg s.chip.spictl ≠ .idle)
    (hu : endFrame (deselected (controlStored (withMode s.cfg s.seq.tmp .idle) s)) = .next u) :
    exec i s = .next (returnTo [f] u) := by
  have hf := facts_of_wf hw
  have hwrite := (write_idle_frame hf hfly (modeOf_withMode hf s.seq.tmp .idle) hm hcs).trans hu
  exact exec_writesBackLast_next hi (.inr (.inr ⟨_, rfl⟩)) hr rfl hwrite

/-- Settles O30: the write of mode idle ends the frame (`exec_closing`), which the flash, attached and not busy, takes as its command. -/
theorem commandFramesEnd : Obligations.CommandFramesEnd := by
  intro s hw hfly hcs hm hb ha v
  have f := facts_of_wf hw
  have htakes : takesCommand (deselected (controlStored v s)) = true := takesCommand_iff.mpr ⟨ha, hb⟩
  refine ⟨fun op hr hop hframe => ?_, fun a hr hframe hwel => ?_⟩
  · subst hop
    have hend := endFrame_wren (s := deselected (controlStored v s)) f hframe
    rw [if_pos htakes] at hend
    exact exec_closing hw rfl hr hfly hcs hm hend
  · have hend := endFrame_se (s := deselected (controlStored v s)) f (hframe.trans (seFrame_eq _ _).symm)
    rw [htakes, Bool.and_true, if_pos (show (deselected (controlStored v s)).flash.wel = true from hwel)] at hend
    refine ⟨_, exec_closing hw rfl hr hfly hcs hm hend, rfl, rfl, rfl, rfl, rfl, congrArg Pending.erase ?_, rfl⟩
    omega

end Sys2Proof.Machine
end

section
/-! PROOFS. The reply to every byte (spec/44_engine_and_flash.md R157, R158, R166), and what a transfer that reads the status receives: one
equation for each device, then the replies of a whole exchange. -/

namespace Sys2Proof.Machine

open Sys2Proof

/-! ### One byte (R157, R158) -/

/-- The byte is in the frame; nothing has replied to it yet. -/
def byteTaken (b : Byte) (s : State) : State := { s with flash := { s.flash with frame := s.flash.frame ++ [b] } }

theorem answersStatus_iff {s : State} : answersStatus s = true ↔ StatusFrame s.cfg s.flash.frame := by
  unfold answersStatus StatusFrame
  split
  · next h => simp [h]
  · next op rest h => simp [h]

section Replies

variable {b : Byte} {s : State}

theorem receiveByte_of_statusFrame (h : StatusFrame s.cfg s.flash.frame) : receiveByte b s = statusReply (byteTaken b s) :=
  if_pos (answersStatus_iff.mpr h)

theorem receiveByte_of_not_statusFrame (h : ¬ StatusFrame s.cfg s.flash.frame) : receiveByte b s = idleReply (byteTaken b s) :=
  if_neg (mt answersStatus_iff.mp h)

theorem statusReply_contract (hm : s.cfg.flashModel = .contract) :
    statusReply s = (contractStatus s.flash.wip (drawByte s).1, (drawByte s).2) := by
  rw [statusReply, hm]

theorem statusReply_reference (hm : s.cfg.flashModel = .reference) : statusReply s = referenceReply s := by
  rw [statusReply, hm]

theorem idleReply_contract (hm : s.cfg.flashModel = .contract) : idleReply s = drawByte s := by
  rw [idleReply, hm]

theorem idleReply_reference (hm : s.cfg.flashModel = .reference) : idleReply s = (0xFF, s) := by
  rw [idleReply, hm]

/-- With no device attached every byte is answered alike (R121 (c)). -/
theorem receiveByte_absent {line : Option Byte} (hm : s.cfg.flashModel = .absent line) :
    receiveByte b s = lineReply line (byteTaken b s) := by
  have hm' : (byteTaken b s).cfg.flashModel = .absent line := hm
  by_cases h : StatusFrame s.cfg s.flash.frame
  · rw [receiveByte_of_statusFrame h, statusReply, hm']
  · rw [receiveByte_of_not_statusFrame h, idleReply, hm']

theorem getLsbD_contractStatus_wip (wip : Bool) (drawn : Byte) : (contractStatus wip drawn).getLsbD 0 = wip := by
  cases wip <;> simp [contractStatus, referenceStatus]

theorem getLsbD_referenceStatus (wip : Bool) : (referenceStatus wip).getLsbD 0 = wip := by
  cases wip <;> rfl

end Replies

/-! ### The reference flash: a status sampled once a frame (R158, R166) -/

/-- The reference flash has sampled its status: counted down, and the frame's status is its busy bit. -/
def sampled (s : State) : State :=
  { busyCountdown s with
    flash := { (busyCountdown s).flash with frameStatus := some (referenceStatus (busyCountdown s).flash.wip) } }

section Reference

variable {s : State}

theorem referenceReply_repeats {x : Byte} (h : s.flash.frameStatus = some x) : referenceReply s = (x, s) := by
  rw [referenceReply, h]

theorem referenceReply_samples (h : s.flash.frameStatus = none) :
    referenceReply s = (referenceStatus (busyCountdown s).flash.wip, sampled s) := by
  rw [referenceReply, h]
  rfl

theorem busyCountdown_idle (h : s.flash.wip = false) : busyCountdown s = s := by
  rw [busyCountdown, if_neg (by simp [h])]

theorem busyCountdown_finishes (h : s.flash.wip = true) (h0 : s.flash.busyLeft = 0) : busyCountdown s = finishOperation s := by
  rw [busyCountdown, if_pos h, if_pos h0]

theorem busyCountdown_counts {k : Nat} (h : s.flash.wip = true) (hk : s.flash.busyLeft = k + 1) :
    busyCountdown s = { s with flash := { s.flash with busyLeft := k } } := by
  rw [busyCountdown, if_pos h, if_neg (by simp [hk]), hk]
  rfl

/-- What is sampled depends on the flash and the draws only, and not on the bytes of the frame or a status sampled before. -/
theorem sampled_congr {u : State} {bytes : List Byte} {x : Option Byte}
    (hf : u.flash = { s.flash with frame := bytes, frameStatus := x }) (he : u.env = s.env) :
    (sampled u).flash = { (sampled s).flash with frame := bytes } ∧ (sampled u).env = (sampled s).env := by
  have hwip : u.flash.wip = s.flash.wip := by rw [hf]
  have hleft : u.flash.busyLeft = s.flash.busyLeft := by rw [hf]
  cases hw : s.flash.wip with
  | false =>
    rw [sampled, sampled, busyCountdown_idle hw, busyCountdown_idle (hwip.trans hw), hf]
    exact ⟨rfl, he⟩
  | true =>
    cases hk : s.flash.busyLeft with
    | zero =>
      rw [sampled, sampled, busyCountdown_finishes hw hk, busyCountdown_finishes (hwip.trans hw) (hleft.trans hk)]
      simp [finishOperation, hf, he]
    | succ k =>
      rw [sampled, sampled, busyCountdown_counts hw hk, busyCountdown_counts (hwip.trans hw) (hleft.trans hk), hf]
      exact ⟨rfl, he⟩

end Reference

/-- Settles O35: the equation of each device for a status byte and for any other. -/
theorem statusByte : Obligations.StatusByte := by
  intro b s received
  refine ⟨fun hframe => ?_, fun hno => ?_, fun x hm => ?_, fun hm => ?_⟩
  · rw [receiveByte_of_statusFrame hframe]
    refine ⟨fun hm => ?_, fun x hm hx => ?_, fun hm hx hw => ?_, fun hm hx hw h0 => ?_, fun k hm hx hw hk => ?_⟩
    · rw [statusReply_contract (by exact hm)]
      exact ⟨getLsbD_contractStatus_wip _ _, rfl⟩
    · rw [statusReply_reference (by exact hm), referenceReply_repeats (by exact hx)]
      exact ⟨rfl, rfl⟩
    · rw [statusReply_reference (by exact hm), referenceReply_samples (by exact hx), sampled, busyCountdown_idle (by exact hw)]
      simp [byteTaken, received, hw, referenceStatus]
    · rw [statusReply_reference (by exact hm), referenceReply_samples (by exact hx), sampled,
        busyCountdown_finishes (by exact hw) (by exact h0)]
      exact ⟨rfl, rfl⟩
    · rw [statusReply_reference (by exact hm), referenceReply_samples (by exact hx), sampled,
        busyCountdown_counts (by exact hw) (by exact hk)]
      simp [byteTaken, received, hw, referenceStatus]
  · rw [receiveByte_of_not_statusFrame hno]
    exact ⟨fun hm => idleReply_contract (by exact hm), fun hm => idleReply_reference (by exact hm)⟩
  · exact receiveByte_absent hm
  · exact receiveByte_absent hm

/-! ### A whole exchange -/

/-- The byte received last is the low byte of SPIRX (R149). -/
theorem lowByte_shiftIn (rx : Word) {received : List Byte} {r : Byte} (h : received.getLast? = some r) :
    (shiftIn rx received).extractLsb' 0 8 = r := by
  obtain ⟨init, rfl⟩ := List.getLast?_eq_some_iff.mp h
  rw [shiftIn, List.foldl_append]
  apply BitVec.eq_of_getLsbD_eq
  intro i hi
  simp [hi]
  omega

/-- The frame's status, if sampled, says in bit 0 whether the flash is busy. -/
def SampleHolds (s : State) : Prop := ∀ x, s.flash.frameStatus = some x → x.getLsbD 0 = s.flash.wip

theorem sampleHolds_sampled (s : State) : SampleHolds (sampled s) := by
  intro x hx
  obtain rfl : _ = x := Option.some.inj hx
  exact getLsbD_referenceStatus _

section Exchange

variable {s : State}

/-- A status byte says in bit 0 whether the flash is busy, and so does what is sampled from then on. -/
theorem SampleHolds.statusReply (h : SampleHolds s) (ha : s.cfg.flashModel.attached = true) :
    (statusReply s).1.getLsbD 0 = (statusReply s).2.flash.wip ∧ SampleHolds (statusReply s).2 := by
  cases hm : s.cfg.flashModel with
  | contract =>
    rw [statusReply_contract hm]
    exact ⟨getLsbD_contractStatus_wip _ _, h⟩
  | reference =>
    rw [statusReply_reference hm]
    cases hx : s.flash.frameStatus with
    | some x =>
      rw [referenceReply_repeats hx]
      exact ⟨h x hx, h⟩
    | none =>
      rw [referenceReply_samples hx]
      exact ⟨getLsbD_referenceStatus _, sampleHolds_sampled s⟩
  | absent line =>
    rw [hm] at ha
    cases ha

theorem SampleHolds.receiveByte (h : SampleHolds s) (ha : s.cfg.flashModel.attached = true) (b : Byte) :
    SampleHolds (receiveByte b s).2 := by
  by_cases hf : StatusFrame s.cfg s.flash.frame
  · rw [receiveByte_of_statusFrame hf]
    exact (SampleHolds.statusReply (s := byteTaken b s) h ha).2
  · rw [receiveByte_of_not_statusFrame hf]
    cases hm : s.cfg.flashModel with
    | contract => rw [idleReply_contract (by exact hm)]; exact h
    | reference => rw [idleReply_reference (by exact hm)]; exact h
    | absent line =>
      rw [hm] at ha
      cases ha

theorem SampleHolds.exchange (h : SampleHolds s) (ha : s.cfg.flashModel.attached = true) (bytes : List Byte) :
    SampleHolds (exchange bytes s).2 := by
  induction bytes generalizing s with
  | nil => exact h
  | cons b rest ih => exact ih (h.receiveByte ha b) (by rwa [(receiveByte_side b s).cfg])

/-- The last byte received in a status frame says in bit 0 whether the flash is busy. -/
theorem exchange_last_status (h : SampleHolds s) (ha : s.cfg.flashModel.attached = true)
    (hf : StatusFrame s.cfg s.flash.frame) {bytes : List Byte} (hne : bytes ≠ []) :
    ∃ r, (exchange bytes s).1.getLast? = some r ∧ r.getLsbD 0 = (exchange bytes s).2.flash.wip := by
  induction bytes generalizing s with
  | nil => exact absurd rfl hne
  | cons b rest ih =>
    cases rest with
    | nil =>
      refine ⟨_, rfl, ?_⟩
      show (receiveByte b s).1.getLsbD 0 = (receiveByte b s).2.flash.wip
      rw [receiveByte_of_statusFrame hf]
      exact (SampleHolds.statusReply (s := byteTaken b s) h ha).1
    | cons c rest =>
      have e := receiveByte_side b s
      have hframe : StatusFrame (receiveByte b s).2.cfg (receiveByte b s).2.flash.frame := by
        rw [e.cfg, receiveByte_frame]
        exact hf.append _
      exact ih (h.receiveByte ha b) (by rwa [e.cfg]) hframe (by simp)

/-- A line that always reads `x` answers every byte with `x` (R121 (c)). -/
theorem exchange_line {x : Byte} (hm : s.cfg.flashModel = .absent (some x)) (bytes : List Byte) :
    (exchange bytes s).1 = List.replicate bytes.length x := by
  induction bytes generalizing s with
  | nil => rfl
  | cons b rest ih =>
    have hrest := ih (s := (receiveByte b s).2) (by rwa [(receiveByte_side b s).cfg])
    rw [exchange, hrest, receiveByte_absent hm]
    rfl

/-- Once it has sampled, the reference flash repeats its status for the rest of the frame (R158). -/
theorem exchange_sampled {x : Byte} (hm : s.cfg.flashModel = .reference) (hf : StatusFrame s.cfg s.flash.frame)
    (hx : s.flash.frameStatus = some x) (bytes : List Byte) :
    exchange bytes s =
      (List.replicate bytes.length x, { s with flash := { s.flash with frame := s.flash.frame ++ bytes } }) := by
  induction bytes generalizing s with
  | nil => simp [exchange]
  | cons b rest ih =>
    have hb : receiveByte b s = (x, byteTaken b s) := by
      rw [receiveByte_of_statusFrame hf, statusReply_reference (by exact hm), referenceReply_repeats (by exact hx)]
    have hrest := ih (s := byteTaken b s) hm (hf.append _) hx
    rw [exchange, hb, hrest]
    simp [byteTaken, List.replicate_succ]

/-- The reference flash samples its status at the second byte of a status frame (R158): what a transfer of two or more bytes leaves, the
frame opened in a state whose flash and draws were those of `s`. -/
theorem exchange_samples {u : State} (hm : u.cfg.flashModel = .reference)
    (hf : u.flash = { s.flash with frame := [], frameStatus := none }) (he : u.env = s.env) (b : Byte) (rest : List Byte) :
    (exchange (u.cfg.opRdsr :: b :: rest) u).2.flash = { (sampled s).flash with frame := u.cfg.opRdsr :: b :: rest } ∧
      (exchange (u.cfg.opRdsr :: b :: rest) u).2.env = (sampled s).env := by
  generalize hop : u.cfg.opRdsr = op
  have hframe : u.flash.frame = [] := by rw [hf]
  have hfirst : (receiveByte op u).2 = byteTaken op u := by
    rw [receiveByte_of_not_statusFrame (by simp [StatusFrame, hframe]), idleReply_reference (by exact hm)]
  have hopen : StatusFrame u.cfg (byteTaken op u).flash.frame := by simp [StatusFrame, byteTaken, hframe, hop]
  have hsecond : (receiveByte b (byteTaken op u)).2 = sampled (byteTaken b (byteTaken op u)) := by
    rw [receiveByte_of_statusFrame hopen, statusReply_reference (by exact hm), referenceReply_samples (by simp [byteTaken, hf])]
  obtain ⟨hflash, henv⟩ := sampled_congr (s := s) (u := byteTaken b (byteTaken op u)) (bytes := [op, b]) (x := none)
    (by simp [byteTaken, hf]) he
  have hcfg : (sampled (byteTaken b (byteTaken op u))).cfg = u.cfg := (busyCountdown_side _).cfg
  have hrest := exchange_sampled (s := sampled (byteTaken b (byteTaken op u))) (hcfg ▸ hm)
    (by simp [hflash, hcfg, StatusFrame, hop]) rfl rest
  have hall : (exchange (op :: b :: rest) u).2 = (exchange rest (sampled (byteTaken b (byteTaken op u)))).2 := by
    rw [← hsecond, ← hfirst]
    rfl
  rw [hall, hrest]
  exact ⟨by simp [hflash], henv⟩

end Exchange

end Sys2Proof.Machine
end

section
/-! PROOFS. The legs of a frame (spec/42_flash_primitives.md R121 to R123): closing the last frame, opening the next, the command word, the
byte count, the transfer. Every operation that sends a frame goes through them in a quiet environment (spec/44_engine_and_flash.md R152) in
the same number of steps, whoever called it. -/

namespace Sys2Proof.Machine

open Sys2Proof

/-! ### A run in a quiet environment -/

/-- Every frame is one of the sequencer's operations. -/
def Commands (pc : List Frame) : Prop := pc.all (fun f => f.op.isCommand) = true

/-- The block runs the frames `pc` in a quiet environment, master SPI enabled. -/
structure Ready (pc : List Frame) (s : State) : Prop where
  wf : s.cfg.wf = true
  quiet : quiet s = true
  busy : s.seq.busy = true
  commands : Commands pc
  pc : s.seq.pc = pc
  msen : msenFlag s.cfg s.chip.spictl = true

/-- The registers of the sequencer that no leg touches. -/
structure KeptRegisters where
  addr : Word
  cnt : Word
  idx : Word
  result : Word
  err : BitVec 2
  busy : Bool

def Sequencer.kept (q : Sequencer) : KeptRegisters := ⟨q.addr, q.cnt, q.idx, q.result, q.err, q.busy⟩

/-- From `s` to `t` in `n` steps with `k` bus transactions: a leg of a frame, or several. -/
structure Passes (n k : Nat) (s t : State) : Prop where
  reaches : Reaches s n t
  cfg : t.cfg = s.cfg
  kept : t.seq.kept = s.seq.kept
  host : t.host = s.host
  bus : busTransactions t = busTransactions s + k

/-- A leg of which the flash and the environment take no notice. -/
structure PassesAlone (n k : Nat) (s t : State) : Prop extends Passes n k s t where
  flash : t.flash = s.flash
  env : t.env = s.env

theorem Passes.trans {s t u : State} {n k m l : Nat} (h : Passes n k s t) (g : Passes m l t u) :
    Passes (n + m) (k + l) s u :=
  ⟨h.reaches.trans g.reaches, g.cfg.trans h.cfg, g.kept.trans h.kept, g.host.trans h.host, by rw [g.bus, h.bus, Nat.add_assoc]⟩

theorem Passes.err {s t : State} {n k : Nat} (h : Passes n k s t) : t.seq.err = s.seq.err :=
  congrArg KeptRegisters.err h.kept

theorem PassesAlone.trans {s t u : State} {n k m l : Nat} (h : PassesAlone n k s t) (g : PassesAlone m l t u) :
    PassesAlone (n + m) (k + l) s u :=
  ⟨h.toPasses.trans g.toPasses, g.flash.trans h.flash, g.env.trans h.env⟩

theorem quiet_congr {s t : State} (h : t.env.schedule = s.env.schedule) (ht : t.env.transportFails = s.env.transportFails) :
    quiet t = quiet s := by
  obtain ⟨hsched, hlater⟩ := Prod.mk.inj h
  rw [quiet, quiet, hsched, hlater, ht]

namespace Ready

variable {pc callers : List Frame} {f : Frame} {s : State}

theorem transport (h : Ready pc s) : s.env.transportFails = false := by
  have hq := h.quiet
  simp only [Machine.quiet, Bool.and_eq_true] at hq
  simpa using hq.2

theorem congr (h : Ready pc s) {t : State} {pc' : List Frame} (hcfg : t.cfg = s.cfg) (hbusy : t.seq.busy = s.seq.busy)
    (hpc : t.seq.pc = pc') (hcmd : Commands pc') (henv : t.env = s.env)
    (hmsen : msenFlag s.cfg t.chip.spictl = true) : Ready pc' t :=
  ⟨hcfg ▸ h.wf, (quiet_congr (by rw [henv]) (by rw [henv])).trans h.quiet, hbusy.trans h.busy, hcmd, hpc, hcfg ▸ hmsen⟩

/-- With no transfer in flight the step is the sequencer's. -/
theorem step_eq (h : Ready (f :: callers) s) (hfly : s.chip.fly = none) : Machine.step s = microStep s := by
  obtain ⟨b, hb⟩ : ∃ b, (f :: callers).getLast? = some b := ⟨_, List.getLast?_eq_some_getLast (List.cons_ne_nil _ _)⟩
  have htop : topLevelOp s = some b.op := by rw [topLevelOp, h.pc, hb, Option.map_some]
  have hcmd : b.op.isCommand = true := List.all_eq_true.mp h.commands b (List.mem_of_getLast? hb)
  have hturn : defaultTurn s = .seq := by simp [defaultTurn, hfly, h.busy]
  rw [step_of_wf s h.wf, nextTurn_quiet s h.quiet, hturn, takeTurn, seqTurn, if_pos h.busy, htop]
  exact exec_running s hcmd h.busy htop

/-- With a transfer in flight the step is the engine's. -/
theorem step_engine (h : Ready pc s) (hfly : s.chip.fly ≠ none) : Machine.step s = .next (engineCompletes s) := by
  have hturn : defaultTurn s = .eng := by simp [defaultTurn, Option.isSome_iff_ne_none, hfly]
  rw [step_of_wf s h.wf, nextTurn_quiet s h.quiet, hturn, takeTurn]

/-! ### SETMODE and SETCNT, called -/

theorem step_calls_setmode (h : Ready (f :: callers) s) (hfly : s.chip.fly = none) {m : ModeName}
    (hc : calleeAt s.cfg f = some (.setmode m)) : Machine.step s = .next (opBegun (.setmode m) (f :: callers) s) := by
  rw [h.step_eq hfly, microStep_of_calleeAt h.pc hc, ← h.pc]
  exact callSetmode_ok (facts_of_wf h.wf) h.transport m

theorem step_calls_setcnt (h : Ready (f :: callers) s) (hfly : s.chip.fly = none) {n : Word}
    (hc : calleeAt s.cfg f = some (.setcnt n)) : Machine.step s = .next (opBegun (.setcnt n) (f :: callers) s) := by
  rw [h.step_eq hfly, microStep_of_calleeAt h.pc hc, ← h.pc]
  exact callSetcnt_ok (facts_of_wf h.wf) h.transport n

/-- SETMODE's write half. -/
theorem step_writes {m : ModeName} {u : State} (h : Ready (⟨.setmode m, 1⟩ :: callers) s) (hfly : s.chip.fly = none)
    (hw : writeReg s.cfg.regSpictl (withMode s.cfg s.seq.tmp m) s = .next u) :
    Machine.step s = .next (returnTo callers u) := by
  rw [h.step_eq hfly, microStep_of_valueWrittenBack h.pc (.inr (.inr ⟨m, rfl⟩)) rfl rfl, iwrite_ok h.transport,
    andThen_writeReg_returnOp h.pc hw]

/-- The state after the read of a called operation is ready for its write. -/
theorem begun (h : Ready (f :: callers) s) {i : Instr} (hi : i.isCommand = true) (hf : framesAfterFirstRead i = [⟨i, 1⟩]) :
    Ready (⟨i, 1⟩ :: f :: callers) (opBegun i (f :: callers) s) :=
  h.congr rfl rfl (by rw [opBegun, hf]; rfl) (by simpa [Commands, hi] using h.commands) rfl h.msen

/-- A called SETMODE, its write known: two steps. -/
theorem setmode (h : Ready (f :: callers) s) (hfly : s.chip.fly = none) {m : ModeName} {u : State}
    (hc : calleeAt s.cfg f = some (.setmode m))
    (hw : writeReg s.cfg.regSpictl (withMode s.cfg s.chip.spictl m) (opBegun (.setmode m) (f :: callers) s) = .next u) :
    Reaches s 2 (returnTo (f :: callers) u) :=
  (Reaches.of_step (h.step_calls_setmode hfly hc)).step ((h.begun rfl rfl).step_writes hfly hw)

end Ready

/-! ### The legs -/

/-- One write to SPICTL has been made, which ended no frame that the flash acts on. -/
structure OneWrite (s u : State) : Prop where
  cfg : u.cfg = s.cfg
  seq : u.seq = s.seq
  host : u.host = s.host
  env : u.env = s.env
  bus : busTransactions u = busTransactions s + 1

theorem atRest_cases {s : State} (h : atRest s = true) : s.chip.fly = none ∧ msenFlag s.cfg s.chip.spictl = true ∧
    ((modeOf s.cfg s.chip.spictl = .idle ∧ s.chip.cs = false) ∨
      (modeOf s.cfg s.chip.spictl ≠ .idle ∧ s.chip.cs = true ∧ StatusFrame s.cfg s.flash.frame)) := by
  simp only [atRest, Bool.and_eq_true, Option.isNone_iff_eq_none] at h
  obtain ⟨⟨hfly, hmsen⟩, hcs⟩ := h
  refine ⟨hfly, hmsen, ?_⟩
  by_cases hm : modeOf s.cfg s.chip.spictl = .idle
  · rw [if_pos hm] at hcs
    exact .inl ⟨hm, by simpa using hcs⟩
  · rw [if_neg hm] at hcs
    exact .inr ⟨hm, by simpa [StatusFrame] using hcs⟩

namespace Ready

variable {pc callers : List Frame} {f : Frame} {s : State}

/-- Where the caller `f` of a SETMODE goes on at the frames `pc`: its write leads there. -/
theorem written {m : ModeName} {u : State} (h : Ready (⟨.setmode m, 1⟩ :: f :: callers) s) (hfly : s.chip.fly = none)
    (hw : writeReg s.cfg.regSpictl (withMode s.cfg s.seq.tmp m) s = .next u) (hu : OneWrite s u)
    (hret : returnTo (f :: callers) u = setPc pc u) (hcmd : Commands pc)
    (hmsen : msenFlag s.cfg u.chip.spictl = true) :
    Passes 1 1 s (setPc pc u) ∧ Ready pc (setPc pc u) :=
  ⟨⟨.of_step (hret ▸ h.step_writes hfly hw), hu.cfg, by rw [setPc_seq, hu.seq]; rfl, hu.host, hu.bus⟩,
    h.congr hu.cfg (by rw [setPc_seq, hu.seq]) rfl hcmd hu.env hmsen⟩

/-- A SETMODE called by `f`, which goes on at the frames `pc`. -/
theorem setmodeWritten {m : ModeName} {u : State} (h : Ready (f :: callers) s) (hfly : s.chip.fly = none)
    (hc : calleeAt s.cfg f = some (.setmode m))
    (hw : writeReg s.cfg.regSpictl (withMode s.cfg s.chip.spictl m) (opBegun (.setmode m) (f :: callers) s) = .next u)
    (hu : OneWrite (opBegun (.setmode m) (f :: callers) s) u)
    (hret : returnTo (f :: callers) u = setPc pc u) (hcmd : Commands pc)
    (hmsen : msenFlag s.cfg u.chip.spictl = true) :
    Passes 2 2 s (setPc pc u) ∧ Ready pc (setPc pc u) := by
  have hread : Passes 1 1 s (opBegun (.setmode m) (f :: callers) s) :=
    ⟨.of_step (h.step_calls_setmode hfly hc), rfl, rfl, rfl, rfl⟩
  obtain ⟨hp, hr⟩ := (h.begun rfl rfl).written hfly hw hu hret hcmd hmsen
  exact ⟨hread.trans hp, hr⟩

/-- The write of SETMODE idle from rest, the last frame, if open, a status read. -/
theorem closes (h : Ready (⟨.setmode .idle, 1⟩ :: f :: callers) s) (htmp : s.seq.tmp = s.chip.spictl) (hrest : atRest s = true)
    (hret : ∀ u, returnTo (f :: callers) u = setPc pc u) (hcmd : Commands pc) :
    ∃ t, PassesAlone 1 1 s t ∧ Ready pc t ∧ Still t.cfg t.chip .idle false := by
  have c := facts_of_wf h.wf
  obtain ⟨hfly, hmsen, hcs⟩ := atRest_cases hrest
  have hmode := modeOf_stored c s.chip.spictl s.seq.tmp .idle
  have hon := (msenFlag_stored c s.chip.spictl s.seq.tmp .idle).trans (htmp ▸ hmsen)
  rcases hcs with ⟨hm, hcs⟩ | ⟨hm, hcs, hframe⟩
  · have hw := write_idle c hfly (modeOf_withMode c s.seq.tmp .idle) (.inl hm)
    obtain ⟨hp, hr⟩ := h.written hfly hw ⟨rfl, rfl, rfl, rfl, rfl⟩ (hret _) hcmd hon
    exact ⟨_, ⟨hp, rfl, rfl⟩, hr, hfly, hmode, hcs⟩
  · have hw := (write_idle_frame c hfly (modeOf_withMode c s.seq.tmp .idle) hm hcs).trans
      (endFrame_of_statusFrame (t := deselected (controlStored _ s)) hframe)
    obtain ⟨hp, hr⟩ := h.written hfly hw ⟨rfl, rfl, rfl, rfl, rfl⟩ (hret _) hcmd hon
    exact ⟨_, ⟨hp, rfl, rfl⟩, hr, hfly, hmode, rfl⟩

/-- A called SETMODE enable from idle opens a frame. -/
theorem opens (h : Ready (f :: callers) s) (hs : Still s.cfg s.chip .idle false) (hc : calleeAt s.cfg f = some (.setmode .enable))
    (hret : ∀ u, returnTo (f :: callers) u = setPc pc u) (hcmd : Commands pc) :
    ∃ t, Passes 2 2 s t ∧ Ready pc t ∧ Still t.cfg t.chip .enable true ∧
      t.flash = { s.flash with frame := [], frameStatus := none } ∧ t.env = s.env := by
  have c := facts_of_wf h.wf
  obtain ⟨hfly, hm, hcs⟩ := hs
  have hw := write_enable (s := opBegun (.setmode .enable) (f :: callers) s) c hfly (modeOf_withMode c s.chip.spictl .enable)
    ((msenFlag_withMode c _ _).trans h.msen) (fun he => nomatch hm.symm.trans he) hcs
  obtain ⟨hp, hr⟩ := h.setmodeWritten hfly hc hw ⟨rfl, rfl, rfl, rfl, rfl⟩ (hret _) hcmd ((msenFlag_stored c _ _ _).trans h.msen)
  exact ⟨_, hp, hr, ⟨hfly, modeOf_stored c _ _ _, rfl⟩, rfl, rfl⟩

/-- The command word is written to SPITX. -/
theorem loads {op : Instr} {l : Nat} {w : Word} (h : Ready (⟨op, l⟩ :: callers) s) (hs : Still s.cfg s.chip .enable true)
    (hword : commandWordAt s.cfg s.seq.addr ⟨op, l⟩ = some w) :
    ∃ t, PassesAlone 1 1 s t ∧ Ready (⟨op, l + 1⟩ :: callers) t ∧ Still t.cfg t.chip .enable true ∧ t.chip.spitx = w := by
  have hstep := (h.step_eq hs.fly).trans (microStep_of_commandWordAt h.pc hword)
  rw [sendWord_ok (facts_of_wf h.wf) w h.transport hs.fly, nextLabel_of_pc (t := wordSent w s) h.pc] at hstep
  exact ⟨_, ⟨⟨.of_step hstep, rfl, rfl, rfl, rfl⟩, rfl, rfl⟩, h.congr rfl rfl rfl h.commands rfl h.msen,
    ⟨hs.fly, hs.mode, hs.cs⟩, rfl⟩

/-- A called SETCNT stores the byte count of the transfer that it starts next. -/
theorem counts {n : Word} (h : Ready (f :: callers) s) (hs : Still s.cfg s.chip .enable true)
    (hc : calleeAt s.cfg f = some (.setcnt n)) (hn : n.toNat < 4) :
    ∃ t, PassesAlone 2 2 s t ∧ Ready (⟨.setcnt n, 2⟩ :: f :: callers) t ∧ Still t.cfg t.chip .enable true ∧
      t.chip.spitx = s.chip.spitx ∧ transferBytes t.cfg t.chip.spictl = n.toNat + 1 := by
  have c := facts_of_wf h.wf
  obtain ⟨hfly, hm, hcs⟩ := hs
  have hread := h.begun (i := .setcnt n) rfl rfl
  have hmode := (modeOf_withCount c s.chip.spictl n).trans hm
  have hon := (msenFlag_withCount c s.chip.spictl n).trans h.msen
  have hw := write_enable_kept (s := opBegun (.setcnt n) (f :: callers) s) c hfly hmode hon (.inl hm)
  have hmicro : microStep (opBegun (.setcnt n) (f :: callers) s) = .next (setPc (⟨.setcnt n, 2⟩ :: f :: callers)
      (controlStored (withCount s.cfg s.chip.spictl n) (opBegun (.setcnt n) (f :: callers) s))) :=
    (iwrite_ok hread.transport).trans (congrArg (andThen · advance) hw)
  have hstep := (hread.step_eq hfly).trans hmicro
  have hwide : n.toNat < 2 ^ s.cfg.nbW :=
    Nat.lt_of_lt_of_le hn (Nat.pow_le_pow_right (n := 2) (by omega) c.nb_wide)
  refine ⟨_, ⟨⟨(Reaches.of_step (h.step_calls_setcnt hfly hc)).step hstep, rfl, rfl, rfl, rfl⟩, rfl, rfl⟩,
    hread.congr rfl rfl rfl hread.commands rfl ((msenFlag_keepDone c _ _).trans hon),
    ⟨hfly, (modeOf_keepDone c _ _).trans hmode, hcs⟩, rfl, ?_⟩
  exact (transferBytes_keepDone c _ _).trans (transferBytes_withCount c _ _ hwide)

/-- A called SETMODE update from transfer. -/
theorem updates (h : Ready (f :: callers) s) (hs : Still s.cfg s.chip .transfer true) (hc : calleeAt s.cfg f = some (.setmode .update))
    (hret : ∀ u, returnTo (f :: callers) u = setPc pc u) (hcmd : Commands pc) :
    ∃ t, PassesAlone 2 2 s t ∧ Ready pc t ∧ Still t.cfg t.chip .update true ∧ t.chip.spitx = s.chip.spitx ∧
      transferBytes t.cfg t.chip.spictl = transferBytes s.cfg s.chip.spictl := by
  have c := facts_of_wf h.wf
  obtain ⟨hfly, hm, hcs⟩ := hs
  have hw := write_update (s := opBegun (.setmode .update) (f :: callers) s) c hfly (modeOf_withMode c s.chip.spictl .update)
    ((msenFlag_withMode c _ _).trans h.msen) (.inr hm) hcs
  obtain ⟨hp, hr⟩ := h.setmodeWritten hfly hc hw ⟨rfl, rfl, rfl, rfl, rfl⟩ (hret _) hcmd ((msenFlag_stored c _ _ _).trans h.msen)
  exact ⟨_, ⟨hp, rfl, rfl⟩, hr, ⟨hfly, modeOf_stored c _ _ _, hcs⟩, rfl, transferBytes_stored c _ _ _⟩

end Ready

/-! ### The transfer -/

/-- A transfer of the `n` bytes of `w` is in flight, as many as the byte count says. -/
structure InFlight (n : Nat) (w : Word) (c : Cfg) (h : Chip) : Prop where
  fly : h.fly = some ⟨n, w⟩
  mode : modeOf c h.spictl = .transfer
  cs : h.cs = true
  spitx : h.spitx = w
  bytes : transferBytes c h.spictl = n

/-- The transfer of the `n` bytes of `w` that was in flight at `u` has completed at `t`: they were exchanged for the replies, which SPIRX
took in. -/
structure Landed (n : Nat) (w : Word) (u t : State) : Prop where
  still : Still t.cfg t.chip .transfer true
  done : doneFlag t.cfg t.chip.spictl = true
  spitx : t.chip.spitx = w
  bytes : transferBytes t.cfg t.chip.spictl = n
  flash : t.flash = (exchange (wireBytes n w) u).2.flash
  env : t.env = (exchange (wireBytes n w) u).2.env
  spirx : t.chip.spirx = shiftIn u.chip.spirx (exchange (wireBytes n w) u).1

namespace Ready

variable {pc callers : List Frame} {f : Frame} {s : State} {n : Nat} {w : Word}

/-- A called SETMODE transfer starts a transfer. -/
theorem starts (h : Ready (f :: callers) s) (hfly : s.chip.fly = none) (hcs : s.chip.cs = true)
    (hm : modeOf s.cfg s.chip.spictl = .enable ∨ modeOf s.cfg s.chip.spictl = .update) (hw : s.chip.spitx = w)
    (hn : transferBytes s.cfg s.chip.spictl = n) (hn4 : n ≤ 4) (hc : calleeAt s.cfg f = some (.setmode .transfer))
    (hret : ∀ u, returnTo (f :: callers) u = setPc pc u) (hcmd : Commands pc) :
    ∃ t, PassesAlone 2 2 s t ∧ Ready pc t ∧ InFlight n w t.cfg t.chip := by
  have c := facts_of_wf h.wf
  let b := opBegun (.setmode .transfer) (f :: callers) s
  let v := withMode s.cfg s.chip.spictl .transfer
  have hwrite := write_transfer (s := b) (v := v) c hfly (modeOf_withMode c s.chip.spictl .transfer)
    ((msenFlag_withMode c _ _).trans h.msen) hm hcs ((transferBytes_withMode c _ _).trans_le (hn.trans_le hn4))
  have hon := (msenFlag_clearDone c _).trans ((msenFlag_stored c s.chip.spictl s.chip.spictl .transfer).trans h.msen)
  have hcount := (transferBytes_stored c s.chip.spictl s.chip.spictl .transfer).trans hn
  obtain ⟨hp, hr⟩ := h.setmodeWritten hfly hc hwrite ⟨rfl, rfl, rfl, rfl, rfl⟩ (hret _) hcmd hon
  have hfl : (transferStarted (controlStored v b)).chip.fly = some ⟨n, w⟩ := by
    rw [← hw, ← hcount]
    rfl
  exact ⟨_, ⟨hp, rfl, rfl⟩, hr, hfl, (modeOf_clearBit c _ _ c.mode_done).trans (modeOf_stored c _ _ _), hcs, hw,
    (transferBytes_clearDone c _).trans hcount⟩

/-- The engine completes the transfer before the next transaction (R152). -/
theorem lands (h : Ready pc s) (hf : InFlight n w s.cfg s.chip) :
    ∃ t, Passes 1 0 s t ∧ Ready pc t ∧ Landed n w s t := by
  have c := facts_of_wf h.wf
  have e := engineCompletes_side s
  have hne : s.chip.fly ≠ none := by simp [hf.fly]
  obtain ⟨hfly, hctl⟩ := engineCompletes_landed hf.fly
  have hmode : modeOf s.cfg (engineCompletes s).chip.spictl = .transfer := by
    rw [hctl, modeOf_setBit c _ _ c.mode_done, hf.mode]
  have hdone : doneFlag s.cfg (engineCompletes s).chip.spictl = true := by rw [hctl, doneFlag_set c]
  have hcount : transferBytes s.cfg (engineCompletes s).chip.spictl = n := by
    rw [hctl, transferBytes_setDone c, hf.bytes]
  have hmsen : msenFlag s.cfg (engineCompletes s).chip.spictl = true := by rw [hctl, msenFlag_setDone c, h.msen]
  refine ⟨engineCompletes s, ⟨.of_step (h.step_engine hne), e.cfg, by rw [e.seq], e.host, e.bus⟩,
    ⟨e.cfg ▸ h.wf, (quiet_congr (engineCompletes_schedule s) e.transport).trans h.quiet, e.seq ▸ h.busy, h.commands,
      e.seq ▸ h.pc, by rwa [e.cfg]⟩, ?_⟩
  refine ⟨by rw [e.cfg]; exact ⟨hfly, hmode, e.cs.trans hf.cs⟩, by rwa [e.cfg], e.spitx.trans hf.spitx, by rwa [e.cfg], ?_, ?_, ?_⟩
  all_goals
    rw [engineCompletes, hf.fly]
    rfl

/-- A called WAITDONE with DONE set returns after one poll. -/
theorem polls {op : Instr} {l : Nat} (h : Ready (⟨op, l⟩ :: callers) s) (hfly : s.chip.fly = none)
    (hd : doneFlag s.cfg s.chip.spictl = true) (hc : calleeAt s.cfg ⟨op, l⟩ = some .waitdone) :
    ∃ t, PassesAlone 1 1 s t ∧ Ready (⟨op, l + 1⟩ :: callers) t ∧ t.chip = s.chip := by
  have hcalled : (setDpolls 0 (pushFrame .waitdone s)).seq.pc = ⟨.waitdone, 0⟩ :: ⟨op, l⟩ :: callers :=
    congrArg (List.cons (Frame.mk .waitdone 0)) h.pc
  have hpoll := (pollDone_outcomes (s := setDpolls 0 (pushFrame .waitdone s)) (facts_of_wf h.wf) h.transport hcalled rfl).1 hd
  have hstep := (h.step_eq hfly).trans ((microStep_of_calleeAt h.pc hc).trans hpoll)
  rw [returnTo_of_calls_waitdone _ _ hc] at hstep
  exact ⟨_, ⟨⟨.of_step hstep, rfl, rfl, rfl, rfl⟩, rfl, rfl⟩, h.congr rfl rfl rfl h.commands rfl h.msen, rfl⟩

/-- A whole transfer: SETMODE transfer, called by `f`, and the WAITDONE after it, called by `op` at label `l`; `u` is the state in which the
transfer is in flight. -/
theorem transfers {op : Instr} {l : Nat} {below : List Frame} (h : Ready (f :: callers) s) (hfly : s.chip.fly = none)
    (hcs : s.chip.cs = true) (hm : modeOf s.cfg s.chip.spictl = .enable ∨ modeOf s.cfg s.chip.spictl = .update)
    (hw : s.chip.spitx = w) (hn : transferBytes s.cfg s.chip.spictl = n) (hn4 : n ≤ 4)
    (hc : calleeAt s.cfg f = some (.setmode .transfer)) (hret : ∀ u, returnTo (f :: callers) u = setPc (⟨op, l⟩ :: below) u)
    (hcmd : Commands (⟨op, l⟩ :: below))
    (hwait : ∀ c, calleeAt c ⟨op, l⟩ = some .waitdone) :
    ∃ u t, PassesAlone 2 2 s u ∧ Passes 2 1 u t ∧ Ready (⟨op, l + 1⟩ :: below) t ∧ Landed n w u t := by
  obtain ⟨u, hsu, hu, hflight⟩ := h.starts hfly hcs hm hw hn hn4 hc hret hcmd
  obtain ⟨v, huv, hv, hl⟩ := hu.lands hflight
  obtain ⟨t, hvt, ht, hchip⟩ := hv.polls hl.still.fly hl.done (hwait _)
  refine ⟨u, t, hsu, huv.trans hvt.toPasses, ht, ?_⟩
  constructor
  · rw [hvt.cfg, hchip]; exact hl.still
  · rw [hvt.cfg, hchip]; exact hl.done
  · rw [hchip]; exact hl.spitx
  · rw [hvt.cfg, hchip]; exact hl.bytes
  · rw [hvt.flash]; exact hl.flash
  · rw [hvt.env]; exact hl.env
  · rw [hchip]; exact hl.spirx

end Ready

/-! ### A frame of one transfer -/

/-- The operations that send a command word of `n + 1` bytes in a frame of their own: RDSTATUS, SENDCMD and ERASE, alike up to their label 5
(R121 to R123). -/
structure SendsFrame (op : Instr) (n : Word) : Prop where
  isCommand : op.isCommand = true
  begins : framesAfterFirstRead op = [⟨.setmode .idle, 1⟩, ⟨op, 0⟩]
  opens : ∀ c, calleeAt c ⟨op, 1⟩ = some (.setmode .enable)
  counts : ∀ c, calleeAt c ⟨op, 3⟩ = some (.setcnt n)
  waits : ∀ c, calleeAt c ⟨op, 4⟩ = some .waitdone
  short : n.toNat < 4
  returns : ∀ l < 5, ∀ callers u, returnTo (⟨op, l⟩ :: callers) u = setPc (⟨op, l + 1⟩ :: callers) u

theorem sendsFrame_rdstatus : SendsFrame .rdstatus 3 :=
  ⟨rfl, rfl, fun _ => rfl, fun _ => rfl, fun _ => rfl, by decide, fun _ _ _ _ => rfl⟩

theorem sendsFrame_sendcmd (op : Byte) : SendsFrame (.sendcmd op) (cntVal 1) :=
  ⟨rfl, rfl, fun _ => rfl, fun _ => rfl, fun _ => rfl, by decide, fun l hl callers u => by rw [returnTo_sendcmd, if_pos hl]⟩

theorem sendsFrame_erase (a : Word) : SendsFrame (.erase a) (cntVal 4) :=
  ⟨rfl, rfl, fun _ => rfl, fun _ => rfl, fun _ => rfl, by decide, fun l hl callers u => by rw [returnTo_erase, if_pos hl]⟩

/-- A frame was opened since `s`, in which no byte has been exchanged at `u`. -/
structure FrameOpened (s u : State) : Prop where
  cfg : u.cfg = s.cfg
  flash : u.flash = { s.flash with frame := [], frameStatus := none }
  env : u.env = s.env

/-- From the write that closes the last frame to the poll that finds the command word sent: 10 steps, 9 transactions. -/
theorem Ready.sends {op : Instr} {n w : Word} {callers : List Frame} {s : State} (ho : SendsFrame op n)
    (h : Ready (⟨.setmode .idle, 1⟩ :: ⟨op, 0⟩ :: callers) s) (htmp : s.seq.tmp = s.chip.spictl) (hrest : atRest s = true)
    (hword : commandWordAt s.cfg s.seq.addr ⟨op, 2⟩ = some w) :
    ∃ u t, Passes 10 9 s t ∧ Ready (⟨op, 5⟩ :: callers) t ∧ FrameOpened s u ∧ Landed (n.toNat + 1) w u t := by
  have hcmd : Commands (⟨op, 0⟩ :: callers) := h.commands
  obtain ⟨a, hsa, ha, hidle⟩ := h.closes htmp hrest (ho.returns 0 (by omega) _) hcmd
  obtain ⟨b, hab, hb, henable, hflash, henv⟩ := ha.opens hidle (ho.opens _) (ho.returns 1 (by omega) _) hcmd
  have hsb := hsa.toPasses.trans hab
  have haddr : b.seq.addr = s.seq.addr := congrArg KeptRegisters.addr hsb.kept
  obtain ⟨d, hbd, hd, hloaded, htx⟩ := hb.loads henable (by rw [hsb.cfg, haddr]; exact hword)
  obtain ⟨e, hde, he, hcounted, htx', hbytes⟩ := hd.counts hloaded (ho.counts _) ho.short
  obtain ⟨u, t, heu, hut, ht, hl⟩ := he.transfers hcounted.fly hcounted.cs (.inl hcounted.mode) (htx'.trans htx) hbytes
    ho.short rfl (ho.returns 3 (by omega) _) hcmd ho.waits
  have hbu := (hbd.trans hde).trans heu
  exact ⟨u, t, (hsb.trans hbu.toPasses).trans hut, ht,
    ⟨hbu.cfg.trans hsb.cfg, hbu.flash.trans (hflash.trans (by rw [hsa.flash])), hbu.env.trans (henv.trans hsa.env)⟩, hl⟩

end Sys2Proof.Machine
end

section
/-! PROOFS. Whole runs of the flash primitives in a quiet environment (spec/42_flash_primitives.md R121 to R124): a status read, a command
frame, and the loop of WAITFLASH with the reference flash, each from rest. -/

namespace Sys2Proof.Machine

open Sys2Proof

/-! ### The bytes of a command word (R74, R149) -/

/-- A transfer of a command word sends the opcode, then the address from the top. -/
theorem wireBytes_command (n : Nat) (op : Byte) (a : FlashAddr) : wireBytes n (op ++ a) = (op :: bytesOfAddr a).take n := by
  have h3 : (op ++ a : Word).extractLsb' 24 8 = op := BitVec.extractLsb'_append_eq_left
  have h2 : (op ++ a : Word).extractLsb' 16 8 = a.extractLsb' 16 8 :=
    BitVec.extractLsb'_append_eq_of_add_le (by decide)
  have h1 : (op ++ a : Word).extractLsb' 8 8 = a.extractLsb' 8 8 :=
    BitVec.extractLsb'_append_eq_of_add_le (by decide)
  have h0 : (op ++ a : Word).extractLsb' 0 8 = a.extractLsb' 0 8 :=
    BitVec.extractLsb'_append_eq_of_add_le (by decide)
  rw [wireBytes, h3, h2, h1, h0, bytesOfAddr]

/-! ### An exchange that begins with the flash not busy -/

theorem exchange_notBusy {s : State} (h : s.flash.wip = false) (bytes : List Byte) :
    (exchange bytes s).2.flash.wip = false ∧ (exchange bytes s).2.flash.fm = s.flash.fm := by
  cases (exchange_side bytes s).progress with
  | same fm wip pending => exact ⟨wip.trans h, fm⟩
  | finished k was => exact absurd was (by simp [h])

/-! ### A whole status read (R121) -/

/-- The bytes of each transfer of a status read. -/
def statusBytes (c : Cfg) : List Byte := [c.opRdsr, 0, 0, 0]

/-- The two transfers of a status read from `s` have completed at `t`: SPIRX holds the status. -/
structure StatusReceived (s t : State) : Prop where
  still : Still t.cfg t.chip .transfer true
  done : doneFlag t.cfg t.chip.spictl = true
  bytes : transferBytes t.cfg t.chip.spictl = 4
  spitx : t.chip.spitx = s.cfg.opRdsr ++ (0 : BitVec 24)
  frame : t.flash.frame = statusBytes s.cfg ++ statusBytes s.cfg
  attached : s.cfg.flashModel.attached = true → t.chip.spirx.getLsbD 0 = t.flash.wip
  line : ∀ b, s.cfg.flashModel = .absent (some b) → t.chip.spirx.extractLsb' 0 8 = b
  notBusy : s.flash.wip = false → t.flash.wip = false ∧ t.flash.fm = s.flash.fm
  reference : s.cfg.flashModel = .reference →
    t.flash = { (sampled s).flash with frame := t.flash.frame } ∧ t.env = (sampled s).env ∧
      t.chip.spirx.extractLsb' 0 8 = referenceStatus (sampled s).flash.wip

/-- What the second transfer brings, the frame opened at `u` and the first transfer landed with what the flash holds at `w`. -/
theorem statusReceived_of_landed {s u w t : State} (hu : FrameOpened s u) (hcfg : w.cfg = s.cfg)
    (hflash : w.flash = (exchange (statusBytes s.cfg) u).2.flash) (henv : w.env = (exchange (statusBytes s.cfg) u).2.env)
    (h : Landed 4 (s.cfg.opRdsr ++ (0 : BitVec 24)) w t) : StatusReceived s t := by
  have hbytes : wireBytes 4 (s.cfg.opRdsr ++ (0 : BitVec 24)) = statusBytes s.cfg := wireBytes_command 4 _ _
  have hfirst : w.flash.frame = statusBytes s.cfg := by rw [hflash, exchange_frame, hu.flash]; rfl
  have hstatus : StatusFrame w.cfg w.flash.frame := by rw [hcfg, hfirst]; rfl
  obtain ⟨still, done, spitx, bytes, flash, env, spirx⟩ := h
  rw [hbytes] at flash env spirx
  refine ⟨still, done, bytes, spitx, ?_, fun ha => ?_, fun b hm => ?_, fun hb => ?_, fun hm => ?_⟩
  · rw [flash, exchange_frame, hfirst]
  · have hopen : SampleHolds u := fun x hx => by rw [hu.flash] at hx; cases hx
    have hw : SampleHolds w := fun x hx => by
      rw [hflash] at hx ⊢
      exact hopen.exchange (by rwa [hu.cfg]) _ x hx
    obtain ⟨r, hr, hbit⟩ := exchange_last_status hw (by rwa [hcfg]) hstatus (bytes := statusBytes s.cfg) (by simp [statusBytes])
    rw [flash, ← hbit, ← lowByte_shiftIn w.chip.spirx hr, ← spirx]
    simp
  · rw [spirx]
    refine lowByte_shiftIn _ ?_
    rw [exchange_line (by rwa [hcfg])]
    rfl
  · have hwip : u.flash.wip = false := by rw [hu.flash]; exact hb
    obtain ⟨h1, hfm1⟩ := exchange_notBusy hwip (statusBytes s.cfg)
    obtain ⟨h2, hfm2⟩ := exchange_notBusy (s := w) (by rw [hflash]; exact h1) (statusBytes s.cfg)
    rw [flash]
    exact ⟨h2, by rw [hfm2, hflash, hfm1, hu.flash]⟩
  · obtain ⟨hfl, hen⟩ := exchange_samples (by rwa [hu.cfg]) hu.flash hu.env 0 [0, 0]
    rw [hu.cfg] at hfl hen
    have hw : w.flash = { (sampled s).flash with frame := statusBytes s.cfg } := hflash.trans hfl
    have hsecond := exchange_sampled (s := w) (by rwa [hcfg]) hstatus (x := referenceStatus (sampled s).flash.wip)
      (by rw [hw]; rfl) (statusBytes s.cfg)
    rw [flash, env, spirx, hsecond]
    exact ⟨by rw [hw], henv.trans hen, lowByte_shiftIn _ rfl⟩

/-- From the write that closes the last frame to the read of SPIRX: 16 steps, 14 transactions. -/
theorem Ready.readsStatus {callers : List Frame} {s : State}
    (h : Ready (⟨.setmode .idle, 1⟩ :: ⟨.rdstatus, 0⟩ :: callers) s) (htmp : s.seq.tmp = s.chip.spictl) (hrest : atRest s = true) :
    ∃ t, Passes 16 14 s t ∧ Ready (⟨.rdstatus, 8⟩ :: callers) t ∧ StatusReceived s t := by
  have hbytes : wireBytes 4 (s.cfg.opRdsr ++ (0 : BitVec 24)) = statusBytes s.cfg := wireBytes_command 4 _ _
  obtain ⟨u, a, hsa, ha, hu, hl⟩ := h.sends sendsFrame_rdstatus htmp hrest rfl
  obtain ⟨b, hab, hb, hupdate, htx, hcount⟩ := ha.updates hl.still rfl (fun _ => rfl) h.commands
  obtain ⟨w, t, hbw, hwt, ht, hl'⟩ := hb.transfers (n := 4) hupdate.fly hupdate.cs (.inr hupdate.mode) (htx.trans hl.spitx)
    (hcount.trans hl.bytes) le_rfl rfl (fun _ => rfl) h.commands (fun _ => rfl)
  have haw := hab.trans hbw
  refine ⟨t, (hsa.trans haw.toPasses).trans hwt, ht, statusReceived_of_landed hu (haw.cfg.trans hsa.cfg) ?_ ?_ hl'⟩
  · exact haw.flash.trans (hl.flash.trans (congrArg (fun l => (exchange l u).2.flash) hbytes))
  · exact haw.env.trans (hl.env.trans (congrArg (fun l => (exchange l u).2.env) hbytes))

/-! ### A whole command frame (R122, R123) -/

/-- Chip-select has just fallen on the frame that carried the `n` bytes of `w`, sent since `s`; the flash has not acted on it yet. -/
structure CommandSent (n : Nat) (w : Word) (s v : State) : Prop where
  cfg : v.cfg = s.cfg
  kept : v.seq.kept = s.seq.kept
  bus : busTransactions v = busTransactions s + 12
  still : Still v.cfg v.chip .idle false
  bytes : transferBytes v.cfg v.chip.spictl = n
  spitx : v.chip.spitx = w
  frame : v.flash.frame = wireBytes n w
  wel : v.flash.wel = s.flash.wel
  notBusy : s.flash.wip = false → v.flash.wip = false ∧ v.flash.fm = s.flash.fm

/-- The read of SPICTL with which an operation begins. -/
theorem passes_of_begins {i : Instr} {callers : List Frame} {s : State} (h : step s = .next (opBegun i callers s)) :
    Passes 1 1 s (opBegun i callers s) := ⟨.of_step h, rfl, rfl, rfl, rfl⟩

/-- From the read of SPICTL with which SENDCMD or ERASE begins, issued by the host or called, to the write that ends its frame: 13 steps, 12
transactions; `u` is what the flash makes of the frame. -/
theorem Ready.sendsCommand {op : Instr} {n w : Word} {callers : List Frame} {s : State} (ho : SendsFrame op n)
    (hends : ∀ c, calleeAt c ⟨op, 5⟩ = some (.setmode .idle)) (hbegins : step s = .next (opBegun op callers s))
    (h : Ready (⟨.setmode .idle, 1⟩ :: ⟨op, 0⟩ :: callers) (opBegun op callers s)) (hrest : atRest s = true)
    (hword : commandWordAt s.cfg s.seq.addr ⟨op, 2⟩ = some w) :
    ∃ v, CommandSent (n.toNat + 1) w s v ∧ ∀ u, endFrame v = .next u → Reaches s 13 (returnTo (⟨op, 5⟩ :: callers) u) := by
  obtain ⟨u, t, hbt, ht, hu, hl⟩ := h.sends ho rfl hrest hword
  have hst := (passes_of_begins hbegins).trans hbt
  have c := facts_of_wf ht.wf
  obtain ⟨hfly, hm, hcs⟩ := hl.still
  let v := deselected (controlStored (withMode t.cfg t.chip.spictl .idle) (opBegun (.setmode .idle) (⟨op, 5⟩ :: callers) t))
  have hframe : v.flash.frame = wireBytes (n.toNat + 1) w := by
    show t.flash.frame = _
    rw [hl.flash, exchange_frame, hu.flash]
    rfl
  have hwel : v.flash.wel = s.flash.wel := by
    show t.flash.wel = _
    rw [hl.flash, (exchange_side _ u).wel, hu.flash]
    rfl
  have hcount := (transferBytes_stored c t.chip.spictl t.chip.spictl .idle).trans hl.bytes
  have hbus : busTransactions v = busTransactions t + 2 := rfl
  refine ⟨v, ⟨hst.cfg, hst.kept, hbus.trans (by rw [hst.bus]), ⟨hfly, modeOf_stored c _ _ _, rfl⟩, hcount, hl.spitx, hframe,
    hwel, fun hb => ?_⟩, fun r hr => ?_⟩
  · have hopen := exchange_notBusy (s := u) (by rw [hu.flash]; exact hb) (wireBytes (n.toNat + 1) w)
    rw [← hl.flash, hu.flash] at hopen
    exact hopen
  · have hw := write_idle_frame (s := opBegun (.setmode .idle) (⟨op, 5⟩ :: callers) t) c hfly
      (modeOf_withMode c t.chip.spictl .idle) (fun he => nomatch hm.symm.trans he) hcs
    exact hst.reaches.trans (ht.setmode hfly (hends _) (hw.trans hr))

/-- What a command frame leaves in the block and the chip, whatever the flash made of it. -/
structure CommandEnded (n : Nat) (w : Word) (s u : State) : Prop where
  err : u.seq.err = s.seq.err
  result : u.seq.result = s.seq.result
  bus : busTransactions u = busTransactions s + 12
  still : Still s.cfg u.chip .idle false
  bytes : transferBytes s.cfg u.chip.spictl = n
  spitx : u.chip.spitx = w
  fm : u.flash.fm = s.flash.fm

theorem CommandSent.ended {n : Nat} {w : Word} {s v u : State} (h : CommandSent n w s v) (hb : s.flash.wip = false)
    (hu : endFrame v = .next u) : CommandEnded n w s u := by
  have e := (endFrame_cases hu).1
  have hbus : busTransactions u = busTransactions v := by rw [busTransactions, e.hist, busTransactions]
  constructor
  · rw [e.seq]; exact congrArg KeptRegisters.err h.kept
  · rw [e.seq]; exact congrArg KeptRegisters.result h.kept
  · rw [hbus, h.bus]
  · rw [e.chip, ← h.cfg]; exact h.still
  · rw [e.chip, ← h.cfg]; exact h.bytes
  · rw [e.chip]; exact h.spitx
  · rw [e.fm]; exact (h.notBusy hb).2

/-! ### Operations issued by the host, from rest -/

/-- An operation just accepted, from rest in a quiet environment. -/
theorem ready_of_runningAt {i : Instr} {s : State} (hw : s.cfg.wf = true) (hq : quiet s = true) (hrest : atRest s = true)
    (hi : i.isCommand = true) (hr : runningAt i [⟨i, 0⟩] s = true) : Ready [⟨i, 0⟩] s := by
  obtain ⟨hb, hp, -, -⟩ := (runningAt_iff s).mp hr
  exact ⟨hw, hq, hb, by simp [Commands, hi], hp, (atRest_cases hrest).2.1⟩

/-- An operation at its first label reads SPICTL (R24 (b)). -/
theorem Ready.begins {i : Instr} {callers : List Frame} {s : State} (h : Ready (⟨i, 0⟩ :: callers) s) (hfly : s.chip.fly = none)
    (hi : beginsWithRead i = true) : step s = .next (opBegun i callers s) :=
  (h.step_eq hfly).trans (microStep_begins (facts_of_wf h.wf) h.transport hi h.pc)

/-- What it calls is ready to write. -/
theorem Ready.called {pc below : List Frame} {i : Instr} {callers : List Frame} {s : State} (h : Ready pc s)
    (hf : framesAfterFirstRead i ++ callers = ⟨.setmode .idle, 1⟩ :: below)
    (hcmd : Commands below) :
    Ready (⟨.setmode .idle, 1⟩ :: below) (opBegun i callers s) :=
  h.congr rfl rfl hf hcmd rfl h.msen

/-- Settles O56: the read of SPICTL, the legs of a status read (`Ready.readsStatus`), and the read of SPIRX. -/
theorem rdstatusRun : Obligations.RdstatusRun := by
  intro s hw hq hrest hr
  have h := ready_of_runningAt hw hq hrest rfl hr
  have hbegins := h.begins (atRest_cases hrest).1 rfl
  obtain ⟨t, hbt, ht, hst⟩ := (h.called (i := .rdstatus) (callers := []) rfl rfl).readsStatus rfl hrest
  have hrun := (passes_of_begins hbegins).trans hbt
  have hlast := (ht.step_eq hst.still.fly).trans (microStep_rdstatus_last ht.wf ht.transport hst.still.fly ht.pc)
  have hcfg : t.cfg = s.cfg := hrun.cfg
  have hbus : busTransactions (statusAnswered t) = busTransactions t + 1 := rfl
  obtain ⟨⟨hfly, hmode, hcs⟩, hdone, hbytes, htx, hframe, hattached, hline, hnotBusy, -⟩ := hst
  rw [hcfg] at hmode hdone hbytes
  refine ⟨statusAnswered t, hrun.reaches.step hlast, rfl, rfl, hrun.err, by rw [hbus, hrun.bus], hmode, hcs, hfly, hdone, hbytes,
    htx, hframe, rfl, rfl, fun ha => ?_, hline, hnotBusy⟩
  rw [← show _ = (statusAnswered t).flash.wip from hattached ha]
  simp [statusAnswered]

/-- SENDCMD and ERASE, issued by the host from rest, up to what the flash makes of the frame. -/
theorem issuedCommand {op : Instr} {n w : Word} {s : State} (ho : SendsFrame op n)
    (hends : ∀ c, calleeAt c ⟨op, 5⟩ = some (.setmode .idle)) (hbegins : beginsWithRead op = true)
    (hw : s.cfg.wf = true) (hq : quiet s = true) (hrest : atRest s = true) (hr : runningAt op [⟨op, 0⟩] s = true)
    (hword : commandWordAt s.cfg s.seq.addr ⟨op, 2⟩ = some w) :
    ∃ v, CommandSent (n.toNat + 1) w s v ∧ ∀ u, endFrame v = .next u → Reaches s 13 (returnTo [⟨op, 5⟩] u) := by
  have h := ready_of_runningAt hw hq hrest ho.isCommand hr
  have hcalled := h.called (i := op) (callers := []) (by rw [ho.begins, List.append_nil]) h.commands
  exact hcalled.sendsCommand ho hends (h.begins (atRest_cases hrest).1 hbegins) hrest hword

/-- Settles O57: the legs of a command frame (`issuedCommand`), and what the flash makes of the frame when chip-select falls. -/
theorem commandRuns : Obligations.CommandRuns := by
  intro i s hw hq hrest hb hr hi
  rcases hi with rfl | ⟨a, rfl, ha, haddr, hwel⟩
  · obtain ⟨v, hv, hreach⟩ := issuedCommand (sendsFrame_sendcmd _) (fun _ => rfl) rfl hw hq hrest hr rfl
    have hframe : v.flash.frame = [v.cfg.opWren] := by
      rw [hv.frame, hv.cfg]
      exact wireBytes_command 1 _ _
    have hidle := (hv.notBusy hb).1
    obtain ⟨u, hend, hwren, hwip⟩ : ∃ u, endFrame v = .next u ∧ (s.cfg.flashModel.attached = true → u.flash.wel = true) ∧
        u.flash.wip = false := by
      refine ⟨_, endFrame_wren (hv.cfg ▸ facts_of_wf hw) hframe, fun hm => ?_, ?_⟩
      · rw [if_pos (takesCommand_iff.mpr ⟨hv.cfg ▸ hm, hidle⟩)]
      · split <;> exact hidle
    have e := hv.ended hb hend
    exact ⟨finish u, hreach u hend, rfl, rfl, e.err, e.result, e.bus, e.still.mode, e.still.cs, e.still.fly, e.fm,
      fun _ => ⟨e.bytes, e.spitx, hwren, hwip⟩, nofun⟩
  · obtain ⟨v, hv, hreach⟩ := issuedCommand (sendsFrame_erase a) (fun _ => rfl) rfl hw hq hrest hr
      (w := s.cfg.opSe ++ a.extractLsb' 0 24) (by rw [haddr]; rfl)
    have hframe : v.flash.frame = seFrame v.cfg a := by
      rw [hv.frame, hv.cfg]
      exact wireBytes_command 4 _ _
    have hidle := (hv.notBusy hb).1
    obtain ⟨u, hend, hstarted⟩ : ∃ u, endFrame v = .next u ∧ (s.cfg.flashModel.attached = true →
        u.flash.wel = false ∧ u.flash.wip = true ∧ u.flash.pending = .erase (a.toNat / 4096 * 4096)) := by
      refine ⟨_, endFrame_se (hv.cfg ▸ facts_of_wf hw) hframe, fun hm => ?_⟩
      rw [hv.wel, hwel, takesCommand_iff.mpr ⟨hv.cfg ▸ hm, hidle⟩, Nat.mod_eq_of_lt ha]
      exact ⟨rfl, rfl, rfl⟩
    have e := hv.ended hb hend
    refine ⟨finish u, hreach u hend, rfl, rfl, e.err, e.result, e.bus, e.still.mode, e.still.cs, e.still.fly, e.fm, nofun,
      fun b hab => ?_⟩
    obtain rfl : a = b := Instr.erase.inj hab
    exact ⟨e.bytes, e.spitx, hstarted⟩

/-! ### WAITFLASH with the reference flash (R124, R166) -/

/-- How many status reads to come will find the reference flash busy. -/
def busyReadsLeft (f : Flash) : Nat := if f.wip = true then f.busyLeft else 0

/-- By `t` the flash has finished the operation recorded at `s`, if there was one. -/
structure Finished (s t : State) : Prop where
  wip : t.flash.wip = false
  wel : t.flash.wel = s.flash.wel
  busy : s.flash.wip = true →
    t.flash.fm = applyPending s.env.draws s.flash.fm s.flash.pending ∧ t.flash.pending = .none
  notBusy : s.flash.wip = false → t.flash.fm = s.flash.fm

theorem Finished.congr {s t u : State} (h : Finished s t) {bytes : List Byte} (hu : u.flash = { t.flash with frame := bytes }) :
    Finished s u := by
  constructor
  · rw [hu]; exact h.wip
  · rw [hu]; exact h.wel
  · rw [hu]; exact h.busy
  · rw [hu]; exact h.notBusy

theorem sampled_finished {s : State} (h : busyReadsLeft s.flash = 0) : Finished s (sampled s) := by
  cases hw : s.flash.wip with
  | false =>
    rw [sampled, busyCountdown_idle hw]
    exact ⟨hw, rfl, fun hb => (nomatch hw.symm.trans hb), fun _ => rfl⟩
  | true =>
    rw [busyReadsLeft, if_pos hw] at h
    rw [sampled, busyCountdown_finishes hw h]
    exact ⟨rfl, rfl, fun _ => ⟨rfl, rfl⟩, fun hb => (nomatch hw.symm.trans hb)⟩

theorem sampled_busy {s : State} {k : Nat} (h : busyReadsLeft s.flash = k + 1) :
    s.flash.wip = true ∧ (sampled s).flash = { s.flash with busyLeft := k, frameStatus := some 1 } ∧ (sampled s).env = s.env := by
  cases hw : s.flash.wip with
  | false => simp [busyReadsLeft, hw] at h
  | true =>
    rw [busyReadsLeft, if_pos hw] at h
    rw [sampled, busyCountdown_counts hw h]
    simp [hw, referenceStatus]

/-- A status read leaves the chip at rest, its frame open (R121). -/
theorem StatusReceived.atRest {s t : State} (h : StatusReceived s t) (hc : t.cfg = s.cfg)
    (hmsen : msenFlag t.cfg t.chip.spictl = true) : atRest t = true := by
  obtain ⟨hfly, hm, hcs⟩ := h.still
  have hopen : t.flash.frame.head? = some t.cfg.opRdsr := by rw [h.frame, hc]; rfl
  simp [Machine.atRest, hfly, hm, hcs, hmsen, hopen]

/-- A status read that found the flash busy, with no poll limit: WAITFLASH counts it and begins another (R124). -/
theorem Ready.readsAgain {callers : List Frame} {t : State} (h : Ready (⟨.rdstatus, 8⟩ :: ⟨.waitflash, 1⟩ :: callers) t)
    (hfly : t.chip.fly = none) (hl : t.cfg.pollLimit = none) (hb : t.chip.spirx.getLsbD 0 = true) :
    ∃ u, PassesAlone 2 2 t u ∧ Ready (⟨.setmode .idle, 1⟩ :: ⟨.rdstatus, 0⟩ :: ⟨.waitflash, 1⟩ :: callers) u ∧
      u.chip = t.chip ∧ u.seq.tmp = u.chip.spictl := by
  let a := setPc (⟨.waitflash, 1⟩ :: callers) (statusCounted t)
  have hx : pollsExhausted t.cfg (t.seq.fpolls + 1) = false := by rw [pollsExhausted, hl]
  have hcounted := (h.step_eq hfly).trans (microStep_statusRead_busy h.wf h.transport hfly h.pc hb hx)
  have ha : Ready (⟨.waitflash, 1⟩ :: callers) a := h.congr rfl rfl rfl h.commands rfl h.msen
  have hcall := (ha.step_eq hfly).trans ((microStep_of_calleeAt ha.pc rfl).trans (callRdstatus_ok (facts_of_wf ha.wf) ha.transport))
  exact ⟨_, ⟨⟨(Reaches.of_step hcounted).step hcall, rfl, rfl, rfl, rfl⟩, rfl, rfl⟩,
    ha.called (i := .rdstatus) rfl h.commands, rfl, rfl⟩

/-- WAITFLASH with the reference flash, from the read of SPICTL that begins its first status read to the read of SPIRX that finds the flash
not busy, by induction on the status reads that find it busy. -/
theorem Ready.awaits {callers : List Frame} {k : Nat} {s : State} (hk : busyReadsLeft s.flash = k)
    (h : Ready (⟨.setmode .idle, 1⟩ :: ⟨.rdstatus, 0⟩ :: ⟨.waitflash, 1⟩ :: callers) s) (htmp : s.seq.tmp = s.chip.spictl)
    (hrest : atRest s = true) (hm : s.cfg.flashModel = .reference) (hl : s.cfg.pollLimit = none) :
    ∃ t, Passes (16 + 18 * k) (14 + 16 * k) s t ∧ Ready (⟨.rdstatus, 8⟩ :: ⟨.waitflash, 1⟩ :: callers) t ∧
      Still t.cfg t.chip .transfer true ∧ t.chip.spirx.extractLsb' 0 8 = 0 ∧ Finished s t := by
  induction k generalizing s with
  | zero =>
    obtain ⟨t, hst, ht, hr⟩ := h.readsStatus htmp hrest
    obtain ⟨hflash, -, hstatus⟩ := hr.reference hm
    have hf := sampled_finished hk
    exact ⟨t, hst, ht, hr.still, hstatus.trans (by rw [hf.wip]; rfl), hf.congr hflash⟩
  | succ k ih =>
    obtain ⟨t, hst, ht, hr⟩ := h.readsStatus htmp hrest
    obtain ⟨hflash, henv, -⟩ := hr.reference hm
    obtain ⟨hw, hsampled, hsame⟩ := sampled_busy hk
    have hwip : t.flash.wip = true := by rw [hflash, hsampled]; exact hw
    have hbit := (hr.attached (by rw [hm]; rfl)).trans hwip
    obtain ⟨u, htu, hu, hchip, hfresh⟩ := ht.readsAgain hr.still.fly (by rw [hst.cfg, hl]) hbit
    have hcfg : u.cfg = s.cfg := htu.cfg.trans hst.cfg
    have hleft : busyReadsLeft u.flash = k := by
      rw [htu.flash, busyReadsLeft, if_pos hwip, hflash, hsampled]
    have hrest' : atRest u = true := by
      have hr' := hr.atRest hst.cfg ht.msen
      rwa [atRest, ← htu.cfg, ← hchip, ← htu.flash] at hr'
    obtain ⟨v, huv, hv, hstill, hzero, hf⟩ := ih hleft hu hfresh hrest' (by rwa [hcfg]) (by rwa [hcfg])
    refine ⟨v, ?_, hv, hstill, hzero, hf.wip, ?_, fun _ => ?_, fun hb => (nomatch hw.symm.trans hb)⟩
    · have hrun := (hst.trans htu.toPasses).trans huv
      rwa [show 16 + 2 + (16 + 18 * k) = 16 + 18 * (k + 1) by omega,
        show 14 + 2 + (14 + 16 * k) = 14 + 16 * (k + 1) by omega] at hrun
    · rw [hf.wel, htu.flash, hflash, hsampled]
    · have hdone := hf.busy (by rw [htu.flash, hwip])
      rw [htu.flash, htu.env, henv, hsame, hflash, hsampled] at hdone
      exact hdone

/-- Settles O58: the read of SPICTL, the status reads (`Ready.awaits`), and the test that ends WAITFLASH. -/
theorem waitflashRun : Obligations.WaitflashRun := by
  intro s hw hq hrest hm hl hr
  have h := ready_of_runningAt hw hq hrest rfl hr
  have hbegins := h.begins (atRest_cases hrest).1 rfl
  obtain ⟨t, hbt, ht, hstill, hzero, hf⟩ := (h.called (i := .waitflash) (callers := []) rfl rfl).awaits rfl rfl hrest hm hl
  have hrun := (passes_of_begins hbegins).trans hbt
  have hbit : t.chip.spirx.getLsbD 0 = false := by simpa using congrArg (·.getLsbD 0) hzero
  have hlast := (ht.step_eq hstill.fly).trans (microStep_statusRead_ready ht.wf ht.transport hstill.fly ht.pc hbit)
  have hsteps : 18 * (if s.flash.wip = true then s.flash.busyLeft + 1 else 1) = 1 + (16 + 18 * busyReadsLeft s.flash) + 1 := by
    rw [busyReadsLeft]
    split <;> omega
  have hresult : (t.chip.spirx.extractLsb' 0 8).setWidth 32 = (0 : Word) := by rw [hzero]; rfl
  obtain ⟨hfly, hmode, hcs⟩ := hstill
  exact ⟨finish (waitflashResult [] (statusCounted t)), hsteps ▸ hrun.reaches.step hlast, rfl, rfl, hrun.err, hzero, hresult,
    hf.wip, hf.wel, hfly, hcs, hrun.cfg ▸ hmode, hf.busy, hf.notBusy⟩

end Sys2Proof.Machine
end

section
/-! PROOFS. PROGPAGE's erase branch and its data loop (spec/43_page_program.md R133, R135): where each test leaves the frame, and the
transaction taken in the same step. -/

namespace Sys2Proof.Machine

open Sys2Proof

theorem gotoLabel_of_pc {s : State} {f : Frame} {callers : List Frame} (hp : s.seq.pc = f :: callers) (l : Nat) :
    gotoLabel l s = setPc (⟨f.op, l⟩ :: callers) s := by
  rw [gotoLabel, hp]

/-- WAITFLASH called from label `l`, which a test of the caller has chosen in the same step (R12). -/
theorem callWaitflash_gotoLabel {s : State} {g : Frame} {callers : List Frame} (f : Facts s.cfg)
    (hf : s.env.transportFails = false) (hp : s.seq.pc = g :: callers) (l : Nat) :
    callWaitflash (gotoLabel l s) = .next (opBegun .waitflash (⟨g.op, l⟩ :: callers) s) := by
  rw [gotoLabel_of_pc hp]
  exact callWaitflash_ok (s := setPc (⟨g.op, l⟩ :: callers) s) f hf

/-! ### The erase branch (R133) -/

/-- Settles O31: the micro-step tests the low 12 bits of ADDR (`sectorAligned_iff`) and calls WAITFLASH from the label they choose. -/
theorem progpageBranches : Obligations.ProgpageBranches := by
  intro a n s hw hr
  obtain ⟨he, hp, hf⟩ := exec_top rfl hr
  have hmicro : microStep s =
      if sectorAligned s.seq.addr then callWaitflash (gotoLabel 2 s) else callWaitflash (gotoLabel 5 s) := by
    simp only [microStep, hp, microProgpage]
  have hcall := callWaitflash_gotoLabel (facts_of_wf hw) hf hp
  rw [he, hmicro, hcall, hcall]
  by_cases h : s.seq.addr.toNat % 4096 = 0
  · rw [if_pos ((sectorAligned_iff _).mpr h), if_pos h]
  · rw [if_neg (mt (sectorAligned_iff _).mp h), if_neg h]

/-! ### The data loop (R135) -/

/-- A write to a named register while a transfer is in flight is the overlap fault (R150). -/
theorem writeReg_overlap {r : RegNum} {v : Word} {s : State} (hn : namedReg s.cfg r = true) (hfly : s.chip.fly ≠ none) :
    writeReg r v s = .fault .engineOverlap := by
  rw [writeReg, hn, Option.isSome_iff_ne_none.mpr hfly]
  rfl

/-- A word is not sent while a transfer is in flight (R150). -/
theorem sendWord_overlap {s : State} (w : Word) (hf : s.env.transportFails = false) (hfly : s.chip.fly ≠ none) :
    sendWord w s = .fault .engineOverlap := by
  have hw := writeReg_overlap (r := s.cfg.regSpitx) (v := w) (s := { s with seq := { s.seq with word := w } })
    (by simp [namedReg]) hfly
  rw [sendWord, iwrite_ok (by exact hf), hw]
  rfl

/-- The data word from `IDX` on: four buffer bytes, the lowest index highest (R57). -/
def chunkWord (s : State) : Word :=
  let k := s.seq.idx.toNat
  bufByte s k ++ bufByte s (k + 1) ++ bufByte s (k + 2) ++ bufByte s (k + 3)

theorem progpageWord_eq {s : State} (hin : s.seq.idx.toNat + 3 < s.cfg.bufCap) :
    progpageWord s = sendWord (chunkWord s) (gotoLabel 14 s) := by
  simp only [progpageWord, packWord_eq]
  exact if_pos hin

/-- The labels from which PROGPAGE's next step is the loop test, with the `IDX` it is taken at: `PP.12` zeroes it, `PP.18`, and
`PP.17` without PP_WORD_WAIT, add 4 to it (R135). -/
theorem microStep_loopTest {a n idx : Word} {l : Nat} {s : State} (hp : s.seq.pc = [⟨.progpage a n, l⟩])
    (hl : (l = 12 ∧ idx = 0) ∨ (l = 17 ∧ s.cfg.ppWordWait = false ∧ idx = s.seq.idx + 4) ∨
      (l = 18 ∧ idx = s.seq.idx + 4)) : microStep s = progpageTest (setIdx idx s) := by
  obtain ⟨rfl, rfl⟩ | ⟨rfl, hwait, rfl⟩ | ⟨rfl, rfl⟩ := hl
  · simp only [microStep, hp, microProgpage]
  · simp [microStep, hp, microProgpage, hwait, progpageNext]
  · simp only [microStep, hp, microProgpage, progpageNext]

section LoopTest

variable {s : State} {a n : Word} {l : Nat} (hf : s.env.transportFails = false) (hp : s.seq.pc = [⟨.progpage a n, l⟩])

theorem progpageTest_more (hlt : s.seq.idx.toInt < s.seq.cnt.toInt) (hin : s.seq.idx.toNat + 3 < s.cfg.bufCap) :
    progpageTest s = sendWord (chunkWord s) (gotoLabel 14 s) := by
  rw [progpageTest, moreChunks, if_pos (decide_eq_true hlt), progpageWord_eq hin]

include hf hp

/-- `IDX` below the count: the next word goes to SPITX and the frame to `PP.15`. -/
theorem progpageTest_sends (f : Facts s.cfg) (hlt : s.seq.idx.toInt < s.seq.cnt.toInt)
    (hin : s.seq.idx.toNat + 3 < s.cfg.bufCap) (hfly : s.chip.fly = none) :
    progpageTest s = .next (setPc [⟨.progpage a n, 15⟩] (wordSent (chunkWord s) s)) := by
  rw [progpageTest_more hlt hin, gotoLabel_of_pc hp]
  exact sendWord_ok (s := setPc [⟨.progpage a n, 14⟩] s) f (chunkWord s) hf hfly

/-- The same while a transfer is in flight. -/
theorem progpageTest_overlap (hlt : s.seq.idx.toInt < s.seq.cnt.toInt) (hin : s.seq.idx.toNat + 3 < s.cfg.bufCap)
    (hfly : s.chip.fly ≠ none) : progpageTest s = .fault .engineOverlap := by
  rw [progpageTest_more hlt hin, gotoLabel_of_pc hp]
  exact sendWord_overlap (s := setPc [⟨.progpage a n, 14⟩] s) (chunkWord s) hf hfly

/-- `IDX` has reached the count: the last WAITFLASH begins, at `PP.19`. -/
theorem progpageTest_ends (f : Facts s.cfg) (hle : s.seq.cnt.toInt ≤ s.seq.idx.toInt) :
    progpageTest s = .next (opBegun .waitflash [⟨.progpage a n, 19⟩] s) := by
  have hnot : moreChunks s.seq.idx s.seq.cnt = false := decide_eq_false (Int.not_lt.mpr hle)
  rw [progpageTest, hnot]
  exact callWaitflash_gotoLabel f hf hp 19

end LoopTest

/-- Settles O32: the micro-step is the loop test at the new `IDX`, whose three outcomes are `progpageTest_sends`, `progpageTest_overlap` and
`progpageTest_ends`. -/
theorem progpageLoops : Obligations.ProgpageLoops := by
  intro a n idx l s hw hr hl k
  obtain ⟨he, hp, hf⟩ := exec_top rfl hr
  have f := facts_of_wf hw
  rw [he, microStep_loopTest hp hl]
  exact ⟨progpageTest_sends (s := setIdx idx s) hf hp f, progpageTest_overlap (s := setIdx idx s) hf hp,
    progpageTest_ends (s := setIdx idx s) hf hp f⟩

end Sys2Proof.Machine
end

section
/-! PROOFS. The master-SPI engine (spec/44_engine_and_flash.md R140 to R154): every step keeps its state legal, a write to a named register
in flight is the overlap fault whoever issues it, and what the completion of a transfer does. -/

namespace Sys2Proof.Machine

open Sys2Proof

/-! ### The engine's state is legal (R142 to R154) -/

theorem EngineInv.congr {s t : State} (h : EngineInv s) (hcfg : t.cfg = s.cfg) (hchip : t.chip = s.chip) : EngineInv t := by
  rw [EngineInv, hcfg, hchip]
  exact h

/-- With no transfer in flight, chip-select and MSEN are all there is to agree with the mode. -/
theorem engineInv_of_noFlight {s : State} (hcs : s.chip.cs = true ↔ modeOf s.cfg s.chip.spictl ≠ .idle)
    (hmsen : msenFlag s.cfg s.chip.spictl = true ∨ modeOf s.cfg s.chip.spictl = .idle) (hfly : s.chip.fly = none) :
    EngineInv s :=
  ⟨hcs, fun hoff => hmsen.resolve_left (by simp [hoff]), fun f hf => nomatch hfly.symm.trans hf⟩

/-- Each row of the table of R154 leaves the engine's state legal. -/
theorem Written.engineInv {s t : State} {r : RegNum} {v : Word} (f : Facts s.cfg) (hs : EngineInv s) (h : Written s r v t) :
    EngineInv t := by
  obtain ⟨hcs, hoff, hflight⟩ := hs
  cases h with
  | spitx => exact ⟨hcs, hoff, hflight⟩
  | spirx => exact ⟨hcs, hoff, hflight⟩
  | other => exact ⟨hcs, hoff, hflight⟩
  | stored hr hfly hmsen hm =>
    have hmode : modeOf s.cfg (controlStored v s).chip.spictl = modeOf s.cfg v := modeOf_keepDone f _ v
    refine engineInv_of_noFlight (s := controlStored v s) ?_ ?_ hfly
    · show s.chip.cs = true ↔ modeOf s.cfg (controlStored v s).chip.spictl ≠ .idle
      rw [hmode]
      rcases hm with ⟨hsame, -⟩ | ⟨hm, hc⟩ | ⟨hm, hc⟩ | ⟨hm, hc⟩
      · rw [hsame]; exact hcs
      all_goals simp [hm, hc]
    · show msenFlag s.cfg (controlStored v s).chip.spictl = true ∨ modeOf s.cfg (controlStored v s).chip.spictl = .idle
      rw [hmode]
      exact hmsen.imp_left (msenFlag_keepDone f _ v).trans
  | selected hr hfly hmsen hm =>
    have hmode : modeOf s.cfg (keepDone s.cfg s.chip.spictl v) = .enable := (modeOf_keepDone f _ v).trans hm
    have hon : msenFlag s.cfg (keepDone s.cfg s.chip.spictl v) = true := (msenFlag_keepDone f _ v).trans hmsen
    exact engineInv_of_noFlight (s := Machine.selected (controlStored v s)) ⟨fun _ hi => (nomatch hmode.symm.trans hi), fun _ => rfl⟩
      (.inl hon) hfly
  | started hr hfly hmsen hm hc hn =>
    have hmode : modeOf s.cfg (transferStarted (controlStored v s)).chip.spictl = .transfer :=
      (modeOf_clearBit f _ _ f.mode_done).trans ((modeOf_keepDone f _ v).trans hm)
    have hon : msenFlag s.cfg (transferStarted (controlStored v s)).chip.spictl = true :=
      (msenFlag_clearDone f _).trans ((msenFlag_keepDone f _ v).trans hmsen)
    refine ⟨⟨fun _ hi => (nomatch hmode.symm.trans hi), fun _ => hc⟩, fun hoff => (nomatch hon.symm.trans hoff), fun g hg => ?_⟩
    obtain rfl := Option.some.inj hg
    exact ⟨Nat.le_add_left .., (transferBytes_keepDone f _ v).trans_le hn, hmode, doneFlag_clear f _⟩
  | ended u hr hfly hm hc hu =>
    have e := (endFrame_cases hu).1
    have hmode : modeOf s.cfg (keepDone s.cfg s.chip.spictl v) = .idle := (modeOf_keepDone f _ v).trans hm
    exact EngineInv.congr (s := deselected (controlStored v s))
      (engineInv_of_noFlight (s := deselected (controlStored v s)) ⟨nofun, fun hne => absurd hmode hne⟩ (.inr hmode) hfly)
      e.cfg e.chip

/-- The completion of a transfer leaves the mode, MSEN and chip-select alone (R148). -/
theorem engineInv_engineCompletes {s : State} (f : Facts s.cfg) (hs : EngineInv s) : EngineInv (engineCompletes s) := by
  have e := engineCompletes_side s
  obtain ⟨-, hchip⟩ | ⟨-, hfly, hctl⟩ := e.done
  · exact hs.congr e.cfg hchip
  · obtain ⟨hcs, hoff, -⟩ := hs
    rw [EngineInv, e.cfg, e.cs, hctl, modeOf_setBit f _ _ f.mode_done, msenFlag_setDone f]
    exact ⟨hcs, hoff, fun g hg => nomatch hfly.symm.trans hg⟩

/-- A step of an operation keeps the engine legal: at most one register is written (R12). -/
theorem OneTransaction.engineInv {s t : State} (f : Facts s.cfg) (hs : EngineInv s) (h : OneTransaction s t) : EngineInv t := by
  obtain ⟨a, u, ha, ht, hu⟩ := h
  have hf : Facts a.cfg := ha.cfg ▸ f
  have hinv : EngineInv a := hs.congr ha.cfg ha.chip
  refine EngineInv.congr (s := u) ?_ hu.cfg hu.chip
  rcases ht.cases_written hf with ⟨hchip, -, -, hcfg, -⟩ | ⟨r, v, hw⟩
  · exact hinv.congr hcfg hchip
  · exact hw.engineInv hf hinv

theorem HostDid.chip {u t : State} (h : HostDid u t) : t.chip = u.chip := by
  cases h with
  | accepted rest i t hb hc ha => exact (accept_cases ha).chip
  | _ => rfl

/-- Settles O51: the engine's completion and the operation in progress are the only steps that touch the chip. -/
theorem engineInvKept : Obligations.EngineInvKept := by
  intro s t hs h
  obtain ⟨hw, u, e, hc⟩ := step_cases h
  have f : Facts u.cfg := e.cfg ▸ facts_of_wf hw
  have hu : EngineInv u := hs.congr e.cfg e.chip
  rcases hc with rfl | rfl | rfl | rfl | hd | ⟨-, i, -, he⟩
  · exact engineInv_engineCompletes f hu
  · have c := flashFinishes_side u
    exact hu.congr c.cfg c.chip
  · exact hu.congr rfl rfl
  · exact hu
  · exact hu.congr hd.side.1 hd.chip
  · rcases exec_cases he with ⟨-, o⟩ | ⟨-, o, -⟩
    · exact o.engineInv f hu
    · exact hu.congr o.cfg o.chip

/-! ### The overlap fault (R150) -/

theorem iwrite_overlap {r : RegNum} {v : Word} {k : State → Out} {s : State} (hf : s.env.transportFails = false)
    (hn : namedReg s.cfg r = true) (hfly : s.chip.fly ≠ none) : iwrite r v k s = .fault .engineOverlap := by
  rw [iwrite_ok hf, writeReg_overlap hn hfly]
  rfl

/-- The operations with a write half write SPICTL there: they return after it, or SETCNT goes on (R110 to R113). -/
theorem microStep_writeHalf {s : State} {f : Frame} {callers : List Frame} (hp : s.seq.pc = f :: callers) (hl : f.label = 1)
    (hv : valueWrittenBack s.cfg s.seq.tmp f.op ≠ none) : ∃ v k, microStep s = iwrite s.cfg.regSpictl v k s := by
  obtain ⟨op, l⟩ := f
  subst hl
  cases op with
  | mspien => exact ⟨_, _, microStep_of_valueWrittenBack hp (.inl rfl) rfl rfl⟩
  | mspidis => exact ⟨_, _, microStep_of_valueWrittenBack hp (.inr (.inl rfl)) rfl rfl⟩
  | setmode m => exact ⟨_, _, microStep_of_valueWrittenBack hp (.inr (.inr ⟨m, rfl⟩)) rfl rfl⟩
  | setcnt c => exact ⟨withCount s.cfg s.seq.tmp c, advance, by simp only [microStep, hp, microSetcnt]⟩
  | _ => exact absurd rfl hv

/-- Settles O16: each of these micro-steps is one write to a named register, which faults in flight (`writeReg_overlap`). -/
theorem overlapFaults : Obligations.OverlapFaults := by
  intro i f callers s hw hi hr hfly h
  obtain ⟨he, hp, hf⟩ := exec_top hi hr
  rw [he]
  rcases h with ⟨r, v, rfl, hn⟩ | ⟨hl, hv⟩ | hword | ⟨a, n, rfl, hin⟩
  · rw [microStep_irw hp]
    exact iwrite_overlap hf hn hfly
  · obtain ⟨v, k, hmicro⟩ := microStep_writeHalf hp hl hv
    rw [hmicro]
    exact iwrite_overlap hf (by simp [namedReg]) hfly
  · obtain ⟨w, hw⟩ := Option.ne_none_iff_exists'.mp hword
    rw [microStep_of_commandWordAt hp hw]
    exact sendWord_overlap w hf hfly
  · have hmicro : microStep s = progpageWord s := by simp only [microStep, hp, microProgpage]
    rw [hmicro, progpageWord_eq hin, gotoLabel_of_pc hp]
    exact sendWord_overlap _ hf hfly

/-! ### The completion of a transfer (R148, R149) -/

theorem wireBytes_length {n : Nat} (tx : Word) (hn : n ≤ 4) : (wireBytes n tx).length = n := by
  rw [wireBytes, List.length_take]
  exact min_eq_left hn

/-- With a transfer in flight the completion is the exchange of its bytes; SPIRX takes the replies, DONE rises. -/
theorem engineCompletes_eq {s : State} {n : Nat} {tx : Word} (h : s.chip.fly = some ⟨n, tx⟩) :
    engineCompletes s =
      record (.xferDone (wireBytes n tx) (exchange (wireBytes n tx) s).1)
        { (exchange (wireBytes n tx) s).2 with
          chip :=
            { s.chip with
              spirx := shiftIn s.chip.spirx (exchange (wireBytes n tx) s).1
              spictl := s.chip.spictl ||| bitMask s.cfg.doneBit
              fly := none } } := by
  rw [engineCompletes, h, ← (exchange_side (wireBytes n tx) s).chip]

theorem engineCompletes_none {s : State} (h : s.chip.fly = none) : engineCompletes s = s := by
  rw [engineCompletes, h]

/-- Settles O33: the engine's turn is `engineCompletes`, and `exchange_side` says what the exchange leaves unchanged. -/
theorem transferCompletes : Obligations.TransferCompletes := by
  intro s hw hturn
  have hstep : step s = .next (engineCompletes (nextTurn s).2) := by rw [step_of_wf s hw, hturn, takeTurn]
  refine ⟨fun hfly => ?_, fun n tx hfly hn => ?_, fun _ => rfl, fun _ _ _ => rfl⟩
  · rw [hstep, engineCompletes_none (by rwa [nextTurn_chip])]
  · intro sent replies
    have e := exchange_side sent (nextTurn s).2
    have hlen : sent.length = n := wireBytes_length tx hn
    rw [engineCompletes_eq (by rwa [nextTurn_chip])] at hstep
    refine ⟨_, hstep, hlen, (exchange_length sent _).trans hlen, rfl, ?_, ?_, ?_, ?_, ?_, ?_, fun hb => ?_⟩
    · simp [replies, sent]
    · exact (exchange_frame sent _).trans (by rw [nextTurn_flash])
    · exact e.wel.trans (by rw [nextTurn_flash])
    · exact e.cfg.trans (nextTurn_cfg s)
    · exact e.seq.trans (nextTurn_seq s)
    · exact e.host.trans (nextTurn_host s)
    · cases e.progress with
      | same fm wip pending =>
        rw [nextTurn_flash] at fm wip pending
        exact ⟨fm, wip.trans hb, pending⟩
      | finished k was => rw [nextTurn_flash, hb] at was; cases was

end Sys2Proof.Machine
end

section
/-! PROOFS. What the frames of the flash do at their end (spec/44_engine_and_flash.md R159 to R163), which addresses a page program has
(R167), and the effect of an erase and of a program when they finish (R164 to R166). -/

namespace Sys2Proof.Machine

open Sys2Proof

/-! ### Write-enable and page program (R159, R161, R163) -/

theorem not_takesCommand {s : State} (h : s.flash.wip = true ∨ s.cfg.flashModel.attached = false) : ¬ takesCommand s = true := by
  rw [takesCommand_iff]
  rintro ⟨ha, hb⟩
  simp [ha, hb] at h

/-- Settles O36: the frame decodes to FLASH_WREN, which sets the latch exactly when the flash takes a command. -/
theorem flashWriteEnable : Obligations.FlashWriteEnable := by
  intro s
  have hexec : exec .flashWren s = .next (if takesCommand s then { s with flash := { s.flash with wel := true } } else s) := rfl
  refine ⟨fun hw hf => ?_, fun hb ha => ?_, fun h => ?_⟩
  · exact endFrame_of_decodeFrame (hf ▸ decodeFrame_wren (facts_of_wf hw)) rfl
  · rw [hexec, if_pos (takesCommand_iff.mpr ⟨ha, hb⟩)]
  · rw [hexec, if_neg (not_takesCommand h)]

section PageProgram

variable {a : FlashAddr} {data : List Byte} {s : State}

theorem execFlashPp_taken (hl : s.flash.wel = true) (ht : takesCommand s = true) :
    execFlashPp a data s = .next (if data.isEmpty then emptyProgram s else startOperation (programOf s.cfg a data) s) := by
  rw [execFlashPp, hl, ht]
  rfl

theorem execFlashPp_lost (h : ¬ (s.flash.wel && takesCommand s) = true) : execFlashPp a data s = .next s := by
  rw [execFlashPp, if_neg h]

end PageProgram

/-- Settles O38: the frame decodes to FLASH_PP, which acts exactly when the latch is set and the flash takes a command. -/
theorem flashPageProgram : Obligations.FlashPageProgram := by
  intro a data s
  have hexec : exec (.flashPp a data) s = execFlashPp a data s := rfl
  rw [hexec]
  refine ⟨fun a2 a1 a0 hw hf ha => ?_, fun hd hl hb ha => ?_, fun h => ?_, fun hd hl hb hm => ?_, fun hd hl hb hm => ?_⟩
  · subst ha
    exact endFrame_of_decodeFrame (hf ▸ decodeFrame_pp (facts_of_wf hw) a2 a1 a0 data) rfl
  · rw [execFlashPp_taken hl (takesCommand_iff.mpr ⟨ha, hb⟩), if_neg (by simp [hd]), startOperation_eq]
  · refine execFlashPp_lost fun hboth => ?_
    obtain ⟨hl, ht⟩ := Bool.and_eq_true_iff.mp hboth
    exact not_takesCommand (h.resolve_left (by simp [hl])) ht
  · subst hd
    rw [execFlashPp_taken hl (takesCommand_iff.mpr ⟨by rw [hm]; rfl, hb⟩), if_pos List.isEmpty_nil, emptyProgram, hm]
  · subst hd
    rw [execFlashPp_taken hl (takesCommand_iff.mpr ⟨by rw [hm]; rfl, hb⟩), if_pos List.isEmpty_nil, emptyProgram, hm]
    rfl

/-! ### Every other frame (R162) -/

/-- A frame with a first byte of no command, or of a command in another length than its own. -/
theorem decodeFrame_undefined {c : Cfg} (f : Facts c) {op : Byte} {rest : List Byte}
    (h : (op ≠ c.opRdsr ∧ op ≠ c.opWren ∧ op ≠ c.opSe ∧ op ≠ c.opPp) ∨ (op = c.opWren ∧ rest.length ≠ 0) ∨
      (op = c.opSe ∧ rest.length ≠ 3) ∨ (op = c.opPp ∧ rest.length < 3)) :
    decodeFrame c (op :: rest) = .error .undefinedFrame := by
  obtain ⟨h1, h2, h3, h4⟩ | ⟨rfl, hl⟩ | ⟨rfl, hl⟩ | ⟨rfl, hl⟩ := h
  · simp only [decodeFrame, if_neg h1, if_neg h2, if_neg h3, if_neg h4]
  · cases rest with
    | nil => exact absurd rfl hl
    | cons b rest => rw [decodeFrame, if_neg f.rdsr_ne_wren.symm, if_pos rfl]
  · simp only [decodeFrame, if_neg f.rdsr_ne_se.symm, if_neg f.wren_ne_se.symm, if_true]
    unfold decodeSe
    split
    · exact absurd rfl hl
    · rfl
  · simp only [decodeFrame, if_neg f.rdsr_ne_pp.symm, if_neg f.wren_ne_pp.symm, if_neg f.se_ne_pp.symm, if_true]
    unfold decodePp
    split
    · simp only [List.length_cons] at hl
      omega
    · rfl

/-- Settles O39: a status frame and an empty one do nothing, and a frame that decodes to no command is `undefinedFrame`. -/
theorem otherFrames : Obligations.OtherFrames := by
  intro s
  refine ⟨fun _ => rfl, fun hf => endFrame_of_statusFrame hf, fun hf => endFrame_nil hf, fun op rest hf hw h => ?_⟩
  rw [endFrame_of_undefinedFrame (hf ▸ decodeFrame_undefined (facts_of_wf hw) h)]
  exact ⟨fun hm => undefinedFrame_contract hm, fun hm => undefinedFrame_ignored hm⟩

/-! ### The addresses of a page program (R167) -/

/-- Byte `j` of the data goes to `a + j`, modulo the size of the flash. -/
theorem flatTargets_eq_map (a j : Nat) (data : List Byte) :
    flatTargets (a + j) data = (data.zipIdx j).map (fun d => ((a + d.2) % 2 ^ 24, d.1)) := by
  induction data generalizing j with
  | nil => rfl
  | cons d rest ih => rw [flatTargets, Nat.add_assoc, ih, List.zipIdx_cons, List.map_cons]

/-- Data that ends inside the flash does not wrap. -/
theorem flatTargets_eq_map_of_le {a : Nat} {data : List Byte} (h : a + data.length ≤ 2 ^ 24) :
    flatTargets a data = data.zipIdx.map (fun d => (a + d.2, d.1)) := by
  refine (flatTargets_eq_map a 0 data).trans (List.map_congr_left fun d hd => ?_)
  have hlt := List.snd_lt_of_mem_zipIdx hd
  rw [Nat.mod_eq_of_lt (by omega)]

theorem pageBase_eq (p a : Nat) : pageBase p a = a / p * p := by
  rw [pageBase, Nat.div_mul_self_eq_mod_sub_self]

/-- A page lies in the 24-bit flash space (R167). -/
theorem pageBase_add_le {c : Cfg} (hw : c.wf = true) {p : Nat} (hp : c.flashPage = some p) (a : FlashAddr) :
    a.toNat / p * p + p ≤ 2 ^ 24 := by
  simp only [Cfg.wf, Bool.and_eq_true] at hw
  have hok : c.flashPageOk = true := hw.2
  simp only [Cfg.flashPageOk, hp, List.any_eq_true, List.mem_range, beq_iff_eq] at hok
  obtain ⟨k, hk, rfl⟩ := hok
  obtain ⟨q, hq⟩ := Nat.pow_dvd_pow 2 (Nat.le_of_lt_succ hk)
  have hlt : a.toNat / 2 ^ k < q := Nat.div_lt_of_lt_mul (hq ▸ a.isLt)
  calc a.toNat / 2 ^ k * 2 ^ k + 2 ^ k = (a.toNat / 2 ^ k + 1) * 2 ^ k := (Nat.succ_mul ..).symm
    _ ≤ q * 2 ^ k := Nat.mul_le_mul_right _ hlt
    _ = 2 ^ 24 := by rw [hq, Nat.mul_comm]

theorem programOf_flat {c : Cfg} (hp : c.flashPage = none) (a : FlashAddr) (data : List Byte) :
    programOf c a data = .program (flatTargets a.toNat data) := by
  rw [programOf, hp]

theorem programOf_contract {c : Cfg} {p : Nat} (hp : c.flashPage = some p) (hm : c.flashModel = .contract) (a : FlashAddr)
    (data : List Byte) :
    programOf c a data =
      if a.toNat % p + data.length ≤ p then .program (flatTargets a.toNat data) else .scramble (pageBase p a.toNat) p := by
  rw [programOf, hp, hm]

theorem programOf_reference {c : Cfg} {p : Nat} (hp : c.flashPage = some p) (hm : c.flashModel = .reference) (a : FlashAddr)
    (data : List Byte) :
    programOf c a data =
      .program (flatTargets (pageBase p a.toNat) (pageBuffer p a.toNat data (List.replicate p 0xFF))) := by
  rw [programOf, hp, hm]

theorem pageBuffer_length (p a : Nat) (data page : List Byte) : (pageBuffer p a data page).length = page.length := by
  induction data generalizing a page with
  | nil => rfl
  | cons d rest ih => rw [pageBuffer, ih, List.length_set]

/-- Entry `k` of the page buffer is the last byte sent to it, else what it held. -/
theorem pageBuffer_getD (p a j k : Nat) (data page : List Byte) (hk : k < page.length) :
    (pageBuffer p (a + j) data page).getD k 0 =
      ((((data.zipIdx j).filter (fun d => (a + d.2) % p == k)).map (·.1)).getLast?).getD (page.getD k 0) := by
  induction data generalizing j page with
  | nil => rfl
  | cons d rest ih =>
    rw [pageBuffer, Nat.add_assoc, ih _ _ (by rwa [List.length_set]), List.zipIdx_cons]
    by_cases h : (a + j) % p = k
    · rw [List.filter_cons_of_pos (by simpa using h), List.map_cons, List.getLast?_cons, Option.getD_some, h,
        List.getD_eq_getElem?_getD, List.getElem?_set_self hk, Option.getD_some]
    · rw [List.filter_cons_of_neg (by simpa using h), List.getD_eq_getElem?_getD, List.getElem?_set_ne h,
        ← List.getD_eq_getElem?_getD]

theorem read_scramblePage {k base n b : Nat} {fm : Memory} (hwf : Memory.wf unlistedFlash fm = true)
    (hb : b < base ∨ base + n ≤ b) :
    Memory.read unlistedFlash (scramblePage k base fm n) b = Memory.read unlistedFlash fm b := by
  induction n generalizing k base fm with
  | zero => rfl
  | succ n ih => rw [scramblePage, ih (Memory.wf_write hwf) (by omega), Memory.read_write hwf, if_neg (by omega)]

/-- Settles O40: `flatTargets` and `pageBuffer` byte by byte; a page does not cross the end of the flash (`pageBase_add_le`). -/
theorem programTargets : Obligations.ProgramTargets := by
  intro c a data hw
  refine ⟨fun hp => ?_, fun p hp hm hfit => ?_, fun p hp hm hover => ?_, fun p hp hm => ?_, fun k base size fm b hwf hb => ?_⟩
  · rw [programOf_flat hp]
    exact congrArg Pending.program (flatTargets_eq_map a.toNat 0 data)
  · have hpage := pageBase_add_le hw hp a
    have hdiv := Nat.div_add_mod' a.toNat p
    rw [programOf_contract hp hm, if_pos hfit, flatTargets_eq_map_of_le (by omega)]
  · rw [programOf_contract hp hm, if_neg (Nat.not_le.mpr hover), pageBase_eq]
  · let page := pageBuffer p a.toNat data (List.replicate p 0xFF)
    have hlen : page.length = p := (pageBuffer_length ..).trans List.length_replicate
    refine ⟨page, hlen, ?_, fun k hk => ?_⟩
    · have hpage := pageBase_add_le hw hp a
      rw [programOf_reference hp hm, pageBase_eq, flatTargets_eq_map_of_le (by rw [hlen]; exact hpage)]
    · refine (pageBuffer_getD p a.toNat 0 k data _ (by rwa [List.length_replicate])).trans ?_
      rw [List.getD_replicate _ hk]
  · exact read_scramblePage hwf hb

/-! ### The effect of an operation (R164 to R166) -/

/-- Settles O41: an erased sector reads 0xFF, every other address as before (`read_eraseSector`). -/
theorem eraseEffect : Obligations.EraseEffect := by
  intro k base fm a
  have hread : Memory.read unlistedFlash (applyPending k fm (.erase base)) a =
      if base ≤ a ∧ a < base + 4096 then 0xFF else Memory.read unlistedFlash fm a := read_eraseSector base a
  rw [hread]
  exact ⟨fun h => if_pos (by omega), fun h => if_neg (by omega)⟩

/-- Settles O42: by induction on the targets, one programmed byte at a time (`read_programByte`). -/
theorem programEffect : Obligations.ProgramEffect := by
  intro k targets fm a hwf
  simp only [applyPending]
  induction targets generalizing fm with
  | nil => rfl
  | cons t ts ih =>
    rw [List.foldl_cons, ih _ (wf_programByte t hwf), read_programByte t a hwf]
    by_cases h : t.1 = a
    · rw [if_pos h.symm, List.filter_cons_of_pos (by simpa using h), List.map_cons, List.foldl_cons]
    · rw [if_neg (Ne.symm h), List.filter_cons_of_neg (by simpa using h)]

theorem flashFinishes_contract {s : State} (hm : s.cfg.flashModel = .contract) :
    flashFinishes s = if s.flash.wip then finishOperation s else s := by
  rw [flashFinishes, hm]

theorem flashFinishes_idle {s : State} (h : s.cfg.flashModel ≠ .contract ∨ s.flash.wip = false) : flashFinishes s = s := by
  unfold flashFinishes
  split
  · next hm => exact if_neg (by simp [h.resolve_left (not_not_intro hm)])
  · rfl
  · rfl

/-- Settles O43: the flash's turn is `flashFinishes`, which finishes the recorded operation under the contract alone. -/
theorem flashTurnFinishes : Obligations.FlashFinishes := by
  intro s hw hturn
  have hstep : step s = .next (flashFinishes (nextTurn s).2) := by rw [step_of_wf s hw, hturn, takeTurn]
  refine ⟨fun hm hb => ?_, fun h => ?_⟩
  · rw [flashFinishes_contract (by rwa [nextTurn_cfg]), if_pos (by rwa [nextTurn_flash])] at hstep
    refine ⟨_, hstep, ?_, nextTurn_cfg s, nextTurn_seq s, nextTurn_chip s, nextTurn_host s⟩
    simp [finishOperation]
  · rw [hstep, flashFinishes_idle (by rwa [nextTurn_cfg, nextTurn_flash])]

end Sys2Proof.Machine
end

section
/-! PROOFS. Every step keeps the flash legal (spec/44_engine_and_flash.md R156, R160, R161, R166) and the three stores in canonical form. -/

namespace Sys2Proof.Machine

open Sys2Proof

/-! ### The flash is busy exactly while an operation is recorded -/

theorem FlashInv.congr {s t : State} (h : FlashInv s) (hwip : t.flash.wip = s.flash.wip)
    (hpending : t.flash.pending = s.flash.pending) : FlashInv t := by
  rw [FlashInv, hwip, hpending]
  exact h

/-- The end of a frame leaves the busy bit and the recorded operation alone, or sets both. -/
theorem FrameEnded.flashInv {s t : State} (h : FrameEnded s t) (hs : FlashInv s) : FlashInv t := by
  obtain ⟨-, ⟨hwip, hpending⟩ | ⟨hwip, hpending⟩⟩ := h
  · exact hs.congr hwip hpending
  · exact ⟨fun _ => hpending, fun _ => hwip⟩

/-- An operation that finishes clears both. -/
theorem Progress.flashInv {s t : State} (h : Progress s t) (hs : FlashInv s) : FlashInv t := by
  cases h with
  | same fm wip pending => exact hs.congr wip pending
  | finished k was fm wip pending => simp [FlashInv, wip, pending]

/-- The only write the flash takes notice of is the one that ends its frame. -/
theorem Written.flashInv {s t : State} {r : RegNum} {v : Word} (h : Written s r v t) (hs : FlashInv s) : FlashInv t := by
  cases h with
  | ended u _ _ _ _ hu => exact (endFrame_cases hu).flashInv hs
  | _ => exact hs

theorem exec_flashInv {i : Instr} {s t : State} (f : Facts s.cfg) (h : exec i s = .next t) (hs : FlashInv s) : FlashInv t := by
  rcases exec_cases h with ⟨-, a, u, ha, ht, hu⟩ | ⟨-, e⟩
  · have hinv : FlashInv a := hs.congr (by rw [ha.flash]) (by rw [ha.flash])
    refine FlashInv.congr (s := u) ?_ (by rw [hu.flash]) (by rw [hu.flash])
    rcases ht.cases_written (ha.cfg ▸ f) with ⟨-, hflash, -⟩ | ⟨r, v, hw⟩
    · exact hinv.congr (by rw [hflash]) (by rw [hflash])
    · exact hw.flashInv hinv
  · exact e.flashInv hs

theorem step_flashInv {s t : State} (h : step s = .next t) (hs : FlashInv s) : FlashInv t := by
  obtain ⟨hw, u, e, hc⟩ := step_cases h
  have hu : FlashInv u := hs.congr (by rw [e.flash]) (by rw [e.flash])
  rcases hc with rfl | rfl | rfl | rfl | hd | ⟨-, i, -, he⟩
  · exact (engineCompletes_side u).progress.flashInv hu
  · exact (flashFinishes_side u).progress.flashInv hu
  · exact hu.congr rfl rfl
  · exact hu
  · exact hu.congr (by rw [hd.side.2.2]) (by rw [hd.side.2.2])
  · exact exec_flashInv (e.cfg ▸ facts_of_wf hw) he hu

/-! ### The stores are canonical -/

theorem StoresCanonical.congr {s t : State} (h : StoresCanonical s) (hfm : t.flash.fm = s.flash.fm)
    (hbuf : t.host.buf = s.host.buf) (hother : t.chip.other = s.chip.other) : StoresCanonical t := by
  rw [StoresCanonical, hfm, hbuf, hother]
  exact h

/-- An operation that finishes leaves the array canonical (`wf_applyPending`). -/
theorem Progress.wf_fm {s t : State} (h : Progress s t) (hs : Memory.wf unlistedFlash s.flash.fm = true) :
    Memory.wf unlistedFlash t.flash.fm = true := by
  cases h with
  | same fm wip pending => rwa [fm]
  | finished k was fm wip pending =>
    rw [fm]
    exact wf_applyPending _ hs

/-- The registers of no name are written one at a time. -/
theorem Written.wf_other {s t : State} {r : RegNum} {v : Word} (h : Written s r v t)
    (hs : Memory.wf unlistedReg s.chip.other = true) : Memory.wf unlistedReg t.chip.other = true := by
  cases h with
  | other hr => exact Memory.wf_write hs
  | ended u _ _ _ _ hu =>
    rw [(endFrame_cases hu).1.chip]
    exact hs
  | _ => exact hs

theorem OneTransaction.wf_other {s t : State} (f : Facts s.cfg) (h : OneTransaction s t)
    (hs : Memory.wf unlistedReg s.chip.other = true) : Memory.wf unlistedReg t.chip.other = true := by
  obtain ⟨a, u, ha, ht, hu⟩ := h
  have hinv : Memory.wf unlistedReg a.chip.other = true := by rwa [ha.chip]
  rw [hu.chip]
  rcases ht.cases_written (ha.cfg ▸ f) with ⟨hchip, -⟩ | ⟨r, v, hw⟩
  · rwa [hchip]
  · exact hw.wf_other hinv

theorem exec_storesCanonical {i : Instr} {s t : State} (f : Facts s.cfg) (h : exec i s = .next t) (hs : StoresCanonical s) :
    StoresCanonical t := by
  obtain ⟨hfm, hbuf, hother⟩ := hs
  obtain ⟨-, hhost, hfm'⟩ := exec_side h
  refine ⟨by rwa [hfm'], by rwa [hhost], ?_⟩
  rcases exec_cases h with ⟨-, o⟩ | ⟨-, e, -⟩
  · exact o.wf_other f hother
  · rwa [e.chip]

/-- The host fills the buffer one byte after the other. -/
theorem HostDid.wf_buf {u t : State} (h : HostDid u t) (hu : Memory.wf unlistedBuf u.host.buf = true) :
    Memory.wf unlistedBuf t.host.buf = true := by
  cases h with
  | filled a bytes rest hb => exact Memory.wf_writeAll hu
  | accepted rest i t hb hc ha =>
    rw [(accept_cases ha).host]
    exact hu
  | _ => exact hu

theorem step_storesCanonical {s t : State} (h : step s = .next t) (hs : StoresCanonical s) : StoresCanonical t := by
  obtain ⟨hw, u, e, hc⟩ := step_cases h
  have hu : StoresCanonical u := hs.congr (by rw [e.flash]) (by rw [e.host]) (by rw [e.chip])
  obtain ⟨hfm, hbuf, hother⟩ := hu
  rcases hc with rfl | rfl | rfl | rfl | hd | ⟨-, i, -, he⟩
  · have c := engineCompletes_side u
    exact ⟨c.progress.wf_fm hfm, by rwa [c.host], by rwa [c.other]⟩
  · have c := flashFinishes_side u
    exact ⟨c.progress.wf_fm hfm, by rwa [c.host], by rwa [c.chip]⟩
  · exact ⟨hfm, hbuf, hother⟩
  · exact ⟨hfm, hbuf, hother⟩
  · exact ⟨by rwa [hd.side.2.2], hd.wf_buf hbuf, by rwa [hd.chip]⟩
  · exact exec_storesCanonical (e.cfg ▸ facts_of_wf hw) he ⟨hfm, hbuf, hother⟩

/-- Settles O52: `step_flashInv` and `step_storesCanonical`, each over what a step can do (`step_cases`). -/
theorem flashAndStoresKept : Obligations.FlashAndStoresKept :=
  ⟨fun _ _ hs h => step_flashInv h hs, fun _ _ hs h => step_storesCanonical h hs⟩

end Sys2Proof.Machine
end

section
/-! PROOFS. The legs of a page program (spec/42_flash_primitives.md R121 to R124; spec/43_page_program.md R131): operations called in a
quiet environment with the reference flash attached, each from the state in which the one before left the chip to the frame of the caller. -/

namespace Sys2Proof.Machine

open Sys2Proof

/-! ### A run that keeps what PROGPAGE relies on -/

/-- From `s`, in some number of steps, to `t`; the configuration, the operands, RESULT, ERR and the host's side are kept. -/
structure ComesTo (s t : State) : Prop where
  reaches : ∃ n, Reaches s n t
  cfg : t.cfg = s.cfg
  addr : t.seq.addr = s.seq.addr
  cnt : t.seq.cnt = s.seq.cnt
  result : t.seq.result = s.seq.result
  err : t.seq.err = s.seq.err
  host : t.host = s.host

theorem Passes.comesTo {s t : State} {n k : Nat} (h : Passes n k s t) : ComesTo s t :=
  ⟨⟨n, h.reaches⟩, h.cfg, congrArg KeptRegisters.addr h.kept, congrArg KeptRegisters.cnt h.kept,
    congrArg KeptRegisters.result h.kept, h.err, h.host⟩

theorem ComesTo.trans {s t u : State} (h : ComesTo s t) (g : ComesTo t u) : ComesTo s u := by
  obtain ⟨n, hn⟩ := h.reaches
  obtain ⟨m, hm⟩ := g.reaches
  exact ⟨⟨n + m, hn.trans hm⟩, g.cfg.trans h.cfg, g.addr.trans h.addr, g.cnt.trans h.cnt, g.result.trans h.result,
    g.err.trans h.err, g.host.trans h.host⟩

theorem ComesTo.of_begins {s : State} {i : Instr} {callers : List Frame} (h : step s = .next (opBegun i callers s)) :
    ComesTo s (opBegun i callers s) := (passes_of_begins h).comesTo

/-- Mode idle with chip-select deasserted is a state of rest. -/
theorem Ready.atRest_of_idle {pc : List Frame} {s : State} (h : Ready pc s) (hs : Still s.cfg s.chip .idle false) :
    atRest s = true := by
  obtain ⟨hfly, hm, hcs⟩ := hs
  simp [Machine.atRest, hfly, hm, hcs, h.msen]

/-! ### Frames that are no status read -/

/-- The reference flash takes the bytes of any other frame without a change but to the frame (R157). -/
theorem exchange_command {s : State} (hm : s.cfg.flashModel = .reference) {bytes : List Byte}
    (hno : ¬ StatusFrame s.cfg (s.flash.frame ++ bytes)) :
    (exchange bytes s).2 = { s with flash := { s.flash with frame := s.flash.frame ++ bytes } } := by
  induction bytes generalizing s with
  | nil => simp [exchange]
  | cons b rest ih =>
    have hb : receiveByte b s = (0xFF, byteTaken b s) := by
      rw [receiveByte_of_not_statusFrame (fun h => hno (h.append _)), idleReply_reference (by exact hm)]
    have hrest := ih (s := byteTaken b s) hm (by simpa [byteTaken] using hno)
    show (exchange rest (receiveByte b s).2).2 = _
    rw [hb, hrest]
    simp [byteTaken]

/-- What a transfer leaves of the flash when its frame is no status read. -/
theorem Landed.flash_command {n : Nat} {w : Word} {u t : State} (h : Landed n w u t) (hm : u.cfg.flashModel = .reference)
    (hno : ¬ StatusFrame u.cfg (u.flash.frame ++ wireBytes n w)) :
    t.flash = { u.flash with frame := u.flash.frame ++ wireBytes n w } := by
  rw [h.flash, exchange_command hm hno]

namespace Ready

variable {pc callers : List Frame} {f : Frame} {s : State}

/-! ### A frame of one transfer, from idle -/

/-- From the closed frame to the poll that finds the command word sent: `Ready.sends` without the write before, which closes a status frame
there, while PROGPAGE also closes a page-program frame. -/
theorem sendsOpened {op : Instr} {n w : Word} (ho : SendsFrame op n) (h : Ready (⟨op, 1⟩ :: callers) s)
    (hs : Still s.cfg s.chip .idle false) (hword : commandWordAt s.cfg s.seq.addr ⟨op, 2⟩ = some w) :
    ∃ u t, Passes 9 8 s t ∧ Ready (⟨op, 5⟩ :: callers) t ∧ FrameOpened s u ∧ Landed (n.toNat + 1) w u t := by
  obtain ⟨b, hsb, hb, henable, hflash, henv⟩ := h.opens hs (ho.opens _) (ho.returns 1 (by omega) _) h.commands
  have haddr : b.seq.addr = s.seq.addr := congrArg KeptRegisters.addr hsb.kept
  obtain ⟨d, hbd, hd, hloaded, htx⟩ := hb.loads henable (by rw [hsb.cfg, haddr]; exact hword)
  obtain ⟨e, hde, he, hcounted, htx', hbytes⟩ := hd.counts hloaded (ho.counts _) ho.short
  obtain ⟨u, t, heu, hut, ht, hl⟩ := he.transfers hcounted.fly hcounted.cs (.inl hcounted.mode) (htx'.trans htx) hbytes
    ho.short rfl (ho.returns 3 (by omega) _) h.commands ho.waits
  have hbu := (hbd.trans hde).trans heu
  exact ⟨u, t, (hsb.trans hbu.toPasses).trans hut, ht, ⟨hbu.cfg.trans hsb.cfg, hbu.flash.trans hflash, hbu.env.trans henv⟩, hl⟩

/-- The write of SETMODE idle that ends an open frame; `u` is what the flash makes of the frame. -/
theorem endsFrame {u : State} (h : Ready (⟨.setmode .idle, 1⟩ :: f :: callers) s) (htmp : s.seq.tmp = s.chip.spictl)
    (hs : Still s.cfg s.chip .transfer true)
    (hu : endFrame (deselected (controlStored (withMode s.cfg s.seq.tmp .idle) s)) = .next u)
    (hret : returnTo (f :: callers) u = setPc pc u) (hcmd : Commands pc) :
    ∃ t, ComesTo s t ∧ Ready pc t ∧ Still t.cfg t.chip .idle false ∧ t.flash = u.flash := by
  have c := facts_of_wf h.wf
  obtain ⟨hfly, hm, hcs⟩ := hs
  obtain ⟨hcfg, hseq, hchip, hhost, -, hsched, htransport, -⟩ := (endFrame_cases hu).1
  have hwrite := (write_idle_frame c hfly (modeOf_withMode c s.seq.tmp .idle) (fun he => nomatch hm.symm.trans he) hcs).trans hu
  have hmode := modeOf_stored c s.chip.spictl s.seq.tmp .idle
  have hon := (msenFlag_stored c s.chip.spictl s.seq.tmp .idle).trans (htmp ▸ h.msen)
  refine ⟨setPc pc u, ⟨⟨1, .of_step (hret ▸ h.step_writes hfly hwrite)⟩, hcfg, ?_, ?_, ?_, ?_, hhost⟩,
    ⟨hcfg ▸ h.wf, (quiet_congr hsched htransport).trans h.quiet, ?_, hcmd, rfl, ?_⟩, ?_, rfl⟩
  all_goals simp only [setPc_seq, setPc_cfg, setPc_chip, hseq, hcfg, hchip]
  · rfl
  · rfl
  · rfl
  · rfl
  · exact h.busy
  · exact hon
  · exact ⟨hfly, hmode, rfl⟩

/-- A whole SENDCMD or ERASE called from rest: `fl` is what the reference flash makes of its frame. -/
theorem sendsNested {op : Instr} {n w : Word} {fl : Flash} (ho : SendsFrame op n)
    (hends : ∀ c, calleeAt c ⟨op, 5⟩ = some (.setmode .idle)) (h : Ready (f :: callers) s) (hc : calleeAt s.cfg f = some op)
    (hbegins : callOf op s = .next (opBegun op s.seq.pc s)) (hrest : atRest s = true) (hm : s.cfg.flashModel = .reference)
    (hword : commandWordAt s.cfg s.seq.addr ⟨op, 2⟩ = some w) (hno : ¬ StatusFrame s.cfg (wireBytes (n.toNat + 1) w))
    (hend : ∀ v : State, v.cfg = s.cfg →
      v.flash = { s.flash with frame := wireBytes (n.toNat + 1) w, frameStatus := none } →
        ∃ u, endFrame v = .next u ∧ u.flash = fl)
    (hret : ∀ u, returnTo (⟨op, 5⟩ :: f :: callers) u = setPc pc u) (hcmd : Commands pc) :
    ∃ t, ComesTo s t ∧ Ready pc t ∧ Still t.cfg t.chip .idle false ∧ t.flash = fl := by
  have hfly := (atRest_cases hrest).1
  have hstep : step s = .next (opBegun op (f :: callers) s) := by
    rw [h.step_eq hfly, microStep_of_calleeAt h.pc hc, hbegins, h.pc]
  have hcmds : Commands (⟨op, 0⟩ :: f :: callers) := by simpa [Commands, ho.isCommand] using h.commands
  have hb := h.called (i := op) (callers := f :: callers) (by rw [ho.begins]; rfl) hcmds
  obtain ⟨d, hbd, hd, hidle⟩ := hb.closes rfl hrest (ho.returns 0 (by omega) _) hcmds
  have hsd := (passes_of_begins hstep).trans hbd.toPasses
  have haddr : d.seq.addr = s.seq.addr := congrArg KeptRegisters.addr hsd.kept
  obtain ⟨u, t, hdt, ht, hu, hl⟩ := hd.sendsOpened ho hidle (by rw [hsd.cfg, haddr]; exact hword)
  have hst := hsd.trans hdt
  have hucfg : u.cfg = s.cfg := hu.cfg.trans hsd.cfg
  have hflash : t.flash = { s.flash with frame := wireBytes (n.toNat + 1) w, frameStatus := none } := by
    have hlanded := hl.flash_command (by rwa [hucfg]) (by rw [hu.flash, hucfg]; exact hno)
    rw [hlanded, hu.flash, hbd.flash]
    rfl
  have hclose := ht.step_calls_setmode hl.still.fly (hends _)
  obtain ⟨v, hv, hvflash⟩ := hend (deselected (controlStored _ (opBegun (.setmode .idle) (⟨op, 5⟩ :: f :: callers) t)))
    hst.cfg hflash
  obtain ⟨e, hte, he, hidle', heflash⟩ := (ht.begun rfl rfl).endsFrame rfl hl.still hv (hret v) hcmd
  exact ⟨e, hst.comesTo.trans ((ComesTo.of_begins hclose).trans hte), he, hidle', heflash.trans hvflash⟩

/-! ### WAITFLASH with the reference flash -/

/-- From the closed frame to the read of SPIRX: one status read (R121). -/
theorem readsStatusOpened (h : Ready (⟨.rdstatus, 1⟩ :: callers) s) (hs : Still s.cfg s.chip .idle false) :
    ∃ t, Passes 15 13 s t ∧ Ready (⟨.rdstatus, 8⟩ :: callers) t ∧ StatusReceived s t := by
  have hbytes : wireBytes 4 (s.cfg.opRdsr ++ (0 : BitVec 24)) = statusBytes s.cfg := wireBytes_command 4 _ _
  obtain ⟨u, a, hsa, ha, hu, hl⟩ := h.sendsOpened sendsFrame_rdstatus hs rfl
  obtain ⟨b, hab, hb, hupdate, htx, hcount⟩ := ha.updates hl.still rfl (fun _ => rfl) h.commands
  obtain ⟨w, t, hbw, hwt, ht, hl'⟩ := hb.transfers (n := 4) hupdate.fly hupdate.cs (.inr hupdate.mode) (htx.trans hl.spitx)
    (hcount.trans hl.bytes) le_rfl rfl (fun _ => rfl) h.commands (fun _ => rfl)
  have haw := hab.trans hbw
  refine ⟨t, (hsa.trans haw.toPasses).trans hwt, ht, statusReceived_of_landed hu (haw.cfg.trans hsa.cfg) ?_ ?_ hl'⟩
  · exact haw.flash.trans (hl.flash.trans (congrArg (fun l => (exchange l u).2.flash) hbytes))
  · exact haw.env.trans (hl.env.trans (congrArg (fun l => (exchange l u).2.env) hbytes))

/-- WAITFLASH from the closed frame to the read of SPIRX that finds the flash not busy, by induction on the status reads that find it busy.
Unlike `Ready.awaits` it begins where the frame before has ended, whatever that frame was, and says that the last status frame is open. -/
theorem awaitsOpened {k : Nat} (hk : busyReadsLeft s.flash = k) (h : Ready (⟨.rdstatus, 1⟩ :: ⟨.waitflash, 1⟩ :: callers) s)
    (hs : Still s.cfg s.chip .idle false) (hm : s.cfg.flashModel = .reference) (hl : s.cfg.pollLimit = none) :
    ∃ t, ComesTo s t ∧ Ready (⟨.rdstatus, 8⟩ :: ⟨.waitflash, 1⟩ :: callers) t ∧ t.chip.spirx.getLsbD 0 = false ∧
      atRest t = true ∧ Finished s t := by
  induction k generalizing s with
  | zero =>
    obtain ⟨t, hst, ht, hr⟩ := h.readsStatusOpened hs
    have hf := (sampled_finished hk).congr (hr.reference hm).1
    exact ⟨t, hst.comesTo, ht, (hr.attached (by rw [hm]; rfl)).trans hf.wip, hr.atRest hst.cfg ht.msen, hf⟩
  | succ k ih =>
    obtain ⟨t, hst, ht, hr⟩ := h.readsStatusOpened hs
    obtain ⟨hflash, henv, -⟩ := hr.reference hm
    obtain ⟨hw, hsampled, hsame⟩ := sampled_busy hk
    have hwip : t.flash.wip = true := by rw [hflash, hsampled]; exact hw
    obtain ⟨u, htu, hu, hchip, hfresh⟩ := ht.readsAgain hr.still.fly (by rw [hst.cfg, hl]) ((hr.attached (by rw [hm]; rfl)).trans hwip)
    have hrest : atRest u = true := by
      have hr' := hr.atRest hst.cfg ht.msen
      rwa [Machine.atRest, ← htu.cfg, ← hchip, ← htu.flash] at hr'
    obtain ⟨v, huv, hv, hidle⟩ := hu.closes hfresh hrest (fun _ => rfl) h.commands
    have htv := htu.trans huv
    have hvflash : v.flash = { s.flash with busyLeft := k, frame := t.flash.frame, frameStatus := some 1 } := by
      rw [htv.flash, hflash, hsampled]
    have hvenv : v.env = s.env := htv.env.trans (henv.trans hsame)
    have hsv := hst.trans htv.toPasses
    obtain ⟨x, hvx, hx, hzero, hrest', hf⟩ := ih (by simp [busyReadsLeft, hvflash, hw]) hv hidle (by rwa [hsv.cfg]) (by rwa [hsv.cfg])
    refine ⟨x, hsv.comesTo.trans hvx, hx, hzero, hrest', hf.wip, by rw [hf.wel, hvflash], fun _ => ?_, fun hb => ?_⟩
    · have hdone := hf.busy (by rw [hvflash]; exact hw)
      rw [hvflash, hvenv] at hdone
      exact hdone
    · exact nomatch hw.symm.trans hb

/-- A whole WAITFLASH called by `f`, which goes on at the frames `pc`, from rest to rest. -/
theorem awaitsNested {pc' : List Frame} (h : Ready pc' s) (hbegins : step s = .next (opBegun .waitflash (f :: callers) s))
    (hrest : atRest s = true) (hm : s.cfg.flashModel = .reference) (hl : s.cfg.pollLimit = none)
    (hcmds : Commands (f :: callers)) (hret : ∀ u, returnTo (f :: callers) u = setPc pc u) (hcmd : Commands pc) :
    ∃ t, ComesTo s t ∧ Ready pc t ∧ atRest t = true ∧ Finished s t := by
  have hb := h.called (i := .waitflash) (callers := f :: callers) (below := ⟨.rdstatus, 0⟩ :: ⟨.waitflash, 1⟩ :: f :: callers)
    rfl hcmds
  obtain ⟨d, hbd, hd, hidle⟩ := hb.closes rfl hrest (fun _ => rfl) hcmds
  have hsd := (passes_of_begins hbegins).trans hbd.toPasses
  obtain ⟨t, hdt, ht, hzero, hrest', hf⟩ := hd.awaitsOpened rfl hidle (by rwa [hsd.cfg]) (by rwa [hsd.cfg])
  have hlast := (ht.step_eq (atRest_cases hrest').1).trans
    (microStep_statusRead_ready ht.wf ht.transport (atRest_cases hrest').1 ht.pc hzero)
  rw [show waitflashResult (f :: callers) (statusCounted t) = statusCounted t from rfl, hret] at hlast
  have hafter : Ready pc (setPc pc (statusCounted t)) := ht.congr rfl rfl rfl hcmd rfl ht.msen
  have hlastP : ComesTo t (setPc pc (statusCounted t)) := ⟨⟨1, .of_step hlast⟩, rfl, rfl, rfl, rfl, rfl, rfl⟩
  refine ⟨_, hsd.comesTo.trans (hdt.trans hlastP), hafter, hrest', ?_⟩
  obtain ⟨hwip, hwel, hbusy, hnot⟩ := hf
  have hdflash : d.flash = s.flash := hbd.flash
  have hdenv : d.env = s.env := hbd.env
  rw [hdflash] at hwel hbusy hnot
  rw [hdenv] at hbusy
  exact ⟨hwip, hwel, hbusy, hnot⟩

end Ready

end Sys2Proof.Machine
end

section
/-! PROOFS. A whole PROGPAGE in a quiet environment with the reference flash (spec/43_page_program.md R131, R133, R135, R136;
spec/44_engine_and_flash.md R164, R165, R167, R168): the erase, the page-program frame and its data loop, and the sector that results. -/

namespace Sys2Proof.Machine

open Sys2Proof

/-! ### What the reference flash makes of the frames of PROGPAGE -/

/-- The bytes with which a page-program frame begins, for the address in the low 24 bits of `a` (R82). -/
def ppHead (c : Cfg) (a : Word) : List Byte := c.opPp :: bytesOfAddr (a.extractLsb' 0 24)

/-- A page-program frame with data, write-enabled and not busy, starts the program (R161). -/
theorem endFrame_pp {s : State} {a : Word} {data : List Byte} (f : Facts s.cfg) (hframe : s.flash.frame = ppHead s.cfg a ++ data)
    (hdata : data ≠ []) (hwel : s.flash.wel = true) (ht : takesCommand s = true) :
    endFrame s = .next (startOperation (programOf s.cfg (a.extractLsb' 0 24) data) s) := by
  have hdecode : decodeFrame s.cfg s.flash.frame = .ok (.flashPp (a.extractLsb' 0 24) data) := by
    rw [hframe, ← addrOfBytes_extract (a.extractLsb' 0 24)]
    exact decodeFrame_pp f _ _ _ data
  rw [endFrame_of_decodeFrame hdecode rfl]
  exact (execFlashPp_taken hwel ht).trans (by rw [if_neg (by simp [hdata])])

/-- A program at `a` that does not cross the end of the flash: the AND at each of its addresses, every other as before (R165, R167). -/
theorem read_programFlat {fm : Memory} {a b : Nat} {data : List Byte} (hwf : Memory.wf unlistedFlash fm = true)
    (hfit : a + data.length ≤ flashSpace) :
    Memory.read unlistedFlash ((flatTargets a data).foldl programByte fm) b =
      if a ≤ b ∧ b < a + data.length then Memory.read unlistedFlash fm b &&& data.getD (b - a) 0
      else Memory.read unlistedFlash fm b := by
  induction data generalizing a fm with
  | nil => rw [if_neg (by simp)]; rfl
  | cons d rest ih =>
    rw [List.length_cons] at hfit ⊢
    rw [flatTargets, List.foldl_cons, ih (wf_programByte _ hwf) (by omega), read_programByte _ _ hwf, Nat.mod_eq_of_lt (by omega)]
    by_cases hb : b = a
    · rw [if_neg (by omega), if_pos hb, if_pos (by omega), hb, Nat.sub_self, List.getD_cons_zero]
    · by_cases hr : a + 1 ≤ b ∧ b < a + 1 + rest.length
      · rw [if_pos hr, if_neg hb, if_pos (by omega), show b - a = (b - (a + 1)) + 1 by omega, List.getD_cons_succ]
      · rw [if_neg hr, if_neg hb, if_neg (by omega)]

/-! ### The buffer's bytes, word by word -/

/-- The first `j` data words of the buffer, as bytes in the order they are sent (R57, R135). -/
def dataBytes (s : State) (j : Nat) : List Byte := (List.range (4 * j)).map (bufByte s)

theorem dataBytes_length (s : State) (j : Nat) : (dataBytes s j).length = 4 * j := by simp [dataBytes]

theorem dataBytes_getD {s : State} {j k : Nat} (h : k < 4 * j) : (dataBytes s j).getD k 0 = bufByte s k := by
  simp [dataBytes, List.getD_eq_getElem?_getD, h]

theorem dataBytes_succ (s : State) (j : Nat) :
    dataBytes s (j + 1) = dataBytes s j ++
      [bufByte s (4 * j), bufByte s (4 * j + 1), bufByte s (4 * j + 2), bufByte s (4 * j + 3)] := by
  simp only [dataBytes, show 4 * (j + 1) = 4 * j + 1 + 1 + 1 + 1 by omega, List.range_succ, List.map_append, List.append_assoc]
  rfl

theorem bufByte_congr {s t : State} (h : t.host = s.host) (k : Nat) : bufByte t k = bufByte s k := by
  rw [bufByte, h, bufByte]

/-- The value of `IDX` before data word `j`. -/
def idxOf (j : Nat) : Word := BitVec.ofNat 32 (4 * j)

theorem idxOf_succ (j : Nat) : idxOf j + 4 = idxOf (j + 1) := by
  rw [idxOf, idxOf, Nat.mul_succ, BitVec.ofNat_add]
  rfl

theorem idxOf_toNat {j : Nat} (h : 4 * j < 2 ^ 31) : (idxOf j).toNat = 4 * j := by
  rw [idxOf, BitVec.toNat_ofNat, Nat.mod_eq_of_lt (by omega)]

theorem idxOf_toInt {j : Nat} (h : 4 * j < 2 ^ 31) : (idxOf j).toInt = (4 * j : Nat) := by
  rw [BitVec.toInt_eq_toNat_of_lt (by rw [idxOf_toNat h]; omega), idxOf_toNat h]

/-- A data word on the wire is the four bytes of the buffer from `IDX` on (R57, R149). -/
theorem wireBytes_chunkWord (s : State) :
    wireBytes 4 (chunkWord s) = [bufByte s s.seq.idx.toNat, bufByte s (s.seq.idx.toNat + 1), bufByte s (s.seq.idx.toNat + 2),
      bufByte s (s.seq.idx.toNat + 3)] :=
  wireBytes_append 4 ..

/-! ### The data loop (R135) -/

/-- A called SETMODE enable with chip-select asserted is storage only (R144). -/
theorem Ready.enables {f : Frame} {pc callers : List Frame} {s : State} (h : Ready (f :: callers) s) (hfly : s.chip.fly = none)
    (hcs : s.chip.cs = true) (hc : calleeAt s.cfg f = some (.setmode .enable))
    (hret : ∀ u, returnTo (f :: callers) u = setPc pc u) (hcmd : Commands pc) :
    ∃ t, PassesAlone 2 2 s t ∧ Ready pc t ∧ Still t.cfg t.chip .enable true ∧ t.chip.spitx = s.chip.spitx ∧
      transferBytes t.cfg t.chip.spictl = transferBytes s.cfg s.chip.spictl := by
  have c := facts_of_wf h.wf
  have hw := write_enable_kept (s := opBegun (.setmode .enable) (f :: callers) s) c hfly (modeOf_withMode c s.chip.spictl .enable)
    ((msenFlag_withMode c _ _).trans h.msen) (.inr hcs)
  obtain ⟨hp, hr⟩ := h.setmodeWritten hfly hc hw ⟨rfl, rfl, rfl, rfl, rfl⟩ (hret _) hcmd ((msenFlag_stored c _ _ _).trans h.msen)
  exact ⟨_, ⟨hp, rfl, rfl⟩, hr, ⟨hfly, modeOf_stored c _ _ _, hcs⟩, rfl, transferBytes_stored c _ _ _⟩

section Loop

variable {a n : Word}

/-- `j` data words have been sent since `s`; the next step is the loop test at the next `IDX`. -/
structure WordsSent (a n : Word) (j : Nat) (s t : State) : Prop where
  comes : ComesTo s t
  ready : ∃ l, Ready [⟨.progpage a n, l⟩] t
  test : step t = progpageTest (setIdx (idxOf j) t)
  still : Still t.cfg t.chip .transfer true
  bytes : transferBytes t.cfg t.chip.spictl = 4
  flash : t.flash = { s.flash with frame := ppHead s.cfg a ++ dataBytes s j, frameStatus := none }

theorem not_statusFrame_ppHead {c : Cfg} (f : Facts c) (bytes : List Byte) : ¬ StatusFrame c (ppHead c a ++ bytes) :=
  fun h => f.rdsr_ne_pp (Option.some.inj h).symm

/-- From the data word in SPITX to the next loop test: SETMODE enable, SETMODE transfer, the transfer, and WAITDONE if the configuration
has it. -/
theorem Ready.sendsData {s : State} {j : Nat} {w : Word} (h : Ready [⟨.progpage a n, 15⟩] s)
    (hs : Still s.cfg s.chip .transfer true) (hw : s.chip.spitx = w) (hn : transferBytes s.cfg s.chip.spictl = 4)
    (hidx : s.seq.idx = idxOf j) (hm : s.cfg.flashModel = .reference)
    (hno : ¬ StatusFrame s.cfg (s.flash.frame ++ wireBytes 4 w)) :
    ∃ t, ComesTo s t ∧ (∃ l, Ready [⟨.progpage a n, l⟩] t) ∧ step t = progpageTest (setIdx (idxOf (j + 1)) t) ∧
      Still t.cfg t.chip .transfer true ∧ transferBytes t.cfg t.chip.spictl = 4 ∧
      t.flash = { s.flash with frame := s.flash.frame ++ wireBytes 4 w } := by
  obtain ⟨b, hsb, hb, henable, htx, hcount⟩ := h.enables hs.fly hs.cs rfl (fun _ => rfl) (pc := [⟨.progpage a n, 16⟩]) rfl
  obtain ⟨u, hbu, hu, hflight⟩ := hb.starts (n := 4) (pc := [⟨.progpage a n, 17⟩]) henable.fly henable.cs (.inl henable.mode)
    (htx.trans hw) (hcount.trans hn) le_rfl rfl (fun _ => rfl) rfl
  obtain ⟨t, hut, ht, hl⟩ := hu.lands hflight
  have hsu := hsb.trans hbu
  have hst := hsu.toPasses.trans hut
  have hflash : t.flash = { s.flash with frame := s.flash.frame ++ wireBytes 4 w } := by
    rw [hl.flash_command (by rwa [hsu.cfg]) (by rwa [hsu.cfg, hsu.flash]), hsu.flash]
  have hidx' : t.seq.idx = idxOf j := (congrArg KeptRegisters.idx hst.kept).trans hidx
  cases hwait : t.cfg.ppWordWait with
  | false =>
    have htest := (ht.step_eq hl.still.fly).trans
      (microStep_loopTest ht.pc (.inr (.inl ⟨rfl, hwait, (idxOf_succ j).symm.trans (by rw [hidx'])⟩)))
    exact ⟨t, hst.comesTo, ⟨17, ht⟩, htest, hl.still, hl.bytes, hflash⟩
  | true =>
    obtain ⟨v, htv, hv, hchip⟩ := ht.polls hl.still.fly hl.done (by simp [calleeAt, hwait])
    have hidx'' : v.seq.idx = idxOf j := (congrArg KeptRegisters.idx htv.kept).trans hidx'
    have htest := (hv.step_eq (by rw [hchip]; exact hl.still.fly)).trans
      (microStep_loopTest hv.pc (.inr (.inr ⟨rfl, (idxOf_succ j).symm.trans (by rw [hidx''])⟩)))
    exact ⟨v, hst.comesTo.trans htv.comesTo, ⟨18, hv⟩, htest, by rw [htv.cfg, hchip]; exact hl.still,
      by rw [htv.cfg, hchip]; exact hl.bytes, htv.flash.trans hflash⟩

/-- One turn of the loop sends one data word. -/
theorem WordsSent.next {s t : State} {j : Nat} (h : WordsSent a n j s t) (hm : s.cfg.flashModel = .reference)
    (hj : 4 * j < 2 ^ 31) (hlt : ((4 * j : Nat) : Int) < s.seq.cnt.toInt) (hin : 4 * j + 3 < s.cfg.bufCap) :
    ∃ u, WordsSent a n (j + 1) s u := by
  obtain ⟨hst, ⟨l, ht⟩, htest, hstill, hbytes, hflash⟩ := h
  have c := facts_of_wf ht.wf
  let t' := setIdx (idxOf j) t
  have hnat : t'.seq.idx.toNat = 4 * j := idxOf_toNat hj
  have hcfg : t'.cfg = s.cfg := hst.cfg
  have hcnt : t'.seq.cnt = s.seq.cnt := hst.cnt
  have hmore : t'.seq.idx.toInt < t'.seq.cnt.toInt := by
    rw [hcnt]
    exact (idxOf_toInt hj).trans_lt hlt
  have hsends := htest.trans (progpageTest_sends (s := t') ht.transport ht.pc c hmore (by rwa [hnat, hcfg]) hstill.fly)
  let v := setPc [⟨.progpage a n, 15⟩] (wordSent (chunkWord t') t')
  have hv : Ready [⟨.progpage a n, 15⟩] v := ht.congr rfl rfl rfl rfl rfl ht.msen
  have htv : ComesTo t v := ⟨⟨1, .of_step hsends⟩, rfl, rfl, rfl, rfl, rfl, rfl⟩
  have hbuf : ∀ k, bufByte t' k = bufByte s k := bufByte_congr hst.host
  have hwire : wireBytes 4 (chunkWord t') =
      [bufByte s (4 * j), bufByte s (4 * j + 1), bufByte s (4 * j + 2), bufByte s (4 * j + 3)] := by
    rw [wireBytes_chunkWord, hnat, hbuf, hbuf, hbuf, hbuf]
  have hframe : v.flash.frame ++ wireBytes 4 (chunkWord t') = ppHead s.cfg a ++ dataBytes s (j + 1) := by
    rw [show v.flash = t.flash from rfl, hflash, hwire, dataBytes_succ, List.append_assoc]
  obtain ⟨u, hvu, hu, htest', hstill', hbytes', hflash'⟩ := hv.sendsData (s := v) (w := chunkWord t') (j := j)
    ⟨hstill.fly, hstill.mode, hstill.cs⟩ rfl hbytes rfl (hcfg ▸ hm)
    (by rw [hframe, show v.cfg = s.cfg from hcfg]; exact not_statusFrame_ppHead (hst.cfg ▸ c) _)
  refine ⟨u, hst.trans (htv.trans hvu), hu, htest', hstill', hbytes', ?_⟩
  rw [hflash', hframe, show v.flash = t.flash from rfl, hflash]

end Loop

end Sys2Proof.Machine
end

section
/-! PROOFS. The whole of PROGPAGE, assembled (spec/43_page_program.md R131 to R136; spec/44_engine_and_flash.md R168). -/

namespace Sys2Proof.Machine

open Sys2Proof

section Legs

variable {a n : Word} {s : State}

/-! ### Master SPI on (PP.0) -/

theorem step_of_quiet {i : Instr} {pc : List Frame} (hw : s.cfg.wf = true) (hq : quiet s = true) (hfly : s.chip.fly = none)
    (hr : runningAt i pc s = true) : step s = exec i s := by
  obtain ⟨hb, -, htop, -⟩ := (runningAt_iff s).mp hr
  have hturn : defaultTurn s = .seq := by simp [defaultTurn, hfly, hb]
  rw [step_of_wf s hw, nextTurn_quiet s hq, hturn, takeTurn, seqTurn, if_pos hb, htop]

/-- From acceptance to PP.1, whatever SPICTL held, chip-select deasserted: mode idle, master SPI on. -/
theorem progpage_enables (hw : s.cfg.wf = true) (hq : quiet s = true) (hfly : s.chip.fly = none) (hcs : s.chip.cs = false)
    (hr : runningAt (.progpage a n) [⟨.progpage a n, 0⟩] s = true) :
    ∃ t, ComesTo s t ∧ Ready [⟨.progpage a n, 1⟩] t ∧ Still t.cfg t.chip .idle false ∧ t.flash = s.flash := by
  have c := facts_of_wf hw
  obtain ⟨hb, -, -, hf⟩ := (runningAt_iff s).mp hr
  let b := opBegun (.progpage a n) [] s
  let v := withMode s.cfg s.chip.spictl .idle ||| bitMask s.cfg.msenBit
  have hbegins : step s = .next b := (step_of_quiet hw hq hfly hr).trans (operationsBegin _ s hw rfl hr)
  have hrb : runningAt (.progpage a n) [⟨.mspien, 1⟩, ⟨.progpage a n, 0⟩] b = true :=
    (runningAt_iff b).mpr ⟨hb, rfl, rfl, hf⟩
  have hmode : modeOf s.cfg v = .idle := valueWrittenBack_idle c (tmp := s.chip.spictl) (i := .mspien) rfl (.inl rfl)
  have hwrite := write_idle (s := b) (v := v) c hfly hmode (.inr hcs)
  have hstep := (step_of_quiet (s := b) hw hq hfly hrb).trans (exec_writesBackLast_next rfl (.inl rfl) hrb rfl hwrite)
  have hmsen : msenFlag s.cfg (keepDone s.cfg s.chip.spictl v) = true := by
    rw [msenFlag_keepDone c, msenFlag, getLsbD_setBit _ _ _ c.msen_in]
    simp
  refine ⟨setPc [⟨.progpage a n, 1⟩] (controlStored v b), (ComesTo.of_begins hbegins).trans
    ⟨⟨1, .of_step hstep⟩, rfl, rfl, rfl, rfl, rfl, rfl⟩, ⟨hw, hq, hb, rfl, rfl, hmsen⟩,
    ⟨hfly, (modeOf_keepDone c _ v).trans hmode, hcs⟩, rfl⟩

namespace Ready

/-! ### What PROGPAGE calls -/

theorem step_calls_waitflash {f : Frame} {callers : List Frame} (h : Ready (f :: callers) s) (hfly : s.chip.fly = none)
    (hc : calleeAt s.cfg f = some .waitflash) : Machine.step s = .next (opBegun .waitflash (f :: callers) s) := by
  rw [h.step_eq hfly, microStep_of_calleeAt h.pc hc, ← h.pc]
  exact callWaitflash_ok (facts_of_wf h.wf) h.transport

/-- PP.1: WAITFLASH is called from PP.2 when the address is sector-aligned (R133). -/
theorem step_branches (h : Ready [⟨.progpage a n, 1⟩] s) (hfly : s.chip.fly = none) (haligned : s.seq.addr.toNat % 4096 = 0) :
    Machine.step s = .next (opBegun .waitflash [⟨.progpage a n, 2⟩] s) := by
  have hr : runningAt (.progpage a n) [⟨.progpage a n, 1⟩] s = true :=
    (runningAt_iff s).mpr ⟨h.busy, h.pc, by rw [topLevelOp, h.pc]; rfl, h.transport⟩
  rw [step_of_quiet h.wf h.quiet hfly hr, progpageBranches a n s h.wf hr, if_pos haligned]

/-- PP.3 and PP.6: the write-enable. -/
theorem enablesWrite {l : Nat} (h : Ready [⟨.progpage a n, l⟩] s)
    (hc : calleeAt s.cfg ⟨.progpage a n, l⟩ = some (.sendcmd s.cfg.opWren)) (hl : l < 19) (hrest : atRest s = true)
    (hm : s.cfg.flashModel = .reference) (hwip : s.flash.wip = false) :
    ∃ t, ComesTo s t ∧ Ready [⟨.progpage a n, l + 1⟩] t ∧ Still t.cfg t.chip .idle false ∧
      t.flash = { s.flash with frame := [s.cfg.opWren], frameStatus := none, wel := true } := by
  have c := facts_of_wf h.wf
  have hbytes : wireBytes ((cntVal 1).toNat + 1) (s.cfg.opWren ++ (0 : BitVec 24)) = [s.cfg.opWren] := wireBytes_command 1 _ _
  refine h.sendsNested (sendsFrame_sendcmd _) (fun _ => rfl) hc (callSendcmd_ok c h.transport _) hrest hm
    (w := s.cfg.opWren ++ (0 : BitVec 24)) rfl ?_ (fun v hcfg hflash => ?_) (fun u => ?_) rfl
  · rw [hbytes]
    exact fun hst => c.rdsr_ne_wren (Option.some.inj hst).symm
  · rw [hbytes] at hflash
    have htakes : takesCommand v = true := takesCommand_iff.mpr ⟨by rw [hcfg, hm]; rfl, by rw [hflash]; exact hwip⟩
    refine ⟨_, endFrame_wren (hcfg ▸ c) (by rw [hflash, hcfg]), ?_⟩
    rw [if_pos htakes, hflash]
  · rw [returnTo_sendcmd, if_neg (Nat.lt_irrefl 5), returnTo_progpage, if_pos hl]

/-- PP.4: the erase of the sector at `a` has been started. -/
theorem startsErase (h : Ready [⟨.progpage a n, 4⟩] s) (hidle : Still s.cfg s.chip .idle false)
    (hm : s.cfg.flashModel = .reference) (haddr : s.seq.addr = a) (hfit : a.toNat < 2 ^ 24) (haligned : a.toNat % 4096 = 0)
    (hwip : s.flash.wip = false) (hwel : s.flash.wel = true) :
    ∃ t, ComesTo s t ∧ Ready [⟨.progpage a n, 5⟩] t ∧ Still t.cfg t.chip .idle false ∧
      t.flash = { s.flash with
        frame := seFrame s.cfg a, frameStatus := none, wel := false, wip := true, pending := .erase a.toNat,
        busyLeft := s.cfg.busyReads } := by
  have c := facts_of_wf h.wf
  have hbytes : wireBytes ((cntVal 4).toNat + 1) (s.cfg.opSe ++ a.extractLsb' 0 24) = seFrame s.cfg a := wireBytes_command 4 _ _
  refine h.sendsNested (sendsFrame_erase a) (fun _ => rfl) rfl (haddr ▸ callErase_ok c h.transport) (h.atRest_of_idle hidle) hm
    (w := s.cfg.opSe ++ a.extractLsb' 0 24) (by rw [haddr]; rfl) ?_ (fun v hcfg hflash => ?_) (fun u => ?_) rfl
  · rw [hbytes]
    exact fun hst => c.rdsr_ne_se (Option.some.inj hst).symm
  · rw [hbytes] at hflash
    have htakes : takesCommand v = true := takesCommand_iff.mpr ⟨by rw [hcfg, hm]; rfl, by rw [hflash]; exact hwip⟩
    have hvwel : v.flash.wel = true := by rw [hflash]; exact hwel
    have hbase : a.toNat % 2 ^ 24 / 4096 * 4096 = a.toNat := by omega
    refine ⟨_, endFrame_se (a := a) (hcfg ▸ c) (by rw [hflash, hcfg]), ?_⟩
    rw [hvwel, htakes, hbase, startOperation_eq, hflash, hcfg, hm]
    rfl
  · rw [returnTo_erase, if_neg (Nat.lt_irrefl 5)]
    rfl

/-- PP.1 to PP.5: the sector at `a` has been erased and the flash is idle (R133, R136, R164). -/
theorem erases (h : Ready [⟨.progpage a n, 1⟩] s) (hidle : Still s.cfg s.chip .idle false) (hm : s.cfg.flashModel = .reference)
    (hl : s.cfg.pollLimit = none) (haddr : s.seq.addr = a) (hfit : a.toNat < 2 ^ 24) (haligned : a.toNat % 4096 = 0)
    (hwip : s.flash.wip = false) :
    ∃ t, ComesTo s t ∧ Ready [⟨.progpage a n, 6⟩] t ∧ atRest t = true ∧ t.flash.wip = false ∧
      t.flash.fm = eraseSector a.toNat s.flash.fm := by
  obtain ⟨t1, h1, r1, rest1, f1⟩ := h.awaitsNested (h.step_branches hidle.fly (by rw [haddr]; exact haligned))
    (h.atRest_of_idle hidle) hm hl rfl (fun _ => rfl) (pc := [⟨.progpage a n, 3⟩]) rfl
  obtain ⟨t2, h2, r2, idle2, f2⟩ := r1.enablesWrite rfl (by omega) rest1 (h1.cfg ▸ hm) f1.wip
  have h12 := h1.trans h2
  obtain ⟨t3, h3, r3, idle3, f3⟩ := r2.startsErase idle2 (h12.cfg ▸ hm) (h12.addr.trans haddr) hfit haligned
    (by rw [f2]; exact f1.wip) (by rw [f2])
  have h13 := h12.trans h3
  obtain ⟨t4, h4, r4, rest4, f4⟩ := r3.awaitsNested (r3.step_calls_waitflash idle3.fly rfl) (r3.atRest_of_idle idle3)
    (h13.cfg ▸ hm) (h13.cfg ▸ hl) rfl (fun _ => rfl) (pc := [⟨.progpage a n, 6⟩]) rfl
  refine ⟨t4, h13.trans h4, r4, rest4, f4.wip, ?_⟩
  rw [(f4.busy (by rw [f3])).1, f3, f2, f1.notBusy hwip]
  rfl

/-! ### The page-program frame -/

/-- PP.7 to PP.12: the frame is open, its command word sent, and the data loop begins. -/
theorem opensProgram (h : Ready [⟨.progpage a n, 7⟩] s) (hidle : Still s.cfg s.chip .idle false)
    (hm : s.cfg.flashModel = .reference) (haddr : s.seq.addr = a) : ∃ t, WordsSent a n 0 s t := by
  have c := facts_of_wf h.wf
  have hbytes : wireBytes 4 (s.cfg.opPp ++ a.extractLsb' 0 24) = ppHead s.cfg a := wireBytes_command 4 _ _
  have hread := h.step_calls_setmode hidle.fly (m := .idle) rfl
  obtain ⟨b, hsb, hb, idleb⟩ := (h.begun (i := .setmode .idle) rfl rfl).closes rfl (h.atRest_of_idle hidle) (fun _ => rfl)
    (pc := [⟨.progpage a n, 8⟩]) rfl
  have hb' := (passes_of_begins hread).trans hsb.toPasses
  obtain ⟨d, hbd, hd, enabled, hflash, -⟩ := hb.opens idleb rfl (fun _ => rfl) (pc := [⟨.progpage a n, 9⟩]) rfl
  have hsd := hb'.trans hbd
  have haddr' : d.seq.addr = a := hsd.comesTo.addr.trans haddr
  obtain ⟨e, hde, he, loaded, htx⟩ := hd.loads (w := s.cfg.opPp ++ a.extractLsb' 0 24) enabled (by rw [haddr', hsd.cfg]; rfl)
  obtain ⟨g, heg, hg, counted, htx', hcount⟩ := he.counts loaded (n := 3) rfl (by decide)
  obtain ⟨u, t, hgu, hut, ht, hl⟩ := hg.transfers (n := 4) counted.fly counted.cs (.inl counted.mode) (htx'.trans htx) hcount
    le_rfl rfl (fun _ => rfl) (op := .progpage a n) (l := 11) (below := []) rfl (fun _ => rfl)
  have hdu := (hde.trans heg).trans hgu
  have hsu := hsd.trans hdu.toPasses
  have hopened : u.flash = { s.flash with frame := [], frameStatus := none } := by
    rw [hdu.flash, hflash, hsb.flash]
    rfl
  have hlanded := hl.flash_command (by rw [hsu.cfg, hm]) (by
    rw [hopened, hbytes, hsu.cfg]
    exact List.append_nil (ppHead s.cfg a) ▸ not_statusFrame_ppHead c [])
  refine ⟨t, (hsu.trans hut).comesTo, ⟨12, ht⟩, ?_, hl.still, hl.bytes, ?_⟩
  · exact (ht.step_eq hl.still.fly).trans (microStep_loopTest ht.pc (.inl ⟨rfl, rfl⟩))
  · rw [hlanded, hopened, hbytes]
    exact congrArg (fun l => { s.flash with frame := l, frameStatus := none }) (List.append_nil _).symm

end Ready

/-- The data loop sends as many words as lie below the count and in the buffer (R135). -/
theorem wordsSent_of_le {t : State} (h : WordsSent a n 0 s t) (hm : s.cfg.flashModel = .reference) {m : Nat} (hm31 : 4 * m < 2 ^ 31)
    (hlt : ∀ j < m, ((4 * j : Nat) : Int) < s.seq.cnt.toInt ∧ 4 * j + 3 < s.cfg.bufCap) : ∃ u, WordsSent a n m s u := by
  induction m with
  | zero => exact ⟨t, h⟩
  | succ m ih =>
    obtain ⟨u, hu⟩ := ih (by omega) fun j hj => hlt j (by omega)
    obtain ⟨hcnt, hcap⟩ := hlt m (Nat.lt_succ_self m)
    exact hu.next hm (by omega) hcnt hcap

/-- `IDX` has reached the count: the first write of PP.19's WAITFLASH ends the frame, and the program starts (R161, R167). -/
theorem WordsSent.programs {t : State} {m : Nat} (h : WordsSent a n m s t) (hm : s.cfg.flashModel = .reference)
    (hpage : s.cfg.flashPage = none) (hpos : 0 < m) (hm31 : 4 * m < 2 ^ 31) (hend : s.seq.cnt.toInt ≤ ((4 * m : Nat) : Int))
    (hfit : a.toNat < 2 ^ 24) (hwip : s.flash.wip = false) (hwel : s.flash.wel = true) :
    ∃ u, ComesTo s u ∧ Ready [⟨.rdstatus, 1⟩, ⟨.waitflash, 1⟩, ⟨.progpage a n, 19⟩] u ∧ Still u.cfg u.chip .idle false ∧
      u.flash.wip = true ∧ u.flash.wel = false ∧ u.flash.pending = .program (flatTargets a.toNat (dataBytes s m)) ∧
      u.flash.fm = s.flash.fm := by
  obtain ⟨hst, ⟨l, ht⟩, htest, hstill, -, hflash⟩ := h
  have c := facts_of_wf ht.wf
  let t' := setIdx (idxOf m) t
  let b := opBegun .waitflash [⟨.progpage a n, 19⟩] t'
  have hcnt : t'.seq.cnt = s.seq.cnt := hst.cnt
  have hreached : t'.seq.cnt.toInt ≤ t'.seq.idx.toInt := by
    rw [hcnt]
    exact hend.trans_eq (idxOf_toInt hm31).symm
  have hends : step t = .next b := htest.trans (progpageTest_ends (s := t') ht.transport ht.pc c hreached)
  have htb : ComesTo t b := ⟨⟨1, .of_step hends⟩, rfl, rfl, rfl, rfl, rfl, rfl⟩
  have hb : Ready [⟨.setmode .idle, 1⟩, ⟨.rdstatus, 0⟩, ⟨.waitflash, 1⟩, ⟨.progpage a n, 19⟩] b :=
    ht.congr rfl rfl rfl rfl rfl ht.msen
  let v := deselected (controlStored (withMode b.cfg b.seq.tmp .idle) b)
  have hvcfg : v.cfg = s.cfg := hst.cfg
  have hvflash : v.flash = { s.flash with frame := ppHead s.cfg a ++ dataBytes s m, frameStatus := none } := hflash
  have htakes : takesCommand v = true := takesCommand_iff.mpr ⟨by rw [hvcfg, hm]; rfl, by rw [hvflash]; exact hwip⟩
  have hdata : dataBytes s m ≠ [] := List.ne_nil_of_length_pos (by rw [dataBytes_length]; omega)
  have hv := endFrame_pp (s := v) c (by rw [hvflash, hvcfg]) hdata (by rw [hvflash]; exact hwel) htakes
  have hnum : (a.extractLsb' 0 24).toNat = a.toNat := by
    rw [BitVec.extractLsb'_toNat, Nat.shiftRight_zero, Nat.mod_eq_of_lt hfit]
  rw [programOf_flat (hvcfg ▸ hpage), hnum] at hv
  obtain ⟨u, hbu, hu, idle, huflash⟩ := hb.endsFrame rfl ⟨hstill.fly, hstill.mode, hstill.cs⟩ hv rfl rfl
  refine ⟨u, hst.trans (htb.trans hbu), hu, idle, by rw [huflash]; rfl, by rw [huflash]; rfl, by rw [huflash]; rfl, ?_⟩
  rw [huflash, startOperation_fm, hvflash]

/-- PP.19 to the end: the flash has finished the recorded program and the block is Idle (R136, R168). -/
theorem Ready.finishesProgram (h : Ready [⟨.rdstatus, 1⟩, ⟨.waitflash, 1⟩, ⟨.progpage a n, 19⟩] s)
    (hidle : Still s.cfg s.chip .idle false) (hm : s.cfg.flashModel = .reference) (hl : s.cfg.pollLimit = none)
    (hwip : s.flash.wip = true) :
    ∃ t, ComesTo s t ∧ t.seq.busy = false ∧ t.seq.pc = [] ∧ t.flash.wip = false ∧ t.flash.wel = s.flash.wel ∧
      t.flash.fm = applyPending s.env.draws s.flash.fm s.flash.pending := by
  obtain ⟨t, hst, ht, hzero, hrest, hf⟩ := h.awaitsOpened rfl hidle hm hl
  have hfly := (atRest_cases hrest).1
  have hlast := (ht.step_eq hfly).trans (microStep_statusRead_ready ht.wf ht.transport hfly ht.pc hzero)
  have hreturn : returnTo [⟨.progpage a n, 19⟩] (waitflashResult [⟨.progpage a n, 19⟩] (statusCounted t)) =
      finish (statusCounted t) := rfl
  rw [hreturn] at hlast
  exact ⟨_, hst.trans ⟨⟨1, .of_step hlast⟩, rfl, rfl, rfl, rfl, rfl, rfl⟩, rfl, rfl, hf.wip, hf.wel, (hf.busy hwip).1⟩

end Legs

/-! ### The sector that results (R164, R165, R168) -/

/-- The erase and then the program of a sector: its data, the rest 0xFF, every other address as before. -/
theorem read_erasedAndProgrammed {fm : Memory} {base b : Nat} {data : List Byte} (hwf : Memory.wf unlistedFlash fm = true)
    (hlen : data.length ≤ 4096) (hfit : base + 4096 ≤ 2 ^ 24) :
    Memory.read unlistedFlash ((flatTargets base data).foldl programByte (eraseSector base fm)) b =
      if base ≤ b ∧ b < base + data.length then data.getD (b - base) 0
      else if base ≤ b ∧ b < base + 4096 then 0xFF else Memory.read unlistedFlash fm b := by
  have herased : Memory.read unlistedFlash (eraseSector base fm) b =
      if base ≤ b ∧ b < base + 4096 then 0xFF else Memory.read unlistedFlash fm b := read_eraseSector base b
  have hwf' : Memory.wf unlistedFlash (eraseSector base fm) = true := Memory.wf_clear hwf
  rw [read_programFlat hwf' (Nat.le_trans (Nat.add_le_add_left hlen base) hfit), herased]
  by_cases hb : base ≤ b ∧ b < base + data.length
  · rw [if_pos hb, if_pos hb, if_pos (by omega)]
    exact BitVec.allOnes_and
  · rw [if_neg hb, if_neg hb]

/-- A sector-aligned address leaves room for its sector. -/
theorem sector_fits {a : Nat} (h : a < 2 ^ 24) (haligned : a % 4096 = 0) : a + 4096 ≤ 2 ^ 24 := by omega

/-- Settles O59: master SPI on, the erase, the write-enable, the frame with its data loop, and the wait for the program; the array is then
the erased sector with the buffer's words programmed into it. -/
theorem progpageRun : Obligations.ProgpageRun := by
  intro a n s hw hq hm hl hpage hlaunch hwf hfit haligned hpos hmax hcap haddr hcnt herr hr
  simp only [launchPremises, Bool.and_eq_true, Bool.not_eq_true', Option.isNone_iff_eq_none] at hlaunch
  obtain ⟨⟨⟨⟨⟨hfly, hcs⟩, hwip⟩, hwel⟩, -⟩, -⟩ := hlaunch
  have hnat : n.toInt = n.toNat := by
    rw [BitVec.toInt_eq_toNat_cond] at hpos ⊢
    split at hpos <;> omega
  have hmod := (facts_of_wf hw).cap_mod
  let m := (n.toNat + 3) / 4
  obtain ⟨t1, h1, r1, idle1, f1⟩ := progpage_enables hw hq hfly hcs hr
  obtain ⟨t2, h2, r2, rest2, wip2, fm2⟩ := r1.erases idle1 (h1.cfg ▸ hm) (h1.cfg ▸ hl) (h1.addr.trans haddr) hfit haligned
    (f1 ▸ hwip)
  have h12 := h1.trans h2
  obtain ⟨t3, h3, r3, idle3, f3⟩ := r2.enablesWrite rfl (by omega) rest2 (h12.cfg ▸ hm) wip2
  have h13 := h12.trans h3
  have hm3 : t3.cfg.flashModel = .reference := h13.cfg ▸ hm
  have hcnt3 : t3.seq.cnt = n := h13.cnt.trans hcnt
  obtain ⟨t4, h4⟩ := r3.opensProgram idle3 hm3 (h13.addr.trans haddr)
  obtain ⟨t5, h5⟩ := wordsSent_of_le (m := m) h4 hm3 (by omega) fun j hj => by
    rw [hcnt3, h13.cfg]
    omega
  obtain ⟨t6, h6, r6, idle6, wip6, wel6, pending6, fm6⟩ := h5.programs hm3 (h13.cfg ▸ hpage) (by omega) (by omega)
    (by rw [hcnt3]; omega) hfit (by rw [f3]; exact wip2) (by rw [f3])
  have h16 := h13.trans h6
  obtain ⟨t, h7, hidle, hpc, hwip', hwel', hfm⟩ := r6.finishesProgram idle6 (h16.cfg ▸ hm) (h16.cfg ▸ hl) wip6
  have hall := h16.trans h7
  obtain ⟨k, hk⟩ := hall.reaches
  have hlen : (dataBytes t3 m).length = 4 * m := dataBytes_length t3 m
  have hread : ∀ b, flashByte t b =
      if a.toNat ≤ b ∧ b < a.toNat + 4 * m then (dataBytes t3 m).getD (b - a.toNat) 0
      else if a.toNat ≤ b ∧ b < a.toNat + 4096 then 0xFF else flashByte s b := by
    intro b
    rw [flashByte, hfm, pending6, fm6, f3, fm2, f1, ← hlen]
    exact read_erasedAndProgrammed hwf (by omega) (sector_fits hfit haligned)
  refine ⟨k, t, hk, hidle, hpc, hall.err.trans herr, hall.result, hwip', hwel'.trans wel6, fun j hj => ?_, fun j hj hj' => ?_,
    fun b hb => ?_⟩
  · rw [hread, if_pos (by omega), Nat.add_sub_cancel_left, dataBytes_getD hj, bufByte_congr h13.host]
  · rw [hread, if_neg (by omega), if_pos (by omega)]
  · rw [hread, if_neg (by omega), if_neg (by omega)]

end Sys2Proof.Machine
end

section
/-! PROOFS. A transaction that fails in the transport (spec/60_exceptions.md R174, R176, R178): whichever micro-step it belongs to, the
operation ends with the error, the chip and the flash untouched; and what a run may show from then on. -/

namespace Sys2Proof.Machine

open Sys2Proof

/-! ### The step whose transaction fails -/

/-- In the step from `s`, whose transaction will fail, the sequencer has come to `a`: only its own registers differ, RESULT does not. -/
structure BeforeFailure (s a : State) : Prop where
  cfg : a.cfg = s.cfg
  chip : a.chip = s.chip
  flash : a.flash = s.flash
  host : a.host = s.host
  hist : a.hist = s.hist
  result : a.seq.result = s.seq.result
  transport : a.env.transportFails = true

/-- Error entry after a failed transaction in the step from `s` (R174, R176): the error is recorded and no transaction. -/
structure FailureEntered (s t : State) : Prop where
  pc : t.seq.pc = []
  busy : t.seq.busy = false
  err : t.seq.err = 2
  result : t.seq.result = s.seq.result
  cfg : t.cfg = s.cfg
  chip : t.chip = s.chip
  flash : t.flash = s.flash
  host : t.host = s.host
  hist : t.hist = .raised .transportFailure :: s.hist

/-- The step from `s` answers `o`: error entry, or the refusal for a buffer index, which no legal state meets (R54). -/
def FailsFrom (s : State) (o : Out) : Prop := o ≠ .refused .bufferIndex → ∃ t, o = .next t ∧ FailureEntered s t

namespace BeforeFailure

variable {s a : State}

theorem refl (hf : s.env.transportFails = true) : BeforeFailure s s := ⟨rfl, rfl, rfl, rfl, rfl, rfl, hf⟩

/-! ### The sequencer's own moves -/

/-- Any register of the sequencer but RESULT may change before the transaction. -/
theorem withSeq (h : BeforeFailure s a) {q : Sequencer} (hq : q.result = a.seq.result) :
    BeforeFailure s { a with seq := q } :=
  ⟨h.cfg, h.chip, h.flash, h.host, h.hist, hq.trans h.result, h.transport⟩

theorem setPc (h : BeforeFailure s a) (p : List Frame) : BeforeFailure s (setPc p a) := h.withSeq rfl

theorem pushFrame (h : BeforeFailure s a) (i : Instr) : BeforeFailure s (pushFrame i a) := h.setPc _

theorem gotoLabel (h : BeforeFailure s a) (l : Nat) : BeforeFailure s (gotoLabel l a) := by
  unfold Machine.gotoLabel
  split
  · exact h
  · exact h.setPc _

theorem startStatusPolls (h : BeforeFailure s a) : BeforeFailure s (startStatusPolls a) :=
  gotoLabel (a := { a with seq := { a.seq with fpolls := 0 } }) (h.withSeq rfl) 1

/-! ### The bus primitives -/

theorem transportFailed_fails (h : BeforeFailure s a) : FailsFrom s (transportFailed a) := fun _ =>
  ⟨_, rfl, rfl, rfl, rfl, h.result, h.cfg, h.chip, h.flash, h.host, congrArg _ h.hist⟩

/-- A failing read: what the sequencer would have done with the value does not happen. -/
theorem iread_fails (h : BeforeFailure s a) (r : RegNum) (k : Word → State → Out) : FailsFrom s (iread r k a) := by
  rw [iread, if_pos h.transport]
  exact h.transportFailed_fails

/-- A failing write never reaches the chip, so it meets no fault and no refusal. -/
theorem iwrite_fails (h : BeforeFailure s a) (r : RegNum) (v : Word) (k : State → Out) : FailsFrom s (iwrite r v k a) := by
  rw [iwrite, if_pos h.transport]
  exact h.transportFailed_fails

theorem readSpictl_fails (h : BeforeFailure s a) : FailsFrom s (readSpictl a) := h.iread_fails _ _

theorem sendWord_fails (h : BeforeFailure s a) (w : Word) : FailsFrom s (sendWord w a) :=
  iwrite_fails (a := { a with seq := { a.seq with word := w } }) (h.withSeq rfl) _ _ _

/-! ### The micro-steps -/

theorem microMspien_fails (h : BeforeFailure s a) (l : Nat) : FailsFrom s (microMspien l a) := by
  unfold microMspien
  split
  · exact h.readSpictl_fails
  · exact h.iwrite_fails _ _ _

theorem callMspien_fails (h : BeforeFailure s a) : FailsFrom s (callMspien a) := (h.pushFrame _).microMspien_fails 0

theorem microMspidis_fails (h : BeforeFailure s a) (l : Nat) : FailsFrom s (microMspidis l a) := by
  unfold microMspidis
  split
  · exact h.readSpictl_fails
  · exact h.iwrite_fails _ _ _

theorem microSetmode_fails (h : BeforeFailure s a) (m : ModeName) (l : Nat) : FailsFrom s (microSetmode m l a) := by
  unfold microSetmode
  split
  · exact h.readSpictl_fails
  · exact h.iwrite_fails _ _ _

theorem callSetmode_fails (h : BeforeFailure s a) (m : ModeName) : FailsFrom s (callSetmode m a) :=
  (h.pushFrame _).microSetmode_fails m 0

theorem microSetcnt_fails (h : BeforeFailure s a) (c : Word) (l : Nat) : FailsFrom s (microSetcnt c l a) := by
  unfold microSetcnt
  split
  · exact h.readSpictl_fails
  · exact h.iwrite_fails _ _ _
  · exact h.callSetmode_fails _

theorem callSetcnt_fails (h : BeforeFailure s a) (c : Word) : FailsFrom s (callSetcnt c a) :=
  (h.pushFrame _).microSetcnt_fails c 0

theorem pollDone_fails (h : BeforeFailure s a) : FailsFrom s (pollDone a) := h.iread_fails _ _

theorem microWaitdone_fails (h : BeforeFailure s a) (l : Nat) : FailsFrom s (microWaitdone l a) := by
  unfold microWaitdone
  split
  · exact pollDone_fails (h.withSeq rfl)
  · exact h.pollDone_fails

theorem callWaitdone_fails (h : BeforeFailure s a) : FailsFrom s (callWaitdone a) := (h.pushFrame _).microWaitdone_fails 0

theorem microRdstatus_fails (h : BeforeFailure s a) (l : Nat) : FailsFrom s (microRdstatus l a) := by
  unfold microRdstatus
  split
  · exact h.callSetmode_fails _
  · exact h.callSetmode_fails _
  · exact h.sendWord_fails _
  · exact h.callSetcnt_fails _
  · exact h.callWaitdone_fails
  · exact h.callSetmode_fails _
  · exact h.callSetmode_fails _
  · exact h.callWaitdone_fails
  · exact h.iread_fails _ _

theorem callRdstatus_fails (h : BeforeFailure s a) : FailsFrom s (callRdstatus a) := (h.pushFrame _).microRdstatus_fails 0

theorem microSendcmd_fails (h : BeforeFailure s a) (op : Byte) (l : Nat) : FailsFrom s (microSendcmd op l a) := by
  unfold microSendcmd
  split
  · exact h.callSetmode_fails _
  · exact h.callSetmode_fails _
  · exact h.sendWord_fails _
  · exact h.callSetcnt_fails _
  · exact h.callWaitdone_fails
  · exact h.callSetmode_fails _

theorem callSendcmd_fails (h : BeforeFailure s a) (op : Byte) : FailsFrom s (callSendcmd op a) :=
  (h.pushFrame _).microSendcmd_fails op 0

theorem microErase_fails (h : BeforeFailure s a) (l : Nat) : FailsFrom s (microErase l a) := by
  unfold microErase
  split
  · exact h.callSetmode_fails _
  · exact h.callSetmode_fails _
  · exact h.sendWord_fails _
  · exact h.callSetcnt_fails _
  · exact h.callWaitdone_fails
  · exact h.callSetmode_fails _

theorem callErase_fails (h : BeforeFailure s a) : FailsFrom s (callErase a) := (h.pushFrame _).microErase_fails 0

theorem microWaitflash_fails (h : BeforeFailure s a) (l : Nat) : FailsFrom s (microWaitflash l a) := by
  unfold microWaitflash
  split
  · exact h.startStatusPolls.callRdstatus_fails
  · exact h.callRdstatus_fails

theorem callWaitflash_fails (h : BeforeFailure s a) : FailsFrom s (callWaitflash a) :=
  (h.pushFrame _).microWaitflash_fails 0

/-- The one micro-step that may be refused before its transaction (R54). -/
theorem progpageWord_fails (h : BeforeFailure s a) : FailsFrom s (progpageWord a) := by
  simp only [progpageWord]
  split
  · exact (h.gotoLabel 14).sendWord_fails _
  · exact fun hne => absurd rfl hne

theorem progpageEnd_fails (h : BeforeFailure s a) : FailsFrom s (progpageEnd a) := (h.gotoLabel 19).callWaitflash_fails

theorem progpageTest_fails (h : BeforeFailure s a) : FailsFrom s (progpageTest a) := by
  unfold progpageTest
  split
  · exact h.progpageWord_fails
  · exact h.progpageEnd_fails

theorem progpageNext_fails (h : BeforeFailure s a) : FailsFrom s (progpageNext a) := progpageTest_fails (h.withSeq rfl)

theorem microProgpage_fails (h : BeforeFailure s a) (l : Nat) : FailsFrom s (microProgpage l a) := by
  unfold microProgpage
  split
  · exact h.callMspien_fails
  · split
    · exact (h.gotoLabel 2).callWaitflash_fails
    · exact (h.gotoLabel 5).callWaitflash_fails
  · exact h.callWaitflash_fails
  · exact h.callSendcmd_fails _
  · exact h.callErase_fails
  · exact h.callWaitflash_fails
  · exact h.callSendcmd_fails _
  · exact h.callSetmode_fails _
  · exact h.callSetmode_fails _
  · exact h.sendWord_fails _
  · exact h.callSetcnt_fails _
  · exact h.callWaitdone_fails
  · exact progpageTest_fails (h.withSeq rfl)
  · exact h.progpageTest_fails
  · exact h.progpageWord_fails
  · exact h.callSetmode_fails _
  · exact h.callSetmode_fails _
  · split
    · exact h.callWaitdone_fails
    · exact h.progpageNext_fails
  · exact h.progpageNext_fails
  · exact h.progpageEnd_fails

/-- Every micro-step of an operation of the sequencer has a transaction, and fails with it. -/
theorem microStep_fails {f : Frame} {callers : List Frame} (h : BeforeFailure s a) (hp : a.seq.pc = f :: callers)
    (hc : f.op.isCommand = true) : FailsFrom s (microStep a) := by
  obtain ⟨op, l⟩ := f
  simp only [microStep, hp]
  cases op with
  | irw r v => exact h.iwrite_fails _ _ _
  | irr r => exact h.iread_fails _ _
  | mspien => exact h.microMspien_fails l
  | mspidis => exact h.microMspidis_fails l
  | setmode m => exact h.microSetmode_fails m l
  | setcnt c => exact h.microSetcnt_fails c l
  | waitdone => exact h.microWaitdone_fails l
  | rdstatus => exact h.microRdstatus_fails l
  | sendcmd op => exact h.microSendcmd_fails op l
  | erase _ => exact h.microErase_fails l
  | waitflash => exact h.microWaitflash_fails l
  | progpage _ _ => exact h.microProgpage_fails l
  | _ => cases hc

end BeforeFailure

/-- The step of an operation in progress, in a legal control state: the buffer's invariant excludes the refusal for a buffer index. -/
theorem exec_transportFails {i : Instr} {s : State} (hw : s.cfg.wf = true) (hs : stackOk s = true) (hb : BufferInv s)
    (hbusy : s.seq.busy = true) (hi : topLevelOp s = some i) (hf : s.env.transportFails = true) :
    ∃ t, exec i s = .next t ∧ FailureEntered s t := by
  obtain ⟨f, callers, hp⟩ : ∃ f callers, s.seq.pc = f :: callers :=
    List.exists_cons_of_ne_nil fun hnil => by simp [topLevelOp, hnil] at hi
  have hcommand : f.op.isCommand = true := ((stackOk_iff.mp hs).frames f (by simp [hp])).1
  have hexec : exec i s = microStep s := exec_running s (isCommand_of_topLevelOp hs hi) hbusy hi
  have hstays : StaysInBuffer (exec i s) := exec_stays hw hs hb hbusy hi
  rw [hexec] at hstays ⊢
  refine (BeforeFailure.refl hf).microStep_fails hp hcommand fun hr => ?_
  rw [hr] at hstays
  exact hstays rfl

/-! ### What a run may show after it -/

theorem FailureEntered.chipUnknown {s t : State} (h : FailureEntered s t) : chipUnknown t = true := by
  simp [Machine.chipUnknown, h.hist]

/-- The history up to the first failure is the old end of the history. -/
theorem upToFailure_suffix (l : List Event) : upToFailure l <:+ l := by
  induction l with
  | nil => exact List.suffix_rfl
  | cons e older ih =>
    rw [upToFailure]
    split
    · exact ih.trans (List.suffix_cons ..)
    · exact List.suffix_rfl

/-- A first failure hides nothing of the history. -/
theorem FailureEntered.knownHistory {s t : State} (h : FailureEntered s t) (hs : Machine.chipUnknown s = false) :
    knownHistory t = t.hist := by
  rw [Machine.knownHistory, h.hist]
  exact if_neg (Bool.eq_false_iff.mp hs)

/-- Once a transaction has failed, a further transaction leaves the control state unknown (U3). -/
theorem controlKnown_of_more {s t : State} (h : s.hist <:+ t.hist) (hu : chipUnknown s = true)
    (hlt : busTransactions s < busTransactions t) : controlKnown t = false := by
  have hle : ((knownHistory s).filter Event.isBus).length ≤ busTransactions s :=
    ((upToFailure_suffix s.hist).sublist.filter _).length_le
  simp only [controlKnown, knownHistory_of_suffix h hu, decide_eq_false_iff_not]
  omega

/-- What a final state shows is read off the run's state. -/
theorem Run.eq_of_final {r : Run} {f : FinalState} (h : r.final = some f) :
    f.err = r.state.seq.err ∧ f.result = r.state.seq.result ∧ f.hist = knownHistory r.state ∧
      (chipUnknown r.state = true → f.chip = none ∧ f.flash = none) := by
  unfold Run.final at h
  split at h
  · cases h
    exact ⟨rfl, rfl, rfl, fun hu => ⟨if_pos hu, if_pos hu⟩⟩
  · cases h

theorem Run.final_eq_none {r : Run} (h : controlKnown r.state = false) : r.final = none := by
  simp [Run.final, Run.isFinal, h]

theorem Run.outcome_unknown {r : Run} (hu : chipUnknown r.state = true) (hc : controlKnown r.state = false) :
    r.outcome = .unknown := by
  unfold Run.outcome
  split
  · exact if_pos hu
  · exact if_pos hu
  · simp [hc]

/-- Settles O48: the step by `exec_transportFails`; the run after it because the history only grows, so the failure stays in it and the
known part of it stays as it is. -/
theorem transportFailureEnds : Obligations.TransportFailureEnds := by
  intro i s hw ⟨_, hs, _⟩ hb hbusy hi hf
  obtain ⟨t, ht, e⟩ := exec_transportFails hw hs hb hbusy hi hf
  have hu : chipUnknown t = true := e.chipUnknown
  refine ⟨t, ht, e.pc, e.busy, e.err, e.result, e.cfg, e.host, e.hist, hu, ?_, ?_, fun _ _ _ _ _ _ => ⟨e.chip, e.flash⟩⟩
  · rintro r f rfl hfin hfirst
    obtain ⟨herr, hresult, hhist, -⟩ := Run.eq_of_final hfin
    exact ⟨herr.trans e.err, hresult.trans e.result, hhist.trans (e.knownHistory hfirst)⟩
  · rintro r n rfl
    have hgrows := Run.steps_hist n r
    have hlater := chipUnknown_of_suffix hgrows hu
    refine ⟨fun f hfin => ?_, fun hlt => ?_⟩
    · obtain ⟨-, -, hhist, hhidden⟩ := Run.eq_of_final hfin
      exact ⟨(hhidden hlater).1, (hhidden hlater).2, hhist.trans (knownHistory_of_suffix hgrows hu)⟩
    · have hc := controlKnown_of_more hgrows hu hlt
      exact ⟨Run.outcome_unknown hlater hc, Run.final_eq_none hc⟩

end Sys2Proof.Machine
end

section
/-! PROOFS. The reset event (spec/70_reset_and_hazards.md R190, R192), and the six operations without a loop, run to their end in a quiet
environment with no transfer in flight (R211): every step is then the operation's own and makes one bus transaction. -/

namespace Sys2Proof.Machine

open Sys2Proof

/-! ### The reset event (R190, R192) -/

/-- Settles O7: the step is the reset event after the turn is taken off the schedule, and neither touches more than the sequencer and the
environment. -/
theorem resetEventClears : Obligations.ResetEvent := by
  intro s hw hturn
  have hstep : step s = .next (resetEvent (nextTurn s).2) := by rw [step_of_wf s hw, hturn, takeTurn]
  exact ⟨_, hstep, rfl, rfl, rfl, nextTurn_cfg s, nextTurn_chip s, nextTurn_flash s, nextTurn_host s, nextTurn_hist s⟩

/-! ### An operation that ends -/

/-- Between `s` and `t` the operation issued by the host has ended without an error (R171 (a)), with `n` bus transactions. -/
structure Completed (n : Nat) (s t : State) : Prop where
  busy : t.seq.busy = false
  pc : t.seq.pc = []
  err : t.seq.err = s.seq.err
  bus : busTransactions t = busTransactions s + n

theorem completed_finish {s u : State} {n : Nat} (herr : u.seq.err = s.seq.err) (hbus : busTransactions u = busTransactions s + n) :
    Completed n s (finish u) := ⟨rfl, rfl, herr, hbus⟩

/-- One transaction more, made before. -/
theorem Completed.before {s u t : State} {n : Nat} (h : Completed n u t) (herr : u.seq.err = s.seq.err)
    (hbus : busTransactions u = busTransactions s + 1) : Completed (n + 1) s t :=
  ⟨h.busy, h.pc, h.err.trans herr, by rw [h.bus, hbus, Nat.add_right_comm, Nat.add_assoc]⟩

theorem Completed.of_begun {i : Instr} {callers : List Frame} {s t : State} {n : Nat} (h : Completed n (opBegun i callers s) t) :
    Completed (n + 1) s t := h.before rfl rfl

/-- A write is one bus transaction, whatever else it sets off in the engine and the flash (R137). -/
theorem Written.bus {s t : State} {r : RegNum} {v : Word} (h : Written s r v t) : busTransactions t = busTransactions s + 1 := by
  cases h with
  | ended u _ _ _ _ hu =>
    rw [busTransactions, (endFrame_cases hu).1.hist]
    rfl
  | _ => rfl

theorem andThen_next {o : Out} {k : State → Out} {t : State} (h : andThen o k = .next t) : ∃ u, o = .next u ∧ k u = .next t := by
  cases o with
  | next u => exact ⟨u, rfl, h⟩
  | fault e => cases h
  | refused e => cases h

/-- A write whose return reaches the bottom of the stack is the operation's last transaction. -/
theorem completed_of_write {r : RegNum} {v : Word} {f : Frame} {callers : List Frame} {s t : State} (hw : s.cfg.wf = true)
    (hp : s.seq.pc = f :: callers) (hret : ∀ u, returnTo callers u = finish u)
    (h : andThen (writeReg r v s) returnOp = .next t) : Completed 1 s t := by
  obtain ⟨u, hu, -⟩ := andThen_next h
  rw [andThen_writeReg_returnOp hp hu, hret] at h
  cases h
  exact completed_finish (congrArg Sequencer.err (writeReg_side hu).seq) (writeReg_cases (facts_of_wf hw) hu).bus

/-! ### An operation that runs alone -/

/-- Operation `i` runs at the frames `pc` in a quiet environment with no transfer in flight: no other agent has the next step. -/
structure RunsAlone (i : Instr) (pc : List Frame) (s : State) : Prop where
  wf : s.cfg.wf = true
  quiet : quiet s = true
  fly : s.chip.fly = none
  running : runningAt i pc s = true

namespace RunsAlone

variable {i : Instr} {pc : List Frame} {s t u : State}

theorem frames (h : RunsAlone i pc s) : s.seq.pc = pc := ((runningAt_iff s).mp h.running).2.1

/-- The next step of the run is the operation's. -/
theorem first {n : Nat} (h : RunsAlone i pc s) (hrun : Reaches s (n + 1) t) : ∃ u, exec i s = .next u ∧ Reaches u n t := by
  obtain ⟨u, hstep, hrest⟩ := reaches_succ_iff.mp hrun
  exact ⟨u, step_of_quiet h.wf h.quiet h.fly h.running ▸ hstep, hrest⟩

theorem after {n : Nat} (h : RunsAlone i pc s) (hrun : Reaches s (n + 1) t) (hu : exec i s = .next u) : Reaches u n t := by
  obtain ⟨v, hv, hrest⟩ := h.first hrun
  cases hu.symm.trans hv
  exact hrest

theorem last (h : RunsAlone i pc s) (hrun : Reaches s 1 t) : exec i s = .next t := by
  obtain ⟨u, hu, hzero⟩ := h.first hrun
  exact reaches_zero_iff.mp hzero ▸ hu

/-- The operation at other frames, nothing changed that the next turn depends on. -/
theorem moved (h : RunsAlone i pc s) {pc' : List Frame} (hcfg : u.cfg = s.cfg) (henv : u.env = s.env) (hfly : u.chip.fly = s.chip.fly)
    (hbusy : u.seq.busy = s.seq.busy) (hpc : u.seq.pc = pc') (htop : pc'.getLast?.map (·.op) = some i) : RunsAlone i pc' u := by
  obtain ⟨hb, -, -, hf⟩ := (runningAt_iff s).mp h.running
  refine ⟨hcfg ▸ h.wf, ?_, hfly.trans h.fly, (runningAt_iff u).mpr ⟨hbusy.trans hb, hpc, ?_, henv ▸ hf⟩⟩
  · rw [Machine.quiet, henv]; exact h.quiet
  · rw [topLevelOp, hpc, htop]

/-- The read of SPICTL with which the operation begins (R24 (b)). -/
theorem begins {n : Nat} (h : RunsAlone i [⟨i, 0⟩] s) (hi : framesAfterFirstRead i = [⟨i, 1⟩]) (hrun : Reaches s (n + 1) t) :
    RunsAlone i [⟨i, 1⟩] (opBegun i [] s) ∧ Reaches (opBegun i [] s) n t :=
  ⟨h.moved rfl rfl rfl rfl (by rw [opBegun, hi]; rfl) rfl,
    h.after hrun (operationsBegin i s h.wf (by simp [beginsWithRead, hi]) h.running)⟩

/-- The write half of MSPIEN, MSPIDIS or SETMODE, returning to the bottom of the stack. -/
theorem writeHalf {op : Instr} {callers : List Frame} (h : RunsAlone i (⟨op, 1⟩ :: callers) s) (hi : i.isCommand = true)
    (hop : WritesBackLast op) (hret : ∀ u, returnTo callers u = finish u) (hrun : Reaches s 1 t) : Completed 1 s t := by
  obtain ⟨v, hv⟩ : ∃ v, valueWrittenBack s.cfg s.seq.tmp op = some v := by
    obtain rfl | rfl | ⟨m, rfl⟩ := hop <;> exact ⟨_, rfl⟩
  have hlast := h.last hrun
  rw [exec_writesBackLast hi hop h.running hv] at hlast
  exact completed_of_write h.wf h.frames hret hlast

/-! ### The six operations (R211) -/

theorem irw {r : RegNum} {v : Word} (h : RunsAlone (.irw r v) [⟨.irw r v, 0⟩] s) (hrun : Reaches s 1 t) : Completed 1 s t := by
  obtain ⟨hexec, hp, hf⟩ := exec_top rfl h.running
  have hlast := h.last hrun
  rw [hexec, microStep_irw hp, iwrite_ok hf] at hlast
  exact completed_of_write h.wf hp returnTo_nil hlast

theorem irr {r : RegNum} (h : RunsAlone (.irr r) [⟨.irr r, 0⟩] s) (hrun : Reaches s 1 t) : Completed 1 s t := by
  have hread : readReg r s = (regValue r s, s) := readReg_stored (.inr h.fly) rfl
  cases (exec_irr h.running hread rfl).symm.trans (h.last hrun)
  exact completed_finish rfl rfl

theorem readModifyWrite (h : RunsAlone i [⟨i, 0⟩] s) (hop : WritesBackLast i) (hrun : Reaches s 2 t) : Completed 2 s t := by
  obtain ⟨hi, hread⟩ : i.isCommand = true ∧ framesAfterFirstRead i = [⟨i, 1⟩] := by
    obtain rfl | rfl | ⟨m, rfl⟩ := hop <;> exact ⟨rfl, rfl⟩
  obtain ⟨hwrite, hrest⟩ := h.begins hread hrun
  exact (hwrite.writeHalf hi hop returnTo_nil hrest).of_begun

/-- SETCNT's first write, if it is not refused, leaves the mode as it was and so starts no transfer (R113, R153). -/
theorem countStored {c : Word} (h : RunsAlone (.setcnt c) [⟨.setcnt c, 1⟩] s) (htmp : s.seq.tmp = s.chip.spictl)
    (hu : exec (.setcnt c) s = .next u) :
    u = setPc [⟨.setcnt c, 2⟩] (controlStored (withCount s.cfg s.seq.tmp c) s) := by
  obtain ⟨hstores, hrewritten, hoff⟩ := setcntWrites (.setcnt c) c [] s h.wf rfl h.running h.fly (by rw [htmp])
  cases hmsen : msenFlag s.cfg s.seq.tmp with
  | false =>
    by_cases hidle : modeOf s.cfg s.chip.spictl = .idle
    · cases hu.symm.trans (hstores (.inl hidle)); rfl
    · cases hu.symm.trans (hoff hidle hmsen)
  | true =>
    cases hmode : modeOf s.cfg s.chip.spictl with
    | idle => cases hu.symm.trans (hstores (.inl hmode)); rfl
    | enable => cases hu.symm.trans (hstores (.inr ⟨hmode, hmsen⟩)); rfl
    | transfer => cases hu.symm.trans (hrewritten (.inl hmode) hmsen)
    | update => cases hu.symm.trans (hrewritten (.inr hmode) hmsen)

/-- SETCNT's call of SETMODE transfer, whose return is SETCNT's own (R113). -/
theorem callsTransfer {c : Word} (h : RunsAlone (.setcnt c) [⟨.setcnt c, 2⟩] s) (hrun : Reaches s 2 t) : Completed 2 s t := by
  obtain ⟨hexec, hp, hf⟩ := exec_top rfl h.running
  have hcall : exec (.setcnt c) s = .next (opBegun (.setmode .transfer) [⟨.setcnt c, 2⟩] s) := by
    rw [hexec, microStep_of_calleeAt (callee := .setmode .transfer) hp rfl, ← hp]
    exact callSetmode_ok (facts_of_wf h.wf) hf .transfer
  have hwrite : RunsAlone (.setcnt c) [⟨.setmode .transfer, 1⟩, ⟨.setcnt c, 2⟩] (opBegun (.setmode .transfer) [⟨.setcnt c, 2⟩] s) :=
    h.moved rfl rfl rfl rfl rfl rfl
  exact (hwrite.writeHalf rfl (.inr (.inr ⟨_, rfl⟩)) (returnTo_setcnt [] · c 2) (h.after hrun hcall)).of_begun

theorem setcnt {c : Word} (h : RunsAlone (.setcnt c) [⟨.setcnt c, 0⟩] s) (hrun : Reaches s 4 t) : Completed 4 s t := by
  obtain ⟨hwrite, hrest⟩ := h.begins rfl hrun
  obtain ⟨u, hu, hrest⟩ := hwrite.first hrest
  have hstored := hwrite.countStored rfl hu
  have hcall : RunsAlone (.setcnt c) [⟨.setcnt c, 2⟩] u := by
    rw [hstored]
    exact hwrite.moved rfl rfl rfl rfl rfl rfl
  exact ((hcall.callsTransfer hrest).before (by rw [hstored]; rfl) (by rw [hstored]; rfl)).of_begun

end RunsAlone

/-- Settles O55: with a quiet environment and no transfer in flight the operation runs alone, and each of the six ends by its own lemma. -/
theorem loopFreeOperationsEnd : Obligations.LoopFreeOperationsEnd := by
  intro i n s t hw hq hfly hr hi hrun
  have h : RunsAlone i [⟨i, 0⟩] s := ⟨hw, hq, hfly, hr⟩
  have hend : Completed n s t := by
    rcases hi with ⟨⟨r, v, rfl⟩, rfl⟩ | ⟨⟨r, rfl⟩, rfl⟩ | ⟨rfl, rfl⟩ | ⟨rfl, rfl⟩ | ⟨⟨m, rfl⟩, rfl⟩ | ⟨⟨c, rfl⟩, rfl⟩
    · exact h.irw hrun
    · exact h.irr hrun
    · exact h.readModifyWrite (.inl rfl) hrun
    · exact h.readModifyWrite (.inr (.inl rfl)) hrun
    · exact h.readModifyWrite (.inr (.inr ⟨m, rfl⟩)) hrun
    · exact h.setcnt hrun
  exact ⟨hend.busy, hend.pc, hend.err, hend.bus⟩

end Sys2Proof.Machine
end
